-- ==== Sys2Proof/Word.lean ====
section
/-! DEFINITION. The word types of the K816's registers and memory fields, the numbers of its
banks, channels, lines and journals, and the two fixed-size groups of like things. -/

namespace Sys2Proof

/-- One byte of memory, and every one-byte field of a record (R188). -/
abbrev Byte := BitVec 8

/-- A 32-bit register of the window (R176). -/
abbrev Word := BitVec 32

/-- A 48-bit stamp, base or address (R184, R188). -/
abbrev Stamp := BitVec 48

/-- Banks 0 to 3. -/
abbrev BankNo := Fin 4

/-- Channel pairs 0 to 3 of a bank. -/
abbrev ChanNo := Fin 4

/-- Capture lines 0 to 7. -/
abbrev LineNo := Fin 8

/-- Capture journals 0 to 7. -/
abbrev JournalNo := Fin 8

/-- Four like things: the banks, or the channels of a bank. -/
structure Quad (α : Type) where
  q0 : α
  q1 : α
  q2 : α
  q3 : α
  deriving DecidableEq, Repr

/-- Eight like things: the lines, or the journals. -/
structure Oct (α : Type) where
  o0 : α
  o1 : α
  o2 : α
  o3 : α
  o4 : α
  o5 : α
  o6 : α
  o7 : α
  deriving DecidableEq, Repr

/-- The same thing four times. -/
def Quad.all {α : Type} (a : α) : Quad α := ⟨a, a, a, a⟩

def Quad.get {α : Type} (q : Quad α) (i : Fin 4) : α :=
  match i with
  | 0 => q.q0
  | 1 => q.q1
  | 2 => q.q2
  | 3 => q.q3

def Quad.set {α : Type} (q : Quad α) (i : Fin 4) (a : α) : Quad α :=
  match i with
  | 0 => { q with q0 := a }
  | 1 => { q with q1 := a }
  | 2 => { q with q2 := a }
  | 3 => { q with q3 := a }

def Quad.map {α β : Type} (f : α → β) (q : Quad α) : Quad β :=
  ⟨f q.q0, f q.q1, f q.q2, f q.q3⟩

/-- The same thing eight times. -/
def Oct.all {α : Type} (a : α) : Oct α := ⟨a, a, a, a, a, a, a, a⟩

def Oct.get {α : Type} (q : Oct α) (i : Fin 8) : α :=
  match i with
  | 0 => q.o0
  | 1 => q.o1
  | 2 => q.o2
  | 3 => q.o3
  | 4 => q.o4
  | 5 => q.o5
  | 6 => q.o6
  | 7 => q.o7

def Oct.set {α : Type} (q : Oct α) (i : Fin 8) (a : α) : Oct α :=
  match i with
  | 0 => { q with o0 := a }
  | 1 => { q with o1 := a }
  | 2 => { q with o2 := a }
  | 3 => { q with o3 := a }
  | 4 => { q with o4 := a }
  | 5 => { q with o5 := a }
  | 6 => { q with o6 := a }
  | 7 => { q with o7 := a }

def Oct.map {α β : Type} (f : α → β) (q : Oct α) : Oct β :=
  ⟨f q.o0, f q.o1, f q.o2, f q.o3, f q.o4, f q.o5, f q.o6, f q.o7⟩

/-- The four numbers, in cyclic order from 0. -/
def four : List (Fin 4) := [0, 1, 2, 3]

/-- The eight numbers, in cyclic order from 0. -/
def eight : List (Fin 8) := [0, 1, 2, 3, 4, 5, 6, 7]

end Sys2Proof
end

