-- ==== Sys2Proof/Syntax.lean ====
section
/-! DEFINITION. The commands of the K816: one constructor for each of the 44 steps of
spec/opcode_table.json. A step is what the register window, a pin, the memory system, the clock or
the engine itself does next; it is whole and indivisible (95_what_each_step_holds.md). -/

namespace Sys2Proof

/-- What the memory system does with a transaction, settled when it is issued and told to the
requester when its response arrives (R154, R156). An access answered ERROR may or may not have
reached memory (R108). -/
inductive Fate where
  | ok
  | errorLanded
  | errorLost
  deriving DecidableEq, Repr

/-- The commands. -/
inductive Instr where
  -- The Sweep Unit takes the request at the head of the sweep queue (R168, R169).
  | mark
  | bankStart
  | bankStop
  | bankLook
  | bankRearm
  | bankTrip
  | bankAck
  | journalOpen
  | journalClose
  | journalLook
  | lineLoad
  | windowsFlush
  | unknownAction
  -- The register window and the reset pin (R176 to R187).
  /-- A full write of CONTROL with ENGINE_RESET 0 and this RUN bit. -/
  | run (value : Bool)
  /-- A full write of CONTROL with ENGINE_RESET 1 and this RUN bit. -/
  | engineReset (value : Bool)
  | causeWrite (data : Word)
  | causeEnable (data : Word)
  /-- A read of TICK_LO. -/
  | tickLo
  /-- A write of any offset of the window, with its byte enables. -/
  | registerWrite (offset : Nat) (data : Word) (enables : BitVec 4)
  /-- The RESET_N input takes this level: false holds the part in power-on reset. -/
  | resetN (level : Bool)
  -- Events of time.
  | edge (line : LineNo)
  | counterAdvance (bank : BankNo)
  | boundary (bank : BankNo)
  | finalBoundary (bank : BankNo)
  | cueTimeout (bank : BankNo)
  /-- The pin named by its channel; `partner` picks the partner pin of the pair. -/
  | onDelayReached (bank : BankNo) (chan : ChanNo) (partner : Bool)
  -- A read response arrives; `place` is the read's place among the outstanding reads, oldest first.
  | headerRead (place : Fin 4)
  | entryRead (place : Fin 4)
  | linkRead (place : Fin 4)
  | descriptorLoad (place : Fin 4)
  /-- The response of the oldest outstanding write, a write to a frame. -/
  | frameWriteResponse
  | consumeReread (place : Fin 4)
  /-- The response of the oldest outstanding write, a journal record write. -/
  | recordWriteResponse
  | bankRecordRead (place : Fin 4)
  | lineRecordRead (place : Fin 4)
  | journalRecordRead (place : Fin 4)
  | bootHeaderRead (place : Fin 4)
  /-- The response of the oldest outstanding write, the Engine Status write that follows a reply. -/
  | engineStatusResponse
  /-- The response of the oldest outstanding write, any other Anchor Block write. -/
  | anchorWriteResponse
  -- Steps of the engine's own.
  | journalStep (journal : JournalNo)
  /-- One issue of the Memory Port. `host` lists the host writes that have reached memory since the
  last issue, in order; `fate` is what the memory system does with the transaction issued. -/
  | arbiterGrant (host : List Host.Cell) (fate : Fate)
  | quiesceComplete (fate : Fate)
  | sweepWrite (word : Word)
  | filterSample (line : LineNo)
  deriving DecidableEq, Repr

end Sys2Proof
end

