-- ==== Sys2Proof/Decode.lean ====
section
/-! DEFINITION. The commands that a word spells by the bits of spec/opcode_table.json. -/

namespace Sys2Proof

/-- No row of the table gives its command any bits (every row's "fields" is empty and none has a
"fixed" pattern), so no word spells a command. -/
def decodeTableWord (_nbits _w : Nat) : Option Instr := none

end Sys2Proof
end

