-- ==== Sys2Proof/Config.lean ====
section
/-! DEFINITION. What is fixed for a K816, and the one free value of the model: the order in which
steps that fall on one tick are taken when nobody asks for an order. -/

namespace Sys2Proof.Config

/-- IDENT reads 0816015Ah (R176, 12.6). -/
def ident : Word := 0x0816015A#32

/-- What a byte of the shared memory that nothing has written reads as.
DESIGN CHOICE (log entry 2), unsafe: the spec gives the memory outside the block no contents. -/
def unwrittenByte : Byte := 0#8

/-- How many reads may be outstanding (R155). -/
def maxReads : Nat := 4

/-- How many writes may await their responses (R155). -/
def maxWrites : Nat := 8

/-- How many words the sweep queue holds (R167). -/
def maxQueue : Nat := 4

/-- How many entries the window cache has (R149). -/
def cacheEntries : Nat := 8

/-- A FREE VALUE: which of several steps due on one tick is taken first.
"Either order may occur" (R127, R175 and the rules beside them); nothing fixes this function.
It is applied to the counter `State.freeCount` (log entry 4). -/
opaque freeOrder : Nat → Nat

end Sys2Proof.Config
end

