-- ==== Sys2Proof/Machine/State.lean ====
section
/-! DEFINITION. The state of the K816, block by block as 00_scope.md 0.3.2 lists them, the shared
memory it works on, the queue of commands, and the machine right after reset. Plain data only. -/

namespace Sys2Proof.Machine

/-! ### Shared vocabulary (codes in R189) -/

/-- A memory reference: a window index and a byte offset in that window (R7, 12.2). -/
structure Selector where
  index : Byte
  offset : Word
  deriving DecidableEq, Repr

/-- The null selector, window index FFh, written with offset 0 (R7, 12.2). -/
def Selector.null : Selector := ⟨0xFF#8, 0#32⟩

/-- Frame states (R15). -/
inductive FrameState where
  | empty | ready | staged | live | spent | spentEnd | cut | rejected
  deriving DecidableEq, Repr

/-- Count mode (R3). -/
inductive CountMode where
  | ramp | triangle
  deriving DecidableEq, Repr

/-- End action (R3). -/
inductive EndAction where
  | hold | stop
  deriving DecidableEq, Repr

/-- Cue kinds (R68). -/
inductive CueKind where
  | frameStart | boundary | matched | planEnd
  deriving DecidableEq, Repr

/-- The direction of a filtered edge (R70, R117). -/
inductive EdgeDir where
  | rise | fall
  deriving DecidableEq, Repr

/-- A start condition (R4). The two forms with parameters also name the cue or edge that has just
happened, as the Cue Network carries it (R68, R70). -/
inductive StartCond where
  | now
  | cue (source : BankNo) (kind : CueKind)
  | line (line : LineNo) (edge : EdgeDir)
  deriving DecidableEq, Repr

/-- Channel modes (R8). -/
inductive ChanMode where
  | off | pwmA | pwmB | toggle | forceOn | forceOff
  deriving DecidableEq, Repr

/-- A channel setting: the five entry fields of R9. Counts and times as numbers. -/
structure ChanSetting where
  mode : ChanMode
  partner : Bool
  compare : Nat
  deadRise : Nat
  deadFall : Nat
  deriving DecidableEq, Repr

/-- The default setting of R9, which is also the reset value of R24. -/
def ChanSetting.default : ChanSetting := ⟨.off, false, 0, 0, 0⟩

/-! ### Plan Sequencer (R24, R71) -/

inductive PlanState where
  | dormant | loading | waiting | running | starved | halted
  deriving DecidableEq, Repr

inductive StopReason where
  | none | ended | stopped | fault
  deriving DecidableEq, Repr

inductive StagedTag where
  | empty | pending | valid | rejected
  deriving DecidableEq, Repr

inductive LatchState where
  | disarmed | armed | set
  deriving DecidableEq, Repr

/-- The live frame context (R24). -/
structure Live where
  sel : Selector
  countMode : CountMode
  period : Nat
  divider : Nat
  repeatRemaining : Nat
  endAction : EndAction
  /-- The link as last read; null until the first link read arrives. -/
  link : Selector
  passes : BitVec 32
  clamped : Bool
  stretched : Bool
  extended : Bool
  cueForced : Bool
  deriving DecidableEq, Repr

/-- The engine's checked copy of a frame, clamps and stretches applied (R20, R24). -/
structure FrameCopy where
  sel : Selector
  countMode : CountMode
  endAction : EndAction
  start : StartCond
  waitLimit : Nat
  divider : Nat
  period : Nat
  repeats : Nat
  entries : List (ChanNo × ChanSetting)
  clamped : Bool
  stretched : Bool
  deriving DecidableEq, Repr

/-- The host fields of a frame header as read (R2 to R7, 12.2). -/
structure Header where
  kind : Byte
  state : Byte
  entryCount : Byte
  countMode : Byte
  endAction : Byte
  form : Byte
  source : Byte
  sub : Byte
  waitLimit : Nat
  divider : Nat
  period : Nat
  repeats : Nat
  link : Selector
  deriving DecidableEq, Repr

/-- Whether a frame is being taken as the head of a plan or as a successor (R28, R32). -/
inductive Role where
  | head | successor
  deriving DecidableEq, Repr

/-- A frame fetch in flight: the header read, the entry read once `header` is there, or, once `copy`
holds the checked copy, the issue of the STAGED write (R29). `half` keeps the answer of the half of a
split read that arrived first (R154): whether it was the second half, and its bytes or an error. -/
structure Fetch where
  role : Role
  sel : Selector
  header : Option Header
  half : Option (Bool × Option (List Byte))
  copy : Option FrameCopy
  deriving DecidableEq, Repr

structure Sequencer where
  plan : PlanState
  started : Bool
  stopReason : StopReason
  headSel : Selector
  domain : Byte
  live : Option Live
  settings : Quad ChanSetting
  tag : StagedTag
  staged : Option FrameCopy
  fetch : Option Fetch
  linkRead : Bool
  pendingStop : Bool
  latch : LatchState
  awaited : Option StartCond
  /-- The tick at which the wait limit expires. -/
  timer : Option Stamp
  retired : BitVec 48
  /-- The next frame to become live is the head frame of its plan (R9, R57). -/
  firstFrame : Bool
  deriving DecidableEq, Repr

/-! ### Waveform Stage (R49) -/

inductive Direction where
  | up | down
  deriving DecidableEq, Repr

/-- A pin's driven level. -/
inductive Drive where
  | highZ | on | off
  deriving DecidableEq, Repr

/-- One output pin. The three `was` fields hold what the pin was when the present tick began: R93
judges a pin by its level at the start and at the end of the tick, whatever happens between. -/
structure Pin where
  desired : Bool
  delay : Nat
  drive : Drive
  /-- Polarity LOW: the low electrical level means ON. -/
  activeLow : Bool
  rest : Bool
  trip : Bool
  wasDesired : Bool
  wasDelay : Nat
  wasOn : Bool
  deriving DecidableEq, Repr

/-- The two pins of a channel pair. -/
structure PinPair where
  primary : Pin
  partner : Pin
  deriving DecidableEq, Repr

structure Waveform where
  counter : Nat
  dir : Direction
  phase : Nat
  /-- The divider phase completed on this tick and the counter has not yet advanced (R50). -/
  advanceDue : Bool
  lastRef : Quad Bool
  pins : Quad PinPair
  deriving DecidableEq, Repr

/-! ### Trip Gate (R80) -/

structure Gate where
  tripped : Bool
  swTrip : Bool
  rearmPending : Bool
  mask : Byte
  /-- Rearm mode AUTO. -/
  auto : Bool
  trips : BitVec 32
  deriving DecidableEq, Repr

/-! ### Fault Logic (R96 to R99) -/

inductive FaultClass where
  | bus | window | format | range | timing | late | cueTimeout
  deriving DecidableEq, Repr

inductive Subcode where
  | none
  | read | write | descriptor
  | index | absent | badDescriptor | rights | limit | domain
  | align | kind | state | entryCount | badCode | channel | duplicate | mode
  deriving DecidableEq, Repr

inductive Phase where
  | head | staging | boundary | wait
  deriving DecidableEq, Repr

/-- A valid report slot. -/
structure Report where
  cls : FaultClass
  sub : Subcode
  sel : Selector
  field : Byte
  stamp : Stamp
  phase : Phase
  deriving DecidableEq, Repr

/-- The four fault masks; true means masked. -/
structure Masks where
  range : Bool
  timing : Bool
  late : Bool
  cueTimeout : Bool
  deriving DecidableEq, Repr

/-- The seven sticky flags. -/
structure Sticky where
  bus : Bool
  window : Bool
  format : Bool
  range : Bool
  timing : Bool
  late : Bool
  cueTimeout : Bool
  deriving DecidableEq, Repr

structure FaultLogic where
  masks : Masks
  sticky : Sticky
  /-- The report slot; `none` means not valid. -/
  report : Option Report
  further : BitVec 16
  deriving DecidableEq, Repr

/-! ### Requests of a bank at the Memory Port (R107, R146, R151, R158) -/

/-- The windowed accesses of a bank (R146), and the descriptor loads it starts (R151). -/
inductive FrameAccess where
  | header (sel : Selector)
  | entry (sel : Selector) (count : Nat)
  | link (sel : Selector)
  | state (sel : Selector) (code : FrameState)
  /-- A retire-field write; `next` is the terminal state write held for its response (R107), or
  none once that write has been withheld. -/
  | retire (sel : Selector) (stamp : Stamp) (passes : BitVec 32) (flags : Byte)
      (next : Option FrameState)
  /-- A load of this window's descriptor; it has no window check of its own. -/
  | load (index : Byte)
  deriving DecidableEq, Repr

/-- How far a request has come: its window check not yet made, waiting on a descriptor load, or
passed with an address and so offered to the arbiter (`second`: the first half of a split access has
been issued). -/
inductive ReqStatus where
  | unchecked
  | waiting
  | ready (addr : Nat) (second : Bool)
  deriving DecidableEq, Repr

structure FrameReq where
  acc : FrameAccess
  status : ReqStatus
  deriving DecidableEq, Repr

structure Bank where
  seq : Sequencer
  wave : Waveform
  gate : Gate
  faults : FaultLogic
  /-- Requests not yet issued: those offered to the arbiter in the order of their offer, then those
  that wait on a load in the order they began to wait, then the rest in the order of their request
  (R107, R151, R158; log entry 15). -/
  fifo : List FrameReq
  /-- The first half of a split write was answered ERROR (R154). -/
  halfError : Bool
  deriving DecidableEq, Repr

/-! ### Line Front-end (R113) -/

inductive LineMode where
  | off | stamp | width
  deriving DecidableEq, Repr

inductive EdgeSelect where
  | rise | fall | both
  deriving DecidableEq, Repr

inductive EventKind where
  | rise | fall | highWidth | lowWidth
  deriving DecidableEq, Repr

structure LineConfig where
  mode : LineMode
  select : EdgeSelect
  prescale : Nat
  divider : Nat
  count : Nat
  journal : JournalNo
  /-- Trip level HIGH. -/
  tripHigh : Bool
  deriving DecidableEq, Repr

/-- A capture event in a holding register (R123). -/
structure Event where
  line : LineNo
  journal : JournalNo
  kind : EventKind
  sequence : Byte
  value : BitVec 32
  stamp : Stamp
  saturated : Bool
  overrun : Bool
  deriving DecidableEq, Repr

structure Line where
  loaded : Bool
  cfg : LineConfig
  phase : Nat
  /-- The sample phase completed on this tick and the sample has not yet been taken (R117). -/
  sampleDue : Bool
  run : Nat
  /-- Filtered level HIGH. -/
  high : Bool
  armed : Bool
  prescaleCount : Nat
  widthRef : Option Stamp
  sequence : Byte
  lost : Bool
  holding : Option Event
  overruns : BitVec 16
  /-- A Line Status write held until the engine is ON again (R125). -/
  statusHeld : Bool
  deriving DecidableEq, Repr

/-! ### Journal Writer (R128) -/

inductive JournalState where
  | closed | opened | faulted
  deriving DecidableEq, Repr

inductive JournalFault where
  | none | consumeRange | index | absent | badDescriptor | rights | limit | domain
  | descriptor | bus
  deriving DecidableEq, Repr

/-- What a step writes (R135): the event of a line; a GAP record and then the event; a GAP record
into the last free slot, the event becoming the next gap; or the GAP record that ends a close. -/
inductive StepPlan where
  | event (line : LineNo)
  | gapThenEvent (line : LineNo)
  | gapThenMiss (line : LineNo)
  | gapOnly
  deriving DecidableEq, Repr

/-- The step in progress: waiting for a consume re-read (for an event, or for the close's last GAP);
its record's window check waiting on a descriptor load; its record write requested or awaiting the
response; its produce word write not yet issued. -/
inductive JournalStep where
  | idle
  | reread (line : Option LineNo)
  | check (plan : StepPlan)
  | write (plan : StepPlan)
  | produce (plan : StepPlan)
  deriving DecidableEq, Repr

/-- Requests of a journal not yet issued. -/
inductive JournalReq where
  | load (index : Byte)
  | reread
  | record (addr : Nat) (second : Bool)
  | produceWord (value : BitVec 16)
  | statusWord
  deriving DecidableEq, Repr

structure Journal where
  state : JournalState
  closing : Bool
  window : Byte
  domain : Byte
  capacity : Nat
  ringOffset : Nat
  watermark : Nat
  produce : BitVec 16
  cached : BitVec 16
  gap : BitVec 32
  gapStamp : Stamp
  missed : BitVec 32
  watermarkFlag : Bool
  fault : JournalFault
  step : JournalStep
  rereadInFlight : Bool
  /-- A consume value of a JOURNAL_LOOK held until the step ends (R134). -/
  held : Option (BitVec 16)
  /-- The close has made its last GAP attempt (R142 step 3). -/
  lastGapDone : Bool
  fifo : List JournalReq
  /-- The first half of a split record write was answered ERROR (R154). -/
  halfError : Bool
  deriving DecidableEq, Repr

/-! ### Window Unit (R145, R149) -/

/-- A window descriptor as loaded (R145). -/
structure Descriptor where
  base : Nat
  limit : Nat
  present : Bool
  canRead : Bool
  canWrite : Bool
  ceiling : Byte
  deriving DecidableEq, Repr

/-- Who waits on a window check: an access of a bank, a journal's record write, or the ring check of
an open. -/
inductive Requester where
  | bank (b : BankNo) (a : FrameAccess)
  | journal (j : JournalNo)
  | ring (j : JournalNo)
  deriving DecidableEq, Repr

/-- A descriptor load in flight (R149). -/
structure Load where
  index : Byte
  stale : Bool
  waiters : List Requester
  deriving DecidableEq, Repr

structure WindowUnit where
  tableAddr : Stamp
  tableCount : Nat
  /-- The occupied cache entries, most recently used first. -/
  cache : List (Byte × Descriptor)
  loads : List Load
  deriving DecidableEq, Repr

/-! ### Memory Port (R154 to R159) -/

/-- Whose read it is. -/
inductive ReadOwner where
  | header (b : BankNo)
  | entry (b : BankNo)
  | link (b : BankNo)
  | descriptor (index : Byte)
  | reread (j : JournalNo)
  | bankRecord (b : BankNo)
  | lineRecord (l : LineNo)
  | journalRecord (j : JournalNo)
  | boot
  deriving DecidableEq, Repr

/-- An outstanding read. `answer` is what its response will carry: the bytes, or none for ERROR. -/
structure OutRead where
  owner : ReadOwner
  discarded : Bool
  /-- One half of a split read. -/
  split : Bool
  second : Bool
  answer : Option (List Byte)
  deriving DecidableEq, Repr

/-- Whose write it is. -/
inductive WriteOwner where
  | frameState (b : BankNo) (sel : Selector)
  | frameRetire (b : BankNo) (sel : Selector) (next : Option FrameState)
  | record (j : JournalNo)
  | produceWord (j : JournalNo)
  | statusWord (j : JournalNo)
  | bankStatus (b : BankNo)
  | lineStatus (l : LineNo)
  | reply
  /-- `forReply`: the Engine Status write that follows a reply (R172). -/
  | engineStatus (forReply : Bool)
  deriving DecidableEq, Repr

/-- A write awaiting its response; `last` is false for the first half of a split write. -/
structure OutWrite where
  owner : WriteOwner
  last : Bool
  error : Bool
  deriving DecidableEq, Repr

/-- Class 3 requests (R158). -/
inductive Class3 where
  | reply
  | engine
  | bank (b : BankNo)
  | line (l : LineNo)
  deriving DecidableEq, Repr

structure Port where
  /-- Class 3 requests, oldest first; true marks a request made on the present tick. -/
  class3 : List (Class3 × Bool)
  /-- Of each bank, the frame writes that its last Bank Status request came after (R159). -/
  statusAfter : Quad (List FrameAccess)
  class4 : Option ReadOwner
  lastJournal : JournalNo
  lastBank : BankNo
  /-- Outstanding reads, in issue order. -/
  reads : List OutRead
  /-- Writes awaiting their responses, in issue order. -/
  writes : List OutWrite
  deriving DecidableEq, Repr

/-! ### Sweep Unit (R165 to R172) -/

/-- Reply results (R171). -/
inductive Result where
  | done | refusedState | refusedTarget | refusedConfig | refusedTripActive | refusedWindow
  | refusedPort | unknownAction
  deriving DecidableEq, Repr

/-- The host fields of a Journal Record as read (R129). -/
structure JournalRecord where
  window : Byte
  domain : Byte
  log2Capacity : Byte
  ringOffset : Nat
  watermark : Nat
  consume : BitVec 16
  deriving DecidableEq, Repr

/-- What an answer waits for before its reply is offered (R159, R169). -/
inductive WaitFor where
  | nothing
  /-- the bank's writes to these frames have been issued -/
  | frameWrites (b : BankNo) (sels : List Selector)
  /-- the bank's frame reads have been issued -/
  | frameReads (b : BankNo)
  /-- the journal's produce and status word writes have been issued -/
  | journalWords (j : JournalNo)
  deriving DecidableEq, Repr

/-- How far the executing request has come. -/
inductive ExecPhase where
  | record
  | ringCheck (j : JournalNo) (rec : JournalRecord)
  | closing (j : JournalNo)
  | look (j : JournalNo)
  | answered (r : Result) (w : WaitFor)
  | replying (r : Result)
  | status
  deriving DecidableEq, Repr

structure Executing where
  word : Word
  phase : ExecPhase
  deriving DecidableEq, Repr

structure Sweep where
  queue : List Word
  exec : Option Executing
  next : BitVec 16
  /-- A word joined an empty queue with nothing executing: it is taken on this tick (R168). -/
  takeNow : Bool
  deriving DecidableEq, Repr

/-! ### Engine Control (R177) -/

inductive EngineState where
  | off | booting | on | quiescing | anchorFault
  deriving DecidableEq, Repr

inductive BootFault where
  | none | signature | version | align | count | port
  deriving DecidableEq, Repr

structure Engine where
  state : EngineState
  run : Bool
  anchorLo : Word
  anchorHi : BitVec 16
  anchor : Stamp
  bootFault : BootFault
  /-- A header read requested or in flight. -/
  bootRead : Bool
  deriving DecidableEq, Repr

/-! ### The machine -/

/-- The shared memory: addresses rising, no listed byte equal to an unlisted one's value. -/
abbrev Memory := List Host.Cell

/-- The K816, the memory it shares with the host, and the commands that are waiting. -/
structure State where
  pending : List Instr
  /-- RESET_N is held low (R183). -/
  resetHeld : Bool
  engine : Engine
  /-- The timebase (R184). -/
  now : Stamp
  tickHi : BitVec 16
  cause : BitVec 16
  causeEnable : BitVec 16
  /-- The word the last TICK_LO read returned (log entry 6). -/
  readData : Word
  sweep : Sweep
  banks : Quad Bank
  lines : Oct Line
  journals : Oct Journal
  window : WindowUnit
  port : Port
  /-- Capture pin levels on this tick and 1 and 2 ticks ago; bit n is line n (R117, 11.9). -/
  pinsNow : Byte
  pinsAgo1 : Byte
  pinsAgo2 : Byte
  /-- Capture pin levels on the ticks to come; when it runs out the pins keep their level
  (log entry 8). -/
  pinScript : List Byte
  memory : Memory
  /-- Counts the free orders drawn (log entry 4). -/
  freeCount : Nat
  deriving DecidableEq, Repr

/-! ### Faults and refusals -/

/-- Why a step stops the machine. -/
inductive Fault where
  /-- Raised by ARBITER_GRANT when a host write it lists lies outside the 48-bit address space of
  R154. Safe: no such address exists. -/
  | hostAddress (addr : Nat)
  deriving DecidableEq, Repr

/-- Why a command has no meaning. -/
inductive Refusal where
  /-- Raised by an arm of `exec` whose command is not modelled yet. Safe. No arm uses it. -/
  | notModelled (mnemonic : String)
  deriving DecidableEq, Repr

/-! ### Reset (the two reset columns of R24, R49, R71, R80, R96, R113, R128, R145, R149, R166, R177) -/

def Sequencer.reset : Sequencer :=
  { plan := .dormant, started := false, stopReason := .none, headSel := .null, domain := 0#8,
    live := none, settings := .all .default, tag := .empty, staged := none, fetch := none,
    linkRead := false, pendingStop := false, latch := .disarmed, awaited := none, timer := none,
    retired := 0#48, firstFrame := false }

def Pin.reset : Pin :=
  { desired := false, delay := 0, drive := .highZ, activeLow := false, rest := false, trip := false,
    wasDesired := false, wasDelay := 0, wasOn := false }

def Waveform.reset : Waveform :=
  { counter := 0, dir := .up, phase := 0, advanceDue := false, lastRef := .all false,
    pins := .all ⟨.reset, .reset⟩ }

def Gate.reset : Gate :=
  { tripped := false, swTrip := false, rearmPending := false, mask := 0#8, auto := false,
    trips := 0#32 }

def Masks.reset : Masks := ⟨false, false, false, false⟩

def Sticky.clear : Sticky := ⟨false, false, false, false, false, false, false⟩

def FaultLogic.reset : FaultLogic :=
  { masks := .reset, sticky := .clear, report := none, further := 0#16 }

def Bank.reset : Bank :=
  { seq := .reset, wave := .reset, gate := .reset, faults := .reset, fifo := [], halfError := false }

def LineConfig.reset : LineConfig :=
  { mode := .off, select := .rise, prescale := 0, divider := 0, count := 0, journal := 0,
    tripHigh := false }

def Line.reset : Line :=
  { loaded := false, cfg := .reset, phase := 0, sampleDue := false, run := 0, high := false,
    armed := false, prescaleCount := 0, widthRef := none, sequence := 0#8, lost := false,
    holding := none, overruns := 0#16, statusHeld := false }

def Journal.reset : Journal :=
  { state := .closed, closing := false, window := 0#8, domain := 0#8, capacity := 0,
    ringOffset := 0, watermark := 0, produce := 0#16, cached := 0#16, gap := 0#32,
    gapStamp := 0#48, missed := 0#32, watermarkFlag := false, fault := .none, step := .idle,
    rereadInFlight := false, held := none, lastGapDone := false, fifo := [], halfError := false }

def WindowUnit.reset : WindowUnit :=
  { tableAddr := 0#48, tableCount := 0, cache := [], loads := [] }

/-- "As if journal 7 and bank 3 had been granted last" (R159). -/
def Port.reset : Port :=
  { class3 := [], statusAfter := .all [], class4 := none, lastJournal := 7, lastBank := 3,
    reads := [], writes := [] }

def Sweep.reset : Sweep := { queue := [], exec := none, next := 0#16, takeNow := false }

def Engine.reset : Engine :=
  { state := .off, run := false, anchorLo := 0#32, anchorHi := 0#16, anchor := 0#48,
    bootFault := .none, bootRead := false }

/-- The machine on the tick RESET_N returns high (R183): every item at its power-on reset value,
nothing in memory, no command waiting. -/
def State.reset : State :=
  { pending := [], resetHeld := false, engine := .reset, now := 0#48, tickHi := 0#16,
    cause := 0#16, causeEnable := 0#16, readData := 0#32, sweep := .reset, banks := .all .reset,
    lines := .all .reset, journals := .all .reset, window := .reset, port := .reset,
    pinsNow := 0#8, pinsAgo1 := 0#8, pinsAgo2 := 0#8, pinScript := [], memory := [],
    freeCount := 0 }

end Sys2Proof.Machine
end

