-- ==== Sys2Proof/Machine/Flags.lean ====
section
/-! DEFINITION. Counters that saturate, cause bits and IRQ, sticky flags, and the codes of every
enumerated field (R189). -/

namespace Sys2Proof.Machine

/-- One more, unless it already stands at all ones (R13, R80, R96, R113, R128). -/
def satInc {w : Nat} (x : BitVec w) : BitVec w :=
  if x = BitVec.allOnes w then x else x + 1#w

/-- The ON-delay count saturates at 1023 (R60). -/
def delayInc (n : Nat) : Nat := if n < 1023 then n + 1 else 1023

/-! ### Cause bits (R186) -/

def causeBank (b : BankNo) : Nat := b.val
def causeJournal (j : JournalNo) : Nat := 4 + j.val
def causeReply : Nat := 12
def causeDropped : Nat := 13
def causePort : Nat := 14
def causeAnchor : Nat := 15

/-- A cause bit being set; a set bit stays set (R186). -/
def State.raise (s : State) (bit : Nat) : State :=
  { s with cause := s.cause ||| (1#16 <<< bit) }

/-- IRQ is asserted while some cause bit is set and enabled (R187); deasserted in reset (R183). -/
def State.irq (s : State) : Bool := (s.cause &&& s.causeEnable) != 0#16

/-! ### Fault classes (R97, R102) -/

def FaultClass.flag (c : FaultClass) (f : Sticky) : Bool :=
  match c with
  | .bus => f.bus
  | .window => f.window
  | .format => f.format
  | .range => f.range
  | .timing => f.timing
  | .late => f.late
  | .cueTimeout => f.cueTimeout

/-- The sticky flag of a class is set (R102). -/
def Sticky.mark (f : Sticky) (c : FaultClass) : Sticky :=
  match c with
  | .bus => { f with bus := true }
  | .window => { f with window := true }
  | .format => { f with format := true }
  | .range => { f with range := true }
  | .timing => { f with timing := true }
  | .late => { f with late := true }
  | .cueTimeout => { f with cueTimeout := true }

/-! ### Codes (R189) -/

def FrameState.code : FrameState → Byte
  | .empty => 0x00 | .ready => 0x01 | .staged => 0x02 | .live => 0x03
  | .spent => 0x04 | .spentEnd => 0x05 | .cut => 0x06 | .rejected => 0x07

def countModeOf (b : Byte) : Option CountMode :=
  if b = 0x00#8 then some .ramp else if b = 0x01#8 then some .triangle else none

def endActionOf (b : Byte) : Option EndAction :=
  if b = 0x00#8 then some .hold else if b = 0x01#8 then some .stop else none

def cueKindOf (b : Byte) : Option CueKind :=
  if b = 0x00#8 then some .frameStart
  else if b = 0x01#8 then some .boundary
  else if b = 0x02#8 then some .matched
  else if b = 0x03#8 then some .planEnd
  else none

def edgeDirOf (b : Byte) : Option EdgeDir :=
  if b = 0x00#8 then some .rise else if b = 0x01#8 then some .fall else none

def chanModeOf (b : Byte) : Option ChanMode :=
  if b = 0x00#8 then some .off
  else if b = 0x01#8 then some .pwmA
  else if b = 0x02#8 then some .pwmB
  else if b = 0x03#8 then some .toggle
  else if b = 0x04#8 then some .forceOn
  else if b = 0x05#8 then some .forceOff
  else none

def bankNoOf (b : Byte) : Option BankNo :=
  if h : b.toNat < 4 then some ⟨b.toNat, h⟩ else none

def lineNoOf (b : Byte) : Option LineNo :=
  if h : b.toNat < 8 then some ⟨b.toNat, h⟩ else none

/-- Rearm mode: true is AUTO. -/
def rearmModeOf (b : Byte) : Option Bool :=
  if b = 0x00#8 then some false else if b = 0x01#8 then some true else none

def lineModeOf (b : Byte) : Option LineMode :=
  if b = 0x00#8 then some .off
  else if b = 0x01#8 then some .stamp
  else if b = 0x02#8 then some .width
  else none

def edgeSelectOf (b : Byte) : Option EdgeSelect :=
  if b = 0x00#8 then some .rise
  else if b = 0x01#8 then some .fall
  else if b = 0x02#8 then some .both
  else none

/-- Line trip level: true is HIGH. -/
def tripLevelOf (b : Byte) : Option Bool :=
  if b = 0x00#8 then some false else if b = 0x01#8 then some true else none

def LineMode.code : LineMode → Byte
  | .off => 0x00 | .stamp => 0x01 | .width => 0x02

def EventKind.code : EventKind → Byte
  | .rise => 0x00 | .fall => 0x01 | .highWidth => 0x02 | .lowWidth => 0x03

/-- The kind of a GAP record. -/
def gapCode : Byte := 0x04

def JournalState.code : JournalState → Byte
  | .closed => 0x00 | .opened => 0x01 | .faulted => 0x02

def JournalFault.code : JournalFault → Byte
  | .none => 0x00 | .consumeRange => 0x01 | .index => 0x02 | .absent => 0x03
  | .badDescriptor => 0x04 | .rights => 0x05 | .limit => 0x06 | .domain => 0x07
  | .descriptor => 0x08 | .bus => 0x09

def PlanState.code : PlanState → Byte
  | .dormant => 0x00 | .loading => 0x01 | .waiting => 0x02 | .running => 0x03
  | .starved => 0x04 | .halted => 0x05

def StopReason.code : StopReason → Byte
  | .none => 0x00 | .ended => 0x01 | .stopped => 0x02 | .fault => 0x03

def StagedTag.code : StagedTag → Byte
  | .empty => 0x00 | .pending => 0x01 | .valid => 0x02 | .rejected => 0x03

def FaultClass.code : FaultClass → Byte
  | .bus => 0x01 | .window => 0x02 | .format => 0x03 | .range => 0x04
  | .timing => 0x05 | .late => 0x06 | .cueTimeout => 0x07

/-- Subcodes are numbered within their class. -/
def Subcode.code : Subcode → Byte
  | .none => 0x00
  | .read => 0x01 | .write => 0x02 | .descriptor => 0x03
  | .index => 0x01 | .absent => 0x02 | .badDescriptor => 0x03 | .rights => 0x04
  | .limit => 0x05 | .domain => 0x06
  | .align => 0x01 | .kind => 0x02 | .state => 0x03 | .entryCount => 0x04 | .badCode => 0x05
  | .channel => 0x06 | .duplicate => 0x07 | .mode => 0x08

def Phase.code : Phase → Byte
  | .head => 0x01 | .staging => 0x02 | .boundary => 0x03 | .wait => 0x04

def EngineState.code : EngineState → Byte
  | .off => 0 | .booting => 1 | .on => 2 | .quiescing => 3 | .anchorFault => 4

def BootFault.code : BootFault → Byte
  | .none => 0 | .signature => 1 | .version => 2 | .align => 3 | .count => 4 | .port => 5

def Result.code : Result → Byte
  | .done => 0x00 | .refusedState => 0x01 | .refusedTarget => 0x02 | .refusedConfig => 0x03
  | .refusedTripActive => 0x04 | .refusedWindow => 0x05 | .refusedPort => 0x06
  | .unknownAction => 0x07

/-- The journal fault code of a failing window check (R140). -/
def Subcode.journalFault : Subcode → JournalFault
  | .index => .index
  | .absent => .absent
  | .badDescriptor => .badDescriptor
  | .rights => .rights
  | .limit => .limit
  | .domain => .domain
  | .descriptor => .descriptor
  | _ => .bus

/-! ### Sweep actions (R165, R169, R189) -/

def actMark : Byte := 0x00
def actBankStart : Byte := 0x01
def actBankStop : Byte := 0x02
def actBankLook : Byte := 0x03
def actBankRearm : Byte := 0x04
def actBankTrip : Byte := 0x05
def actBankAck : Byte := 0x06
def actJournalOpen : Byte := 0x10
def actJournalClose : Byte := 0x11
def actJournalLook : Byte := 0x12
def actLineLoad : Byte := 0x20
def actWindowsFlush : Byte := 0x30

/-- The codes of the twelve actions. -/
def actions : List Byte :=
  [actMark, actBankStart, actBankStop, actBankLook, actBankRearm, actBankTrip, actBankAck,
   actJournalOpen, actJournalClose, actJournalLook, actLineLoad, actWindowsFlush]

/-- The BANK_STOP arguments. -/
def argAtBoundary : Byte := 0x00
def argNow : Byte := 0x01

end Sys2Proof.Machine
end

