-- ==== Sys2Proof/Machine/Ops.lean ====
section
/-! DEFINITION. The named operations over the state: each block by its number, the shared memory by
bytes, the requests made of the Memory Port, and the guard of RESET_N. -/

namespace Sys2Proof.Machine

/-- What a command answers. -/
abbrev Out := Host.Outcome State Fault Refusal

/-- While RESET_N is held low every block is held at its power-on values (R183): a step that needs
the part does not occur. Otherwise the step has its effect. -/
def unlessReset (s : State) (f : State → State) : Out :=
  .next (if s.resetHeld then s else f s)

/-! ### Blocks by number -/

def State.bank (s : State) (b : BankNo) : Bank := s.banks.get b

def State.setBank (s : State) (b : BankNo) (k : Bank) : State :=
  { s with banks := s.banks.set b k }

def State.modBank (s : State) (b : BankNo) (f : Bank → Bank) : State := s.setBank b (f (s.bank b))

def State.modSeq (s : State) (b : BankNo) (f : Sequencer → Sequencer) : State :=
  s.modBank b fun k => { k with seq := f k.seq }

def State.modWave (s : State) (b : BankNo) (f : Waveform → Waveform) : State :=
  s.modBank b fun k => { k with wave := f k.wave }

def State.modGate (s : State) (b : BankNo) (f : Gate → Gate) : State :=
  s.modBank b fun k => { k with gate := f k.gate }

def State.modFaults (s : State) (b : BankNo) (f : FaultLogic → FaultLogic) : State :=
  s.modBank b fun k => { k with faults := f k.faults }

def State.line (s : State) (l : LineNo) : Line := s.lines.get l

def State.setLine (s : State) (l : LineNo) (x : Line) : State :=
  { s with lines := s.lines.set l x }

def State.modLine (s : State) (l : LineNo) (f : Line → Line) : State := s.setLine l (f (s.line l))

def State.journal (s : State) (j : JournalNo) : Journal := s.journals.get j

def State.setJournal (s : State) (j : JournalNo) (x : Journal) : State :=
  { s with journals := s.journals.set j x }

def State.modJournal (s : State) (j : JournalNo) (f : Journal → Journal) : State :=
  s.setJournal j (f (s.journal j))

def State.modPort (s : State) (f : Port → Port) : State := { s with port := f s.port }

def State.modSweep (s : State) (f : Sweep → Sweep) : State := { s with sweep := f s.sweep }

def State.modWindow (s : State) (f : WindowUnit → WindowUnit) : State :=
  { s with window := f s.window }

/-! ### Shared memory -/

/-- The byte of an address of the 48-bit space; an address past its top wraps (log entry 2). -/
def Memory.read : Memory → Nat → Byte
  | [], _ => Config.unwrittenByte
  | (a, v) :: rest, i => if a = i then v else Memory.read rest i

/-- One byte stored; the listed addresses stay in rising order. -/
def Memory.insert (i : Nat) (v : Byte) : Memory → Memory
  | [] => [(i, v)]
  | (a, w) :: rest =>
    if i < a then (i, v) :: (a, w) :: rest
    else if i = a then (i, v) :: rest
    else (a, w) :: Memory.insert i v rest

/-- One address struck from the list. -/
def Memory.erase (i : Nat) (m : Memory) : Memory := m.filter fun c => c.1 != i

/-- One byte written; writing what an unlisted address reads as strikes the entry. -/
def Memory.write (m : Memory) (i : Nat) (v : Byte) : Memory :=
  if v = Config.unwrittenByte then m.erase i else m.insert i v

/-- The canonical form: addresses strictly rising, no entry equal to an unlisted byte. -/
def Memory.wf : Memory → Bool
  | [] => true
  | (_, v) :: [] => v != Config.unwrittenByte
  | (a, v) :: (b, w) :: rest =>
    decide (a < b) && (v != Config.unwrittenByte) && Memory.wf ((b, w) :: rest)

/-- Bytes in ascending address order. -/
def Memory.writeBytes (m : Memory) (addr : Nat) : List Byte → Memory
  | [] => m
  | v :: rest => Memory.writeBytes (m.write (addr % 2 ^ 48) v) (addr + 1) rest

def Memory.readBytes (m : Memory) (addr : Nat) : Nat → List Byte
  | 0 => []
  | n + 1 => m.read (addr % 2 ^ 48) :: Memory.readBytes m (addr + 1) n

/-- Host writes that reached memory, in order. -/
def Memory.hostWrites (m : Memory) : List Host.Cell → Memory
  | [] => m
  | (a, v) :: rest => Memory.hostWrites (m.write a v) rest

/-! ### Requests of the Memory Port -/

/-- Status requests are made while the engine is ON or QUIESCING (R125, R163). -/
def State.reporting (s : State) : Bool :=
  s.engine.state = .on || s.engine.state = .quiescing

/-- The order of class 3 requests made on one tick (R158). -/
def Class3.rank : Class3 → Nat
  | .reply => 0
  | .engine => 1
  | .bank b => 2 + b.val
  | .line l => 6 + l.val

/-- A request joins class 3 behind every request of an earlier tick and, among those of this tick,
by rank. -/
def insertClass3 (c : Class3) : List (Class3 × Bool) → List (Class3 × Bool)
  | [] => [(c, true)]
  | (d, fresh) :: rest =>
    if fresh && decide (c.rank < d.rank) then (c, true) :: (d, fresh) :: rest
    else (d, fresh) :: insertClass3 c rest

/-- A request that is already waiting carries the new one (R125, R163, R164). -/
def State.requestClass3 (s : State) (c : Class3) : State :=
  if s.port.class3.any (fun x => x.1 = c) then s
  else s.modPort fun p => { p with class3 := insertClass3 c p.class3 }

/-- The frame writes of an access: the write itself and, of a retire-field write, the state write
that follows its response (R107). -/
def FrameAccess.writes : FrameAccess → List FrameAccess
  | .state sel code => [.state sel code]
  | .retire sel stamp passes flags next =>
    .retire sel stamp passes flags none :: (next.map (FrameAccess.state sel)).toList
  | _ => []

/-- The state write of a bank that is held for the response of this outstanding write (R107). -/
def OutWrite.heldWrite (b : BankNo) (w : OutWrite) : Option FrameAccess :=
  match w.owner with
  | .frameRetire c sel next => if c = b then next.map (FrameAccess.state sel) else none
  | _ => none

/-- The frame writes of a bank that are requested and neither issued, failed nor withheld (R107,
R159). -/
def State.pendingWrites (s : State) (b : BankNo) : List FrameAccess :=
  (s.bank b).fifo.flatMap (fun r => r.acc.writes) ++ s.port.writes.filterMap (OutWrite.heldWrite b)

/-- A Bank Status write is requested, behind the frame writes that the bank has pending (R159); one
that waits carries the request and takes its place behind them too (log entry 18). While the engine
reports nothing, none is made, and the entry to ON asks for every bank's (R163). -/
def State.requestBankStatus (s : State) (b : BankNo) : State :=
  if s.reporting then
    (s.modPort fun p =>
      { p with statusAfter := p.statusAfter.set b (s.pendingWrites b) }).requestClass3 (.bank b)
  else s

/-- A Line Status write is requested, or held until the engine is next ON (R125). -/
def State.requestLineStatus (s : State) (l : LineNo) : State :=
  if s.reporting then s.requestClass3 (.line l)
  else s.modLine l fun x => { x with statusHeld := true }

/-- How near a request is to its issue: offered, waiting on a load, not yet checked. -/
def ReqStatus.stage : ReqStatus → Nat
  | .ready _ _ => 0
  | .waiting => 1
  | .unchecked => 2

/-- A request takes its place behind those of its own stage. -/
def placeReq (r : FrameReq) : List FrameReq → List FrameReq
  | [] => [r]
  | x :: rest => if x.status.stage ≤ r.status.stage then x :: placeReq r rest else r :: x :: rest

/-- A windowed access of a bank is requested, behind its earlier ones (R158). -/
def State.requestFrame (s : State) (b : BankNo) (a : FrameAccess) : State :=
  s.modBank b fun k => { k with fifo := k.fifo ++ [⟨a, .unchecked⟩] }

/-- A request of a journal, behind its earlier ones (R133, R158). -/
def State.requestJournal (s : State) (j : JournalNo) (r : JournalReq) : State :=
  s.modJournal j fun x => { x with fifo := x.fifo ++ [r] }

/-- A status word write; one that waits carries the new request (R129). -/
def State.requestStatusWord (s : State) (j : JournalNo) : State :=
  if (s.journal j).fifo.contains .statusWord then s else s.requestJournal j .statusWord

/-! ### Accesses -/

/-- A write to a frame, as against a read of one. -/
def FrameAccess.isWrite : FrameAccess → Bool
  | .state _ _ => true
  | .retire _ _ _ _ _ => true
  | _ => false

def FrameAccess.sel : FrameAccess → Selector
  | .header sel => sel
  | .entry sel _ => sel
  | .link sel => sel
  | .state sel _ => sel
  | .retire sel _ _ _ _ => sel
  | .load index => ⟨index, 0#32⟩

/-- Byte offset of the access within its frame (R146, 12.2). -/
def FrameAccess.frameOffset : FrameAccess → Nat
  | .header _ => 0
  | .entry _ _ => 48
  | .link _ => 0x18
  | .state _ _ => 1
  | .retire _ _ _ _ _ => 0x20
  | .load _ => 0

/-- Length in bytes (R146, R151). -/
def FrameAccess.length : FrameAccess → Nat
  | .header _ => 48
  | .entry _ n => 16 * n
  | .link _ => 8
  | .state _ _ => 1
  | .retire _ _ _ _ _ => 16
  | .load _ => 16

/-- A read of a frame. -/
def FrameAccess.isFrameRead : FrameAccess → Bool
  | .header _ => true
  | .entry _ _ => true
  | .link _ => true
  | _ => false

/-- The states whose write counts as a retired frame (R46). -/
def FrameState.retires (c : FrameState) : Bool := c = .spent || c = .spentEnd || c = .cut

/-- The terminal states (R15). -/
def FrameState.terminal (c : FrameState) : Bool := c.retires || c = .rejected

/-- The write of a terminal state, which has been held for the response of its retire fields (R107). -/
def FrameAccess.isTerminal : FrameAccess → Bool
  | .state _ code => code.terminal
  | _ => false

/-- An access that is not yet offered holds back a later one of its bank (R158): a write holds back
what follows it and a read the reads that follow it (R155). A terminal state write takes its turn as
its response comes (R107; log entry 15). -/
def FrameAccess.holdsBack (a later : FrameAccess) : Bool :=
  !a.isTerminal && !later.isTerminal && (a.isWrite || !later.isWrite)

/-- A running bank has a live frame and a running counter (R25). -/
def PlanState.isRunning (p : PlanState) : Bool := p = .running || p = .starved

/-- The states a stop, a quiesce or a write fault acts on (R43, R48). -/
def PlanState.isActive (p : PlanState) : Bool :=
  p = .loading || p = .waiting || p = .running || p = .starved

end Sys2Proof.Machine
end

