-- ==== Sys2Proof/Machine/Operands.lean ====
section
/-! DEFINITION. Operands: the fields of the request word and of the registers, the byte order, and
the layout of every record in memory (R165, R176, R188, chapter 12). -/

namespace Sys2Proof.Machine

/-! ### The request word (R165, 12.6) -/

def action (w : Word) : Byte := w.extractLsb' 0 8
def target (w : Word) : Byte := w.extractLsb' 8 8
def argument (w : Word) : Byte := w.extractLsb' 16 8
def tag (w : Word) : Byte := w.extractLsb' 24 8

/-! ### Bytes (R188: little-endian) -/

/-- The low `n` bytes of a number, least significant first. -/
def leBytes : Nat → Nat → List Byte
  | 0, _ => []
  | n + 1, v => BitVec.ofNat 8 (v % 256) :: leBytes n (v / 256)

/-- The number that bytes spell, least significant first. -/
def leNat : List Byte → Nat
  | [] => 0
  | b :: rest => b.toNat + 256 * leNat rest

/-- Byte `i` of a record. -/
def byteAt (bs : List Byte) (i : Nat) : Byte := bs.getD i 0#8

/-- The `n`-byte field at offset `i` of a record. -/
def fieldAt (bs : List Byte) (i n : Nat) : Nat := leNat ((bs.drop i).take n)

/-- A selector's 8 bytes (12.2). -/
def selectorAt (bs : List Byte) (i : Nat) : Selector :=
  ⟨byteAt bs i, BitVec.ofNat 32 (fieldAt bs (i + 4) 4)⟩

/-- The null selector is told by its window index (R7). -/
def Selector.isNull (x : Selector) : Bool := x.index = 0xFF#8

/-- The 8 bytes of a selector; a null selector is written with offset 0 (12.2). -/
def Selector.bytes (x : Selector) : List Byte :=
  x.index :: leBytes 3 0 ++ leBytes 4 (if x.isNull then 0 else x.offset.toNat)

/-- An offset that is a multiple of 8 (R1). -/
def Selector.aligned (x : Selector) : Bool := x.offset.toNat % 8 = 0

/-! ### Plan frame (12.2) -/

def parseHeader (bs : List Byte) : Header :=
  { kind := byteAt bs 0x00
    state := byteAt bs 0x01
    entryCount := byteAt bs 0x02
    countMode := byteAt bs 0x03
    endAction := byteAt bs 0x04
    form := byteAt bs 0x05
    source := byteAt bs 0x06
    sub := byteAt bs 0x07
    waitLimit := fieldAt bs 0x08 2
    divider := fieldAt bs 0x0A 2
    period := fieldAt bs 0x0C 4
    repeats := fieldAt bs 0x10 2
    link := selectorAt bs 0x18 }

/-- A channel entry as read. -/
structure Entry where
  channel : Byte
  mode : Byte
  partner : Bool
  compare : Nat
  deadRise : Nat
  deadFall : Nat
  deriving DecidableEq, Repr

def parseEntry (bs : List Byte) : Entry :=
  { channel := byteAt bs 0x00
    mode := byteAt bs 0x01
    partner := (byteAt bs 0x02).getLsbD 0
    compare := fieldAt bs 0x04 4
    deadRise := fieldAt bs 0x08 2
    deadFall := fieldAt bs 0x0A 2 }

/-- The entries of an entry read, in the order they stand. -/
def parseEntries : Nat → List Byte → List Entry
  | 0, _ => []
  | n + 1, bs => parseEntry (bs.take 16) :: parseEntries n (bs.drop 16)

/-- One outcome flag byte (R14). -/
def outcomeFlags (clamped stretched extended cueForced : Bool) : Byte :=
  (if clamped then 0x01#8 else 0#8) ||| (if stretched then 0x02#8 else 0#8)
    ||| (if extended then 0x04#8 else 0#8) ||| (if cueForced then 0x08#8 else 0#8)

/-- The 16 bytes of the retire fields, reserved bytes 0 (R188). -/
def retireBytes (stamp : Stamp) (passes : BitVec 32) (flags : Byte) : List Byte :=
  leBytes 6 stamp.toNat ++ leBytes 2 0 ++ leBytes 4 passes.toNat ++ [flags] ++ leBytes 3 0

/-! ### Window descriptor (12.4) -/

def parseDescriptor (bs : List Byte) : Descriptor :=
  { base := fieldAt bs 0x00 6
    present := (byteAt bs 0x06).getLsbD 0
    canRead := (byteAt bs 0x06).getLsbD 1
    canWrite := (byteAt bs 0x06).getLsbD 2
    ceiling := byteAt bs 0x07
    limit := fieldAt bs 0x08 4 }

/-! ### Capture record (12.3, R130) -/

def recordFlags (saturated overrun : Bool) : Byte :=
  (if saturated then 0x01#8 else 0#8) ||| (if overrun then 0x02#8 else 0#8)

def eventRecord (e : Event) : List Byte :=
  [BitVec.ofNat 8 e.line.val, e.kind.code, e.sequence, recordFlags e.saturated e.overrun]
    ++ leBytes 4 e.value.toNat ++ leBytes 6 e.stamp.toNat ++ leBytes 2 0

def gapRecord (count : BitVec 32) (stamp : Stamp) : List Byte :=
  [0xFF#8, gapCode, 0#8, 0#8] ++ leBytes 4 count.toNat ++ leBytes 6 stamp.toNat ++ leBytes 2 0

/-! ### The Anchor Block (R160, 12.5) -/

def offBankRecord (b : BankNo) : Nat := 0x040 + 64 * b.val
def offLineRecord (l : LineNo) : Nat := 0x140 + 16 * l.val
def offJournalRecord (j : JournalNo) : Nat := 0x1C0 + 32 * j.val
def offBankStatus (b : BankNo) : Nat := 0x2C0 + 64 * b.val
def offReply (sequence : BitVec 16) : Nat := 0x3C0 + 8 * (sequence.toNat % 16)
def offLineStatus (l : LineNo) : Nat := 0x440 + 8 * l.val
def offEngineStatus : Nat := 0x480

/-- The bank levels of 8 pins: bit 2c is channel c's primary pin and bit 2c + 1 its partner. -/
def pinBit (bits : Byte) (c : ChanNo) (partner : Bool) : Bool :=
  bits.getLsbD (2 * c.val + if partner then 1 else 0)

/-- A Bank Record as read (R161). -/
structure BankRecord where
  head : Selector
  domain : Byte
  masks : Masks
  tripMask : Byte
  rearm : Byte
  polarity : Byte
  rest : Byte
  trip : Byte
  deriving DecidableEq, Repr

def parseBankRecord (bs : List Byte) : BankRecord :=
  { head := selectorAt bs 0x00
    domain := byteAt bs 0x08
    masks := ⟨(byteAt bs 0x09).getLsbD 0, (byteAt bs 0x09).getLsbD 1,
      (byteAt bs 0x09).getLsbD 2, (byteAt bs 0x09).getLsbD 3⟩
    tripMask := byteAt bs 0x0A
    rearm := byteAt bs 0x0B
    polarity := byteAt bs 0x0C
    rest := byteAt bs 0x0D
    trip := byteAt bs 0x0E }

/-- Both pins of no channel pair ON (R62, R161). -/
def pairsOk (levels : Byte) : Bool :=
  four.all fun c => !(pinBit levels c false && pinBit levels c true)

/-- The checks of R161 on the record as read: domain, rearm mode, rest and trip levels. The answer
is the rearm mode, true for AUTO. -/
def BankRecord.check (r : BankRecord) : Option Bool :=
  if r.domain.toNat ≤ 3 && pairsOk r.rest && pairsOk r.trip then rearmModeOf r.rearm else none

/-- A Line Record judged against the legal sets of R114; none when some field is outside its set. -/
def parseLineRecord (bs : List Byte) : Option LineConfig :=
  match lineModeOf (byteAt bs 0), edgeSelectOf (byteAt bs 1), lineNoOf (byteAt bs 5),
    tripLevelOf (byteAt bs 6) with
  | some mode, some select, some journal, some tripHigh =>
    let prescale := (byteAt bs 2).toNat
    let divider := (byteAt bs 3).toNat
    let count := (byteAt bs 4).toNat
    if (prescale = 1 || prescale = 2 || prescale = 4 || prescale = 8)
        && 1 ≤ divider && divider ≤ 64 && 1 ≤ count && count ≤ 8 then
      some { mode, select, prescale, divider, count, journal, tripHigh }
    else none
  | _, _, _, _ => none

def parseJournalRecord (bs : List Byte) : JournalRecord :=
  { window := byteAt bs 0x00
    domain := byteAt bs 0x01
    log2Capacity := byteAt bs 0x02
    ringOffset := fieldAt bs 0x04 4
    watermark := fieldAt bs 0x08 2
    consume := BitVec.ofNat 16 (fieldAt bs 0x0C 2) }

def JournalRecord.capacity (r : JournalRecord) : Nat := 2 ^ r.log2Capacity.toNat

/-- The field checks of R131. -/
def JournalRecord.ok (r : JournalRecord) : Bool :=
  r.domain.toNat ≤ 3 && 2 ≤ r.log2Capacity.toNat && r.log2Capacity.toNat ≤ 12
    && r.ringOffset % 16 = 0 && 1 ≤ r.watermark && r.watermark ≤ r.capacity

/-- Produce word, status word (12.5). -/
def produceWordBytes (produce : BitVec 16) : List Byte := leBytes 2 produce.toNat ++ leBytes 6 0

def statusWordBytes (x : Journal) : List Byte :=
  [x.state.code, x.fault.code, 0#8, 0#8] ++ leBytes 4 x.missed.toNat

def Sticky.byte (f : Sticky) : Byte :=
  (if f.bus then 0x01#8 else 0#8) ||| (if f.window then 0x02#8 else 0#8)
    ||| (if f.format then 0x04#8 else 0#8) ||| (if f.range then 0x08#8 else 0#8)
    ||| (if f.timing then 0x10#8 else 0#8) ||| (if f.late then 0x20#8 else 0#8)
    ||| (if f.cueTimeout then 0x40#8 else 0#8)

/-- The selector of the live frame, or the null selector (R162). -/
def Sequencer.liveSel (q : Sequencer) : Selector :=
  match q.live with
  | some v => v.sel
  | none => .null

/-- Bytes 20h to 3Fh of Bank Status: the report slot, zero when it is not valid (R162). -/
def reportBytes : Option Report → List Byte
  | none => leBytes 32 0
  | some r =>
    [r.cls.code, r.sub.code, r.phase.code, r.field] ++ leBytes 4 0 ++ r.sel.bytes
      ++ leBytes 6 r.stamp.toNat ++ leBytes 10 0

/-- The 64 bytes of Bank Status (R162, 12.5). -/
def bankStatusBytes (k : Bank) : List Byte :=
  [k.seq.plan.code, k.seq.stopReason.code, k.seq.tag.code,
    if k.gate.tripped then 0x01#8 else 0x00#8,
    (if k.gate.rearmPending then 0x01#8 else 0#8)
      ||| (if k.faults.report.isSome then 0x02#8 else 0#8),
    k.faults.sticky.byte]
    ++ leBytes 2 k.faults.further.toNat ++ k.seq.liveSel.bytes ++ leBytes 6 k.seq.retired.toNat
    ++ leBytes 2 0 ++ leBytes 4 k.gate.trips.toNat ++ leBytes 4 0 ++ reportBytes k.faults.report

/-- The 8 bytes of Line Status (R125, 12.5). -/
def lineStatusBytes (x : Line) : List Byte :=
  [(if x.loaded then 0x01#8 else 0#8) ||| (if x.high then 0x02#8 else 0#8)
      ||| (if x.armed then 0x04#8 else 0#8),
    x.cfg.mode.code, x.sequence, 0#8] ++ leBytes 2 x.overruns.toNat ++ leBytes 2 0

/-- The 16 bytes of Engine Status (R164): the last reply sequence number is one less than the next. -/
def engineStatusBytes (e : EngineState) (next : BitVec 16) : List Byte :=
  [e.code, 0#8] ++ leBytes 2 (next - 1#16).toNat ++ leBytes 12 0

/-- The 8 bytes of a reply (R171). -/
def replyBytes (sequence : BitVec 16) (w : Word) (r : Result) : List Byte :=
  leBytes 2 sequence.toNat ++ [tag w, action w, target w, r.code] ++ leBytes 2 0

/-- The boot header (12.5): signature, format version, table address, window count. -/
structure BootHeader where
  signature : List Byte
  version : Nat
  table : Nat
  count : Nat
  deriving DecidableEq, Repr

def parseBootHeader (bs : List Byte) : BootHeader :=
  { signature := bs.take 4
    version := fieldAt bs 4 2
    table := fieldAt bs 8 6
    count := fieldAt bs 0x10 2 }

/-- "K816" in ascending address order. -/
def bootSignature : List Byte := [0x4B#8, 0x38#8, 0x31#8, 0x36#8]

/-- Boot steps 3 to 6 of R179; the first that fails names the boot fault. -/
def BootHeader.check (h : BootHeader) : BootFault :=
  if h.signature ≠ bootSignature then .signature
  else if h.version ≠ 1 then .version
  else if h.table % 16 ≠ 0 then .align
  else if h.count = 0 || 64 < h.count then .count
  else .none

/-! ### Register reads (R165, R176, R185, 12.6) -/

/-- The busy flag of SWEEP (R165, R172). -/
def Sweep.busy (w : Sweep) : Bool := w.exec.isSome || !w.queue.isEmpty

def controlWord (e : Engine) : Word :=
  (if e.run then 1#32 else 0#32) ||| (e.state.code.setWidth 32 <<< 4)
    ||| (e.bootFault.code.setWidth 32 <<< 8)

def sweepWord (w : Sweep) : Word :=
  BitVec.ofNat 32 w.queue.length ||| (if w.busy then 0x100#32 else 0#32)

/-- What a read of the register at an offset returns on this tick. While RESET_N is low the state
stands at its power-on values (R183), and so does what is read. -/
def State.readRegister (s : State) (offset : Nat) : Word :=
  match offset with
  | 0x00 => Config.ident
  | 0x04 => controlWord s.engine
  | 0x08 => s.engine.anchorLo
  | 0x0C => s.engine.anchorHi.setWidth 32
  | 0x10 => sweepWord s.sweep
  | 0x14 => s.cause.setWidth 32
  | 0x18 => s.causeEnable.setWidth 32
  | 0x1C => s.now.setWidth 32
  | 0x20 => s.tickHi.setWidth 32
  | _ => 0#32

end Sys2Proof.Machine
end

