-- ==== Sys2Proof/Machine/Checks.lean ====
section
/-! DEFINITION. The check order of a frame, steps 3 to 7 on its header and steps 9 to 11 on its
entries, with the masked defaults (R2 to R8, R100, R101). -/

namespace Sys2Proof.Machine

/-- The start condition that the bytes 05h to 07h of a header spell (R4, 12.2, 12.7). -/
def Header.start (h : Header) : Option StartCond :=
  if h.form = 0x00#8 then some .now
  else if h.form = 0x01#8 then
    match bankNoOf h.source, cueKindOf h.sub with
    | some b, some k => some (.cue b k)
    | _, _ => none
  else if h.form = 0x02#8 then
    match lineNoOf h.source, edgeDirOf h.sub with
    | some l, some e => some (.line l e)
    | _, _ => none
  else none

/-- What steps 3 to 7 of R100 find. -/
inductive HeaderVerdict where
  /-- state EMPTY: checking stops, no fault -/
  | empty
  /-- a FORMAT fault; `rejected` says that the frame is written REJECTED -/
  | bad (sub : Subcode) (field : Byte) (rejected : Bool)
  | good (mode : CountMode) (action : EndAction) (start : StartCond)
  deriving DecidableEq, Repr

def Header.check (h : Header) : HeaderVerdict :=
  if h.state = FrameState.empty.code then .empty
  else if h.kind ≠ 0xA5#8 then .bad .kind 0 false
  else if h.state ≠ FrameState.ready.code then .bad .state 1 false
  else if 4 < h.entryCount.toNat then .bad .entryCount 2 true
  else
    match countModeOf h.countMode, endActionOf h.endAction, h.start with
    | none, _, _ => .bad .badCode 3 true
    | _, none, _ => .bad .badCode 4 true
    | _, _, none => .bad .badCode 5 true
    | some m, some a, some c => .good m a c

/-- Step 9 of R100: the entries in the order they stand, from entry `n` on, with the channels that
earlier entries named. The answer is the first fault, or each entry's channel and mode. -/
def checkEntries (n : Nat) (seen : List ChanNo) :
    List Entry → Except (Subcode × Nat) (List (ChanNo × ChanMode × Entry))
  | [] => .ok []
  | e :: rest =>
    match bankNoOf e.channel with
    | none => .error (.channel, 16 + 8 * n)
    | some c =>
      if seen.contains c then .error (.duplicate, 16 + 8 * n)
      else
        match chanModeOf e.mode with
        | none => .error (.mode, 16 + 8 * n + 1)
        | some m =>
          match checkEntries (n + 1) (c :: seen) rest with
          | .error x => .error x
          | .ok xs => .ok ((c, m, e) :: xs)

/-- What a run of range checks gives: the values, or the index of the first unmasked fault; with
whether a masked clamp acted before the end. -/
inductive Ranged (α : Type) where
  | ok (value : α) (clamped : Bool)
  | bad (field : Nat) (clamped : Bool)
  deriving DecidableEq, Repr

/-- One range check after another; a clamp once made is remembered. -/
def Ranged.bind {α β : Type} (r : Ranged α) (f : α → Ranged β) : Ranged β :=
  match r with
  | .bad i c => .bad i c
  | .ok a c =>
    match f a with
    | .ok b d => .ok b (c || d)
    | .bad i d => .bad i (c || d)

/-- A field against its legal range; masked, it takes the nearest legal value (R5, R8, R97). -/
def inRange (masked : Bool) (field lo hi v : Nat) : Ranged Nat :=
  if lo ≤ v ∧ v ≤ hi then .ok v false
  else if masked then .ok (if v < lo then lo else hi) true
  else .bad field false

/-- Step 10 of R100 over the entries, from entry `n` on, under a period already clamped. -/
def rangeEntries (masked : Bool) (period : Nat) (n : Nat) :
    List (ChanNo × ChanMode × Entry) → Ranged (List (ChanNo × ChanSetting))
  | [] => .ok [] false
  | (c, m, e) :: rest =>
    (inRange masked (16 + 8 * n + 3) 0 period e.compare).bind fun compare =>
    (inRange masked (16 + 8 * n + 4) 0 1023 e.deadRise).bind fun deadRise =>
    (inRange masked (16 + 8 * n + 5) 0 1023 e.deadFall).bind fun deadFall =>
    (rangeEntries masked period (n + 1) rest).bind fun xs =>
    .ok ((c, ⟨m, e.partner, compare, deadRise, deadFall⟩) :: xs) false

/-- Step 10 of R100: divider, period, then the entries. -/
def rangeFrame (masked : Bool) (h : Header) (es : List (ChanNo × ChanMode × Entry)) :
    Ranged (Nat × Nat × List (ChanNo × ChanSetting)) :=
  (inRange masked 7 1 256 h.divider).bind fun divider =>
  (inRange masked 8 2 16777215 h.period).bind fun period =>
  (rangeEntries masked period 0 es).bind fun xs =>
  .ok (divider, period, xs) false

/-- Ticks of a pass (R5). -/
def passTicks (mode : CountMode) (divider period : Nat) : Nat :=
  match mode with
  | .ramp => period * divider
  | .triangle => 2 * period * divider

/-- The smallest period that gives a pass of at least 64 ticks (R6). -/
def stretchedPeriod (mode : CountMode) (divider : Nat) : Nat :=
  match mode with
  | .ramp => (64 + divider - 1) / divider
  | .triangle => (32 + divider - 1) / divider

/-- What a fetch of a frame comes to. -/
inductive FrameVerdict where
  | staged (copy : FrameCopy)
  /-- `rejected`: the frame is written REJECTED; `clamped`: a masked RANGE clamp acted before. -/
  | bad (cls : FaultClass) (sub : Subcode) (field : Nat) (rejected clamped : Bool)
  deriving DecidableEq, Repr

/-- Steps 9 to 11 of R100 on a header that passed steps 3 to 7, under the bank's masks. -/
def checkFrame (masks : Masks) (sel : Selector) (h : Header) (mode : CountMode)
    (action : EndAction) (start : StartCond) (entries : List Entry) : FrameVerdict :=
  match checkEntries 0 [] entries with
  | .error (sub, field) => .bad .format sub field true false
  | .ok es =>
    match rangeFrame masks.range h es with
    | .bad field clamped => .bad .range .none field true clamped
    | .ok (divider, period, xs) clamped =>
      let copy : FrameCopy :=
        { sel, countMode := mode, endAction := action, start, waitLimit := h.waitLimit, divider,
          period, repeats := h.repeats, entries := xs, clamped, stretched := false }
      if 64 ≤ passTicks mode divider period then .staged copy
      else if masks.timing then
        .staged { copy with period := stretchedPeriod mode divider, stretched := true }
      else .bad .timing .none 8 true clamped

end Sys2Proof.Machine
end

