-- ==== Sys2Proof/Machine/Pins.lean ====
section
/-! DEFINITION. The Waveform Stage: the bank counter, reference levels and matches, and the pins with
their dead time (R49 to R67). -/

namespace Sys2Proof.Machine

/-! ### The counter (R50) -/

/-- The value a running counter takes at an advance and its direction afterwards; none at a
boundary. -/
def nextCount (mode : CountMode) (period counter : Nat) (dir : Direction) :
    Option (Nat × Direction) :=
  match mode, dir with
  | .ramp, _ => if counter + 1 < period then some (counter + 1, .up) else none
  | .triangle, .up =>
    if counter + 1 < period then some (counter + 1, .up) else some (counter + 1, .down)
  | .triangle, .down => if 1 < counter then some (counter - 1, .down) else none

/-- The counter held, or at the start of a pass: value 0, UP, divider phase 0 (R51, R52). -/
def Waveform.atZero (w : Waveform) : Waveform :=
  { w with counter := 0, dir := .up, phase := 0, advanceDue := false }

/-! ### References and matches (R54 to R57) -/

/-- A channel's reference when the counter takes a value, from the reference it had before. -/
def reference (c : ChanSetting) (before : Bool) (count : Nat) : Bool :=
  match c.mode with
  | .pwmA => decide (count < c.compare)
  | .pwmB => !decide (count < c.compare)
  | .toggle => if count = c.compare then !before else before
  | .forceOn => true
  | .forceOff => false
  | .off => false

/-- The references of the four channels when the counter takes a value. -/
def references (c : Quad ChanSetting) (before : Quad Bool) (count : Nat) : Quad Bool :=
  ⟨reference c.q0 before.q0 count, reference c.q1 before.q1 count,
    reference c.q2 before.q2 count, reference c.q3 before.q3 count⟩

/-- A match of channel 0, which emits the MATCH cue (R56, R58). -/
def Bank.matches0 (k : Bank) : Bool := k.wave.counter = k.seq.settings.q0.compare

/-! ### Pins (R59 to R61, R65, R66, R93) -/

/-- Dead-time insertion on one tick: from what the pin was when the tick began, the level desired
at its end and the dead time in force. -/
def Pin.resolve (p : Pin) (desired : Bool) (dead : Nat) : Pin :=
  let count := if desired && p.wasDesired then p.wasDelay else 0
  let on := desired && ((p.wasDesired && p.wasOn) || decide (dead ≤ count))
  { p with desired := desired, delay := count, drive := if on then .on else .off }

/-- The levels a channel's two pins desire under the waveform (R59). -/
def ChanSetting.desires (c : ChanSetting) (ref : Bool) : Bool × Bool :=
  match c.mode with
  | .off => (false, false)
  | _ => (ref, c.partner && !ref)

/-- The levels the two pins of a channel desire, from the one source of R65. -/
def Bank.desires (k : Bank) (c : ChanNo) : Bool × Bool :=
  let pair := k.wave.pins.get c
  if k.gate.tripped then (pair.primary.trip, pair.partner.trip)
  else if k.seq.plan.isRunning then (k.seq.settings.get c).desires (k.wave.lastRef.get c)
  else (pair.primary.rest, pair.partner.rest)

/-- The two pins of a channel judged for this tick (R60, R65). -/
def Bank.resolvePair (k : Bank) (c : ChanNo) : PinPair :=
  let pair := k.wave.pins.get c
  let d := k.desires c
  { primary := pair.primary.resolve d.1 (k.seq.settings.get c).deadRise
    partner := pair.partner.resolve d.2 (k.seq.settings.get c).deadFall }

/-- Every pin of a started bank takes its level from its source; the pins of a bank not started
since reset stay at high impedance (R65, R67). -/
def Bank.refreshPins (k : Bank) : Bank :=
  if k.seq.started then
    { k with wave := { k.wave with
        pins := ⟨k.resolvePair 0, k.resolvePair 1, k.resolvePair 2, k.resolvePair 3⟩ } }
  else k

def State.refreshPins (s : State) (b : BankNo) : State := s.modBank b Bank.refreshPins

/-- The dead time of a pin: dead-rise for the primary, dead-fall for the partner (R60). -/
def ChanSetting.deadTime (c : ChanSetting) (partner : Bool) : Nat :=
  if partner then c.deadFall else c.deadRise

def PinPair.pin (p : PinPair) (partner : Bool) : Pin := if partner then p.partner else p.primary

/-- A pin whose ON-delay count has reached the dead time in force and is not yet driven ON (R60). -/
def Bank.onDelayDone (k : Bank) (c : ChanNo) (partner : Bool) : Bool :=
  let p := (k.wave.pins.get c).pin partner
  k.seq.started && p.desired && p.drive != .on
    && decide ((k.seq.settings.get c).deadTime partner ≤ p.delay)

/-- A tick passes for a pin: the ON-delay count of a desired ON goes up, and what the pin is now is
what it was when the new tick began (R60, R93). -/
def Pin.tick (p : Pin) : Pin :=
  let count := if p.desired then delayInc p.delay else 0
  { p with
    delay := count, wasDesired := p.desired, wasDelay := count, wasOn := p.drive = .on }

/-- The electrical level of a pin: none at high impedance, else whether it is high (R63). -/
def Pin.electrical (p : Pin) : Option Bool :=
  match p.drive with
  | .highZ => none
  | .on => some (!p.activeLow)
  | .off => some p.activeLow

/-- The levels of a Bank Record copied into the pins (R63, R64). -/
def Pin.configure (p : Pin) (r : BankRecord) (c : ChanNo) (partner : Bool) : Pin :=
  { p with
    activeLow := pinBit r.polarity c partner
    rest := pinBit r.rest c partner
    trip := pinBit r.trip c partner }

def PinPair.configure (p : PinPair) (r : BankRecord) (c : ChanNo) : PinPair :=
  ⟨p.primary.configure r c false, p.partner.configure r c true⟩

def Waveform.configure (w : Waveform) (r : BankRecord) : Waveform :=
  { w with
    pins := ⟨w.pins.q0.configure r 0, w.pins.q1.configure r 1, w.pins.q2.configure r 2,
      w.pins.q3.configure r 3⟩ }

/-- A tick of a bank's Waveform Stage: the divider phase of a running bank, and every pin. -/
def Bank.tick (k : Bank) : Bank :=
  let pins := k.wave.pins.map fun p => ⟨p.primary.tick, p.partner.tick⟩
  match k.seq.live with
  | some v =>
    if k.seq.plan.isRunning then
      if k.wave.phase + 1 < v.divider then
        { k with wave := { k.wave with pins, phase := k.wave.phase + 1 } }
      else { k with wave := { k.wave with pins, phase := 0, advanceDue := true } }
    else { k with wave := { k.wave with pins } }
  | none => { k with wave := { k.wave with pins } }

end Sys2Proof.Machine
end

