-- ==== Sys2Proof/Machine/Gates.lean ====
section
/-! DEFINITION. The Trip Gate: its sources, tripping, and the two ways it reopens (R80 to R95). -/

namespace Sys2Proof.Machine

/-- A loaded line at its trip level (R81). -/
def Line.atTripLevel (x : Line) : Bool := x.loaded && (x.high == x.cfg.tripHigh)

/-- Some selected line is at its trip level (R81, R85). -/
def State.lineTrips (s : State) (b : BankNo) : Bool :=
  eight.any fun l => (s.bank b).gate.mask.getLsbD l.val && (s.line l).atTripLevel

/-- A trip source of the bank is active (R81). -/
def State.sourceActive (s : State) (b : BankNo) : Bool :=
  (s.bank b).gate.swTrip || s.lineTrips b

/-- An OPEN gate trips (R82). -/
def State.tripGate (s : State) (b : BankNo) : State :=
  ((s.modGate b fun g => { g with tripped := true, trips := satInc g.trips }).raise
    (causeBank b)).refreshPins b

/-- A gate becomes OPEN (R90). -/
def State.openGate (s : State) (b : BankNo) : State :=
  (s.modGate b fun g => { g with tripped := false, rearmPending := false }).refreshPins b

/-- What a boundary, or leaving RUNNING or STARVED, does to a TRIPPED gate: a MANUAL gate with a
rearm pending opens (R86), an AUTO gate with no source active opens (R88, R89). -/
def State.releaseGate (s : State) (b : BankNo) : State :=
  let g := (s.bank b).gate
  if g.tripped && (if g.auto then !s.sourceActive b else g.rearmPending) then s.openGate b else s

/-- A gate judged afresh when a source may have changed: an OPEN gate with a source active trips
(R82), a pending rearm is cancelled by an active source (R87), and an AUTO gate of a bank without
boundaries opens when no source is active (R89). -/
def State.judgeGate (s : State) (b : BankNo) : State :=
  let k := s.bank b
  if !k.gate.tripped then if s.sourceActive b then s.tripGate b else s
  else if k.gate.auto then
    if !k.seq.plan.isRunning && !s.sourceActive b then s.openGate b else s
  else if k.gate.rearmPending && s.sourceActive b then
    s.modGate b fun g => { g with rearmPending := false }
  else s

/-- All four gates, when a line's level or configuration has changed (R81, R92). -/
def State.judgeGates (s : State) : State :=
  (((s.judgeGate 0).judgeGate 1).judgeGate 2).judgeGate 3

end Sys2Proof.Machine
end

