-- ==== Sys2Proof/Machine/Cues.lean ====
section
/-! DEFINITION. A frame becoming live, and the Cue Network: the latches of the four banks, and the
chain of starts that one cue or edge can cause on one tick (R9, R10, R51 to R58, R68 to R79). -/

namespace Sys2Proof.Machine

/-! ### A frame becomes live (R9, R10, R35, R51, R53, R57) -/

/-- The entries of a frame laid over the settings that stand (R9). -/
def mergeSettings (base : Quad ChanSetting) : List (ChanNo × ChanSetting) → Quad ChanSetting
  | [] => base
  | (c, x) :: rest => mergeSettings (base.set c x) rest

/-- The live frame context of a frame that becomes live; `forced` sets CUE_FORCED (R24, R35, R78). -/
def FrameCopy.live (f : FrameCopy) (forced : Bool) : Live :=
  { sel := f.sel, countMode := f.countMode, period := f.period, divider := f.divider,
    repeatRemaining := f.repeats, endAction := f.endAction, link := .null, passes := 0#32,
    clamped := f.clamped, stretched := f.stretched, extended := false, cueForced := forced }

/-- The settings the four channels take when a frame becomes live; the head frame of a plan starts
from the defaults (R9). -/
def Sequencer.merged (q : Sequencer) (f : FrameCopy) : Quad ChanSetting :=
  mergeSettings (if q.firstFrame then .all .default else q.settings) f.entries

/-- The references from which the first pass starts: all OFF for the head frame (R57). -/
def Bank.startRefs (k : Bank) : Quad Bool :=
  if k.seq.firstFrame then .all false else k.wave.lastRef

/-- A frame becomes live: the latch is consumed, the tag is EMPTY, settings and counter start
together, and the counter takes 0 (R35, R51, R53, R75). -/
def Bank.begin (k : Bank) (f : FrameCopy) (forced : Bool) : Bank :=
  { k with
    seq := { k.seq with
      plan := .running, live := some (f.live forced), settings := k.seq.merged f, tag := .empty,
      staged := none, latch := .disarmed, awaited := none, timer := none, firstFrame := false }
    wave := { k.wave.atZero with lastRef := references (k.seq.merged f) k.startRefs 0 } }

/-- The link may be read (R30). -/
def Sequencer.mayReadLink (q : Sequencer) : Bool :=
  q.plan.isRunning && q.tag = .empty && !q.linkRead

/-- An occasion of R30 to read the link of the live frame. From here on the link read counts as in
flight for R34 and R36, also while it waits at the arbiter or on a descriptor load: the model's choice
(log entry 16). -/
def State.readLink (s : State) (b : BankNo) : State :=
  match (s.bank b).seq.live with
  | some v =>
    if (s.bank b).seq.mayReadLink then
      (s.modSeq b fun q => { q with linkRead := true }).requestFrame b (.link v.sel)
    else s
  | none => s

/-- A frame is written LIVE and becomes live, and its link is read (R28, R35, R39). -/
def State.startFrame (s : State) (b : BankNo) (f : FrameCopy) (forced : Bool) : State :=
  (((s.requestFrame b (.state f.sel .live)).modBank b fun k => k.begin f forced).readLink
    b).refreshPins b

/-! ### The Cue Network (R68, R70, R73, R75) -/

/-- The cues of a frame that has just become live: FRAME_START, and MATCH when channel 0's compare
is 0 (R58, R68). -/
def State.startCues (emit : StartCond → State → State) (s : State) (b : BankNo) : State :=
  if ((emit (.cue b .frameStart) s).bank b).matches0 then
    emit (.cue b .matched) (emit (.cue b .frameStart) s)
  else emit (.cue b .frameStart) s

/-- A cue or edge reaches the latch of one bank: a matching one sets an armed latch of a running
bank (R73) and starts the frame of a waiting one (R75). `emit` carries the cues of that start. -/
def State.takeCue (emit : StartCond → State → State) (c : StartCond) (s : State) (b : BankNo) :
    State :=
  let q := (s.bank b).seq
  if q.latch = .armed && q.awaited = some c then
    if q.plan = .waiting then
      match q.staged with
      | some f => State.startCues emit (s.startFrame b f false) b
      | none => s
    else s.modSeq b fun q => { q with latch := .set }
  else s

/-- A cue or edge reaches the latches of all four banks. A start within it emits cues of its own;
each start disarms a latch, so a chain has at most four links and four levels carry it whole. -/
def offer : Nat → StartCond → State → State
  | 0, _, s => s
  | n + 1, c, s =>
    State.takeCue (offer n) c (State.takeCue (offer n) c (State.takeCue (offer n) c
      (State.takeCue (offer n) c s 0) 1) 2) 3

/-- The levels of `offer`: one for each bank. -/
def cueDepth : Nat := 4

/-- A bank emits a cue (R68). -/
def State.emit (s : State) (b : BankNo) (k : CueKind) : State := offer cueDepth (.cue b k) s

/-- A line offers an edge to the latches (R70). -/
def State.offerEdge (s : State) (l : LineNo) (d : EdgeDir) : State := offer cueDepth (.line l d) s

/-- A frame becomes live by a step of its own bank, with its cues. -/
def State.startOwn (s : State) (b : BankNo) (f : FrameCopy) (forced : Bool) : State :=
  State.startCues (offer cueDepth) (s.startFrame b f forced) b

end Sys2Proof.Machine
end

