-- ==== Sys2Proof/Machine/Capture.lean ====
section
/-! DEFINITION. The Line Front-end: arming, the two capture modes, the holding register, and the
acceptance of a LINE_LOAD (R113 to R126). -/

namespace Sys2Proof.Machine

/-! ### Arming (R119) -/

/-- A journal to which lines may capture: OPEN or FAULTED, and not closing (R119, R142). -/
def Journal.capturing (x : Journal) : Bool :=
  (x.state = .opened || x.state = .faulted) && !x.closing

/-- The armed condition of a line (R119). -/
def State.mayArm (s : State) (l : LineNo) : Bool :=
  (s.line l).loaded && (s.line l).cfg.mode != .off && (s.journal (s.line l).cfg.journal).capturing

/-- An arming: the prescale count becomes 0 and the width reference none (R119). -/
def Line.arm (x : Line) : Line := { x with armed := true, prescaleCount := 0, widthRef := none }

/-- The armed condition of a line judged afresh; a change requests a Line Status write (R119). -/
def State.judgeArmed (s : State) (l : LineNo) : State :=
  if s.mayArm l = (s.line l).armed then s
  else if s.mayArm l then (s.modLine l Line.arm).requestLineStatus l
  else (s.modLine l fun x => { x with armed := false }).requestLineStatus l

/-- Every line judged afresh, when a journal's state has changed (R119). -/
def State.judgeLines (s : State) : State := eight.foldl State.judgeArmed s

/-! ### Capture (R120 to R123) -/

/-- What an edge makes of an armed line: the line with its counts moved, and the event's kind, value
and SATURATED flag when it is a capture event. -/
structure Captured where
  line : Line
  event : Option (EventKind × BitVec 32 × Bool)
  deriving DecidableEq, Repr

/-- The edge select takes this edge (R120). -/
def EdgeSelect.takes (e : EdgeSelect) (d : EdgeDir) : Bool :=
  match e, d with
  | .both, _ => true
  | .rise, .rise => true
  | .fall, .fall => true
  | _, _ => false

def EdgeDir.stampKind : EdgeDir → EventKind
  | .rise => .rise
  | .fall => .fall

def EdgeDir.widthKind : EdgeDir → EventKind
  | .rise => .lowWidth
  | .fall => .highWidth

/-- STAMP mode (R120). -/
def Line.stampEdge (x : Line) (d : EdgeDir) : Captured :=
  if x.cfg.select.takes d then
    if x.prescaleCount + 1 = x.cfg.prescale then
      ⟨{ x with prescaleCount := 0 }, some (d.stampKind, BitVec.ofNat 32 x.cfg.prescale, false)⟩
    else ⟨{ x with prescaleCount := x.prescaleCount + 1 }, none⟩
  else ⟨x, none⟩

/-- WIDTH mode; the difference is taken modulo 2^48 and saturates (R121, R184). -/
def Line.widthEdge (x : Line) (d : EdgeDir) (stamp : Stamp) : Captured :=
  match x.widthRef with
  | none => ⟨{ x with widthRef := some stamp }, none⟩
  | some r =>
    if (stamp - r).toNat < 2 ^ 32 then
      ⟨{ x with widthRef := some stamp }, some (d.widthKind, (stamp - r).setWidth 32, false)⟩
    else ⟨{ x with widthRef := some stamp }, some (d.widthKind, BitVec.allOnes 32, true)⟩

/-- An armed line handles an edge by its mode (R119 to R121). -/
def Line.capture (x : Line) (d : EdgeDir) (stamp : Stamp) : Captured :=
  match x.cfg.mode with
  | .off => ⟨x, none⟩
  | .stamp => x.stampEdge d
  | .width => x.widthEdge d stamp

/-- An event counted as missed by its journal: the missed total goes up, the holding register is
emptied and a status word is requested (R135, R140, R141). -/
def State.countMissed (s : State) (j : JournalNo) (l : LineNo) : State :=
  ((s.modJournal j fun x => { x with missed := x.missed + 1#32 }).modLine l fun x =>
    { x with holding := none }).requestStatusWord j

/-- The event a line makes now (R122, R123). -/
def Line.makeEvent (x : Line) (l : LineNo) (kind : EventKind) (value : BitVec 32)
    (saturated : Bool) (stamp : Stamp) : Event :=
  { line := l, journal := x.cfg.journal, kind, sequence := x.sequence, value, stamp, saturated,
    overrun := x.lost }

/-- The event enters an empty holding register, and a FAULTED journal counts it at once (R123,
R141). -/
def State.enterEvent (s : State) (l : LineNo) (e : Event) : State :=
  let s := s.modLine l fun x =>
    { x with sequence := x.sequence + 1#8, lost := false, holding := some e }
  if (s.journal e.journal).state = .faulted then s.countMissed e.journal l else s

/-- The event finds the register full and is lost (R123). -/
def State.loseEvent (s : State) (l : LineNo) : State :=
  (s.modLine l fun x =>
    { x with sequence := x.sequence + 1#8, lost := true, overruns := satInc x.overruns }).requestLineStatus
    l

/-- A capture event goes to the holding register (R122, R123). -/
def State.putEvent (s : State) (l : LineNo) (kind : EventKind) (value : BitVec 32)
    (saturated : Bool) : State :=
  if (s.line l).holding.isNone then
    s.enterEvent l ((s.line l).makeEvent l kind value saturated s.now)
  else s.loseEvent l

/-- An edge reaches capture (R118, R119). -/
def State.captureEdge (s : State) (l : LineNo) (d : EdgeDir) : State :=
  if (s.line l).armed then
    let c := (s.line l).capture d s.now
    match c.event with
    | none => s.setLine l c.line
    | some (kind, value, saturated) => (s.setLine l c.line).putEvent l kind value saturated
  else s

/-! ### The filter (R117) -/

/-- The pin level that a sample of this tick shows (R117, 11.9). -/
def State.sampleLevel (s : State) (l : LineNo) : Bool := s.pinsAgo2.getLsbD l.val

/-- The sample of this tick differs from the filtered level and completes the run of N. -/
def State.edgeDue (s : State) (l : LineNo) : Bool :=
  let x := s.line l
  x.loaded && x.sampleDue && (s.sampleLevel l != x.high) && decide (x.cfg.count ≤ x.run + 1)

/-- A sample that makes no edge (R117). -/
def State.takeSample (s : State) (l : LineNo) : State :=
  let level := s.sampleLevel l
  s.modLine l fun x =>
    { x with sampleDue := false, run := if level = x.high then 0 else x.run + 1 }

/-- The direction of the edge that the filtered level makes by changing now. -/
def Line.nextEdge (x : Line) : EdgeDir := if x.high then .fall else .rise

/-- The filtered level changes: the Trip Gates, the cue latches and capture take the edge (R117,
R118), and a Line Status write is requested (R125). That the Trip Gates are judged before the latches
take the edge is the model's choice: R70, R89 and R118 give no order (log entry 35). So is that the
gates are judged at each edge by itself, where two lines make one on the same tick (R89; log entry
40). -/
def State.acceptEdge (s : State) (l : LineNo) : State :=
  let d := (s.line l).nextEdge
  let s := (s.modLine l fun x => { x with high := !x.high, run := 0, sampleDue := false }).requestLineStatus l
  (s.judgeGates.offerEdge l d).captureEdge l d

/-! ### LINE_LOAD accepted (R115, R116) -/

/-- The front-end under its new configuration; on a first load the filtered level is the pin's. -/
def Line.load (x : Line) (cfg : LineConfig) (level : Bool) : Line :=
  { x with
    loaded := true, cfg, phase := 0, sampleDue := false, run := 0,
    high := if x.loaded then x.high else level,
    sequence := 0#8, prescaleCount := 0, widthRef := none, lost := false }

/-- An accepted LINE_LOAD (R92, R115, R116). -/
def State.loadLine (s : State) (l : LineNo) (cfg : LineConfig) : State :=
  let level := s.sampleLevel l
  let s := s.modLine l fun x => x.load cfg level
  let s := s.modLine l fun x => { x with armed := s.mayArm l }
  (s.requestLineStatus l).judgeGates

end Sys2Proof.Machine
end

