-- ==== Sys2Proof/Machine/Window.lean ====
section
/-! DEFINITION. The Window Unit: the ordered window check, the cache and its descriptor loads
(R145 to R153). -/

namespace Sys2Proof.Machine

/-- The outcome of a window check. -/
inductive CheckResult where
  /-- passed, with the access's address -/
  | pass (addr : Nat)
  /-- failed, with the subcode of the first failing step -/
  | fail (sub : Subcode)
  /-- a descriptor load must arrive first -/
  | waiting
  deriving DecidableEq, Repr

/-- Steps 2 to 6 of R147 against one descriptor. -/
def judgeDescriptor (d : Descriptor) (offset length : Nat) (write : Bool) (domain : Byte) :
    CheckResult :=
  if !d.present then .fail .absent
  else if d.base % 8 ≠ 0 || 3 < d.ceiling.toNat then .fail .badDescriptor
  else if !(if write then d.canWrite else d.canRead) then .fail .rights
  else if 2 ^ 32 < offset + length || d.limit + 1 < offset + length
      || 2 ^ 48 < d.base + offset + length then .fail .limit
  else if d.ceiling.toNat < domain.toNat then .fail .domain
  else .pass (d.base + offset)

def cacheFind (index : Byte) : List (Byte × Descriptor) → Option Descriptor
  | [] => none
  | (i, d) :: rest => if i = index then some d else cacheFind index rest

/-- An entry becomes the most recently used (R150). -/
def cacheTouch (index : Byte) (d : Descriptor) (c : List (Byte × Descriptor)) :
    List (Byte × Descriptor) :=
  (index, d) :: c.filter fun e => e.1 ≠ index

/-- A loaded descriptor enters the cache in an empty entry or in place of the least recently used
one, as the most recently used (R151). -/
def cacheInsert (index : Byte) (d : Descriptor) (c : List (Byte × Descriptor)) :
    List (Byte × Descriptor) :=
  (cacheTouch index d c).take Config.cacheEntries

def loadFind (index : Byte) : List Load → Option Load
  | [] => none
  | x :: rest => if x.index = index then some x else loadFind index rest

/-- Descriptor `n` of the Window Table (R145, R151). -/
def State.descriptorAddr (s : State) (index : Byte) : Nat :=
  s.window.tableAddr.toNat + 16 * index.toNat

/-- A descriptor load takes the turn of the requester that starts it (R151). -/
def State.requestLoad (s : State) (r : Requester) (index : Byte) : State :=
  match r with
  | .bank b _ =>
    s.modBank b fun k =>
      { k with fifo := placeReq ⟨.load index, .ready (s.descriptorAddr index) false⟩ k.fifo }
  | .journal j => s.requestJournal j (.load index)
  | .ring j => s.requestJournal j (.load index)

/-- One more access waits on the load of an index. -/
def addWaiter (r : Requester) (index : Byte) (loads : List Load) : List Load :=
  loads.map fun x => if x.index = index then { x with waiters := x.waiters ++ [r] } else x

/-- A window check (R147, R150): step 1 against the table count, then the cache; on a miss the
access waits on a load, which is started when none is in flight for the index. -/
def State.windowCheck (s : State) (r : Requester) (index : Byte) (offset length : Nat)
    (write : Bool) (domain : Byte) : State × CheckResult :=
  if s.window.tableCount ≤ index.toNat then (s, .fail .index)
  else
    match cacheFind index s.window.cache with
    | some d =>
      (s.modWindow fun w => { w with cache := cacheTouch index d w.cache },
        judgeDescriptor d offset length write domain)
    | none =>
      match loadFind index s.window.loads with
      | some _ => (s.modWindow fun w => { w with loads := addWaiter r index w.loads }, .waiting)
      | none =>
        ((s.modWindow fun w =>
          { w with loads := w.loads ++ [⟨index, false, [r]⟩] }).requestLoad r index, .waiting)

/-- An access of this bank that meets `p`. -/
def Requester.ofBank (b : BankNo) (p : FrameAccess → Bool) : Requester → Bool
  | .bank c a => c = b && p a
  | _ => false

/-- The accesses of a bank that meet `p` no longer wait on any load; the load itself goes on (log
entry 37). -/
def State.dropWaiters (s : State) (b : BankNo) (p : FrameAccess → Bool) : State :=
  s.modWindow fun w =>
    { w with loads := w.loads.map fun x =>
        { x with waiters := x.waiters.filter fun r => !r.ofBank b p } }

/-- The flush of R152: every entry emptied, every load in flight marked stale. -/
def State.flushWindows (s : State) : State :=
  s.modWindow fun w =>
    { w with cache := [], loads := w.loads.map fun x => { x with stale := true } }

/-- A descriptor load among a journal's requests. -/
def JournalReq.isLoad : JournalReq → Bool
  | .load _ => true
  | _ => false

/-- A read that is a descriptor load is discarded. -/
def OutRead.dropLoad (r : OutRead) : OutRead :=
  match r.owner with
  | .descriptor _ => { r with discarded := true }
  | _ => r

/-- A descriptor load among a bank's requests. -/
def FrameAccess.isLoad : FrameAccess → Bool
  | .load _ => true
  | _ => false

def Bank.dropLoads (k : Bank) : Bank :=
  { k with fifo := k.fifo.filter fun r => !r.acc.isLoad }

def Journal.dropLoads (x : Journal) : Journal :=
  { x with fifo := x.fifo.filter fun r => !r.isLoad }

/-- Entry to BOOTING: the cache is emptied, the loads not yet issued are dropped and those in flight
are discarded (R153). -/
def State.discardLoads (s : State) : State :=
  { s with
    window := { s.window with cache := [], loads := [] }
    banks := s.banks.map Bank.dropLoads
    journals := s.journals.map Journal.dropLoads
    port := { s.port with reads := s.port.reads.map OutRead.dropLoad } }

end Sys2Proof.Machine
end

