-- ==== Sys2Proof/Machine/JournalOps.lean ====
section
/-! DEFINITION. The Journal Writer: the step that drains held events, gaps, the watermark, faults,
opening and closing (R128 to R144). -/

namespace Sys2Proof.Machine

/-! ### The executing request of a journal -/

/-- The executing request has its result; its reply is offered once `w` is satisfied (R159, R169). -/
def State.answer (s : State) (r : Result) (w : WaitFor) : State :=
  s.modSweep fun x => { x with exec := x.exec.map fun e => { e with phase := .answered r w } }

/-- The JOURNAL_LOOK executing for this journal, if there is one, is answered (R139). -/
def State.answerLook (s : State) (j : JournalNo) (r : Result) : State :=
  match s.sweep.exec with
  | some e => if e.phase = .look j then s.answer r .nothing else s
  | none => s

/-- The JOURNAL_CLOSE executing for this journal, if there is one, is answered once its words are
issued (R142, R143, R169). -/
def State.answerClose (s : State) (j : JournalNo) : State :=
  match s.sweep.exec with
  | some e => if e.phase = .closing j then s.answer .done (.journalWords j) else s
  | none => s

/-! ### Room, watermark (R130, R134, R138) -/

/-- Unconsumed records (R130). -/
def Journal.unconsumed (x : Journal) : Nat := (x.produce - x.cached).toNat

/-- Free room (R130). -/
def Journal.room (x : Journal) : Nat := x.capacity - x.unconsumed

/-- The watermark flag judged; on becoming set it sets CAUSE.JOURNALj (R138). -/
def State.judgeWatermark (s : State) (j : JournalNo) : State :=
  let x := s.journal j
  if x.watermark ≤ x.unconsumed then
    if x.watermarkFlag then s
    else (s.modJournal j fun x => { x with watermarkFlag := true }).raise (causeJournal j)
  else s.modJournal j fun x => { x with watermarkFlag := false }

/-! ### The events that belong to a journal (R133) -/

/-- The event that line `l` holds for journal `j`. -/
def State.heldFor (s : State) (j : JournalNo) (l : LineNo) : Option Event :=
  match (s.line l).holding with
  | some e => if e.journal = j then some e else none
  | none => none

/-- How long ago an event was stamped, on the 48-bit timebase (R184; log entry 13). -/
def State.age (s : State) (e : Event) : Nat := (s.now - e.stamp).toNat

/-- Of the events held for a journal by these lines, the line of the oldest; of equal stamps the
first line (R133). -/
def State.oldestAmong (s : State) (j : JournalNo) : List LineNo → Option (LineNo × Event)
  | [] => none
  | l :: rest =>
    match s.heldFor j l, s.oldestAmong j rest with
    | none, r => r
    | some e, none => some (l, e)
    | some e, some (m, f) => if s.age e < s.age f then some (m, f) else some (l, e)

def State.oldest (s : State) (j : JournalNo) : Option LineNo :=
  (s.oldestAmong j eight).map (·.1)

/-- Every event held for the journal is counted as missed (R140, R143). -/
def State.countHeld (s : State) (j : JournalNo) : State :=
  eight.foldl (fun s l => if (s.heldFor j l).isSome then s.countMissed j l else s) s

/-! ### FAULTED (R140) -/

/-- The journal becomes FAULTED. `lostRecord`: an event record was issued and answered with an
error, so that its event is in no holding register any more. A LOOK value held for the end of the
step is not judged, and its request is answered (R139). A re-read of a JOURNAL_LOOK that is requested
and not yet issued is still issued and answers on its arrival: the model's choice (R141; log entry
36). -/
def State.faultJournal (s : State) (j : JournalNo) (f : JournalFault) (lostRecord : Bool) : State :=
  let s := s.modJournal j fun x =>
    { x with
      state := .faulted, fault := f, gap := 0#32, step := .idle, held := none,
      missed := if lostRecord then x.missed + 1#32 else x.missed }
  let s := ((s.countHeld j).raise (causeJournal j)).requestStatusWord j
  if (s.journal j).rereadInFlight then s else s.answerLook j .done

/-! ### Consume values (R134, R139) -/

/-- A consume value judged: accepted, it becomes the cached consume and the watermark is judged; out
of range, the journal becomes FAULTED (R134). -/
def State.judgeConsume (s : State) (j : JournalNo) (v : BitVec 16) : State :=
  if ((s.journal j).produce - v).toNat ≤ (s.journal j).capacity then
    (s.modJournal j fun x => { x with cached := v }).judgeWatermark j
  else s.faultJournal j .consumeRange false

/-- The step ends; a LOOK value held for its end is judged and the request answered (R134, R139). -/
def State.endStep (s : State) (j : JournalNo) : State :=
  let s1 := s.modJournal j fun x => { x with step := .idle, held := none }
  match (s.journal j).held with
  | none => s1
  | some v => (s1.judgeConsume j v).answerLook j .done

/-! ### Records (R135, R136) -/

/-- A record write is requested at an address that passed its check. -/
def State.writeRecord (s : State) (j : JournalNo) (p : StepPlan) (addr : Nat) : State :=
  (s.modJournal j fun x => { x with step := .write p }).requestJournal j (.record addr false)

/-- The outcome of the window check of a step's record (R136, R140). -/
def State.recordChecked (s : State) (j : JournalNo) (p : StepPlan) : CheckResult → State
  | .pass addr => s.writeRecord j p addr
  | .fail sub => s.faultJournal j sub.journalFault false
  | .waiting => s

/-- Byte offset in the window of the slot of the current produce index (R130). -/
def Journal.slotOffset (x : Journal) : Nat :=
  x.ringOffset + 16 * (x.produce.toNat % x.capacity)

/-- The window check of a step's next record (R136). -/
def State.checkRecord (s : State) (j : JournalNo) (p : StepPlan) : State :=
  let x := s.journal j
  let c := (s.modJournal j fun x => { x with step := .check p }).windowCheck (.journal j) x.window
    x.slotOffset 16 true x.domain
  c.1.recordChecked j p c.2

/-- The chosen event joins the pending gap and the missed total (R135, fourth row). -/
def State.missEvent (s : State) (j : JournalNo) (l : LineNo) : State :=
  match (s.line l).holding with
  | some e =>
    (s.modJournal j fun x =>
      { x with gap := satInc x.gap, gapStamp := if x.gap = 0#32 then e.stamp else x.gapStamp }).countMissed
      j l
  | none => s

/-- The free room is known: the step writes or counts the chosen event (R135). -/
def State.planEvent (s : State) (j : JournalNo) (l : LineNo) : State :=
  let x := s.journal j
  if x.room = 0 then (s.missEvent j l).endStep j
  else if x.gap = 0#32 then s.checkRecord j (.event l)
  else if x.room = 1 then s.checkRecord j (.gapThenMiss l)
  else s.checkRecord j (.gapThenEvent l)

/-- A consume re-read is issued, unless one is in flight already (R134, R139). -/
def State.requestReread (s : State) (j : JournalNo) : State :=
  if (s.journal j).rereadInFlight then s
  else (s.modJournal j fun x => { x with rereadInFlight := true }).requestJournal j .reread

/-- The step waits for a consume re-read. -/
def State.waitReread (s : State) (j : JournalNo) (l : Option LineNo) : State :=
  (s.modJournal j fun x => { x with step := .reread l }).requestReread j

/-- A step begins on the chosen event (R134). -/
def State.beginStep (s : State) (j : JournalNo) (l : LineNo) : State :=
  if (s.journal j).room = 0 then s.waitReread j (some l) else s.planEvent j l

/-- What a step waiting for a re-read does once the value has been accepted. -/
def State.resumeStep (s : State) (j : JournalNo) : Option LineNo → State
  | some l => s.planEvent j l
  | none => if (s.journal j).room = 0 then s.endStep j else s.checkRecord j .gapOnly

/-! ### Closing (R142, R143) -/

/-- The last step of a close (R142 step 4, R143). -/
def State.finishClose (s : State) (j : JournalNo) : State :=
  ((s.modJournal j fun x =>
    { x with state := .closed, closing := false, lastGapDone := false }).requestStatusWord
    j).answerClose j

/-- A close still has an event or a last GAP record to take before its end (R142). -/
def State.closeHasWork (s : State) (j : JournalNo) : Bool :=
  let x := s.journal j
  x.state = .opened && ((s.oldest j).isSome || (x.gap != 0#32 && !x.lastGapDone))

/-- A closing journal that can go on on this tick: no step is in progress, and the end of the close
does not come before a re-read in flight has arrived (R142, R144). -/
def State.closeReady (s : State) (j : JournalNo) : Bool :=
  let x := s.journal j
  x.closing && x.step = .idle && (!x.rereadInFlight || s.closeHasWork j)

/-- The close goes on: the next held event, then the last GAP record, then the end (R142, R143). -/
def State.continueClose (s : State) (j : JournalNo) : State :=
  let x := s.journal j
  if x.state = .opened then
    match s.oldest j with
    | some l => s.beginStep j l
    | none =>
      if x.gap = 0#32 || x.lastGapDone then s.finishClose j
      else
        let s := s.modJournal j fun x => { x with lastGapDone := true }
        if x.room = 0 then s.waitReread j none else s.checkRecord j .gapOnly
  else (s.countHeld j).finishClose j

/-- The first step of a close: the closing flag, and the lines disarmed (R142 step 1, R143). -/
def State.beginClose (s : State) (j : JournalNo) : State :=
  (s.modJournal j fun x => { x with closing := true, lastGapDone := false }).judgeLines

/-! ### Opening (R132) -/

def Journal.openWith (x : Journal) (r : JournalRecord) : Journal :=
  { x with
    window := r.window, domain := r.domain, capacity := r.capacity, ringOffset := r.ringOffset,
    watermark := r.watermark, produce := r.consume, cached := r.consume, gap := 0#32,
    missed := 0#32, watermarkFlag := false, fault := .none, state := .opened }

/-- An accepted JOURNAL_OPEN (R132). -/
def State.openJournal (s : State) (j : JournalNo) (r : JournalRecord) : State :=
  (((s.modJournal j fun x => x.openWith r).requestJournal j (.produceWord r.consume)).requestStatusWord
    j).judgeLines.answer .done (.journalWords j)

/-- The outcome of the ring check (R131, R148). One that passes after a quiesce has begun opens
nothing (R170; log entry 12), nor does one of a journal that is not CLOSED (R131). -/
def State.ringChecked (s : State) (j : JournalNo) (r : JournalRecord) : CheckResult → State
  | .waiting => s
  | .pass _ =>
    if s.engine.state = .on && (s.journal j).state = .closed then s.openJournal j r
    else s.answer .refusedState .nothing
  | .fail _ => s.answer .refusedWindow .nothing

/-! ### Arrivals (R134, R136, R139, R144) -/

/-- What the journal's step makes of a consume value. -/
def State.consumeArrived (s : State) (j : JournalNo) (v : BitVec 16) : State :=
  let x := s.journal j
  if x.state = .opened then
    match x.step with
    | .idle => (s.judgeConsume j v).answerLook j .done
    | .reread l =>
      let t := (s.judgeConsume j v).answerLook j .done
      if (t.journal j).state = .opened then t.resumeStep j l else t
    | _ => s.modJournal j fun x => { x with held := some v }
  else s.answerLook j .done

/-- What the journal's step makes of an error on the consume re-read. -/
def State.consumeError (s : State) (j : JournalNo) : State :=
  let x := s.journal j
  let s := (s.raise causePort).answerLook j .refusedPort
  match x.step with
  | .reread (some l) => (s.missEvent j l).endStep j
  | .reread none => s.endStep j
  | _ => s

/-- A consume re-read has arrived (R134, R139, R144). -/
def State.rereadArrived (s : State) (j : JournalNo) : Option (List Byte) → State
  | none => (s.modJournal j fun x => { x with rereadInFlight := false }).consumeError j
  | some bs =>
    (s.modJournal j fun x => { x with rereadInFlight := false }).consumeArrived j
      (BitVec.ofNat 16 (fieldAt bs 4 2))

/-- A record write has been answered, in both halves if it was split (R136, R140). -/
def State.recordAnswered (s : State) (j : JournalNo) (error : Bool) : State :=
  match (s.journal j).step with
  | .write p =>
    if error then
      s.faultJournal j .bus (match p with
        | .event _ => true
        | _ => false)
    else
      let s := (s.modJournal j fun x =>
        { x with produce := x.produce + 1#16, step := .produce p }).judgeWatermark j
      s.requestJournal j (.produceWord (s.journal j).produce)
  | _ => s

/-! ### Issues (R124, R135, R136) -/

/-- A record write has been issued whole: its holding register is emptied, or the pending gap it
carries returns to 0 (R124, R135). -/
def State.recordIssued (s : State) (j : JournalNo) : StepPlan → State
  | .event l => s.modLine l fun x => { x with holding := none }
  | .gapThenEvent _ => s.modJournal j fun x => { x with gap := 0#32 }
  | .gapThenMiss l => (s.modJournal j fun x => { x with gap := 0#32 }).missEvent j l
  | .gapOnly => s.modJournal j fun x => { x with gap := 0#32 }

/-- The 16 bytes of the record of the step in progress (R130). -/
def State.recordBytes (s : State) (j : JournalNo) : StepPlan → List Byte
  | .event l =>
    match (s.line l).holding with
    | some e => eventRecord e
    | none => leBytes 16 0
  | _ => gapRecord (s.journal j).gap (s.journal j).gapStamp

/-- The produce word of a step has been issued: the step ends, or goes on to its event (R133,
R136). -/
def State.produceIssued (s : State) (j : JournalNo) : State :=
  match (s.journal j).step with
  | .produce (.gapThenEvent l) => s.checkRecord j (.event l)
  | .produce _ => s.endStep j
  | _ => s

end Sys2Proof.Machine
end

