-- ==== Sys2Proof/Machine/Sequencing.lean ====
section
/-! DEFINITION. The Plan Sequencer and Fault Logic: retiring, returning, stopping and halting
(R12 to R19, R38 to R48), reporting faults (R96 to R111), and fetching frames (R28 to R32). -/

namespace Sys2Proof.Machine

/-! ### Reporting (R102 to R104) -/

/-- A sticky flag is set (R102). -/
def State.markSticky (s : State) (b : BankNo) (c : FaultClass) : State :=
  s.modFaults b fun f => { f with sticky := f.sticky.mark c }

/-- An unmaskable or unmasked fault: it fills an empty report slot and sets CAUSE.BANKb (R103), or
counts as a further fault (R104). -/
def State.reportFault (s : State) (b : BankNo) (cls : FaultClass) (sub : Subcode) (sel : Selector)
    (field : Nat) (phase : Phase) : State :=
  let s := s.markSticky b cls
  if (s.bank b).faults.report.isNone then
    (s.modFaults b fun f =>
      { f with report := some ⟨cls, sub, sel, BitVec.ofNat 8 field, s.now, phase⟩ }).raise
      (causeBank b)
  else s.modFaults b fun f => { f with further := satInc f.further }

/-! ### Ending frames (R12 to R14, R18, R19) -/

/-- The outcome flags of the live frame (R14). -/
def Live.flags (v : Live) : Byte := outcomeFlags v.clamped v.stretched v.extended v.cueForced

/-- The live frame is given a terminal state: its retire fields are written, and the state follows
on their OK (R18, R107). No frame is live afterwards. -/
def State.retireLive (s : State) (b : BankNo) (code : FrameState) : State :=
  match (s.bank b).seq.live with
  | some v =>
    (s.modSeq b fun q => { q with live := none }).requestFrame b
      (.retire v.sel s.now v.passes v.flags (some code))
  | none => s

/-- A frame written STAGED and not yet live is returned READY (R19). -/
def State.returnStaged (s : State) (b : BankNo) : State :=
  match (s.bank b).seq.staged with
  | some f => s.requestFrame b (.state f.sel .ready)
  | none => s

/-- A frame read of this bank is discarded: it is dropped on arrival (R32, R109). -/
def OutRead.discardFor (b : BankNo) (r : OutRead) : OutRead :=
  if r.owner = .header b || r.owner = .entry b || r.owner = .link b then
    { r with discarded := true }
  else r

/-- The requests of a fetch: the frame reads, and the STAGED write that ends it. -/
def FrameAccess.fetches : FrameAccess → Bool
  | .state _ code => code = .staged
  | a => a.isFrameRead

/-- The reads of a bank are discarded: those issued are dropped when they arrive, those not yet
issued are not issued (R32, R42, R43; log entry 9). Nor is a STAGED write not yet issued: its frame
stays READY (R19, R42). A descriptor load that one of them waited on is issued and cached all the
same: the model's choice (R151; log entry 37). -/
def State.discardReads (s : State) (b : BankNo) : State :=
  ((s.dropWaiters b FrameAccess.fetches).modBank b fun k =>
    { k with fifo := k.fifo.filter fun r => !r.acc.fetches }).modPort fun p =>
    { p with reads := p.reads.map (OutRead.discardFor b) }

/-! ### The end of a plan (R38, R42, R43) -/

/-- The items of R24 and R71 when a plan ends, stops or halts. -/
def Sequencer.ended (q : Sequencer) (plan : PlanState) (reason : StopReason) : Sequencer :=
  { q with
    plan, stopReason := reason, live := none, tag := .empty, staged := none, fetch := none,
    linkRead := false, pendingStop := false, latch := .disarmed, awaited := none, timer := none }

/-- The bank leaves its plan: reads are discarded, the counter is held, a gate that may reopen does
(R86, R89), the pins take their rest levels, CAUSE.BANKb is set and PLAN_END is emitted. -/
def State.endPlan (s : State) (b : BankNo) (plan : PlanState) (reason : StopReason) : State :=
  let s := s.discardReads b
  let s := s.modBank b fun k => { k with seq := k.seq.ended plan reason, wave := k.wave.atZero }
  let s := ((s.releaseGate b).refreshPins b).raise (causeBank b)
  s.emit b .planEnd

/-- A stop takes effect: the live frame is retired with `code`, a staged frame is returned, and the
bank is DORMANT with stop reason STOPPED (R41, R42). -/
def State.stopBank (s : State) (b : BankNo) (code : FrameState) : State :=
  ((s.retireLive b code).returnStaged b).endPlan b .dormant .stopped

/-- The bank enters HALTED (R43). `bad` is the frame of a write fault, which gets no further write
and is neither retired nor returned; any other live frame is CUT, any other staged one returned. -/
def State.haltBank (s : State) (b : BankNo) (bad : Option Selector) : State :=
  let s :=
    match (s.bank b).seq.live with
    | some v => if bad = some v.sel then s else s.retireLive b .cut
    | none => s
  let s :=
    match (s.bank b).seq.staged with
    | some f => if bad = some f.sel then s else s.returnStaged b
    | none => s
  s.endPlan b .halted .fault

/-! ### Faults on writes to frames (R107) -/

/-- The write of a frame's retire fields carries no state write with it any more. -/
def FrameAccess.withhold : FrameAccess → FrameAccess
  | .retire sel stamp passes flags _ => .retire sel stamp passes flags none
  | a => a

/-- A request whose first half has been issued. -/
def ReqStatus.begun : ReqStatus → Bool
  | .ready _ second => second
  | _ => false

/-- A write to this frame. -/
def FrameAccess.writesTo (sel : Selector) (a : FrameAccess) : Bool := a.isWrite && a.sel = sel

/-- The writes not yet issued to a frame at fault are struck; a write of which one half has been
issued is completed, and no state write follows it. -/
def cancelWrites (sel : Selector) : List FrameReq → List FrameReq
  | [] => []
  | r :: rest =>
    if r.acc.writesTo sel then
      if r.status.begun then { r with acc := r.acc.withhold } :: cancelWrites sel rest
      else cancelWrites sel rest
    else r :: cancelWrites sel rest

/-- A retire-field write of the frame that awaits its response releases no state write. -/
def OutWrite.withholdFor (b : BankNo) (sel : Selector) (w : OutWrite) : OutWrite :=
  match w.owner with
  | .frameRetire c x _ => if c = b && x = sel then { w with owner := .frameRetire c x none } else w
  | _ => w

/-- The engine makes no further writes to a frame (R18, R107). -/
def State.withholdWrites (s : State) (b : BankNo) (sel : Selector) : State :=
  ((s.dropWaiters b (FrameAccess.writesTo sel)).modBank b fun k =>
    { k with fifo := cancelWrites sel k.fifo }).modPort fun p =>
    { p with writes := p.writes.map (OutWrite.withholdFor b sel) }

/-- A write fault on a frame: it is reported, the frame gets no further write, and an active bank
halts at once (R107). -/
def State.writeFault (s : State) (b : BankNo) (sel : Selector) (field : Nat) (cls : FaultClass)
    (sub : Subcode) : State :=
  let s := (s.reportFault b cls sub sel field .boundary).withholdWrites b sel
  if (s.bank b).seq.plan.isActive then s.haltBank b (some sel) else s

/-! ### Fetching a frame (R28, R31, R32) -/

/-- The header read of a frame to be taken. -/
def State.fetchFrame (s : State) (b : BankNo) (role : Role) (sel : Selector) : State :=
  (s.modSeq b fun q => { q with fetch := some ⟨role, sel, none, none, none⟩ }).requestFrame b (.header sel)

/-- A fault on the head frame halts at once; one on a successor makes the tag REJECTED (R105). -/
def State.failFetch (s : State) (b : BankNo) (role : Role) : State :=
  let s := s.modSeq b fun q => { q with fetch := none }
  match role with
  | .head => s.haltBank b none
  | .successor => s.modSeq b fun q => { q with tag := .rejected }

/-- The phase of a fault found on a fetch (R99). -/
def Role.phase : Role → Phase
  | .head => .head
  | .successor => .staging

/-- A fault on a fetch that leaves the frame unwritten. -/
def State.fetchFault (s : State) (b : BankNo) (f : Fetch) (cls : FaultClass) (sub : Subcode)
    (field : Nat) : State :=
  (s.reportFault b cls sub f.sel field f.role.phase).failFetch b f.role

/-- A frame is written REJECTED, its retire fields first: passes run 0, CLAMPED alone possible
(R12 to R14, R18). -/
def State.writeRejected (s : State) (b : BankNo) (sel : Selector) (clamped : Bool) : State :=
  s.requestFrame b (.retire sel s.now 0#32 (outcomeFlags clamped false false false) (some .rejected))

/-- The tick at which the wait limit of a frame expires when its wait starts now (R77). -/
def FrameCopy.expiry (f : FrameCopy) (now : Stamp) : Option Stamp :=
  if f.waitLimit = 0 then none else some (now + BitVec.ofNat 48 (f.waitLimit * 1024))

/-- The condition a frame's latch awaits; none under NOW (R72). -/
def FrameCopy.awaits (f : FrameCopy) : Option StartCond :=
  if f.start = .now then none else some f.start

/-- A frame has been written STAGED: it is held, the tag is VALID and its latch is armed (R29, R72). -/
def State.holdStaged (s : State) (b : BankNo) (f : FrameCopy) : State :=
  s.modSeq b fun q =>
    { q with
      fetch := none, tag := .valid, staged := some f,
      latch := if f.start = .now then .disarmed else .armed, awaited := f.awaits }

/-- The bank enters WAITING: no frame is live, the counter is held, the wait-limit timer starts, and
the pins take their rest levels (R35, R39, R77). -/
def State.enterWaiting (s : State) (b : BankNo) (f : FrameCopy) : State :=
  (s.modBank b fun k =>
    { k with
      seq := { k.seq with plan := .waiting, live := none, timer := f.expiry s.now }
      wave := k.wave.atZero }).refreshPins b

/-- A frame has passed its checks: its STAGED write is requested, and until that is issued the fetch
keeps the checked copy (R28, R29, R32; log entry 14). -/
def State.stageFrame (s : State) (b : BankNo) (f : Fetch) (copy : FrameCopy) : State :=
  let s := if copy.clamped then s.markSticky b .range else s
  let s := if copy.stretched then s.markSticky b .timing else s
  (s.modSeq b fun q => { q with fetch := some { f with copy := some copy } }).requestFrame b
    (.state copy.sel .staged)

/-- The STAGED write of a fetch has been issued: the frame is held as the successor, or, as the head
of its plan, starts at once or waits (R16, R28, R29, R34). -/
def State.stagedIssued (s : State) (b : BankNo) : State :=
  match (s.bank b).seq.fetch with
  | some ⟨.successor, _, _, _, some copy⟩ => s.holdStaged b copy
  | some ⟨.head, _, _, _, some copy⟩ =>
    if copy.start = .now then (s.holdStaged b copy).startOwn b copy false
    else (s.holdStaged b copy).enterWaiting b copy
  | _ => s

/-- The outcome of a frame's checks (R28, R32, R101). -/
def State.frameVerdict (s : State) (b : BankNo) (f : Fetch) : FrameVerdict → State
  | .staged copy => s.stageFrame b f copy
  | .bad cls sub field rejected clamped =>
    let s := if clamped then s.markSticky b .range else s
    let s := if rejected then s.writeRejected b f.sel clamped else s
    s.fetchFault b f cls sub field

/-- A frame found EMPTY is dropped without fault; a head frame is awaited in LOADING (R22, R28). -/
def State.fetchEmpty (s : State) (b : BankNo) (role : Role) : State :=
  match role with
  | .head => s.modSeq b fun q => { q with fetch := none }
  | .successor => s.modSeq b fun q => { q with fetch := none, tag := .empty }

/-- A header has arrived whole: steps 3 to 7, and then the entry read or, with no entries, the rest
of the checks (R1, R100). -/
def State.judgeHeader (s : State) (b : BankNo) (f : Fetch) (h : Header) : State :=
  match h.check with
  | .empty => s.fetchEmpty b f.role
  | .bad sub field rejected =>
    s.frameVerdict b f (.bad .format sub field.toNat rejected false)
  | .good mode action start =>
    if h.entryCount = 0#8 then
      s.frameVerdict b f
        (checkFrame (s.bank b).faults.masks f.sel h mode action start [])
    else
      (s.modSeq b fun q => { q with fetch := some { f with header := some h, half := none } }).requestFrame
        b (.entry f.sel h.entryCount.toNat)

/-- The entries have arrived whole (R100 steps 9 to 11). -/
def State.judgeEntries (s : State) (b : BankNo) (f : Fetch) (h : Header) (bs : List Byte) : State :=
  match h.check with
  | .good mode action start =>
    s.frameVerdict b f (checkFrame (s.bank b).faults.masks f.sel h mode action start
      (parseEntries h.entryCount.toNat bs))
  | _ => s

/-- The link of the live frame is not being read any more. -/
def Sequencer.linkDone (q : Sequencer) : Sequencer := { q with linkRead := false }

/-- A fault on the link read, or on the link it returned: the tag becomes REJECTED (R31). -/
def State.linkFault (s : State) (b : BankNo) (cls : FaultClass) (sub : Subcode) : State :=
  (s.reportFault b cls sub (s.bank b).seq.liveSel 10 .staging).modSeq b fun q =>
    { q.linkDone with tag := .rejected }

/-- The link as last read is recorded (R31). -/
def Sequencer.recordLink (q : Sequencer) (link : Selector) : Sequencer :=
  { q.linkDone with live := q.live.map fun v => { v with link } }

/-- A link read has arrived OK (R31). -/
def State.judgeLink (s : State) (b : BankNo) (link : Selector) : State :=
  let s := s.modSeq b fun q => q.recordLink link
  if link.isNull then s
  else if !link.aligned then s.linkFault b .format .align
  else (s.modSeq b fun q => { q with tag := .pending }).fetchFrame b .successor link

/-- The head frame of an accepted BANK_START, or of a BANK_LOOK, is fetched (R28). -/
def State.fetchHead (s : State) (b : BankNo) : State :=
  let sel := (s.bank b).seq.headSel
  if !sel.isNull && !sel.aligned then
    s.fetchFault b ⟨.head, sel, none, none, none⟩ .format .align 0
  else s.fetchFrame b .head sel

/-! ### A window check or descriptor load that fails a bank's access (R148) -/

/-- An access of a bank failed its check and has been struck from the bank's requests. -/
def State.accessFault (s : State) (b : BankNo) (a : FrameAccess) (cls : FaultClass) (sub : Subcode) :
    State :=
  match a with
  | .header _ | .entry _ _ =>
    match (s.bank b).seq.fetch with
    | some f => s.fetchFault b f cls sub 0
    | none => s
  | .link _ => if (s.bank b).seq.linkRead then s.linkFault b cls sub else s
  | .state sel _ => s.writeFault b sel 1 cls sub
  | .retire sel _ _ _ _ => s.writeFault b sel 0 cls sub
  | .load _ => s

/-- A request is struck from a bank's. -/
def Bank.strike (k : Bank) (r : FrameReq) : Bank := { k with fifo := k.fifo.erase r }

/-- A request comes to another stage. -/
def Bank.advance (k : Bank) (r : FrameReq) (status : ReqStatus) : Bank :=
  { k with fifo := placeReq { r with status } (k.fifo.erase r) }

/-- The outcome of the window check of a bank's request: passed, it is offered to the arbiter behind
those already offered (R107, R148). -/
def State.reqChecked (s : State) (b : BankNo) (r : FrameReq) : CheckResult → State
  | .pass addr => s.modBank b fun k => k.advance r (.ready addr false)
  | .waiting => s.modBank b fun k => k.advance r .waiting
  | .fail sub => (s.modBank b fun k => k.strike r).accessFault b r.acc .window sub

/-- The oldest request of a bank that is ready to be issued but for its window check: none that waits
on a load holds it back. -/
def Bank.toCheck (k : Bank) : Option FrameReq :=
  k.fifo.find? fun r =>
    r.status = .unchecked && !k.fifo.any fun x => x.status = .waiting && x.acc.holdsBack r.acc

/-- The window check of a request, made when it is ready to be issued (R99, R148; log entry 15). -/
def State.checkReq (s : State) (b : BankNo) (r : FrameReq) : State :=
  let c := s.windowCheck (.bank b r.acc) r.acc.sel.index
    (r.acc.sel.offset.toNat + r.acc.frameOffset) r.acc.length r.acc.isWrite (s.bank b).seq.domain
  c.1.reqChecked b r c.2

/-- The next window check of a bank. -/
def State.checkNext (s : State) (b : BankNo) : State :=
  match (s.bank b).toCheck with
  | some r => s.checkReq b r
  | none => s

/-! ### Passes and boundaries (R33 to R41, R50) -/

/-- The live frame's counter stands at a boundary or an advance that is due on this tick. -/
def State.advanceDue (s : State) (b : BankNo) : Option Live :=
  let k := s.bank b
  if k.seq.plan.isRunning && k.wave.advanceDue then k.seq.live else none

/-- What the due advance brings; none at a boundary. -/
def State.dueCount (s : State) (b : BankNo) (v : Live) : Option (Nat × Direction) :=
  nextCount v.countMode v.period (s.bank b).wave.counter (s.bank b).wave.dir

def Sequencer.modLive (q : Sequencer) (f : Live → Live) : Sequencer :=
  { q with live := q.live.map f }

/-- The counter takes a value and the references follow it (R50, R54). -/
def Bank.takeCount (k : Bank) (count : Nat) (dir : Direction) : Bank :=
  { k with wave := { k.wave with
      counter := count, dir, advanceDue := false,
      lastRef := references k.seq.settings k.wave.lastRef count } }

/-- A match of channel 0 on this tick emits the MATCH cue (R58). -/
def State.matchCue (s : State) (b : BankNo) : State :=
  if (s.bank b).matches0 then s.emit b .matched else s

/-- The counter advances within a pass (R50). -/
def State.advanceCounter (s : State) (b : BankNo) (count : Nat) (dir : Direction) : State :=
  ((s.modBank b fun k => k.takeCount count dir).refreshPins b).matchCue b

/-- What every boundary does: the counter takes 0, the pass is counted, BOUNDARY is emitted, and the
gate's boundary action is taken (R33, R86, R88). Where a source ends on the tick of the boundary either
may be taken first: the model's choice (R88; log entry 41). -/
def State.passEnd (s : State) (b : BankNo) : State :=
  let s := s.modBank b fun k =>
    { k with
      seq := k.seq.modLive fun v => { v with passes := satInc v.passes }
      wave := k.wave.atZero }
  (s.emit b .boundary).releaseGate b

/-- The live frame goes on to another pass: references at 0, pins, link, MATCH (R30, R33, R50). -/
def State.nextPass (s : State) (b : BankNo) : State :=
  let s := s.modBank b fun k => k.takeCount 0 .up
  ((s.readLink b).refreshPins b).matchCue b

/-- A boundary that is not final (R33). -/
def State.innerBoundary (s : State) (b : BankNo) : State :=
  let s := s.passEnd b
  if (s.bank b).seq.pendingStop then s.stopBank b .cut
  else
    (s.modSeq b fun q =>
      q.modLive fun v => { v with repeatRemaining := v.repeatRemaining - 1 }).nextPass b

/-- The live frame runs on beyond its passes: EXTENDED is set (R14, R36, R37). -/
def State.extendLive (s : State) (b : BankNo) : State :=
  s.modSeq b fun q => q.modLive fun v => { v with extended := true }

/-- A LATE fault (R36). -/
def State.late (s : State) (b : BankNo) : State :=
  if (s.bank b).faults.masks.late then ((s.markSticky b .late).extendLive b).nextPass b
  else
    ((s.reportFault b .late .none (s.bank b).seq.liveSel 10 .boundary).retireLive b .spent).haltBank
      b none

/-- A VALID successor is taken: it starts, or the bank enters WAITING (R35, R74). -/
def State.takeSuccessor (s : State) (b : BankNo) (f : FrameCopy) : State :=
  let s := s.retireLive b .spent
  if f.start = .now || (s.bank b).seq.latch = .set then s.startOwn b f false
  else s.enterWaiting b f

/-- The final-boundary decision (R34). -/
def State.finalDecision (s : State) (b : BankNo) (v : Live) : State :=
  let q := (s.bank b).seq
  match q.tag, q.staged with
  | .valid, some f => s.takeSuccessor b f
  | .valid, none => s
  | .rejected, _ => (s.retireLive b .spent).haltBank b none
  | .pending, _ => s.late b
  | .empty, _ =>
    if q.linkRead then s.late b
    else
      match v.endAction with
      | .hold =>
        ((s.modSeq b fun q => { q with plan := .starved }).extendLive b).nextPass b
      | .stop => (s.retireLive b .spentEnd).endPlan b .dormant .ended

/-- A final boundary (R33, R34, R41). -/
def State.lastBoundary (s : State) (b : BankNo) (v : Live) : State :=
  let s := s.passEnd b
  if (s.bank b).seq.pendingStop then s.stopBank b .spent else s.finalDecision b v

/-- The wait limit expires (R78). -/
def State.cueTimeout (s : State) (b : BankNo) (f : FrameCopy) : State :=
  let s := s.modSeq b fun q => { q with latch := .disarmed, awaited := none, timer := none }
  if (s.bank b).faults.masks.cueTimeout then (s.markSticky b .cueTimeout).startOwn b f true
  else (s.reportFault b .cueTimeout .none f.sel 6 .wait).haltBank b none

end Sys2Proof.Machine
end

