-- ==== Sys2Proof/Machine/Settle.lean ====
section
/-! DEFINITION. What follows within one step: the window checks of requests that have become ready
to be issued, the closes that can go on, the Bank Status requests of what has changed, and
the offer of a reply whose writes are issued (R47, R94, R99, R112, R142, R159, R172). -/

namespace Sys2Proof.Machine

/-! ### Checks and closes -/

/-- The first bank with a window check to make. -/
def State.bankToCheck (s : State) : Option BankNo := four.find? fun b => (s.bank b).toCheck.isSome

/-- The first journal whose close can go on. -/
def State.journalToClose (s : State) : Option JournalNo := eight.find? fun j => s.closeReady j

/-- Window checks first, then closes, until none is left to make. Each round makes one; a check
strikes or marks a request and a round of a close ends in a wait or takes an event, so few are ever
needed, and what a step left over the next one would take. -/
def settle : Nat → State → State
  | 0, s => s
  | n + 1, s =>
    match s.bankToCheck with
    | some b => settle n (s.checkNext b)
    | none =>
      match s.journalToClose with
      | some j => settle n (s.continueClose j)
      | none => s

/-- Rounds of `settle` in one step. -/
def settleRounds : Nat := 64

/-! ### Bank Status requests (R47, R94, R112) -/

/-- Nothing that R47, R94 and R112 name has changed between two states of a bank. -/
def sameStatus (a b : Bank) : Bool :=
  a.seq.plan = b.seq.plan && a.seq.stopReason = b.seq.stopReason && a.seq.liveSel = b.seq.liveSel
    && a.seq.tag = b.seq.tag && a.seq.retired = b.seq.retired && a.gate.tripped = b.gate.tripped
    && a.gate.rearmPending = b.gate.rearmPending && a.gate.trips = b.gate.trips
    && a.faults.sticky = b.faults.sticky && a.faults.report = b.faults.report
    && a.faults.further = b.faults.further

/-- The request of one bank, from its state before the step. -/
def State.noteBank (before : State) (s : State) (b : BankNo) : State :=
  if sameStatus (before.bank b) (s.bank b) then s else s.requestBankStatus b

/-- The Bank Status requests of a step, from the state before it. -/
def State.noteStatuses (before s : State) : State :=
  before.noteBank (before.noteBank (before.noteBank (before.noteBank s 0) 1) 2) 3

/-! ### The reply (R159, R169, R172) -/

/-- The bank has a write pending to a frame that meets `p` (R107, R159). -/
def State.writesPending (s : State) (b : BankNo) (p : Selector → Bool) : Bool :=
  (s.pendingWrites b).any fun a => p a.sel

/-- The bank has a frame write that is not yet issued. -/
def State.framesPending (s : State) (b : BankNo) : Bool := !(s.pendingWrites b).isEmpty

/-- The bank has a frame read that is not yet issued. -/
def State.readsPending (s : State) (b : BankNo) : Bool :=
  (s.bank b).fifo.any fun r => r.acc.isFrameRead

/-- A produce or status word. -/
def JournalReq.isWord : JournalReq → Bool
  | .produceWord _ => true
  | .statusWord => true
  | _ => false

def State.wordsPending (s : State) (j : JournalNo) : Bool :=
  (s.journal j).fifo.any JournalReq.isWord

/-- What the answer waits for is issued, or waits to be issued no more: a frame write that has failed
or been withheld counts as issued (R107), and so, for a BANK_LOOK, does a read that a halt or a quiesce
has struck or whose window check has failed, which is the model's choice (R169; log entry 44). -/
def State.satisfied (s : State) : WaitFor → Bool
  | .nothing => true
  | .frameWrites b sels => !s.writesPending b sels.contains
  | .frameReads b => !s.readsPending b
  | .journalWords j => !s.wordsPending j

/-- The reply of an answered request is offered (R172 step 1). -/
def State.offerReply (s : State) : State :=
  match s.sweep.exec with
  | some e =>
    match e.phase with
    | .answered r w =>
      if s.satisfied w then
        (s.modSweep fun x => { x with exec := some { e with phase := .replying r } }).requestClass3
          .reply
      else s
    | _ => s
  | none => s

/-- The end of a step that can move banks: status requests, then the reply. -/
def State.concludeLight (before s : State) : State := (before.noteStatuses s).offerReply

/-- The end of a step that can leave checks or closes to make. The window check of a frame write is
made here, after the whole of the event that requested it, so that a fault it finds is judged against
the bank as that event has left it: the model's choice where both fall on one tick (R107; log entry
45). -/
def State.conclude (before s : State) : State := before.concludeLight (settle settleRounds s)

end Sys2Proof.Machine
end

