-- ==== Sys2Proof/Machine/Port.lean ====
section
/-! DEFINITION. The Memory Port: the arbiter's choice, the issue of each kind of transaction, and the
arrival of responses (R154 to R159). -/

namespace Sys2Proof

/-- A write answered ERROR has reached memory or not (R108). -/
def Fate.lands : Fate → Bool
  | .ok => true
  | .errorLanded => true
  | .errorLost => false

/-- Answered ERROR (R154). -/
def Fate.isError : Fate → Bool
  | .ok => false
  | _ => true

end Sys2Proof

namespace Sys2Proof.Machine

/-! ### Transactions (R154) -/

/-- Bytes of an access that lie below the next 4096-byte boundary (R154). -/
def firstPart (addr len : Nat) : Nat := min len (4096 - addr % 4096)

/-- The access crosses a 4096-byte boundary, and is issued as two transactions (R154). -/
def isSplit (addr len : Nat) : Bool := firstPart addr len != len

/-- Address and length of the transaction to issue: the whole access, or one half of it. -/
def partOf (addr len : Nat) (second : Bool) : Nat × Nat :=
  if second then (addr + firstPart addr len, len - firstPart addr len)
  else (addr, firstPart addr len)

/-- The bytes of an access that go with one transaction of it. -/
def bytesOf (addr : Nat) (second : Bool) (bs : List Byte) : List Byte :=
  if second then bs.drop (firstPart addr bs.length) else bs.take (firstPart addr bs.length)

/-- This transaction is the last of its access. -/
def isLast (addr len : Nat) (second : Bool) : Bool := second || !isSplit addr len

/-- A read transaction is issued; its answer is what memory holds now (R156). -/
def State.issueRead (s : State) (owner : ReadOwner) (addr len : Nat) (split second : Bool)
    (fate : Fate) : State :=
  s.modPort fun p =>
    { p with reads := p.reads ++
        [⟨owner, false, split, second,
          if fate.isError then none else some (s.memory.readBytes addr len)⟩] }

/-- A write transaction is issued: it reaches memory now, in issue order, or is lost (R154, R156). -/
def State.issueWrite (s : State) (owner : WriteOwner) (addr : Nat) (bs : List Byte) (last : Bool)
    (lands : Bool) (error : Bool) : State :=
  { s with
    memory := if lands then s.memory.writeBytes addr bs else s.memory
    port := { s.port with writes := s.port.writes ++ [⟨owner, last, error⟩] } }

/-- An Anchor Block write answered ERROR is lost (R129, R163, R164, R172). -/
def State.issueAnchor (s : State) (owner : WriteOwner) (offset : Nat) (bs : List Byte)
    (fate : Fate) : State :=
  s.issueWrite owner (s.engine.anchor.toNat + offset) bs true (!fate.isError) fate.isError

/-- A request of a journal has been issued and leaves its list. -/
def State.popJournal (s : State) (j : JournalNo) (r : JournalReq) : State :=
  s.modJournal j fun x => { x with fifo := x.fifo.erase r }

/-! ### The arbiter's choice (R155, R158, R159) -/

/-- A read may be issued (R155). -/
def Port.readRoom (p : Port) : Bool := decide (p.reads.length < Config.maxReads)

/-- A write may be issued (R155). -/
def Port.writeRoom (p : Port) : Bool := decide (p.writes.length < Config.maxWrites)

/-- A request that the arbiter may grant. -/
inductive Grant where
  | journal (j : JournalNo) (r : JournalReq)
  | frame (b : BankNo) (a : FrameAccess) (addr : Nat) (second : Bool)
  | class3 (c : Class3)
  | class4 (owner : ReadOwner)
  deriving DecidableEq, Repr

def JournalReq.isRead : JournalReq → Bool
  | .load _ => true
  | .reread => true
  | _ => false

/-- The first request of a requester that can be issued now: a read that finds no room waits without
holding back writes (R155), and nothing else is passed over (R158). -/
def firstIssuable {α : Type} (isRead : α → Bool) (readRoom writeRoom : Bool) : List α → Option α
  | [] => none
  | x :: rest =>
    if isRead x then
      if readRoom then some x else firstIssuable isRead readRoom writeRoom rest
    else if writeRoom then some x else none

/-- The journal's next request that can be issued now. -/
def State.journalOffer (s : State) (j : JournalNo) : Option Grant :=
  (firstIssuable JournalReq.isRead s.port.readRoom s.port.writeRoom (s.journal j).fifo).map
    (Grant.journal j)

/-- A request that has passed its check. -/
def FrameReq.isOffered (r : FrameReq) : Bool := r.status.stage = 0

/-- A request of a bank as the arbiter sees it, once it has passed its check. -/
def FrameReq.grant (b : BankNo) (r : FrameReq) : Option Grant :=
  match r.status with
  | .ready addr second => some (.frame b r.acc addr second)
  | _ => none

/-- The bank's next request that can be issued now, of those that have passed their checks. -/
def State.bankOffer (s : State) (b : BankNo) : Option Grant :=
  (firstIssuable (fun r : FrameReq => !r.acc.isWrite) s.port.readRoom s.port.writeRoom
    ((s.bank b).fifo.filter FrameReq.isOffered)).bind (FrameReq.grant b)

/-- The numbers after `last` in cyclic order, `last` itself at the end (R158). -/
def turns8 (last : Fin 8) : List (Fin 8) := eight.map fun k => last + 1 + k

def turns4 (last : Fin 4) : List (Fin 4) := four.map fun k => last + 1 + k

/-- A frame write that the bank requested before its Bank Status write is still pending (R159). -/
def State.statusWaits (s : State) (b : BankNo) : Bool :=
  (s.port.statusAfter.get b).any fun a => (s.pendingWrites b).contains a

/-- A class 3 request that may be offered: a Bank Status write waits for the frame writes that its
bank requested before it (R159). -/
def State.offered (s : State) : Class3 → Bool
  | .bank b => !s.statusWaits b
  | _ => true

/-- The oldest class 3 request that is offered (R158). Its age counts from its request, also where R159
held it back: the model's choice (log entry 38). -/
def State.class3Offer (s : State) : Option Grant :=
  if s.port.writeRoom then
    (s.port.class3.find? fun x => s.offered x.1).map fun x => .class3 x.1
  else none

def State.class4Offer (s : State) : Option Grant :=
  match s.port.class4 with
  | some o => if s.port.readRoom then some (.class4 o) else none
  | none => none

/-- The engine issues requests of its own while it is ON or QUIESCING, and the boot header read in
BOOTING (R159, R179, R181). -/
def State.choose (s : State) : Option Grant :=
  if s.reporting then
    ((turns8 s.port.lastJournal).findSome? s.journalOffer)
      <|> ((turns4 s.port.lastBank).findSome? s.bankOffer) <|> s.class3Offer <|> s.class4Offer
  else if s.engine.state = .booting then s.class4Offer
  else none

/-! ### Issuing the chosen request -/

/-- A request of a journal is issued (R133 to R136). -/
def State.issueJournal (s : State) (j : JournalNo) (r : JournalReq) (fate : Fate) : State :=
  let x := s.journal j
  let s := s.modPort fun p => { p with lastJournal := j }
  match r with
  | .load n => (s.popJournal j r).issueRead (.descriptor n) (s.descriptorAddr n) 16 false false fate
  | .reread =>
    (s.popJournal j r).issueRead (.reread j) (s.engine.anchor.toNat + offJournalRecord j + 8) 8 false
      false fate
  | .produceWord v =>
    ((s.popJournal j r).issueAnchor (.produceWord j) (offJournalRecord j + 0x10) (produceWordBytes v)
      fate).produceIssued j
  | .statusWord =>
    (s.popJournal j r).issueAnchor (.statusWord j) (offJournalRecord j + 0x18) (statusWordBytes x) fate
  | .record addr second =>
    match x.step with
    | .write p =>
      let bs := s.recordBytes j p
      let at' := partOf addr 16 second
      let last := isLast addr 16 second
      let s := s.issueWrite (.record j) at'.1 (bytesOf addr second bs) last fate.lands fate.isError
      if last then (s.popJournal j r).recordIssued j p
      else s.modJournal j fun x => { x with fifo := x.fifo.replace r (.record addr true) }
    | _ => s.popJournal j r

/-- Whose read an access of a bank is. -/
def FrameAccess.readOwner (b : BankNo) : FrameAccess → ReadOwner
  | .header _ => .header b
  | .entry _ _ => .entry b
  | .load index => .descriptor index
  | _ => .link b

/-- Whose write an access of a frame is. -/
def FrameAccess.writeOwner (b : BankNo) : FrameAccess → WriteOwner
  | .retire sel _ _ _ next => .frameRetire b sel next
  | a => .frameState b a.sel

/-- The bytes a frame write carries (R188). -/
def FrameAccess.bytes : FrameAccess → List Byte
  | .state _ code => [code.code]
  | .retire _ stamp passes flags _ => retireBytes stamp passes flags
  | _ => []

/-- The write of SPENT, SPENT_END or CUT (R46). -/
def FrameAccess.retires : FrameAccess → Bool
  | .state _ code => code.retires
  | _ => false

/-- Whether a frame write reaches memory. Answered ERROR it may or may not have, except that a frame
whose SPENT, SPENT_END or CUT write fails is LIVE afterwards (R108). -/
def FrameAccess.lands (a : FrameAccess) (fate : Fate) : Bool :=
  if a.retires then !fate.isError else fate.lands

/-- What follows at once from the issue of a bank's access: a STAGED write stages its frame (R29), and
the write of SPENT, SPENT_END or CUT counts (R46). -/
def State.frameIssued (s : State) (b : BankNo) : FrameAccess → State
  | .state _ code =>
    if code = .staged then s.stagedIssued b
    else if code.retires then s.modSeq b fun q => { q with retired := q.retired + 1#48 }
    else s
  | _ => s

/-- The transaction of a bank's access, or of one of its halves (R154, R158). -/
def State.sendFrame (s : State) (b : BankNo) (a : FrameAccess) (addr : Nat) (second : Bool)
    (fate : Fate) : State :=
  let s := s.modPort fun p => { p with lastBank := b }
  let at' := partOf addr a.length second
  if a.isWrite then
    s.issueWrite (a.writeOwner b) at'.1 (bytesOf addr second a.bytes)
      (isLast addr a.length second) (a.lands fate) fate.isError
  else s.issueRead (a.readOwner b) at'.1 at'.2 (isSplit addr a.length) second fate

/-- An access of a bank is issued, whole or in one of its halves (R154). -/
def State.issueFrame (s : State) (b : BankNo) (a : FrameAccess) (addr : Nat) (second : Bool)
    (fate : Fate) : State :=
  let t := s.sendFrame b a addr second fate
  if isLast addr a.length second then
    (t.modBank b fun k => k.strike ⟨a, .ready addr second⟩).frameIssued b a
  else
    t.modBank b fun k =>
      { k with fifo := k.fifo.replace ⟨a, .ready addr second⟩ ⟨a, .ready addr true⟩ }

/-- The request of class 3 leaves the list. -/
def State.popClass3 (s : State) (c : Class3) : State :=
  s.modPort fun p => { p with class3 := p.class3.filter fun x => x.1 ≠ c }

/-- A reply is issued: the sequence number advances and the Engine Status write is requested
(R171, R172). -/
def State.issueReply (s : State) (fate : Fate) : State :=
  match s.sweep.exec with
  | some e =>
    match e.phase with
    | .replying r =>
      let s := s.issueAnchor .reply (offReply s.sweep.next) (replyBytes s.sweep.next e.word r) fate
      (s.modSweep fun x =>
        { x with next := x.next + 1#16, exec := some { e with phase := .status } }).requestClass3
        .engine
    | _ => s
  | none => s

/-- The executing request has been replied to and awaits the issue of its Engine Status write. -/
def State.awaitsStatus (s : State) : Bool :=
  match s.sweep.exec with
  | some e => e.phase = .status
  | none => false

/-- An Engine Status write is issued; the one that follows a reply ends its request (R164, R172). -/
def State.issueEngineStatus (s : State) (shown : EngineState) (fate : Fate) : State :=
  let forReply := s.awaitsStatus
  let s := s.issueAnchor (.engineStatus forReply) offEngineStatus
    (engineStatusBytes shown s.sweep.next) fate
  if forReply then s.modSweep fun x => { x with exec := none } else s

def State.issueClass3 (s : State) (c : Class3) (fate : Fate) : State :=
  let s := s.popClass3 c
  match c with
  | .reply => s.issueReply fate
  | .engine => s.issueEngineStatus s.engine.state fate
  | .bank b => s.issueAnchor (.bankStatus b) (offBankStatus b) (bankStatusBytes (s.bank b)) fate
  | .line l => s.issueAnchor (.lineStatus l) (offLineStatus l) (lineStatusBytes (s.line l)) fate

/-- Offset and length of an Anchor Block read of class 4 (R158, R160). Of a Journal Record the host
fields alone are read, bytes 00h to 0Fh (R160, R188; log entry 34). -/
def class4Place : ReadOwner → Nat × Nat
  | .bankRecord b => (offBankRecord b, 64)
  | .lineRecord l => (offLineRecord l, 16)
  | .journalRecord j => (offJournalRecord j, 16)
  | _ => (0, 64)

def State.issueClass4 (s : State) (o : ReadOwner) (fate : Fate) : State :=
  (s.modPort fun p => { p with class4 := none }).issueRead o
    (s.engine.anchor.toNat + (class4Place o).1) (class4Place o).2 false false fate

/-- The chosen request is issued. -/
def State.issue (s : State) (fate : Fate) : Grant → State
  | .journal j r => s.issueJournal j r fate
  | .frame b a addr second => s.issueFrame b a addr second fate
  | .class3 c => s.issueClass3 c fate
  | .class4 o => s.issueClass4 o fate

/-! ### Arrivals (R155, R157, R159) -/

/-- The outstanding read at a place, oldest first. -/
def State.readAt (s : State) (place : Fin 4) : Option OutRead := s.port.reads[place.val]?

/-- A read response has arrived: the read is no longer outstanding. -/
def State.dropRead (s : State) (place : Fin 4) : State :=
  s.modPort fun p => { p with reads := p.reads.eraseIdx place.val }

/-- A response to the oldest outstanding write has arrived. -/
def State.dropWrite (s : State) : State := s.modPort fun p => { p with writes := p.writes.tail }

/-- The two halves of a split access put together; ERROR if either is (R154). -/
def joinHalves (a b : Bool × Option (List Byte)) : Option (List Byte) :=
  match a.2, b.2 with
  | some x, some y => some (if a.1 then y ++ x else x ++ y)
  | _, _ => none

/-- What a fetch has of its read once a response has arrived: none while a half is still missing,
else the whole answer (R154). -/
def Fetch.gather (f : Fetch) (r : OutRead) : Option (Option (List Byte)) :=
  if r.split then
    match f.half with
    | none => none
    | some h => some (joinHalves h (r.second, r.answer))
  else some r.answer

/-- A frame read of a fetch has arrived (R1, R28, R32, R154). -/
def State.fetchArrived (s : State) (b : BankNo) (f : Fetch) (r : OutRead) : State :=
  match f.gather r with
  | none =>
    s.modSeq b fun q => { q with fetch := some { f with half := some (r.second, r.answer) } }
  | some none => s.fetchFault b f .bus .read 0
  | some (some bs) =>
    match f.header with
    | none => s.judgeHeader b f (parseHeader bs)
    | some h => s.judgeEntries b f h bs

/-- A link read has arrived (R31). -/
def State.linkArrived (s : State) (b : BankNo) (answer : Option (List Byte)) : State :=
  if (s.bank b).seq.linkRead then
    match answer with
    | none => s.linkFault b .bus .read
    | some bs => s.judgeLink b (selectorAt bs 0)
  else s

/-! ### Descriptor loads (R151) -/

/-- A waiting access of a bank, its outcome known. -/
def State.bankWaited (s : State) (b : BankNo) (a : FrameAccess) : Option Descriptor → State
  | some d =>
    s.reqChecked b ⟨a, .waiting⟩ (judgeDescriptor d (a.sel.offset.toNat + a.frameOffset) a.length
      a.isWrite (s.bank b).seq.domain)
  | none => (s.modBank b fun k => k.strike ⟨a, .waiting⟩).accessFault b a .bus .descriptor

/-- A waiting record write of a journal, its outcome known. -/
def State.journalWaited (s : State) (j : JournalNo) (d : Option Descriptor) : State :=
  let x := s.journal j
  match x.step with
  | .check p =>
    match d with
    | some d => s.recordChecked j p (judgeDescriptor d x.slotOffset 16 true x.domain)
    | none => s.faultJournal j .descriptor false
  | _ => s

/-- The waiting ring check of an open, its outcome known (R131, R148). -/
def State.ringWaited (s : State) (j : JournalNo) (d : Option Descriptor) : State :=
  match s.sweep.exec with
  | some e =>
    match e.phase with
    | .ringCheck _ r =>
      match d with
      | some d =>
        s.ringChecked j r (judgeDescriptor d r.ringOffset (r.capacity * 16) true r.domain)
      | none => s.answer .refusedPort .nothing
    | _ => s
  | none => s

/-- One access that waited on a load has its steps 2 to 6 judged, or is answered with a descriptor
error (R148, R151). -/
def State.waited (d : Option Descriptor) (s : State) : Requester → State
  | .bank b a => s.bankWaited b a d
  | .journal j => s.journalWaited j d
  | .ring j => s.ringWaited j d

/-- An access that waits no more, by a stop or a halt of an access before it, is passed over. -/
def State.stillWaits (s : State) : Requester → Bool
  | .bank b a => (s.bank b).fifo.contains ⟨a, .waiting⟩
  | _ => true

/-- A load that is not stale has arrived (R151). -/
def State.loadDone (s : State) (x : Load) (d : Option Descriptor) : State :=
  x.waiters.foldl (fun s r => if s.stillWaits r then State.waited d s r else s) s

/-- A descriptor load has arrived (R151). -/
def State.loadArrived (s : State) (index : Byte) (answer : Option (List Byte)) : State :=
  match loadFind index s.window.loads with
  | none => s
  | some x =>
    let s := s.modWindow fun w => { w with loads := w.loads.filter fun y => y.index ≠ index }
    if x.stale then
      match x.waiters with
      | [] => s
      | r :: _ =>
        (s.modWindow fun w => { w with loads := w.loads ++ [⟨index, false, x.waiters⟩] }).requestLoad
          r index
    else
      match answer with
      | none => s.loadDone x none
      | some bs =>
        (s.modWindow fun w =>
          { w with cache := cacheInsert index (parseDescriptor bs) w.cache }).loadDone x
          (some (parseDescriptor bs))

end Sys2Proof.Machine
end

