-- ==== Sys2Proof/Machine/SweepUnit.lean ====
section
/-! DEFINITION. The Sweep Unit: accepting a word, taking the head of the queue, and what each
action's owning block does (R26, R27, R40, R44, R45, R84 to R86, R110, R161, R165 to R172). -/

namespace Sys2Proof.Machine

/-! ### Accepting a word (R167) -/

/-- A word joins the queue; one that joins an empty queue while nothing executes is to be taken on
this tick (R168). -/
def Sweep.join (x : Sweep) (w : Word) : Sweep :=
  { x with queue := x.queue ++ [w], takeNow := x.takeNow || (x.queue.isEmpty && x.exec.isNone) }

/-- A word written to SWEEP (R167). A full queue drops also a word equal to one that waits: R167 gives
both rows, and this order is the model's choice (log entry 39). -/
def State.offerWord (s : State) (w : Word) : State :=
  if s.engine.state ≠ .on then s.raise causeDropped
  else if Config.maxQueue ≤ s.sweep.queue.length then s.raise causeDropped
  else if s.sweep.queue.contains w then s
  else s.modSweep fun x => x.join w

/-! ### Taking the head (R168) -/

/-- The word that can be taken: the head of the queue while nothing executes. -/
def State.takeable (s : State) : Option Word :=
  if s.sweep.exec.isNone then s.sweep.queue.head? else none

/-- The head leaves the queue and executes. -/
def State.takeHead (s : State) (w : Word) : State :=
  s.modSweep fun x =>
    { x with queue := x.queue.tail, exec := some ⟨w, .record⟩, takeNow := false }

/-- The Sweep Unit takes the head if it is a request of this kind; otherwise the step does not occur
(log entry 3). -/
def State.taking (s : State) (kind : Word → Bool) (f : Word → State → State) : State :=
  match s.takeable with
  | some w => if kind w then s.concludeLight (f w (s.takeHead w)) else s
  | none => s

/-- As `taking`, for a request that can leave checks or closes to make. -/
def State.takingFull (s : State) (kind : Word → Bool) (f : Word → State → State) : State :=
  match s.takeable with
  | some w => if kind w then s.conclude (f w (s.takeHead w)) else s
  | none => s

/-- A request of this action. -/
def hasAction (a : Byte) (w : Word) : Bool := action w = a

/-- A request for a bank: a target above 3 is refused (R168 step 2). -/
def State.forBank (w : Word) (s : State) (f : BankNo → State) : State :=
  match bankNoOf (target w) with
  | some b => f b
  | none => s.answer .refusedTarget .nothing

/-- A request for a line. -/
def State.forLine (w : Word) (s : State) (f : LineNo → State) : State :=
  match lineNoOf (target w) with
  | some l => f l
  | none => s.answer .refusedTarget .nothing

/-- A request for a journal. -/
def State.forJournal (w : Word) (s : State) (f : JournalNo → State) : State :=
  match lineNoOf (target w) with
  | some j => f j
  | none => s.answer .refusedTarget .nothing

/-- The record read of the executing request is requested at class 4 (R170). -/
def State.readRecord (s : State) (o : ReadOwner) : State :=
  s.modPort fun p => { p with class4 := some o }

/-! ### The actions -/

/-- A bank that a BANK_START may start (R26). -/
def Bank.startable (k : Bank) : Bool := k.seq.plan = .dormant && k.faults.report.isNone

/-- BANK_START taken (R26). -/
def State.bankStart (s : State) (b : BankNo) : State :=
  if (s.bank b).startable then s.readRecord (.bankRecord b) else s.answer .refusedState .nothing

/-- The frames a bank holds: those that a stop writes to (R42). -/
def Sequencer.heldSels (q : Sequencer) : List Selector :=
  (q.live.map Live.sel).toList ++ (q.staged.map FrameCopy.sel).toList

/-- A stop that takes effect at once, answered once its frame writes are issued (R40, R42, R169). -/
def State.stopNow (s : State) (b : BankNo) : State :=
  (s.stopBank b .cut).answer .done (.frameWrites b (s.bank b).seq.heldSels)

/-- BANK_STOP taken (R40). -/
def State.bankStop (s : State) (now : Bool) (b : BankNo) : State :=
  let q := (s.bank b).seq
  if q.plan.isRunning then
    if now then s.stopNow b
    else (s.modSeq b fun q => { q with pendingStop := true }).answer .done .nothing
  else if q.plan.isActive then s.stopNow b
  else s.answer .refusedState .nothing

/-- The head frame of a LOADING bank was found EMPTY and no read of it is in flight (R45). -/
def Sequencer.mayReadHead (q : Sequencer) : Bool := q.plan = .loading && q.fetch.isNone

/-- BANK_LOOK taken (R45). -/
def State.bankLook (s : State) (b : BankNo) : State :=
  if (s.bank b).seq.mayReadHead then (s.fetchHead b).answer .done (.frameReads b)
  else if (s.bank b).seq.mayReadLink then (s.readLink b).answer .done (.frameReads b)
  else s.answer .done .nothing

/-- The rearm of a TRIPPED gate in MANUAL mode with no selected line at its trip level (R85, R86). -/
def State.rearmManual (s : State) (b : BankNo) : State :=
  if (s.bank b).gate.rearmPending then s
  else
    let s := s.modGate b fun g => { g with swTrip := false }
    if (s.bank b).seq.plan.isRunning then s.modGate b fun g => { g with rearmPending := true }
    else s.openGate b

/-- BANK_REARM taken (R85). -/
def State.bankRearm (s : State) (b : BankNo) : State :=
  let g := (s.bank b).gate
  if !g.tripped then s.answer .done .nothing
  else if g.auto then
    ((s.modGate b fun g => { g with swTrip := false }).judgeGate b).answer .done .nothing
  else if s.lineTrips b then s.answer .refusedTripActive .nothing
  else (s.rearmManual b).answer .done .nothing

/-- BANK_TRIP taken (R84). -/
def State.bankTrip (s : State) (b : BankNo) : State :=
  ((s.modGate b fun g => { g with swTrip := true }).judgeGate b).answer .done .nothing

/-- The report slot and its further-fault count are cleared (R110). -/
def FaultLogic.acknowledge (f : FaultLogic) : FaultLogic := { f with report := none, further := 0#16 }

/-- BANK_ACK taken (R44, R110). -/
def State.bankAck (s : State) (b : BankNo) : State :=
  ((s.modFaults b FaultLogic.acknowledge).modSeq b fun q =>
    { q with plan := if q.plan = .halted then .dormant else q.plan }).answer .done .nothing

/-- JOURNAL_OPEN taken (R131). -/
def State.journalOpen (s : State) (j : JournalNo) : State :=
  if (s.journal j).state = .closed then s.readRecord (.journalRecord j)
  else s.answer .refusedState .nothing

/-- The executing request goes on to another phase. -/
def State.setPhase (s : State) (p : ExecPhase) : State :=
  s.modSweep fun x => { x with exec := x.exec.map fun e => { e with phase := p } }

/-- JOURNAL_CLOSE taken (R142, R143). -/
def State.journalClose (s : State) (j : JournalNo) : State :=
  if (s.journal j).state = .closed then s.answer .refusedState .nothing
  else (s.setPhase (.closing j)).beginClose j

/-- JOURNAL_LOOK taken (R139). -/
def State.journalLook (s : State) (j : JournalNo) : State :=
  match (s.journal j).state with
  | .closed => s.answer .refusedState .nothing
  | .faulted => s.answer .done .nothing
  | .opened => (s.setPhase (.look j)).requestReread j

/-! ### Records that arrive (R27, R114, R131, R161, R170) -/

/-- The Plan Sequencer's items when a BANK_START is accepted (R27). -/
def Sequencer.accept (q : Sequencer) (r : BankRecord) : Sequencer :=
  { q with
    headSel := r.head, domain := r.domain, stopReason := .none, retired := 0#48,
    pendingStop := false, latch := .disarmed, awaited := none, tag := .empty, staged := none,
    started := true, plan := .loading, firstFrame := true }

/-- A bank accepts a BANK_START (R27, R63, R64, R91, R96). -/
def Bank.accept (k : Bank) (r : BankRecord) (auto : Bool) : Bank :=
  { k with
    seq := k.seq.accept r
    faults := { k.faults with masks := r.masks, sticky := .clear }
    gate := { k.gate with mask := r.tripMask, auto }
    wave := k.wave.configure r }

/-- An accepted BANK_START: the bank enters LOADING, its gate is judged under the new mask, its pins
are driven, and the head frame is fetched (R27, R28, R67, R91). -/
def State.acceptStart (s : State) (b : BankNo) (r : BankRecord) (auto : Bool) : State :=
  (((s.modBank b fun k => k.accept r auto).judgeGate b).refreshPins b).answer .done .nothing
    |>.fetchHead b

/-- The Bank Record has arrived (R26, R161, R170). -/
def State.bankRecordArrived (s : State) (b : BankNo) : Option (List Byte) → State
  | none =>
    (s.raise causePort).answer (if s.engine.state = .on then .refusedPort else .refusedState) .nothing
  | some bs =>
    if s.engine.state ≠ .on then s.answer .refusedState .nothing
    else
      match (parseBankRecord bs).check with
      | none => s.answer .refusedConfig .nothing
      | some auto =>
        if (s.bank b).startable then s.acceptStart b (parseBankRecord bs) auto
        else s.answer .refusedState .nothing

/-- The Line Record has arrived (R114, R115). -/
def State.lineRecordArrived (s : State) (l : LineNo) : Option (List Byte) → State
  | none => (s.raise causePort).answer .refusedPort .nothing
  | some bs =>
    match parseLineRecord bs with
    | none => s.answer .refusedConfig .nothing
    | some cfg => (s.loadLine l cfg).answer .done .nothing

/-- The ring check of an open (R131, R146). -/
def State.checkRing (s : State) (j : JournalNo) (r : JournalRecord) : State :=
  let c := (s.setPhase (.ringCheck j r)).windowCheck (.ring j) r.window r.ringOffset
    (r.capacity * 16) true r.domain
  c.1.ringChecked j r c.2

/-- The Journal Record has arrived (R131, R170). -/
def State.journalRecordArrived (s : State) (j : JournalNo) : Option (List Byte) → State
  | none =>
    (s.raise causePort).answer (if s.engine.state = .on then .refusedPort else .refusedState) .nothing
  | some bs =>
    if s.engine.state ≠ .on then s.answer .refusedState .nothing
    else if (parseJournalRecord bs).ok then s.checkRing j (parseJournalRecord bs)
    else s.answer .refusedConfig .nothing

end Sys2Proof.Machine
end

