-- ==== Sys2Proof/Machine/EngineOps.lean ====
section
/-! DEFINITION. Engine Control: booting, quiescing, the two resets, and the register window
(R176 to R187). -/

namespace Sys2Proof.Machine

/-! ### Booting (R178 to R180) -/

/-- The engine enters ANCHOR_FAULT (R179). -/
def State.anchorFault (s : State) (f : BootFault) : State :=
  { s with engine := { s.engine with state := .anchorFault, bootFault := f, bootRead := false } }.raise
    causeAnchor

/-- The address that ANCHOR_LO and ANCHOR_HI hold (R177). -/
def Engine.anchorWritten (e : Engine) : Stamp := e.anchorHi ++ e.anchorLo

/-- Entry to BOOTING: the anchor is copied, the cache emptied, and the header read requested when
the address is a multiple of 64 (R153, R179). -/
def State.enterBooting (s : State) : State :=
  let s := { s with engine := { s.engine with
      state := .booting, anchor := s.engine.anchorWritten, bootFault := .none, bootRead := false } }
  let s := s.discardLoads
  if s.engine.anchor.toNat % 64 ≠ 0 then s.anchorFault .align
  else { s with
    engine := { s.engine with bootRead := true }
    port := { s.port with class4 := some .boot } }

/-- A held Line Status request is released at entry to ON (R125, R180). -/
def State.releaseLine (s : State) (l : LineNo) : State :=
  if (s.line l).statusHeld then
    (s.modLine l fun x => { x with statusHeld := false }).requestClass3 (.line l)
  else s

/-- The status writes requested at entry to ON (R163, R180). -/
def State.announceOn (s : State) : State :=
  let s := s.requestClass3 .engine
  let s := four.foldl State.requestBankStatus s
  eight.foldl State.releaseLine s

/-- Entry to ON (R145, R180). -/
def State.enterOn (s : State) (h : BootHeader) : State :=
  { s with
    engine := { s.engine with state := .on, bootRead := false }
    window := { s.window with tableAddr := BitVec.ofNat 48 h.table, tableCount := h.count } }.announceOn

/-- The boot header read has arrived in BOOTING (R179, R180). -/
def State.bootArrived (s : State) (answer : Option (List Byte)) : State :=
  if s.engine.state = .booting then
    match answer with
    | none => s.anchorFault .port
    | some bs =>
      if (parseBootHeader bs).check = .none then s.enterOn (parseBootHeader bs)
      else s.anchorFault (parseBootHeader bs).check
  else s

/-! ### Quiescing (R144, R174, R181) -/

/-- A bank at entry to QUIESCING (R48). -/
def State.quiesceBank (s : State) (b : BankNo) : State :=
  if (s.bank b).seq.plan.isActive then s.stopBank b .cut else s

/-- A journal at entry to QUIESCING; a close already begun runs on (R144). -/
def State.quiesceJournal (s : State) (j : JournalNo) : State :=
  if (s.journal j).state = .closed || (s.journal j).closing then s else s.beginClose j

/-- Entry to QUIESCING (R181): banks and journals are taken in rising order (log entry 11). -/
def State.enterQuiescing (s : State) : State :=
  let s := { s with engine := { s.engine with state := .quiescing } }
  let s := (s.requestClass3 .engine).flushWindows
  let s := s.modSweep fun x => { x with queue := [], takeNow := false }
  eight.foldl State.quiesceJournal (four.foldl State.quiesceBank s)

/-- The boot read in flight is discarded when it arrives (R178). -/
def OutRead.dropBoot (r : OutRead) : OutRead :=
  if r.owner = .boot then { r with discarded := true } else r

/-- A boot is abandoned: a header read in flight is discarded when it arrives (R178), and one not yet
issued is struck, which is the model's choice (log entry 42). -/
def State.abandonBoot (s : State) : State :=
  { s with
    engine := { s.engine with state := .off, bootRead := false }
    port := { s.port with class4 := none, reads := s.port.reads.map OutRead.dropBoot } }

/-- A RUN bit that changes value acts on the engine (R178). -/
def State.runChanged (s : State) (value : Bool) : State :=
  match s.engine.state, value with
  | .off, true => s.enterBooting
  | .booting, false => s.abandonBoot
  | .on, false => s.enterQuiescing
  | .anchorFault, false => { s with engine := { s.engine with state := .off } }
  | _, _ => s

/-- A write of CONTROL.RUN (R178). -/
def State.writeRun (s : State) (value : Bool) : State :=
  if s.engine.run = value then s
  else s.conclude (({ s with engine := { s.engine with run := value } } : State).runChanged value)

/-- Everything that R181 lists before the last write of a quiesce has been issued, and no request of
a lower class takes the slot from that write (R158). An Engine Status write that still waits to show
QUIESCING is issued first and does not carry the last one: the model's choice (R164, R181; log entry
43). -/
def State.quiesceDone (s : State) : Bool :=
  s.engine.state = .quiescing && s.sweep.exec.isNone && s.port.class3.isEmpty && s.port.writeRoom
    && s.choose.isNone && four.all (fun b => !s.framesPending b)
    && eight.all (fun j => (s.journal j).state = .closed && !s.wordsPending j)

/-- The last write of a quiesce is issued and the engine enters OFF, and boots again if RUN reads 1
(R164, R181). -/
def State.completeQuiesce (s : State) (fate : Fate) : State :=
  let s := s.issueEngineStatus .off fate
  let s := { s with engine := { s.engine with state := .off } }
  if s.engine.run then s.enterBooting else s

/-! ### Resets (R182, R183) -/

/-- What neither reset touches: the commands that wait, the world outside the part, the model's own
free-choice counter. -/
def State.world (s : State) : State :=
  { State.reset with
    pending := s.pending, resetHeld := s.resetHeld, pinsNow := s.pinsNow, pinsAgo1 := s.pinsAgo1,
    pinsAgo2 := s.pinsAgo2, pinScript := s.pinScript, memory := s.memory, freeCount := s.freeCount }

/-- An engine reset: every block at its engine-reset values, ANCHOR_LO and ANCHOR_HI kept (R182). -/
def State.engineReset (s : State) : State :=
  { s.world with
    engine := { Engine.reset with anchorLo := s.engine.anchorLo, anchorHi := s.engine.anchorHi } }

/-- RESET_N at a level: low holds every block at its power-on values (R183). -/
def State.resetPin (s : State) (level : Bool) : State :=
  if level then { s with resetHeld := false } else { s.world with resetHeld := true }

/-! ### The register window (R176, R185 to R187) -/

def State.writeAnchorLo (s : State) (w : Word) : State :=
  { s with engine := { s.engine with anchorLo := w } }

def State.writeAnchorHi (s : State) (w : Word) : State :=
  { s with engine := { s.engine with anchorHi := w.setWidth 16 } }

/-- Each cause bit written as 1 is cleared (R186). -/
def State.writeCause (s : State) (w : Word) : State :=
  { s with cause := s.cause &&& ~~~(w.setWidth 16) }

/-- The sixteen enable bits are stored (R187). -/
def State.writeCauseEnable (s : State) (w : Word) : State :=
  { s with causeEnable := w.setWidth 16 }

/-- A full write of CONTROL (R176, R178, R182). -/
def State.writeControl (s : State) (w : Word) : State :=
  if w.getLsbD 1 then s.engineReset else s.writeRun (w.getLsbD 0)

/-- A read of TICK_LO (R185). -/
def State.readTickLo (s : State) : State :=
  { s with readData := s.readRegister 0x1C, tickHi := s.now.extractLsb' 32 16 }

/-- A full write of the register at an offset (R176). -/
def State.writeRegister (s : State) (offset : Nat) (w : Word) : State :=
  match offset with
  | 0x04 => s.writeControl w
  | 0x08 => s.writeAnchorLo w
  | 0x0C => s.writeAnchorHi w
  | 0x10 => s.offerWord w
  | 0x14 => s.writeCause w
  | 0x18 => s.writeCauseEnable w
  | _ => s

end Sys2Proof.Machine
end

