-- ==== Sys2Proof/Machine/Arrivals.lean ====
section
/-! DEFINITION. Read arrivals and write responses (R28 to R32, R107, R134 to R136, R151, R155, R157,
R161, R172, R179). A response of another kind than the command names does not occur (log entry 3);
a discarded read is dropped on arrival whatever it carries (R109). -/

namespace Sys2Proof.Machine

/-- The read at `place` arrives, if it is of the kind the command names. -/
def State.arrive (s : State) (place : Fin 4) (f : OutRead → Option (State → State)) : State :=
  match s.readAt place with
  | some r =>
    match f r with
    | some g =>
      if r.discarded then s.dropRead place else s.conclude (g (s.dropRead place))
    | none => s
  | none => s

/-- The oldest outstanding write is answered, if it is of the kind the command names. -/
def State.respond (s : State) (f : OutWrite → Option (State → State)) : State :=
  match s.port.writes with
  | w :: _ =>
    match f w with
    | some g => s.conclude (g s.dropWrite)
    | none => s
  | [] => s

/-! ### Reads -/

/-- The fetch in flight of a bank takes an arrival. -/
def State.toFetch (b : BankNo) (r : OutRead) (s : State) : State :=
  match (s.bank b).seq.fetch with
  | some f => s.fetchArrived b f r
  | none => s

/-- HEADER_READ (R1, R28, R32). -/
def execHeaderRead (place : Fin 4) (s : State) : Out :=
  unlessReset s fun s => s.arrive place fun r =>
    match r.owner with
    | .header b => some (State.toFetch b r)
    | _ => none

/-- ENTRY_READ (R100). -/
def execEntryRead (place : Fin 4) (s : State) : Out :=
  unlessReset s fun s => s.arrive place fun r =>
    match r.owner with
    | .entry b => some (State.toFetch b r)
    | _ => none

/-- LINK_READ (R31). -/
def execLinkRead (place : Fin 4) (s : State) : Out :=
  unlessReset s fun s => s.arrive place fun r =>
    match r.owner with
    | .link b => some fun s => s.linkArrived b r.answer
    | _ => none

/-- DESCRIPTOR_LOAD (R151). -/
def execDescriptorLoad (place : Fin 4) (s : State) : Out :=
  unlessReset s fun s => s.arrive place fun r =>
    match r.owner with
    | .descriptor n => some fun s => s.loadArrived n r.answer
    | _ => none

/-- CONSUME_REREAD (R134, R139). -/
def execConsumeReread (place : Fin 4) (s : State) : Out :=
  unlessReset s fun s => s.arrive place fun r =>
    match r.owner with
    | .reread j => some fun s => s.rereadArrived j r.answer
    | _ => none

/-- BANK_RECORD_READ (R161). -/
def execBankRecordRead (place : Fin 4) (s : State) : Out :=
  unlessReset s fun s => s.arrive place fun r =>
    match r.owner with
    | .bankRecord b => some fun s => s.bankRecordArrived b r.answer
    | _ => none

/-- LINE_RECORD_READ (R115). -/
def execLineRecordRead (place : Fin 4) (s : State) : Out :=
  unlessReset s fun s => s.arrive place fun r =>
    match r.owner with
    | .lineRecord l => some fun s => s.lineRecordArrived l r.answer
    | _ => none

/-- JOURNAL_RECORD_READ (R132). -/
def execJournalRecordRead (place : Fin 4) (s : State) : Out :=
  unlessReset s fun s => s.arrive place fun r =>
    match r.owner with
    | .journalRecord j => some fun s => s.journalRecordArrived j r.answer
    | _ => none

/-- BOOT_HEADER_READ (R179). -/
def execBootHeaderRead (place : Fin 4) (s : State) : Out :=
  unlessReset s fun s => s.arrive place fun r =>
    match r.owner with
    | .boot => some fun s => s.bootArrived r.answer
    | _ => none

/-! ### Writes -/

/-- A write to a frame has been answered in full (R107). -/
def State.frameAnswered (s : State) (b : BankNo) (sel : Selector) (retire : Bool)
    (next : Option FrameState) (error : Bool) : State :=
  if error then s.writeFault b sel (if retire then 0 else 1) .bus .write
  else
    match next with
    | some code => s.requestFrame b (.state sel code)
    | none => s

/-- One transaction of a write to a frame has been answered (R107, R154). -/
def State.frameResponse (s : State) (b : BankNo) (sel : Selector) (retire : Bool)
    (next : Option FrameState) (w : OutWrite) : State :=
  if w.last then
    (s.modBank b fun k => { k with halfError := false }).frameAnswered b sel retire next
      (w.error || (s.bank b).halfError)
  else s.modBank b fun k => { k with halfError := k.halfError || w.error }

/-- FRAME_WRITE_RESPONSE (R107). -/
def execFrameWriteResponse (s : State) : Out :=
  unlessReset s fun s => s.respond fun w =>
    match w.owner with
    | .frameState b sel => some fun s => s.frameResponse b sel false none w
    | .frameRetire b sel next => some fun s => s.frameResponse b sel true next w
    | _ => none

/-- One transaction of a record write has been answered (R136, R154). -/
def State.recordResponse (s : State) (j : JournalNo) (w : OutWrite) : State :=
  if w.last then
    (s.modJournal j fun x => { x with halfError := false }).recordAnswered j
      (w.error || (s.journal j).halfError)
  else s.modJournal j fun x => { x with halfError := x.halfError || w.error }

/-- RECORD_WRITE_RESPONSE (R136). -/
def execRecordWriteResponse (s : State) : Out :=
  unlessReset s fun s => s.respond fun w =>
    match w.owner with
    | .record j => some fun s => s.recordResponse j w
    | _ => none

/-- An Anchor Block write answered ERROR sets CAUSE.PORT_ERROR (R157, R186). -/
def State.portError (s : State) (error : Bool) : State := if error then s.raise causePort else s

/-- ENGINE_STATUS_RESPONSE: the write that follows a reply (R172 step 3). -/
def execEngineStatusResponse (s : State) : Out :=
  unlessReset s fun s => s.respond fun w =>
    match w.owner with
    | .engineStatus true => some fun s => (s.portError w.error).raise causeReply
    | _ => none

/-- A write of the Anchor Block other than the one of R172 step 3. -/
def WriteOwner.isAnchor : WriteOwner → Bool
  | .produceWord _ => true
  | .statusWord _ => true
  | .bankStatus _ => true
  | .lineStatus _ => true
  | .reply => true
  | .engineStatus forReply => !forReply
  | _ => false

/-- ANCHOR_WRITE_RESPONSE (R129, R157, R163). -/
def execAnchorWriteResponse (s : State) : Out :=
  unlessReset s fun s => s.respond fun w =>
    if w.owner.isAnchor then some fun s => s.portError w.error else none

end Sys2Proof.Machine
end

