-- ==== Sys2Proof/Machine/PortSteps.lean ====
section
/-! DEFINITION. The arbiter's grant and the end of a quiesce (R154 to R159, R181). -/

namespace Sys2Proof.Machine

/-- The first listed host write outside the 48-bit address space (R154). -/
def badHostWrite : List Host.Cell → Option Nat
  | [] => none
  | (a, _) :: rest => if a < 2 ^ 48 then badHostWrite rest else some a

/-- The host writes that reached memory before this issue (R156; log entry 7). -/
def State.hostWrites (s : State) (host : List Host.Cell) : State :=
  { s with memory := s.memory.hostWrites host }

/-- The issue slot is granted to the request the arbiter chooses, if there is one (R158). -/
def State.grant (s : State) (fate : Fate) : State :=
  match s.choose with
  | some g => s.conclude (s.issue fate g)
  | none => s

/-- ARBITER_GRANT. Host writes reach memory in every state of the part; the slot is granted outside
reset only (R158, R183). -/
def execArbiterGrant (host : List Host.Cell) (fate : Fate) (s : State) : Out :=
  match badHostWrite host with
  | some a => .fault (.hostAddress a)
  | none => unlessReset (s.hostWrites host) fun s => s.grant fate

/-- QUIESCE_COMPLETE (R181). -/
def execQuiesceComplete (fate : Fate) (s : State) : Out :=
  unlessReset s fun s => if s.quiesceDone then s.completeQuiesce fate else s

end Sys2Proof.Machine
end

