-- ==== Sys2Proof/Machine/RegisterCommands.lean ====
section
/-! DEFINITION. The commands of the register window and of the RESET_N input (R176 to R187). -/

namespace Sys2Proof.Machine

/-- A write of CONTROL with ENGINE_RESET 0 (R178). -/
def execRun (value : Bool) (s : State) : Out :=
  unlessReset s fun s => s.writeRun value

/-- A write of CONTROL with ENGINE_RESET 1: RUN reads 0 afterwards whatever was written beside it
(R178, R182). -/
def execEngineReset (_value : Bool) (s : State) : Out := unlessReset s State.engineReset

/-- A write of CAUSE (R186). -/
def execCauseWrite (data : Word) (s : State) : Out := unlessReset s fun s => s.writeCause data

/-- A write of CAUSE_ENABLE (R187). -/
def execCauseEnable (data : Word) (s : State) : Out :=
  unlessReset s fun s => s.writeCauseEnable data

/-- A read of TICK_LO (R185). -/
def execTickLo (s : State) : Out := unlessReset s State.readTickLo

/-- A write of any offset of the window; one whose byte enables do not cover all four bytes does
nothing (R176). -/
def execRegisterWrite (offset : Nat) (data : Word) (enables : BitVec 4) (s : State) : Out :=
  unlessReset s fun s => if enables = BitVec.allOnes 4 then s.writeRegister offset data else s

/-- A word written to SWEEP (R167). -/
def execSweepWrite (word : Word) (s : State) : Out := unlessReset s fun s => s.offerWord word

/-- RESET_N takes a level (R183). -/
def execResetN (level : Bool) (s : State) : Out := .next (s.resetPin level)

end Sys2Proof.Machine
end

