-- ==== Sys2Proof/Machine/SweepCommands.lean ====
section
/-! DEFINITION. The commands by which the Sweep Unit takes the request at the head of its queue
(R168, R169). A command whose action is not that of the head does not occur (log entry 3). -/

namespace Sys2Proof.Machine

/-- MARK: a fence; DONE on the tick it is taken (R169). -/
def execMark (s : State) : Out :=
  unlessReset s fun s => s.taking (hasAction actMark) fun _ s => s.answer .done .nothing

/-- BANK_START (R26). -/
def execBankStart (s : State) : Out :=
  unlessReset s fun s => s.taking (hasAction actBankStart) fun w s => State.forBank w s s.bankStart

/-- BANK_STOP; its argument is judged after its target (R40, R168 step 3). -/
def execBankStop (s : State) : Out :=
  unlessReset s fun s => s.takingFull (hasAction actBankStop) fun w s =>
    State.forBank w s fun b =>
      if argument w = argNow then s.bankStop true b
      else if argument w = argAtBoundary then s.bankStop false b
      else s.answer .refusedConfig .nothing

/-- BANK_LOOK (R45). -/
def execBankLook (s : State) : Out :=
  unlessReset s fun s => s.takingFull (hasAction actBankLook) fun w s =>
    State.forBank w s s.bankLook

/-- BANK_REARM (R85). -/
def execBankRearm (s : State) : Out :=
  unlessReset s fun s => s.taking (hasAction actBankRearm) fun w s => State.forBank w s s.bankRearm

/-- BANK_TRIP (R84). -/
def execBankTrip (s : State) : Out :=
  unlessReset s fun s => s.taking (hasAction actBankTrip) fun w s => State.forBank w s s.bankTrip

/-- BANK_ACK (R44, R110). -/
def execBankAck (s : State) : Out :=
  unlessReset s fun s => s.taking (hasAction actBankAck) fun w s => State.forBank w s s.bankAck

/-- JOURNAL_OPEN (R131). -/
def execJournalOpen (s : State) : Out :=
  unlessReset s fun s => s.taking (hasAction actJournalOpen) fun w s =>
    State.forJournal w s s.journalOpen

/-- JOURNAL_CLOSE (R142, R143). -/
def execJournalClose (s : State) : Out :=
  unlessReset s fun s => s.takingFull (hasAction actJournalClose) fun w s =>
    State.forJournal w s s.journalClose

/-- JOURNAL_LOOK (R139). -/
def execJournalLook (s : State) : Out :=
  unlessReset s fun s => s.taking (hasAction actJournalLook) fun w s =>
    State.forJournal w s s.journalLook

/-- LINE_LOAD: the Line Record is read (R114). -/
def execLineLoad (s : State) : Out :=
  unlessReset s fun s => s.taking (hasAction actLineLoad) fun w s =>
    State.forLine w s fun l => s.readRecord (.lineRecord l)

/-- WINDOWS_FLUSH; target and argument are not used (R152). -/
def execWindowsFlush (s : State) : Out :=
  unlessReset s fun s => s.taking (hasAction actWindowsFlush) fun _ s =>
    s.flushWindows.answer .done .nothing

/-- A request whose action is none of the twelve (R168 step 1). -/
def execUnknownAction (s : State) : Out :=
  unlessReset s fun s => s.taking (fun w => !actions.contains (action w)) fun _ s =>
    s.answer .unknownAction .nothing

end Sys2Proof.Machine
end

