-- ==== Sys2Proof/Machine/Tick.lean ====
section
/-! DEFINITION. Time: what a tick does, and the steps that time has made due on the present tick
(R50, R60, R77, R117, R133, R168, R184). -/

namespace Sys2Proof.Machine

/-! ### One tick -/

/-- The timebase counts while the engine is ON or QUIESCING (R184). -/
def State.tickNow (s : State) : Stamp := if s.reporting then s.now + 1#48 else s.now

/-- The sample phase of a loaded line (R117). -/
def Line.tick (x : Line) : Line :=
  if x.loaded then
    if x.phase + 1 < x.cfg.divider then { x with phase := x.phase + 1 }
    else { x with phase := 0, sampleDue := true }
  else x

/-- Class 3 requests of the ticks that have passed no longer count as made on this tick (R158). -/
def Port.tick (p : Port) : Port := { p with class3 := p.class3.map fun x => (x.1, false) }

/-- The capture pins move on: their levels reach the samples 2 ticks later (11.9). -/
def State.shiftPins (s : State) : State :=
  { s with
    pinsAgo2 := s.pinsAgo1, pinsAgo1 := s.pinsNow, pinsNow := s.pinScript.headD s.pinsNow,
    pinScript := s.pinScript.tail }

/-- One 5 ns tick passes; in reset only the pins of the world outside move (R183). -/
def State.advanceTick (s : State) : State :=
  if s.resetHeld then s.shiftPins
  else
    { s.shiftPins with
      now := s.tickNow, banks := s.banks.map Bank.tick, lines := s.lines.map Line.tick,
      port := s.port.tick }

/-! ### What is due on this tick (log entry 5) -/

/-- The sample of a line. -/
def State.dueLine (s : State) (l : LineNo) : List Instr :=
  if (s.line l).loaded && (s.line l).sampleDue then
    [if s.edgeDue l then .edge l else .filterSample l]
  else []

/-- The counter of a bank. -/
def State.dueCounter (s : State) (b : BankNo) : List Instr :=
  match s.advanceDue b with
  | none => []
  | some v =>
    match s.dueCount b v with
    | some _ => [.counterAdvance b]
    | none => [if v.repeatRemaining = 0 then .finalBoundary b else .boundary b]

/-- The frame whose wait limit expires on this tick (R77). -/
def State.timeoutDue (s : State) (b : BankNo) : Option FrameCopy :=
  let q := (s.bank b).seq
  if q.plan = .waiting && q.timer = some s.now then q.staged else none

def State.dueTimeout (s : State) (b : BankNo) : List Instr :=
  if (s.timeoutDue b).isSome then [.cueTimeout b] else []

/-- A journal that begins a step (R133). -/
def State.stepDue (s : State) (j : JournalNo) : Option LineNo :=
  let x := s.journal j
  if x.state = .opened && !x.closing && x.step = .idle then s.oldest j else none

def State.dueJournal (s : State) (j : JournalNo) : List Instr :=
  if (s.stepDue j).isSome then [.journalStep j] else []

/-- The command that takes a request word (R168, R169). -/
def takeCommand (w : Word) : Instr :=
  if action w = actMark then .mark
  else if action w = actBankStart then .bankStart
  else if action w = actBankStop then .bankStop
  else if action w = actBankLook then .bankLook
  else if action w = actBankRearm then .bankRearm
  else if action w = actBankTrip then .bankTrip
  else if action w = actBankAck then .bankAck
  else if action w = actJournalOpen then .journalOpen
  else if action w = actJournalClose then .journalClose
  else if action w = actJournalLook then .journalLook
  else if action w = actLineLoad then .lineLoad
  else if action w = actWindowsFlush then .windowsFlush
  else .unknownAction

/-- A word that joined an empty queue on this tick while nothing executes is taken on it (R168). -/
def State.dueTake (s : State) : List Instr :=
  if s.sweep.takeNow then
    match s.takeable with
    | some w => [takeCommand w]
    | none => []
  else []

/-- The steps due on this tick that can change what a pin desires. -/
def State.dueMoves (s : State) : List Instr :=
  s.dueTake ++ eight.flatMap s.dueLine ++ four.flatMap s.dueCounter ++ four.flatMap s.dueTimeout

/-- A pin's ON-delay is complete, and its desired level is the one of this tick (R60; log entry 28). -/
def State.onDelayDue (s : State) (b : BankNo) (c : ChanNo) (partner : Bool) : Bool :=
  s.dueMoves.isEmpty && (s.bank b).onDelayDone c partner

/-- The pins of a channel that are to be driven ON. -/
def State.duePins (s : State) (b : BankNo) (c : ChanNo) : List Instr :=
  (if s.onDelayDue b c false then [.onDelayReached b c false] else [])
    ++ (if s.onDelayDue b c true then [.onDelayReached b c true] else [])

/-- Every step due on this tick, none of which may wait for the next. -/
def State.dueCommands (s : State) : List Instr :=
  if s.resetHeld then []
  else
    s.dueMoves ++ four.flatMap (fun b => four.flatMap (s.duePins b)) ++ eight.flatMap s.dueJournal

/-- One of several, as the free order picks (log entry 4). -/
def pickFrom (free : Nat) : List Instr → Option Instr
  | [] => none
  | [c] => some c
  | c :: d :: rest => (c :: d :: rest)[Config.freeOrder free % (rest.length + 2)]?

/-- The step taken when nobody asks for an order. -/
def State.pick (s : State) : Option Instr := pickFrom s.freeCount s.dueCommands

/-- A free order has been drawn. -/
def State.drawn (s : State) : State :=
  if 1 < s.dueCommands.length then { s with freeCount := s.freeCount + 1 } else s

end Sys2Proof.Machine
end

