-- ==== Sys2Proof/Machine/TimeEvents.lean ====
section
/-! DEFINITION. The events that time brings: filter samples and edges, counter advances and
boundaries, wait limits, ON-delays, journal steps. An event that is not due does not occur (log
entry 3). -/

namespace Sys2Proof.Machine

/-- EDGE: the sample due completes the run of N (R117). -/
def execEdge (l : LineNo) (s : State) : Out :=
  unlessReset s fun s => if s.edgeDue l then s.conclude (s.acceptEdge l) else s

/-- FILTER_SAMPLE: the sample due makes no edge (R117). -/
def execFilterSample (l : LineNo) (s : State) : Out :=
  unlessReset s fun s =>
    if (s.line l).loaded && (s.line l).sampleDue && !s.edgeDue l then s.takeSample l else s

/-- COUNTER_ADVANCE: the counter takes its next value within the pass (R50). -/
def execCounterAdvance (b : BankNo) (s : State) : Out :=
  unlessReset s fun s =>
    match s.advanceDue b with
    | some v =>
      match s.dueCount b v with
      | some (count, dir) => s.conclude (s.advanceCounter b count dir)
      | none => s
    | none => s

/-- BOUNDARY: a pass ends with passes remaining (R33). -/
def execBoundary (b : BankNo) (s : State) : Out :=
  unlessReset s fun s =>
    match s.advanceDue b with
    | some v =>
      if (s.dueCount b v).isNone && v.repeatRemaining != 0 then s.conclude (s.innerBoundary b) else s
    | none => s

/-- FINAL_BOUNDARY: a pass ends with none remaining (R34). -/
def execFinalBoundary (b : BankNo) (s : State) : Out :=
  unlessReset s fun s =>
    match s.advanceDue b with
    | some v =>
      if (s.dueCount b v).isNone && v.repeatRemaining == 0 then s.conclude (s.lastBoundary b v)
      else s
    | none => s

/-- CUE_TIMEOUT: the wait limit expires on this tick (R78). -/
def execCueTimeout (b : BankNo) (s : State) : Out :=
  unlessReset s fun s =>
    match s.timeoutDue b with
    | some f => s.conclude (s.cueTimeout b f)
    | none => s

/-- A pin driven ON. -/
def PinPair.turnOn (p : PinPair) (partner : Bool) : PinPair :=
  if partner then { p with partner := { p.partner with drive := .on } }
  else { p with primary := { p.primary with drive := .on } }

/-- ON_DELAY_REACHED: the pin is driven ON (R60). -/
def execOnDelayReached (b : BankNo) (c : ChanNo) (partner : Bool) (s : State) : Out :=
  unlessReset s fun s =>
    if s.onDelayDue b c partner then
      s.modWave b fun w => { w with pins := w.pins.set c ((w.pins.get c).turnOn partner) }
    else s

/-- JOURNAL_STEP: an OPEN journal begins a step on its oldest held event (R133). -/
def execJournalStep (j : JournalNo) (s : State) : Out :=
  unlessReset s fun s =>
    match s.stepDue j with
    | some l => s.conclude (s.beginStep j l)
    | none => s

end Sys2Proof.Machine
end

