-- ==== Sys2Proof/Machine/Dispatch.lean ====
section
/-! DEFINITION. The meaning of every command, one arm each. -/

namespace Sys2Proof.Machine

def exec (i : Instr) (s : State) : Host.Outcome State Fault Refusal :=
  match i with
  | .mark => Sys2Proof.Machine.execMark s
  | .bankStart => Sys2Proof.Machine.execBankStart s
  | .bankStop => Sys2Proof.Machine.execBankStop s
  | .bankLook => Sys2Proof.Machine.execBankLook s
  | .bankRearm => Sys2Proof.Machine.execBankRearm s
  | .bankTrip => Sys2Proof.Machine.execBankTrip s
  | .bankAck => Sys2Proof.Machine.execBankAck s
  | .journalOpen => Sys2Proof.Machine.execJournalOpen s
  | .journalClose => Sys2Proof.Machine.execJournalClose s
  | .journalLook => Sys2Proof.Machine.execJournalLook s
  | .lineLoad => Sys2Proof.Machine.execLineLoad s
  | .windowsFlush => Sys2Proof.Machine.execWindowsFlush s
  | .unknownAction => Sys2Proof.Machine.execUnknownAction s
  | .run value => Sys2Proof.Machine.execRun value s
  | .engineReset value => Sys2Proof.Machine.execEngineReset value s
  | .causeWrite data => Sys2Proof.Machine.execCauseWrite data s
  | .causeEnable data => Sys2Proof.Machine.execCauseEnable data s
  | .tickLo => Sys2Proof.Machine.execTickLo s
  | .registerWrite offset data enables => Sys2Proof.Machine.execRegisterWrite offset data enables s
  | .resetN level => Sys2Proof.Machine.execResetN level s
  | .edge l => Sys2Proof.Machine.execEdge l s
  | .counterAdvance b => Sys2Proof.Machine.execCounterAdvance b s
  | .boundary b => Sys2Proof.Machine.execBoundary b s
  | .finalBoundary b => Sys2Proof.Machine.execFinalBoundary b s
  | .cueTimeout b => Sys2Proof.Machine.execCueTimeout b s
  | .onDelayReached b c partner => Sys2Proof.Machine.execOnDelayReached b c partner s
  | .headerRead place => Sys2Proof.Machine.execHeaderRead place s
  | .entryRead place => Sys2Proof.Machine.execEntryRead place s
  | .linkRead place => Sys2Proof.Machine.execLinkRead place s
  | .descriptorLoad place => Sys2Proof.Machine.execDescriptorLoad place s
  | .frameWriteResponse => Sys2Proof.Machine.execFrameWriteResponse s
  | .consumeReread place => Sys2Proof.Machine.execConsumeReread place s
  | .recordWriteResponse => Sys2Proof.Machine.execRecordWriteResponse s
  | .bankRecordRead place => Sys2Proof.Machine.execBankRecordRead place s
  | .lineRecordRead place => Sys2Proof.Machine.execLineRecordRead place s
  | .journalRecordRead place => Sys2Proof.Machine.execJournalRecordRead place s
  | .bootHeaderRead place => Sys2Proof.Machine.execBootHeaderRead place s
  | .engineStatusResponse => Sys2Proof.Machine.execEngineStatusResponse s
  | .anchorWriteResponse => Sys2Proof.Machine.execAnchorWriteResponse s
  | .journalStep j => Sys2Proof.Machine.execJournalStep j s
  | .arbiterGrant host fate => Sys2Proof.Machine.execArbiterGrant host fate s
  | .quiesceComplete fate => Sys2Proof.Machine.execQuiesceComplete fate s
  | .sweepWrite word => Sys2Proof.Machine.execSweepWrite word s
  | .filterSample l => Sys2Proof.Machine.execFilterSample l s

end Sys2Proof.Machine
end

