-- ==== Sys2Proof/Machine/Step.lean ====
section
/-! DEFINITION. One step: the command at the front of the queue, or time. -/

namespace Sys2Proof.Machine

/-- Time runs when no command waits: the step due on this tick, or the next tick (log entry 5). -/
def idle (s : State) : Host.Outcome State Fault Refusal :=
  match s.pick with
  | some c => exec c s.drawn
  | none => .next s.advanceTick

/-- The command at the front of the queue acts on the state with the queue's rest. -/
def step (s : State) : Host.Outcome State Fault Refusal :=
  match s.pending with
  | c :: rest => exec c { s with pending := rest }
  | [] => idle s

/-- The command that a word spells is put at the front of the queue; no word spells one. -/
def State.withFetchWord (s : State) (nbits w : Nat) : State :=
  match decodeTableWord nbits w with
  | some c => { s with pending := c :: s.pending }
  | none => s

end Sys2Proof.Machine
end

