-- ==== Sys2Proof/Safety.lean ====
section
/-! DEFINITION. What the manual says always holds, as predicates of a state, where the issue of a
request stores, and the words for pins, gates, outstanding reads and writes, and held events that the
laws share with the statements. -/

namespace Sys2Proof.Machine

/-- The memory is in its canonical form. -/
def State.MemoryOk (s : State) : Prop := s.memory.wf = true

/-- At most 4 reads are outstanding and at most 8 writes await their responses (R155). -/
def State.PortOk (s : State) : Prop :=
  s.port.reads.length ≤ Config.maxReads ∧ s.port.writes.length ≤ Config.maxWrites

/-- "The sweep queue never holds more than 4 requests, nor two identical request words" (R167), and
it holds words only while the engine is ON (R174). -/
def State.QueueOk (s : State) : Prop :=
  s.sweep.queue.length ≤ Config.maxQueue ∧ s.sweep.queue.Nodup ∧
    (s.sweep.queue ≠ [] → s.engine.state = .on)

/-- A pin driven ON has a desired level of ON (R60). -/
def Pin.Sound (p : Pin) : Prop := p.drive = .on → p.desired = true

/-- The two pins of a pair never desire ON together, nor rest or trip ON together, and neither is
driven ON against its desired level (R60, R62). -/
def PinPair.Sound (p : PinPair) : Prop :=
  p.primary.Sound ∧ p.partner.Sound ∧ (p.primary.desired && p.partner.desired) = false ∧
    (p.primary.rest && p.partner.rest) = false ∧ (p.primary.trip && p.partner.trip) = false

/-- The four pairs of a bank. -/
def Bank.PinsOk (k : Bank) : Prop := ∀ c, (k.wave.pins.get c).Sound

/-- Every pair of every bank. -/
def State.PinsOk (s : State) : Prop := ∀ b, (s.bank b).PinsOk

/-- The two pins of a pair are both driven ON: what R62 says never comes about. -/
def PinPair.shortCircuit (p : PinPair) : Prop := p.primary.drive = .on ∧ p.partner.drive = .on

/-- "A window index appears in the cache at most once", the cache has eight entries, and there is at
most one load in flight for each index (R149). -/
def State.WindowOk (s : State) : Prop :=
  (s.window.cache.map Prod.fst).Nodup ∧ s.window.cache.length ≤ Config.cacheEntries ∧
    (s.window.loads.map Load.index).Nodup

/-- Slots that the rest of a plan's records still takes (R135). -/
def StepPlan.slots : StepPlan → Nat
  | .gapThenEvent _ => 2
  | _ => 1

/-- Slots that the step in progress still takes (R134: room once judged is not reduced). -/
def JournalStep.slots : JournalStep → Nat
  | .check p => p.slots
  | .write p => p.slots
  | .produce p => p.slots - 1
  | _ => 0

/-- "For every OPEN journal, (produce − cached consume) mod 65536 lies between 0 and the journal's
capacity" (R134), with room for what its step still writes; a journal that is not OPEN has no step
in progress. -/
def Journal.RingOk (x : Journal) : Prop :=
  (x.state = .opened → x.unconsumed + x.step.slots ≤ x.capacity) ∧
    (x.state ≠ .opened → x.step = .idle)

def State.RingsOk (s : State) : Prop := ∀ j, (s.journal j).RingOk

/-- What the plan state fixes of the frames a bank holds, its tag and its latch (R25, R29, R71). -/
def Sequencer.Coherent (q : Sequencer) : Prop :=
  q.live.isSome = q.plan.isRunning ∧
  (q.staged.isSome = true ↔ q.tag = .valid) ∧
  (q.tag ≠ .empty → q.plan.isRunning = true ∨ q.plan = .waiting) ∧
  (q.latch ≠ .disarmed → q.tag = .valid) ∧
  (∀ f, q.staged = some f → f.start ≠ .now → q.latch ≠ .disarmed) ∧
  (q.plan = .waiting → q.tag = .valid ∧ q.latch = .armed) ∧
  (q.tag = .pending → q.fetch.isSome = true) ∧
  (∀ f, q.fetch = some f →
    (f.role = .head ∧ q.plan = .loading) ∨ (f.role = .successor ∧ q.tag = .pending)) ∧
  (q.linkRead = true → q.plan.isRunning = true ∧ q.tag = .empty) ∧
  (q.pendingStop = true → q.plan.isRunning = true)

def State.BanksCoherent (s : State) : Prop := ∀ b, (s.bank b).seq.Coherent

/-! ### Pins and gates -/

/-- The pins of a started bank follow the one source in force: the trip levels under a TRIPPED gate,
else the waveform of a running bank, else the rest levels. A pin that desires OFF is driven OFF; one
that desires ON is driven ON if it was so when the tick began and desired ON then, or once its
ON-delay count, which a fresh desire restarts, has reached its dead time (R59, R60, R65, R66). -/
def Bank.PinsFollow (k : Bank) : Prop :=
  k.seq.started = true → ∀ c : ChanNo,
    ((k.wave.pins.get c).primary.desired, (k.wave.pins.get c).partner.desired) =
      (if k.gate.tripped then ((k.wave.pins.get c).primary.trip, (k.wave.pins.get c).partner.trip)
        else if k.seq.plan.isRunning then
          (k.seq.settings.get c).desires (k.wave.lastRef.get c)
        else ((k.wave.pins.get c).primary.rest, (k.wave.pins.get c).partner.rest)) ∧
    ∀ (partner : Bool) (p : Pin), (k.wave.pins.get c).pin partner = p →
      p.delay = (if p.desired && p.wasDesired then p.wasDelay else 0) ∧
      (p.desired = false → p.drive = .off) ∧
      (p.desired = true → (p.wasDesired = true ∧ p.wasOn = true ∨
          (if partner then (k.seq.settings.get c).deadFall
            else (k.seq.settings.get c).deadRise) ≤ p.delay) → p.drive = .on) ∧
      (p.desired = true → ¬ (p.wasDesired = true ∧ p.wasOn = true ∨
          (if partner then (k.seq.settings.get c).deadFall
            else (k.seq.settings.get c).deadRise) ≤ p.delay) → p.drive = .off)

/-- The bit of a cause is set. -/
def State.causeSet (s : State) (bit : Nat) : Prop := s.cause.getLsbD bit = true

/-- A line that this mask selects is an active source: loaded, and at its trip level (R81). -/
def State.ActiveLine (s : State) (mask : Byte) (l : LineNo) : Prop :=
  mask.getLsbD l.val = true ∧ (s.line l).loaded = true ∧ (s.line l).high = (s.line l).cfg.tripHigh

/-- A trip source of a gate is active (R81). -/
def State.Sourced (s : State) (g : Gate) : Prop :=
  g.swTrip = true ∨ ∃ l, s.ActiveLine g.mask l

/-- The gate of a bank, which stood at `g`, has been judged afresh against the lines: an OPEN one
trips under an active source; a TRIPPED one keeps its count, loses a MANUAL rearm that was pending
to an active source, and reopens in AUTO mode with none active while the bank does not run. The pins
follow a gate that has changed (R82, R87, R89, R90). -/
structure State.GateJudged (t : State) (b : BankNo) (g : Gate) (running : Bool) : Prop where
  trips : g.tripped = false → t.Sourced g →
    (t.bank b).gate = { g with tripped := true, trips := satInc g.trips } ∧ t.causeSet (causeBank b)
  stays : g.tripped = false → ¬ t.Sourced g → (t.bank b).gate = g
  cancels : g.tripped = true → t.Sourced g →
    (t.bank b).gate = { g with rearmPending := g.rearmPending && g.auto }
  reopens : g.tripped = true → ¬ t.Sourced g → g.auto = true → running = false →
    (t.bank b).gate = { g with tripped := false, rearmPending := false }
  waits : g.tripped = true → ¬ t.Sourced g → (g.auto = false ∨ running = true) →
    (t.bank b).gate = g
  pins : (t.bank b).gate.tripped ≠ g.tripped → (t.bank b).PinsFollow

/-! ### Outstanding reads and writes -/

/-- A read of a frame of this bank: of its header, of its entries or of its link. -/
def OutRead.OfFrame (b : BankNo) (r : OutRead) : Prop :=
  r.owner = .header b ∨ r.owner = .entry b ∨ r.owner = .link b

/-- Every read of its frames that the bank has in flight is discarded (R32, R42, R43, R109). -/
def State.ReadsDiscarded (s : State) (b : BankNo) : Prop :=
  ∀ r ∈ s.port.reads, r.OfFrame b → r.discarded = true

/-- An outstanding read as it was or, a read of a frame, discarded. -/
def OutRead.Kept (r x : OutRead) : Prop :=
  x = r ∨ (∃ b, r.OfFrame b) ∧ x = { r with discarded := true }

/-- These reads are outstanding, in this order, and no other; reads of frames may be discarded. -/
def State.ReadsAre (s : State) (reads : List OutRead) : Prop :=
  List.Forall₂ OutRead.Kept reads s.port.reads

/-- An outstanding write as it was or, a write of a frame's retire fields, without the state write
that it held back (R107). -/
def OutWrite.Kept (w x : OutWrite) : Prop :=
  x = w ∨ ∃ b sel next, w.owner = .frameRetire b sel next ∧
    x = { w with owner := .frameRetire b sel none }

/-- These writes await their responses, in this order, and no other; state writes that they held back
may be withheld. -/
def State.WritesAre (s : State) (writes : List OutWrite) : Prop :=
  List.Forall₂ OutWrite.Kept writes s.port.writes

/-! ### Held events -/

/-- How many lines hold an event for a journal. -/
def State.heldCount (s : State) (j : JournalNo) : Nat :=
  (eight.filter fun l => (s.heldFor j l).isSome).length

/-! ### What an issue stores -/

/-- What the issue of a request stores: where, and which bytes; none for a read. -/
def State.stores (s : State) : Grant → Option (Nat × List Byte)
  | .journal j (.produceWord v) =>
    some (s.engine.anchor.toNat + (offJournalRecord j + 0x10), produceWordBytes v)
  | .journal j .statusWord =>
    some (s.engine.anchor.toNat + (offJournalRecord j + 0x18), statusWordBytes (s.journal j))
  | .journal j (.record addr second) =>
    match (s.journal j).step with
    | .write p => some ((partOf addr 16 second).1, bytesOf addr second (s.recordBytes j p))
    | _ => none
  | .journal _ _ => none
  | .frame _ a addr second =>
    if a.isWrite then some ((partOf addr a.length second).1, bytesOf addr second a.bytes) else none
  | .class3 .reply =>
    match s.sweep.exec with
    | some ⟨w, .replying r⟩ =>
      some (s.engine.anchor.toNat + offReply s.sweep.next, replyBytes s.sweep.next w r)
    | _ => none
  | .class3 .engine =>
    some (s.engine.anchor.toNat + offEngineStatus, engineStatusBytes s.engine.state s.sweep.next)
  | .class3 (.bank b) =>
    some (s.engine.anchor.toNat + offBankStatus b, bankStatusBytes (s.bank b))
  | .class3 (.line l) =>
    some (s.engine.anchor.toNat + offLineStatus l, lineStatusBytes (s.line l))
  | .class4 _ => none

/-- Whether what a request stores reaches memory (R108, R154). -/
def Grant.lands (fate : Fate) : Grant → Bool
  | .journal _ (.record _ _) => fate.lands
  | .frame _ a _ _ => a.lands fate
  | _ => !fate.isError

end Sys2Proof.Machine
end

