-- ==== Sys2Proof/Certificates/Slice0/Obligations.lean ====
section
/-! DEFINITION. The statements about the model, for the provers. The order is: the queue and time,
the register window, Engine Control, sweep requests, time events, arrivals and responses, the Memory
Port, frames, and the invariants. -/

section

namespace Sys2Proof.Machine

/-! ### The words the statements use -/

/-- The command answers a next state, and it is as `p` says. -/
def Answers (c : Instr) (s : State) (p : State → Prop) : Prop := ∃ t, exec c s = .next t ∧ p t

/-- The command answers a next state: its own effect gives `t`, as `p` says, and `State.conclude`
adds the window checks of requests that have become ready to be issued, the closes that can go on,
the Bank Status requests and the offer of a reply that are due on the same tick. (That the checks of
the writes an event requests are made after the whole event is the model's choice, log entry 45.) -/
def AnswersThen (c : Instr) (s : State) (p : State → Prop) : Prop :=
  ∃ t, exec c s = .next (s.conclude t) ∧ p t

/-- The part is out of reset, no request executes, and the sweep queue's head is `w`. -/
def State.Heads (s : State) (w : Word) (rest : List Word) : Prop :=
  s.resetHeld = false ∧ s.sweep.exec = none ∧ s.sweep.queue = w :: rest

/-- The request `w` executes and its reply, of this result, is offered: it waits in class 3 (R172). -/
def State.Replying (s : State) (w : Word) (r : Result) : Prop :=
  s.sweep.exec = some ⟨w, .replying r⟩ ∧ ∃ x ∈ s.port.class3, x.1 = .reply

/-- The request `w` has its result; its reply waits for what `wait` names. -/
def State.Answered (s : State) (w : Word) (r : Result) (wait : WaitFor) : Prop :=
  s.sweep.exec = some ⟨w, .answered r wait⟩

/-- Every byte of memory, the waiting commands, RESET_N, Engine Control, the timebase and its latch,
CAUSE_ENABLE, the last word read, the capture pins and the free-choice count are as before. -/
structure WorldKept (s t : State) : Prop where
  memory : ∀ a, t.memory.read a = s.memory.read a
  pending : t.pending = s.pending
  resetHeld : t.resetHeld = s.resetHeld
  engine : t.engine = s.engine
  now : t.now = s.now
  tickHi : t.tickHi = s.tickHi
  causeEnable : t.causeEnable = s.causeEnable
  readData : t.readData = s.readData
  pinsNow : t.pinsNow = s.pinsNow
  pinsAgo1 : t.pinsAgo1 = s.pinsAgo1
  pinsAgo2 : t.pinsAgo2 = s.pinsAgo2
  pinScript : t.pinScript = s.pinScript
  freeCount : t.freeCount = s.freeCount

/-- Banks, lines, journals, the Window Unit and the causes are as before. -/
structure BlocksKept (s t : State) : Prop where
  banks : t.banks = s.banks
  lines : t.lines = s.lines
  journals : t.journals = s.journals
  window : t.window = s.window
  cause : t.cause = s.cause

/-- Every bank but `b` is as before. -/
def OtherBanksKept (s t : State) (b : BankNo) : Prop := ∀ c, c ≠ b → t.bank c = s.bank c

/-- Every line but `l` is as before. -/
def OtherLinesKept (s t : State) (l : LineNo) : Prop := ∀ m, m ≠ l → t.line m = s.line m

/-- Every journal but `j` is as before. -/
def OtherJournalsKept (s t : State) (j : JournalNo) : Prop :=
  ∀ i, i ≠ j → t.journal i = s.journal i

/-- The gate after a boundary, or after the bank has left RUNNING or STARVED: a TRIPPED gate is OPEN
in MANUAL mode if a rearm was pending, and in AUTO mode if no source is active (R86, R88, R89). -/
def State.releasedGate (s : State) (b : BankNo) : Gate :=
  let g := (s.bank b).gate
  if g.tripped && (if g.auto then !g.swTrip && !s.lineTrips b else g.rearmPending)
  then { g with tripped := false, rearmPending := false } else g

/-- A fault is reported, over these sticky flags: its own flag is set; an empty report slot takes it,
with CAUSE.BANKb; a full one stays, and a further fault is counted (R102 to R104). -/
structure State.Reports (s t : State) (b : BankNo) (flags : Sticky) (cls : FaultClass)
    (sub : Subcode) (sel : Selector) (field : Nat) (phase : Phase) : Prop where
  masks : (t.bank b).faults.masks = (s.bank b).faults.masks
  sticky : (t.bank b).faults.sticky = flags.mark cls
  first : (s.bank b).faults.report = none →
    (t.bank b).faults.report = some ⟨cls, sub, sel, BitVec.ofNat 8 field, s.now, phase⟩ ∧
      (t.bank b).faults.further = (s.bank b).faults.further ∧ t.causeSet (causeBank b)
  more : (s.bank b).faults.report ≠ none →
    (t.bank b).faults.report = (s.bank b).faults.report ∧
      (t.bank b).faults.further = satInc (s.bank b).faults.further

/-- A Bank Status write is requested for the bank, while the engine is ON or QUIESCING (R163). -/
def State.BankReported (s t : State) (b : BankNo) : Prop :=
  s.engine.state = .on ∨ s.engine.state = .quiescing → ∃ x ∈ t.port.class3, x.1 = .bank b

/-- A Line Status write is requested for the line, or held while the engine is neither ON nor
QUIESCING (R125). -/
def State.LineReported (s t : State) (l : LineNo) : Prop :=
  (s.engine.state = .on ∨ s.engine.state = .quiescing → ∃ x ∈ t.port.class3, x.1 = .line l) ∧
    (s.engine.state ≠ .on → s.engine.state ≠ .quiescing → (t.line l).statusHeld = true)

/-- Of each bank of which something that Bank Status shows is not as it was in `s`, a Bank Status write
is requested (R47, R94, R112). -/
def State.StatusesAsked (s t : State) : Prop :=
  ∀ b, ((t.bank b).seq.plan ≠ (s.bank b).seq.plan ∨
      (t.bank b).seq.stopReason ≠ (s.bank b).seq.stopReason ∨
      (t.bank b).seq.liveSel ≠ (s.bank b).seq.liveSel ∨
      (t.bank b).seq.tag ≠ (s.bank b).seq.tag ∨
      (t.bank b).seq.retired ≠ (s.bank b).seq.retired ∨
      (t.bank b).gate.tripped ≠ (s.bank b).gate.tripped ∨
      (t.bank b).gate.rearmPending ≠ (s.bank b).gate.rearmPending ∨
      (t.bank b).gate.trips ≠ (s.bank b).gate.trips ∨
      (t.bank b).faults.sticky ≠ (s.bank b).faults.sticky ∨
      (t.bank b).faults.report ≠ (s.bank b).faults.report ∨
      (t.bank b).faults.further ≠ (s.bank b).faults.further) →
    t.BankReported t b

/-- The reply of a request that has its answer is offered once what it waits for is issued, and not
before (R159, R169, R172). -/
def State.ReplyOffered (s t : State) : Prop :=
  ∀ w r wait, s.Answered w r wait →
    (t.satisfied wait = true → t.Replying w r) ∧ (t.satisfied wait = false → t.Answered w r wait)

/-- The bank holds nothing of a plan: no live or staged frame, no fetch, an EMPTY tag, a disarmed
latch. -/
def Sequencer.Bare (q : Sequencer) : Prop :=
  q.live = none ∧ q.tag = .empty ∧ q.staged = none ∧ q.fetch = none ∧ q.linkRead = false ∧
    q.pendingStop = false ∧ q.latch = .disarmed ∧ q.awaited = none ∧ q.timer = none

/-- The bank has ended its plan in this state for this reason, and holds nothing; the reads of its
frames that are in flight are discarded. -/
def State.Ended (s : State) (b : BankNo) (plan : PlanState) (reason : StopReason) : Prop :=
  (s.bank b).seq.plan = plan ∧ (s.bank b).seq.stopReason = reason ∧ (s.bank b).seq.Bare ∧
    s.ReadsDiscarded b

/-- A frame becomes live: the bank is RUNNING, the staged slot is EMPTY, the counter takes 0, the
channels take the merged settings, and the LIVE write and then the link read are requested, behind
`before` (R9, R28, R35, R51, R53). -/
structure State.FrameStarts (s t : State) (b : BankNo) (f : FrameCopy) (forced : Bool)
    (before : List FrameReq) : Prop where
  plan : (t.bank b).seq.plan = .running
  live : (t.bank b).seq.live = some (f.live forced)
  tag : (t.bank b).seq.tag = .empty
  staged : (t.bank b).seq.staged = none
  latch : (t.bank b).seq.latch = .disarmed
  timer : (t.bank b).seq.timer = none
  counter : (t.bank b).wave.counter = 0
  settings : (t.bank b).seq.settings = mergeSettings (if (s.bank b).seq.firstFrame
    then .all .default else (s.bank b).seq.settings) f.entries
  pins : (t.bank b).PinsFollow
  requests : (t.bank b).fifo =
    before ++ [⟨.state f.sel .live, .unchecked⟩, ⟨.link f.sel, .unchecked⟩]

/-- A cue or edge reaches the latch of a bank: an armed one that awaits it is set in a running bank
(R73), and in a WAITING one the waiting frame starts (R75). -/
def State.CueReaches (s t : State) (c : StartCond) (b : BankNo) : Prop :=
  (s.bank b).seq.latch = .armed → (s.bank b).seq.awaited = some c →
    ((s.bank b).seq.plan.isRunning = true → (t.bank b).seq = { (s.bank b).seq with latch := .set }) ∧
    (∀ f, (s.bank b).seq.plan = .waiting → (s.bank b).seq.linkRead = false →
      (s.bank b).seq.staged = some f → s.FrameStarts t b f false (s.bank b).fifo)

/-- A cue or edge reaches the latches of all four banks (R68, R70). -/
def State.CueTaken (s t : State) (c : StartCond) : Prop := ∀ b, s.CueReaches t c b

/-- A bank has emitted this cue: it has reached the latches of the other three (R68). -/
def State.CueSent (s t : State) (b : BankNo) (k : CueKind) : Prop :=
  ∀ c, c ≠ b → s.CueReaches t (.cue b k) c

/-- The cues of a frame that has become live in a bank: FRAME_START, and MATCH when channel 0
compares with 0 (R58, R68). -/
def State.StartSent (s t : State) (b : BankNo) : Prop :=
  s.CueSent t b .frameStart ∧
    ((t.bank b).seq.settings.q0.compare = 0 → s.CueSent t b .matched)

/-- The bank leaves its plan, at a stop or a halt: it has ended, its counter is held at 0, CAUSE.BANKb
is set, a gate that may reopen does, the pins take their rest levels, or trip levels, and PLAN_END
reaches the other banks (R42, R43, R86, R89). -/
structure State.PlanEnds (s t : State) (b : BankNo) (plan : PlanState) (reason : StopReason) :
    Prop where
  ended : t.Ended b plan reason
  counter : (t.bank b).wave.counter = 0
  cause : t.causeSet (causeBank b)
  gate : (t.bank b).gate = s.releasedGate b
  pins : (t.bank b).PinsFollow
  sent : s.CueSent t b .planEnd

/-- The bank enters WAITING for this frame, with no frame live (R29, R35, R39, R77). -/
structure State.FrameWaits (s t : State) (b : BankNo) (f : FrameCopy) (before : List FrameReq) :
    Prop where
  plan : (t.bank b).seq.plan = .waiting
  live : (t.bank b).seq.live = none
  tag : (t.bank b).seq.tag = .valid
  staged : (t.bank b).seq.staged = some f
  latch : (t.bank b).seq.latch = .armed
  timer : (t.bank b).seq.timer = if f.waitLimit = 0 then none
    else some (s.now + BitVec.ofNat 48 (f.waitLimit * 1024))
  counter : (t.bank b).wave.counter = 0
  pins : (t.bank b).PinsFollow
  requests : (t.bank b).fifo = before

/-- The write of a frame's retire fields, with the terminal state that follows on its OK, for the
live frame `v` with this count of passes (R12 to R14, R18). -/
def Live.retireReq (v : Live) (now : Stamp) (passes : BitVec 32) (code : FrameState) : FrameReq :=
  ⟨.retire v.sel now passes v.flags (some code), .unchecked⟩

/-- A fetch ends in a fault. It is reported, in phase HEAD or STAGING; the head frame's halts the
bank at once, and a successor's makes the tag REJECTED. A frame to be written REJECTED has its retire
fields requested, behind `before`; of those, a halt strikes the reads and the STAGED write of the
fetch (R28, R31, R32, R43, R105). -/
structure State.FetchFails (s t : State) (b : BankNo) (f : Fetch) (cls : FaultClass)
    (sub : Subcode) (field : Nat) (rejected clamped : Bool) (before : List FrameReq) : Prop where
  report : s.Reports t b (if clamped then (s.bank b).faults.sticky.mark .range
    else (s.bank b).faults.sticky) cls sub f.sel field f.role.phase
  head : f.role = .head → s.PlanEnds t b .halted .fault
  successor : f.role = .successor →
    (t.bank b).seq = { (s.bank b).seq with tag := .rejected, fetch := none }
  requests : (t.bank b).fifo =
    (match f.role with
      | .head => before.filter fun r => !r.acc.fetches
      | .successor => before) ++
    if rejected then [⟨.retire f.sel s.now 0#32 (if clamped then 0x01#8 else 0x00#8)
      (some .rejected), .unchecked⟩] else []

/-- The checks of a fetched frame have this outcome: the STAGED write is requested, with the sticky
flags of the defaults that acted, or the fetch ends in a fault (R28, R32, R101). -/
def State.Judged (s t : State) (b : BankNo) (f : Fetch) : FrameVerdict → Prop
  | .staged copy =>
    (t.bank b).seq = { (s.bank b).seq with fetch := some { f with copy := some copy } } ∧
      (t.bank b).fifo = (s.bank b).fifo ++ [⟨.state copy.sel .staged, .unchecked⟩] ∧
      (t.bank b).faults = { (s.bank b).faults with sticky :=
        { (s.bank b).faults.sticky with
          range := (s.bank b).faults.sticky.range || copy.clamped
          timing := (s.bank b).faults.sticky.timing || copy.stretched } }
  | .bad cls sub field rejected clamped =>
    s.FetchFails t b f cls sub field rejected clamped (s.bank b).fifo

/-- A write to a frame fails, by its window check or its response. The fault is reported in phase
BOUNDARY, the frame gets no further write, and an active bank halts at once: another live frame is
CUT, another staged one returned READY (R18, R43, R107). -/
structure State.WriteFails (s t : State) (b : BankNo) (sel : Selector) (cls : FaultClass)
    (sub : Subcode) (field : Nat) : Prop where
  report : s.Reports t b (s.bank b).faults.sticky cls sub sel field .boundary
  active : (s.bank b).seq.plan.isActive = true → s.PlanEnds t b .halted .fault
  ended : (s.bank b).seq.plan.isActive = false → (t.bank b).seq = (s.bank b).seq
  requests : ∀ r ∈ (t.bank b).fifo, r.acc.isWrite = true → r.acc.sel = sel → r.status.begun = true
  held : ∀ w ∈ t.port.writes, ∀ next, w.owner = .frameRetire b sel next → next = none
  live : ∀ v, (s.bank b).seq.plan.isActive = true → (s.bank b).seq.live = some v → v.sel ≠ sel →
    v.retireReq s.now v.passes .cut ∈ (t.bank b).fifo
  staged : ∀ f, (s.bank b).seq.plan.isActive = true → (s.bank b).seq.staged = some f →
    f.sel ≠ sel → ⟨.state f.sel .ready, .unchecked⟩ ∈ (t.bank b).fifo

/-- The link of the live frame cannot be followed: the fault is reported in phase STAGING with the
live frame's selector and field index 10, and the tag is REJECTED (R31). -/
def State.LinkFails (s t : State) (b : BankNo) (cls : FaultClass) (sub : Subcode) : Prop :=
  s.Reports t b (s.bank b).faults.sticky cls sub (s.bank b).seq.liveSel 10 .staging ∧
    (t.bank b).seq.tag = .rejected ∧ (t.bank b).seq.linkRead = false ∧
    (t.bank b).seq.plan = (s.bank b).seq.plan ∧ (t.bank b).seq.fetch = (s.bank b).seq.fetch

/-- An access of a bank fails its check, or its descriptor load is answered ERROR; `before` are the
bank's requests without it (R148). -/
def State.AccessFails (s t : State) (b : BankNo) (a : FrameAccess) (cls : FaultClass)
    (sub : Subcode) (before : List FrameReq) : Prop :=
  match a with
  | .header _ | .entry _ _ =>
    ∀ f, (s.bank b).seq.fetch = some f → s.FetchFails t b f cls sub 0 false false before
  | .link _ => (s.bank b).seq.linkRead = true → s.LinkFails t b cls sub ∧ (t.bank b).fifo = before
  | .state sel _ => s.WriteFails t b sel cls sub 1
  | .retire sel _ _ _ _ => s.WriteFails t b sel cls sub 0
  | .load _ => True

/-- A journal becomes FAULTED with this code: the gap is dropped, the step ends, each event held for
it is counted as missed, and so are `lost` events of a record write that failed after its issue; its
cause bit is set and its status word requested (R140). -/
structure State.JournalFaults (s t : State) (j : JournalNo) (code : JournalFault) (lost : Nat) :
    Prop where
  state : (t.journal j).state = .faulted
  fault : (t.journal j).fault = code
  gap : (t.journal j).gap = 0#32
  step : (t.journal j).step = .idle
  produce : (t.journal j).produce = (s.journal j).produce
  cause : t.causeSet (causeJournal j)
  word : .statusWord ∈ (t.journal j).fifo
  held : ∀ l, s.heldFor j l ≠ none → (t.line l).holding = none
  missed : (t.journal j).missed =
    (s.journal j).missed + BitVec.ofNat 32 (lost + s.heldCount j)

/-- An event is counted as missed by a journal that is not FAULTED: the missed total goes up, the
gap too, whose stamp is its first event's, the holding register is emptied, and a status word is
requested (R135). `was` is the pending gap before it. -/
structure State.EventMissed (s t : State) (j : JournalNo) (l : LineNo) (was : BitVec 32) : Prop where
  missed : (t.journal j).missed = (s.journal j).missed + 1#32
  gap : (t.journal j).gap = satInc was
  stamp : ∀ e, (s.line l).holding = some e →
    (t.journal j).gapStamp = if was = 0#32 then e.stamp else (s.journal j).gapStamp
  line : t.line l = { s.line l with holding := none }
  word : .statusWord ∈ (t.journal j).fifo

/-- Byte offset in its window of the slot of a journal's produce index (R130). -/
def Journal.nextSlot (x : Journal) : Nat :=
  x.ringOffset + 16 * (x.produce.toNat % x.capacity)

/-- A step of the journal, which stands at `x`, goes on to a record by this plan, whose window check
is made: with a cached descriptor that grants the slot of the produce index the record write is
requested; with one that refuses it, or an index outside the table, the journal is FAULTED; with none
cached the check waits on a descriptor load (R136, R140, R147, R150). -/
def State.RecordChecked (s t : State) (j : JournalNo) (x : Journal) (p : StepPlan) : Prop :=
  (s.window.tableCount ≤ x.window.toNat → s.JournalFaults t j .index 0) ∧
  (∀ d, x.window.toNat < s.window.tableCount → cacheFind x.window s.window.cache = some d →
    (∀ addr, judgeDescriptor d x.nextSlot 16 true x.domain = .pass addr →
      t.lines = s.lines ∧ (t.journal j).step = .write p ∧
        (t.journal j).fifo = x.fifo ++ [.record addr false]) ∧
    (∀ sub, judgeDescriptor d x.nextSlot 16 true x.domain = .fail sub →
      s.JournalFaults t j sub.journalFault 0)) ∧
  (x.window.toNat < s.window.tableCount → cacheFind x.window s.window.cache = none →
    t.lines = s.lines ∧ (t.journal j).step = .check p ∧
      (∃ y ∈ t.window.loads, y.index = x.window ∧ .journal j ∈ y.waiters) ∧
      (loadFind x.window s.window.loads = none →
        (t.journal j).fifo = x.fifo ++ [.load x.window]))

/-- What a step writes of an event when there is free room, by the pending gap and the room (R135).
-/
def Journal.planFor (x : Journal) (l : LineNo) : StepPlan :=
  if x.gap = 0#32 then .event l else if x.room = 1 then .gapThenMiss l else .gapThenEvent l

/-- A close ends: the journal is CLOSED with its fault code as it stands, every event still held for
it is counted and its register emptied, the status word is requested, and a JOURNAL_CLOSE that
executes is answered DONE behind the journal's words (R142 step 4, R143). -/
structure State.JournalCloses (s t : State) (j : JournalNo) : Prop where
  state : (t.journal j).state = .closed
  closing : (t.journal j).closing = false
  fault : (t.journal j).fault = (s.journal j).fault
  produce : (t.journal j).produce = (s.journal j).produce
  missed : (t.journal j).missed = (s.journal j).missed + BitVec.ofNat 32 (s.heldCount j)
  held : ∀ l, t.heldFor j l = none
  word : .statusWord ∈ (t.journal j).fifo
  answer : ∀ w, s.sweep.exec = some ⟨w, .closing j⟩ → t.Answered w .done (.journalWords j)

/-- A close that can go on takes its next step: the oldest event still held, a re-read first where
there is no room; then the last GAP record, once; then the end (R142 steps 2 to 4, R143). -/
structure State.CloseGoesOn (s t : State) (j : JournalNo) : Prop where
  event : ∀ l, (s.journal j).state = .opened → s.oldest j = some l →
    ((s.journal j).room = 0 → t.lines = s.lines ∧ (t.journal j).step = .reread (some l) ∧
      (t.journal j).rereadInFlight = true) ∧
    ((s.journal j).room ≠ 0 → s.RecordChecked t j (s.journal j) ((s.journal j).planFor l))
  gap : (s.journal j).state = .opened → s.oldest j = none → (s.journal j).gap ≠ 0#32 →
    (s.journal j).lastGapDone = false →
    ((s.journal j).room = 0 → t.lines = s.lines ∧ (t.journal j).step = .reread none ∧
      (t.journal j).rereadInFlight = true ∧ (t.journal j).lastGapDone = true) ∧
    ((s.journal j).room ≠ 0 → ∀ x : Journal, x = { s.journal j with lastGapDone := true } →
      s.RecordChecked t j x .gapOnly)
  ends : ((s.journal j).state = .opened → s.oldest j = none ∧
      ((s.journal j).gap = 0#32 ∨ (s.journal j).lastGapDone = true)) → s.JournalCloses t j

/-- An accepted JOURNAL_OPEN (R132). -/
structure State.JournalOpens (s t : State) (j : JournalNo) (r : JournalRecord) : Prop where
  state : (t.journal j).state = .opened
  window : (t.journal j).window = r.window
  domain : (t.journal j).domain = r.domain
  capacity : (t.journal j).capacity = 2 ^ r.log2Capacity.toNat
  ringOffset : (t.journal j).ringOffset = r.ringOffset
  watermark : (t.journal j).watermark = r.watermark
  produce : (t.journal j).produce = r.consume
  cached : (t.journal j).cached = r.consume
  gap : (t.journal j).gap = 0#32
  missed : (t.journal j).missed = 0#32
  watermarkFlag : (t.journal j).watermarkFlag = false
  fault : (t.journal j).fault = .none
  words : .produceWord r.consume ∈ (t.journal j).fifo ∧ .statusWord ∈ (t.journal j).fifo
  lines : ∀ l, (s.journal j).closing = false → (s.line l).loaded = true →
    (s.line l).cfg.mode ≠ .off → (s.line l).cfg.journal = j →
    (t.line l).armed = true ∧
      ((s.line l).armed = false →
        (t.line l).prescaleCount = 0 ∧ (t.line l).widthRef = none)

/-- A capture event is made on a line: it takes the line's sequence number, and enters an empty
holding register, from which a FAULTED journal counts it as missed at once; a full one loses it, to
the overrun count (R122, R123, R141). -/
structure State.EventMade (s t : State) (l : LineNo) (kind : EventKind) (value : BitVec 32)
    (saturated : Bool) : Prop where
  sequence : (t.line l).sequence = (s.line l).sequence + 1#8
  full : (s.line l).holding ≠ none →
    (t.line l).holding = (s.line l).holding ∧ (t.line l).lost = true ∧
      (t.line l).overruns = satInc (s.line l).overruns ∧ t.journals = s.journals
  entered : (s.line l).holding = none → (t.line l).lost = false ∧
    (t.line l).overruns = (s.line l).overruns ∧
    ((s.journal (s.line l).cfg.journal).state ≠ .faulted → t.journals = s.journals ∧
      (t.line l).holding = some
        { line := l, journal := (s.line l).cfg.journal, kind, sequence := (s.line l).sequence,
          value, stamp := s.now, saturated, overrun := (s.line l).lost })
  counted : (s.line l).holding = none → (s.journal (s.line l).cfg.journal).state = .faulted →
    (t.line l).holding = none ∧
      (t.journal (s.line l).cfg.journal).missed
        = (s.journal (s.line l).cfg.journal).missed + 1#32 ∧
      .statusWord ∈ (t.journal (s.line l).cfg.journal).fifo

/-- No capture event is made on a line. -/
structure State.NoEvent (s t : State) (l : LineNo) : Prop where
  sequence : (t.line l).sequence = (s.line l).sequence
  holding : (t.line l).holding = (s.line l).holding
  lost : (t.line l).lost = (s.line l).lost
  overruns : (t.line l).overruns = (s.line l).overruns
  journals : t.journals = s.journals

/-- The outstanding read at a place is this one, is not discarded, and the part is out of reset. -/
def State.Arriving (s : State) (place : Fin 4) (r : OutRead) : Prop :=
  s.resetHeld = false ∧ s.readAt place = some r ∧ r.discarded = false

/-- The write that is answered next is this one, and the part is out of reset. -/
def State.Responding (s : State) (w : OutWrite) (rest : List OutWrite) : Prop :=
  s.resetHeld = false ∧ s.port.writes = w :: rest

/-- The counter of a running bank is at its advance, its live frame being `v`. -/
def State.AtAdvance (s : State) (b : BankNo) (v : Live) : Prop :=
  s.resetHeld = false ∧ s.advanceDue b = some v

/-- The bank's counter goes on within the pass, to `count` with direction `dir`. -/
def State.Advances (s : State) (b : BankNo) (v : Live) (count : Nat) (dir : Direction) : Prop :=
  s.AtAdvance b v ∧ nextCount v.countMode v.period (s.bank b).wave.counter (s.bank b).wave.dir
    = some (count, dir)

/-- The bank's counter is at a boundary. -/
def State.AtBoundary (s : State) (b : BankNo) (v : Live) : Prop :=
  s.AtAdvance b v ∧
    nextCount v.countMode v.period (s.bank b).wave.counter (s.bank b).wave.dir = none

/-- The commands that write neither memory nor registers and leave Engine Control and time alone. -/
def innerCommand : Instr → Bool
  | .run _ | .engineReset _ | .causeWrite _ | .causeEnable _ | .tickLo | .registerWrite _ _ _
  | .resetN _ | .bootHeaderRead _ | .arbiterGrant _ _ | .quiesceComplete _ => false
  | _ => true

/-- The commands that act on banks and on no line and no journal. -/
def bankCommand : Instr → Bool
  | .mark | .bankStart | .bankStop | .bankLook | .bankRearm | .bankTrip | .bankAck
  | .windowsFlush | .unknownAction | .lineLoad | .counterAdvance _ | .boundary _
  | .finalBoundary _ | .cueTimeout _ | .onDelayReached _ _ _ | .headerRead _ | .entryRead _
  | .linkRead _ | .frameWriteResponse | .bankRecordRead _ | .engineStatusResponse
  | .anchorWriteResponse | .sweepWrite _ => true
  | _ => false

/-- The counter after `n` advances from the start of a pass; none once a boundary is reached. -/
def countsFrom (mode : CountMode) (period : Nat) : Nat → Option (Nat × Direction)
  | 0 => some (0, .up)
  | n + 1 => (countsFrom mode period n).bind fun x => nextCount mode period x.1 x.2

end Sys2Proof.Machine

open Sys2Proof Sys2Proof.Machine

/-! ### The queue and time -/

/-- A step with a command at the front of the queue is `exec` of it on the queue's rest. -/
def Obligations.StepRunsTheFrontCommand : Prop :=
  ∀ (c : Instr) (rest : List Instr) (s : State), s.pending = c :: rest →
    step s = exec c { s with pending := rest }

/-- With no command waiting and nothing due, a tick passes. The timebase goes up by 1 while the
engine is ON or QUIESCING and holds its value otherwise. The divider phase of a running bank goes up
by 1, and restarts with an advance due when it reaches the live frame's divider; the sample phase of
a loaded line goes up by 1, and restarts with a sample due when it reaches the line's divider; the
capture pins' levels move on towards the samples. Each pin's ON-delay count goes up by 1, to 1023 at
the most, while its desired level is ON. Memory, registers, requests, every plan state, every
counter and every pin's drive are as before. (That time passes on an empty queue is the model's
choice, log entry 5.) -/
def Obligations.IdleStepLetsATickPass : Prop :=
  ∀ s : State, s.pending = [] → s.dueCommands = [] →
    ∃ t, step s = .next t ∧
      t.now = (if s.resetHeld = false ∧ (s.engine.state = .on ∨ s.engine.state = .quiescing)
        then s.now + 1#48 else s.now) ∧
      (∀ a, t.memory.read a = s.memory.read a) ∧ t.engine = s.engine ∧ t.cause = s.cause ∧
      t.causeEnable = s.causeEnable ∧ t.tickHi = s.tickHi ∧ t.sweep = s.sweep ∧
      t.journals = s.journals ∧ t.window = s.window ∧ t.port.reads = s.port.reads ∧
      t.port.writes = s.port.writes ∧ (∀ b, (t.bank b).seq = (s.bank b).seq) ∧
      t.pinsAgo2 = s.pinsAgo1 ∧ t.pinsAgo1 = s.pinsNow ∧
      (s.resetHeld = false → ∀ b,
        (t.bank b).wave.counter = (s.bank b).wave.counter ∧
        (t.bank b).wave.dir = (s.bank b).wave.dir ∧
        (t.bank b).wave.lastRef = (s.bank b).wave.lastRef ∧
        (∀ v, (s.bank b).seq.plan.isRunning = true → (s.bank b).seq.live = some v →
          (t.bank b).wave.phase =
            (if (s.bank b).wave.phase + 1 < v.divider then (s.bank b).wave.phase + 1 else 0) ∧
          ((t.bank b).wave.advanceDue = true ↔ v.divider ≤ (s.bank b).wave.phase + 1)) ∧
        ((s.bank b).seq.plan.isRunning = false →
          (t.bank b).wave.phase = (s.bank b).wave.phase ∧
            (t.bank b).wave.advanceDue = (s.bank b).wave.advanceDue)) ∧
      (s.resetHeld = false → ∀ l,
        ((s.line l).loaded = true →
          t.line l = { s.line l with
            phase := if (s.line l).phase + 1 < (s.line l).cfg.divider
              then (s.line l).phase + 1 else 0
            sampleDue := decide ((s.line l).cfg.divider ≤ (s.line l).phase + 1) }) ∧
        ((s.line l).loaded = false → t.line l = s.line l)) ∧
      ∀ b c partner,
        (((t.bank b).wave.pins.get c).pin partner).desired
          = (((s.bank b).wave.pins.get c).pin partner).desired ∧
        (((t.bank b).wave.pins.get c).pin partner).drive
          = (((s.bank b).wave.pins.get c).pin partner).drive ∧
        (s.resetHeld = false →
          (((t.bank b).wave.pins.get c).pin partner).delay =
            if (((s.bank b).wave.pins.get c).pin partner).desired
            then min (((((s.bank b).wave.pins.get c).pin partner).delay) + 1) 1023 else 0)

/-! ### The register window -/

/-- A write of CAUSE clears each bit written as 1 and leaves each bit written as 0. -/
def Obligations.CauseWriteClearsOnes : Prop :=
  ∀ (data : Word) (s : State), s.resetHeld = false →
    Answers (.causeWrite data) s fun t =>
      (∀ n, n < 16 → t.cause.getLsbD n = (s.cause.getLsbD n && !data.getLsbD n)) ∧
        t = { s with cause := t.cause }

/-- R187: a write of CAUSE_ENABLE stores the sixteen enable bits and nothing else; IRQ is asserted in
exactly the states in which some cause bit is set and enabled; both resets clear the enables. -/
def Obligations.IrqFollowsEnabledCauses : Prop :=
  (∀ s : State, s.irq = true ↔
      ∃ n, n < 16 ∧ s.cause.getLsbD n = true ∧ s.causeEnable.getLsbD n = true) ∧
    (∀ (data : Word) (s : State), s.resetHeld = false →
      Answers (.causeEnable data) s fun t =>
        (∀ n, n < 16 → t.causeEnable.getLsbD n = data.getLsbD n) ∧
          t = { s with causeEnable := t.causeEnable }) ∧
    (∀ (v : Bool) (s : State), s.resetHeld = false →
      Answers (.engineReset v) s fun t => t.causeEnable = 0#16 ∧ t.irq = false) ∧
    (∀ s : State, Answers (.resetN false) s fun t => t.causeEnable = 0#16 ∧ t.irq = false)

/-- R185: a read of TICK_LO returns bits 31 to 0 of the timebase and latches bits 47 to 32, which
TICK_HI then reads; a read of TICK_HI is no command and changes nothing; writes to either do nothing;
both resets clear the latch, and no other command, and no passing of time, moves it. No command sets
the timebase but the two resets, which clear it. -/
def Obligations.TickLoLatchesTickHi : Prop :=
  (∀ s : State, s.resetHeld = false →
    Answers .tickLo s fun t =>
      t.readData = s.now.setWidth 32 ∧ t.tickHi = s.now.extractLsb' 32 16 ∧
        t.readRegister 0x20 = (s.now.extractLsb' 32 16).setWidth 32 ∧
        t.tickHi ++ t.readData = s.now ∧
        t = { s with readData := t.readData, tickHi := t.tickHi }) ∧
  (∀ (offset : Nat) (data : Word) (e : BitVec 4) (s : State), offset = 0x1C ∨ offset = 0x20 →
    exec (.registerWrite offset data e) s = .next s) ∧
  (∀ (v : Bool) (s : State), s.resetHeld = false →
    Answers (.engineReset v) s fun t =>
      t.tickHi = 0#16 ∧ t.readRegister 0x20 = 0#32 ∧ t.now = 0#48) ∧
  (∀ s : State, Answers (.resetN false) s fun t =>
    t.tickHi = 0#16 ∧ t.readRegister 0x20 = 0#32 ∧ t.now = 0#48) ∧
  (∀ (c : Instr) (s t : State), (∀ v, c ≠ .engineReset v) → (∀ v, c ≠ .resetN v) →
    (∀ w e, c ≠ .registerWrite 0x04 w e) → exec c s = .next t →
    t.now = s.now ∧ (c ≠ .tickLo → t.tickHi = s.tickHi)) ∧
  (∀ s t : State, s.pending = [] → step s = .next t → t.tickHi = s.tickHi)

/-- What becomes of a word written to SWEEP, by the four conditions of the table; a word that is
discarded or merged takes no sequence number and leaves the executing request alone. A word equal to
a waiting one is dropped, and not merged, while the queue holds 4: the table gives both, and taking
the full queue first is the model's choice, log entry 39. -/
def Obligations.SweepWriteJudgesTheWord : Prop :=
  ∀ (w : Word) (s : State), s.resetHeld = false →
    Answers (.sweepWrite w) s fun t =>
      (s.engine.state ≠ .on → t.causeSet causeDropped ∧ t = { s with cause := t.cause }) ∧
      (s.engine.state = .on → s.sweep.queue.length = 4 →
        t.causeSet causeDropped ∧ t = { s with cause := t.cause }) ∧
      (s.engine.state = .on → s.sweep.queue.length < 4 → w ∈ s.sweep.queue → t = s) ∧
      (s.engine.state = .on → s.sweep.queue.length < 4 → w ∉ s.sweep.queue →
        t.sweep.queue = s.sweep.queue ++ [w] ∧ t.sweep.exec = s.sweep.exec ∧
          t.sweep.next = s.sweep.next ∧ t = { s with sweep := t.sweep }) ∧
      (s.QueueOk → t.QueueOk)

/-- What a read of each register of the window returns, in every state, with the bits that are no
field reading 0, and 0 at every offset past the last register. A write at an offset, with all four
byte enables, is the named command of that register; with other enables, or at a register that takes
no writes, it changes nothing. (That SWEEP reads busy while a request executes or a word waits is log
entry 19; that no read but TICK_LO's is a command is log entry 6.) -/
def Obligations.RegisterWriteActsByOffset : Prop :=
  (∀ s : State,
    s.readRegister 0x00 = 0x0816015A#32 ∧
    ((s.readRegister 0x04).getLsbD 0 = s.engine.run ∧
      (s.readRegister 0x04).extractLsb' 4 3 = (match s.engine.state with
        | .off => 0#3 | .booting => 1#3 | .on => 2#3 | .quiescing => 3#3 | .anchorFault => 4#3) ∧
      (s.readRegister 0x04).extractLsb' 8 3 = (match s.engine.bootFault with
        | .none => 0#3 | .signature => 1#3 | .version => 2#3 | .align => 3#3 | .count => 4#3
        | .port => 5#3) ∧
      ∀ n, n ∉ [0, 4, 5, 6, 8, 9, 10] → (s.readRegister 0x04).getLsbD n = false) ∧
    s.readRegister 0x08 = s.engine.anchorLo ∧
    ((s.readRegister 0x0C).extractLsb' 0 16 = s.engine.anchorHi ∧
      (s.readRegister 0x0C).extractLsb' 16 16 = 0#16) ∧
    (s.sweep.queue.length ≤ 4 →
      ((s.readRegister 0x10).extractLsb' 0 3).toNat = s.sweep.queue.length ∧
      ((s.readRegister 0x10).getLsbD 8 = true ↔ s.sweep.exec ≠ none ∨ s.sweep.queue ≠ []) ∧
      ∀ n, n ∉ [0, 1, 2, 8] → (s.readRegister 0x10).getLsbD n = false) ∧
    ((s.readRegister 0x14).extractLsb' 0 16 = s.cause ∧
      (s.readRegister 0x14).extractLsb' 16 16 = 0#16) ∧
    ((s.readRegister 0x18).extractLsb' 0 16 = s.causeEnable ∧
      (s.readRegister 0x18).extractLsb' 16 16 = 0#16) ∧
    s.readRegister 0x1C = s.now.extractLsb' 0 32 ∧
    ((s.readRegister 0x20).extractLsb' 0 16 = s.tickHi ∧
      (s.readRegister 0x20).extractLsb' 16 16 = 0#16) ∧
    ∀ offset, 0x24 ≤ offset → s.readRegister offset = 0#32) ∧
  ∀ (data : Word) (s : State), s.resetHeld = false →
    (∀ offset e, e ≠ BitVec.allOnes 4 → exec (.registerWrite offset data e) s = .next s) ∧
    (∀ offset, offset ≠ 0x04 → offset ≠ 0x08 → offset ≠ 0x0C → offset ≠ 0x10 → offset ≠ 0x14 →
      offset ≠ 0x18 → exec (.registerWrite offset data (BitVec.allOnes 4)) s = .next s) ∧
    (Answers (.registerWrite 0x08 data (BitVec.allOnes 4)) s fun t =>
      t.readRegister 0x08 = data ∧ t = { s with engine := { s.engine with anchorLo := data } }) ∧
    (Answers (.registerWrite 0x0C data (BitVec.allOnes 4)) s fun t =>
      t.readRegister 0x0C = (data.setWidth 16).setWidth 32 ∧
        t = { s with engine := { s.engine with anchorHi := data.setWidth 16 } }) ∧
    exec (.registerWrite 0x10 data (BitVec.allOnes 4)) s = exec (.sweepWrite data) s ∧
    exec (.registerWrite 0x14 data (BitVec.allOnes 4)) s = exec (.causeWrite data) s ∧
    exec (.registerWrite 0x18 data (BitVec.allOnes 4)) s = exec (.causeEnable data) s ∧
    exec (.registerWrite 0x04 data (BitVec.allOnes 4)) s =
      (if data.getLsbD 1 then exec (.engineReset (data.getLsbD 0)) s
        else exec (.run (data.getLsbD 0)) s)

/-- What the nine registers read right after reset, and the states of the blocks. -/
def Obligations.RegistersAtReset : Prop :=
  State.reset.readRegister 0x00 = 0x0816015A#32 ∧
    (∀ offset, offset ≠ 0x00 → State.reset.readRegister offset = 0#32) ∧
    State.reset.irq = false ∧ State.reset.engine.state = .off ∧ State.reset.sweep.next = 0#16 ∧
    (∀ b, (State.reset.bank b).seq.plan = .dormant ∧ (State.reset.bank b).gate.tripped = false) ∧
    (∀ l, (State.reset.line l).loaded = false) ∧ (∀ j, (State.reset.journal j).state = .closed) ∧
    (∀ b c, ((State.reset.bank b).wave.pins.get c).primary.drive = .highZ ∧
      ((State.reset.bank b).wave.pins.get c).partner.drive = .highZ)

/-! ### Engine Control -/

/-- A RUN written with its present value changes nothing. RUN becoming 1 in OFF: the anchor
registers are copied and the cache emptied; an anchor that is a multiple of 64 leads to BOOTING with
the header read requested, any other to ANCHOR_FAULT with boot fault ALIGN and its cause. RUN
becoming 0 in BOOTING or ANCHOR_FAULT leads to OFF at once, with the boot fault code kept; in
QUIESCING a change of RUN changes RUN alone. (That a header read requested and not yet issued is
struck when RUN becomes 0 in BOOTING is the model's choice, log entry 42.) -/
def Obligations.RunActsByEngineState : Prop :=
  ∀ s : State, s.resetHeld = false →
    exec (.run s.engine.run) s = .next s ∧
    (s.engine.run = false → s.engine.state = .off →
      AnswersThen (.run true) s fun t =>
        t.engine.run = true ∧ t.engine.anchor = s.engine.anchorHi ++ s.engine.anchorLo ∧
        t.window.cache = [] ∧ t.window.loads = [] ∧ t.now = s.now ∧ t.memory = s.memory ∧
        ((s.engine.anchorHi ++ s.engine.anchorLo : Stamp).toNat % 64 = 0 →
          t.engine.state = .booting ∧ t.engine.bootFault = .none ∧ t.port.class4 = some .boot ∧
            t.cause = s.cause) ∧
        ((s.engine.anchorHi ++ s.engine.anchorLo : Stamp).toNat % 64 ≠ 0 →
          t.engine.state = .anchorFault ∧ t.engine.bootFault = .align ∧
            t.causeSet causeAnchor)) ∧
    (s.engine.run = true → s.engine.state = .booting →
      AnswersThen (.run false) s fun t =>
        t.engine.state = .off ∧ t.engine.run = false ∧
          t.engine.bootFault = s.engine.bootFault ∧
          t.port.class4 = none ∧ ∀ r ∈ t.port.reads, r.owner = .boot → r.discarded = true) ∧
    (s.engine.run = true → s.engine.state = .anchorFault →
      AnswersThen (.run false) s fun t =>
        t = { s with engine := { s.engine with run := false, state := .off } }) ∧
    (∀ v, s.engine.run ≠ v → s.engine.state = .quiescing →
      AnswersThen (.run v) s fun t => t = { s with engine := { s.engine with run := v } })

/-- RUN becoming 0 in ON: QUIESCING, an Engine Status write requested, the cache emptied and every
load stale, the queue emptied without a reply, no bank left in LOADING, WAITING, RUNNING or STARVED,
each that was there DORMANT and STOPPED with its frame reads discarded, and every journal CLOSED or
closing. (That a load counts as in flight from its request, and is marked stale though it is not yet
issued, is log entry 16.) -/
def Obligations.RunQuiescesFromOn : Prop :=
  ∀ s : State, s.resetHeld = false → s.engine.run = true → s.engine.state = .on →
    AnswersThen (.run false) s fun t =>
      t.engine.state = .quiescing ∧ t.engine.run = false ∧ t.sweep.queue = [] ∧
      t.sweep.exec = s.sweep.exec ∧ t.sweep.next = s.sweep.next ∧ t.window.cache = [] ∧
      (∀ x ∈ t.window.loads, x.stale = true) ∧ (∃ x ∈ t.port.class3, x.1 = .engine) ∧
      (∀ b, (t.bank b).seq.plan.isActive = false) ∧
      (∀ b, (s.bank b).seq.plan.isActive = true → t.Ended b .dormant .stopped) ∧
      (∀ j, (t.journal j).state = .closed ∨ (t.journal j).closing = true) ∧
      t.memory = s.memory ∧ t.now = s.now

/-- An engine reset in any engine state puts every block at its reset values, keeps
ANCHOR_LO and ANCHOR_HI, and writes no memory; whatever RUN was written beside it, RUN reads 0. -/
def Obligations.EngineResetClearsTheBlock : Prop :=
  ∀ (v : Bool) (s : State), s.resetHeld = false →
    Answers (.engineReset v) s fun t =>
      t.banks = .all .reset ∧ t.lines = .all .reset ∧ t.journals = .all .reset ∧
      t.window = .reset ∧ t.port = .reset ∧ t.sweep = .reset ∧ t.now = 0#48 ∧ t.tickHi = 0#16 ∧
      t.cause = 0#16 ∧ t.causeEnable = 0#16 ∧ t.irq = false ∧
      t.engine = { Engine.reset with anchorLo := s.engine.anchorLo, anchorHi := s.engine.anchorHi } ∧
      t.readRegister 0x04 = 0#32 ∧ t.memory = s.memory ∧ t.pending = s.pending ∧
      t.resetHeld = false

/-- RESET_N low puts every block at its power-on values, ANCHOR included, and writes no memory;
while it is low no command but RESET_N and the host's own writes of memory changes anything; once it
is high the engine is OFF with every item at its power-on value. (That host writes of memory come as
an operand of ARBITER_GRANT is the model's choice, log entry 7.) -/
def Obligations.ResetNHoldsPowerOnValues : Prop :=
  (∀ s : State, Answers (.resetN false) s fun t =>
    t.resetHeld = true ∧ t.banks = .all .reset ∧ t.lines = .all .reset ∧
    t.journals = .all .reset ∧ t.window = .reset ∧ t.port = .reset ∧ t.sweep = .reset ∧
    t.engine = .reset ∧ t.now = 0#48 ∧ t.tickHi = 0#16 ∧ t.cause = 0#16 ∧ t.causeEnable = 0#16 ∧
    t.irq = false ∧ (∀ n, t.readRegister n = State.reset.readRegister n) ∧ t.memory = s.memory ∧
    t.pending = s.pending) ∧
  (∀ (c : Instr) (s : State), s.resetHeld = true → (∀ v, c ≠ .resetN v) →
    (∀ host fate, c ≠ .arbiterGrant host fate) → exec c s = .next s) ∧
  (∀ (host : List Host.Cell) (fate : Fate) (s t : State), s.resetHeld = true →
    exec (.arbiterGrant host fate) s = .next t → t = { s with memory := t.memory }) ∧
  (∀ s : State, Answers (.resetN true) s fun t => t = { s with resetHeld := false }) ∧
  (∀ (v : Bool) (s t : State), exec (.resetN false) s = .next t →
    ∃ u, exec (.resetN true) t = .next u ∧ u.engine = .reset ∧
      exec (.engineReset v) t = .next t ∧ exec (.engineReset v) u = .next u)

/-- The boot header read arrives in BOOTING, and is outstanding no more: an ERROR, or the first
check of the header that fails, leads to ANCHOR_FAULT with its code and cause; a header that passes
leads to ON, with the table's geometry and the status writes of the engine and of the four banks
requested. The checks are, in order: the signature is "K816", the version 1, the table address a
multiple of 16, and the window count 1 to 64. -/
def Obligations.BootHeaderDecidesTheBoot : Prop :=
  (∀ (place : Fin 4) (r : OutRead) (s : State), s.Arriving place r → r.owner = .boot →
    s.engine.state = .booting →
    AnswersThen (.bootHeaderRead place) s fun t =>
      t.port.reads = s.port.reads.eraseIdx place.val ∧
      t.banks = s.banks ∧ t.journals = s.journals ∧ t.memory = s.memory ∧ t.now = s.now ∧
      t.sweep = s.sweep ∧
      (r.answer = none →
        t.engine.state = .anchorFault ∧ t.engine.bootFault = .port ∧ t.causeSet causeAnchor) ∧
      (∀ bs, r.answer = some bs → (parseBootHeader bs).check ≠ .none →
        t.engine.state = .anchorFault ∧ t.engine.bootFault = (parseBootHeader bs).check ∧
          t.causeSet causeAnchor) ∧
      (∀ bs, r.answer = some bs → (parseBootHeader bs).check = .none →
        t.engine.state = .on ∧ t.cause = s.cause ∧
          t.window.tableAddr = BitVec.ofNat 48 (parseBootHeader bs).table ∧
          t.window.tableCount = (parseBootHeader bs).count ∧
          (∃ x ∈ t.port.class3, x.1 = .engine) ∧ ∀ b, ∃ x ∈ t.port.class3, x.1 = .bank b)) ∧
  ∀ h : BootHeader,
    (h.signature ≠ [0x4B#8, 0x38#8, 0x31#8, 0x36#8] → h.check = .signature) ∧
    (h.signature = [0x4B#8, 0x38#8, 0x31#8, 0x36#8] →
      (h.version ≠ 1 → h.check = .version) ∧
      (h.version = 1 → h.table % 16 ≠ 0 → h.check = .align) ∧
      (h.version = 1 → h.table % 16 = 0 → h.count < 1 ∨ 64 < h.count → h.check = .count) ∧
      (h.version = 1 → h.table % 16 = 0 → 1 ≤ h.count → h.count ≤ 64 → h.check = .none))

/-- The end of a quiesce: the Engine Status write is issued, showing OFF, and the engine is OFF;
when RUN reads 1 it enters BOOTING, or ANCHOR_FAULT, on the same tick. The write stores its sixteen
bytes and no other, and none at all where it is answered ERROR, which is log entry 17; where its
addresses pass the top of the address space they wrap, log entry 2. (That the fate of the write is
an operand is the model's choice, log entry 7; that an Engine Status write still waiting goes before
it is log entry 43.) -/
def Obligations.QuiesceEndsInOffOrBooting : Prop :=
  ∀ (fate : Fate) (s : State), s.resetHeld = false → s.quiesceDone = true →
    Answers (.quiesceComplete fate) s fun t =>
      (s.engine.run = false → t.engine.state = .off) ∧
      (s.engine.run = true → t.engine.state = .booting ∨ t.engine.state = .anchorFault) ∧
      t.port.writes = s.port.writes ++ [⟨.engineStatus false, true, fate.isError⟩] ∧
      (fate = .ok → ∀ n, n < 16 →
        t.memory.read ((s.engine.anchor.toNat + offEngineStatus + n) % 2 ^ 48)
          = byteAt (engineStatusBytes .off s.sweep.next) n) ∧
      (∀ a, (fate ≠ .ok ∨ ∀ n, n < 16 →
          a ≠ (s.engine.anchor.toNat + offEngineStatus + n) % 2 ^ 48) →
        t.memory.read a = s.memory.read a) ∧
      t.now = s.now ∧ t.lines = s.lines ∧ ∀ b, (t.bank b).seq = (s.bank b).seq

/-! ### Sweep requests -/

/-- The head of the sweep queue is taken when no request executes: the command of its action answers
a next state in which the word has left the queue and executes and the rest of the queue waits in
order. Memory, the waiting commands, Engine Control with its registers, the timebase with its latch
and CAUSE_ENABLE have not changed (CAUSE can: BANK_TRIP sets CAUSE.BANKb; SWEEP reads one word
fewer). A bank's target above 3, or a line's or journal's above 7, has the result REFUSED_TARGET and
changes no bank, line, journal or cause bit. -/
def Obligations.TakingRemovesTheHead : Prop :=
  ∀ (w : Word) (rest : List Word) (s : State), s.Heads w rest →
    (Answers (takeCommand w) s fun t =>
      t.sweep.queue = rest ∧ t.sweep.next = s.sweep.next ∧ t.sweep.exec.isSome = true ∧
        WorldKept s t) ∧
    (((action w ∈ [actBankStart, actBankRearm, actBankTrip, actBankAck] ∧ 3 < (target w).toNat) ∨
      (action w ∈ [actJournalOpen, actJournalLook, actLineLoad] ∧ 7 < (target w).toNat)) →
      Answers (takeCommand w) s fun t => t.Replying w .refusedTarget ∧ BlocksKept s t) ∧
    (((action w ∈ [actBankStop, actBankLook] ∧ 3 < (target w).toNat) ∨
      (action w = actJournalClose ∧ 7 < (target w).toNat)) →
      AnswersThen (takeCommand w) s fun t =>
        t.Answered w .refusedTarget .nothing ∧ BlocksKept s t)

/-- The three requests that are answered on the tick they are taken and look at no target: MARK is
answered DONE, a word with none of the twelve actions UNKNOWN_ACTION, and neither changes a bank, a
line, a journal, the Window Unit or a cause bit; WINDOWS_FLUSH empties the cache, marks every load
in flight stale, is answered DONE, and acts on nothing else. (That a load counts as in flight from
its request, and is marked stale though it is not yet issued, is log entry 16.) -/
def Obligations.FenceFlushAndUnknownAction : Prop :=
  ∀ (w : Word) (rest : List Word) (s : State), s.Heads w rest →
    (action w = actMark → Answers .mark s fun t => t.Replying w .done ∧ BlocksKept s t) ∧
    (action w ∉ actions →
      Answers .unknownAction s fun t => t.Replying w .unknownAction ∧ BlocksKept s t) ∧
    (action w = actWindowsFlush → Answers .windowsFlush s fun t =>
      t.Replying w .done ∧ t.window.cache = [] ∧
        t.window.loads = s.window.loads.map (fun x => { x with stale := true }) ∧
        t.window.tableAddr = s.window.tableAddr ∧ t.window.tableCount = s.window.tableCount ∧
        t.banks = s.banks ∧ t.lines = s.lines ∧ t.journals = s.journals ∧ t.cause = s.cause)

/-- The three requests that read a record. BANK_START of a DORMANT bank with an empty report slot,
JOURNAL_OPEN of a CLOSED journal, and every LINE_LOAD have their record read requested; any other is
answered REFUSED_STATE. No bank, line or journal is touched. -/
def Obligations.RecordReadsAreRequested : Prop :=
  ∀ (w : Word) (rest : List Word) (s : State), s.Heads w rest →
    (∀ b : BankNo, action w = actBankStart → bankNoOf (target w) = some b →
      Answers .bankStart s fun t =>
        BlocksKept s t ∧
        ((s.bank b).seq.plan = .dormant → (s.bank b).faults.report = none →
          t.port.class4 = some (.bankRecord b) ∧ t.sweep.exec = some ⟨w, .record⟩) ∧
        (((s.bank b).seq.plan ≠ .dormant ∨ (s.bank b).faults.report ≠ none) →
          t.Replying w .refusedState ∧ t.port.class4 = s.port.class4)) ∧
    (∀ j : JournalNo, action w = actJournalOpen → lineNoOf (target w) = some j →
      Answers .journalOpen s fun t =>
        BlocksKept s t ∧
        ((s.journal j).state = .closed →
          t.port.class4 = some (.journalRecord j) ∧ t.sweep.exec = some ⟨w, .record⟩) ∧
        ((s.journal j).state ≠ .closed →
          t.Replying w .refusedState ∧ t.port.class4 = s.port.class4)) ∧
    (∀ l : LineNo, action w = actLineLoad → lineNoOf (target w) = some l →
      Answers .lineLoad s fun t =>
        BlocksKept s t ∧ t.port.class4 = some (.lineRecord l) ∧
          t.sweep.exec = some ⟨w, .record⟩)

/-- BANK_STOP by plan state, and by its argument: refused in DORMANT and HALTED, refused with an
unknown argument; AT_BOUNDARY on a running bank sets pending-stop alone; every other stop takes
effect at once: the live frame's retire fields are requested, for the state CUT, a staged frame is
written READY, the reads and the STAGED write of a fetch that wait to be issued are struck, and the
reads in flight discarded, a gate that may reopen does, the pins take their rest levels, PLAN_END
reaches the other banks, and the reply waits for the writes to those two frames alone. (That
requests not yet issued are struck too is log entry 9; that the reply knows its writes by their
selectors is log entry 10.) -/
def Obligations.BankStopByPlanState : Prop :=
  ∀ (w : Word) (rest : List Word) (s : State) (b : BankNo), s.Heads w rest →
    action w = actBankStop → bankNoOf (target w) = some b →
    AnswersThen .bankStop s fun t =>
      (argument w ≠ argNow → argument w ≠ argAtBoundary →
        t.Answered w .refusedConfig .nothing ∧ t.banks = s.banks) ∧
      ((argument w = argNow ∨ argument w = argAtBoundary) →
        ((s.bank b).seq.plan.isActive = false →
          t.Answered w .refusedState .nothing ∧ t.banks = s.banks) ∧
        (argument w = argAtBoundary → (s.bank b).seq.plan.isRunning = true →
          t.Answered w .done .nothing ∧ OtherBanksKept s t b ∧
            t.bank b = { s.bank b with seq := { (s.bank b).seq with pendingStop := true } }) ∧
        ((s.bank b).seq.plan.isActive = true →
          (argument w = argNow ∨ (s.bank b).seq.plan.isRunning = false) →
          t.Answered w .done (.frameWrites b
              (((s.bank b).seq.live.map Live.sel).toList
                ++ ((s.bank b).seq.staged.map FrameCopy.sel).toList)) ∧
            s.PlanEnds t b .dormant .stopped ∧ (t.bank b).faults = (s.bank b).faults ∧
            (t.bank b).fifo = ((s.bank b).fifo.filter fun r => !r.acc.fetches)
              ++ ((s.bank b).seq.live.map fun v => v.retireReq s.now v.passes .cut).toList
              ++ ((s.bank b).seq.staged.map fun f =>
                (⟨.state f.sel .ready, .unchecked⟩ : FrameReq)).toList))

/-- BANK_LOOK reads the head frame again in LOADING with no read in flight (a misaligned head
selector is reported and halts the bank instead), reads the link of a running bank whose tag is
EMPTY with none in flight, and otherwise has no effect; it is answered DONE in every plan state. (A
read counts as in flight from its request on, also while it waits to be issued: the model's choice,
log entry 16; that the answer waits no more for a read that is struck or fails its window check
before its issue is its choice too, log entry 44.) -/
def Obligations.BankLookReadsAgain : Prop :=
  ∀ (w : Word) (rest : List Word) (s : State) (b : BankNo), s.Heads w rest →
    action w = actBankLook → bankNoOf (target w) = some b →
    AnswersThen .bankLook s fun t =>
      ((s.bank b).seq.plan = .loading → (s.bank b).seq.fetch = none →
        t.Answered w .done (.frameReads b) ∧
        (((s.bank b).seq.headSel.isNull || (s.bank b).seq.headSel.aligned) = true →
          (t.bank b).seq.fetch = some ⟨.head, (s.bank b).seq.headSel, none, none, none⟩ ∧
          (t.bank b).fifo = (s.bank b).fifo ++ [⟨.header (s.bank b).seq.headSel, .unchecked⟩]) ∧
        (((s.bank b).seq.headSel.isNull || (s.bank b).seq.headSel.aligned) = false →
          s.PlanEnds t b .halted .fault ∧ s.Reports t b (s.bank b).faults.sticky .format .align
            (s.bank b).seq.headSel 0 .head)) ∧
      (∀ v, (s.bank b).seq.plan.isRunning = true → (s.bank b).seq.live = some v →
        (s.bank b).seq.tag = .empty → (s.bank b).seq.linkRead = false →
        t.Answered w .done (.frameReads b) ∧ (t.bank b).seq.linkRead = true ∧
          (t.bank b).fifo = (s.bank b).fifo ++ [⟨.link v.sel, .unchecked⟩]) ∧
      (((s.bank b).seq.plan = .dormant ∨ (s.bank b).seq.plan = .waiting ∨
          (s.bank b).seq.plan = .halted ∨
          ((s.bank b).seq.plan = .loading ∧ (s.bank b).seq.fetch ≠ none) ∨
          ((s.bank b).seq.plan.isRunning = true ∧
            ((s.bank b).seq.tag ≠ .empty ∨ (s.bank b).seq.linkRead = true))) →
        t.Answered w .done .nothing ∧ t.banks = s.banks)

/-- BANK_REARM and BANK_TRIP by the state and the rearm mode of the gate. The pins follow a gate
that changes: they take their trip levels as it trips, and leave them for the source of the plan
state as it reopens. Every change of the gate, of its rearm-pending flag or of its trip count
requests a Bank Status write. -/
def Obligations.GateRequestsByGateState : Prop :=
  (∀ (w : Word) (rest : List Word) (s : State) (b : BankNo), s.Heads w rest →
      action w = actBankRearm → bankNoOf (target w) = some b →
      Answers .bankRearm s fun t =>
        t.lines = s.lines ∧ t.journals = s.journals ∧ t.cause = s.cause ∧ OtherBanksKept s t b ∧
        (t.bank b).seq = (s.bank b).seq ∧
        ((s.bank b).gate.tripped = false → t.Replying w .done ∧ t.banks = s.banks) ∧
        ((s.bank b).gate.tripped = true → (s.bank b).gate.auto = false → s.lineTrips b = true →
          t.Replying w .refusedTripActive ∧ t.banks = s.banks) ∧
        ((s.bank b).gate.tripped = true → (s.bank b).gate.auto = false → s.lineTrips b = false →
          (s.bank b).gate.rearmPending = true → t.Replying w .done ∧ t.banks = s.banks) ∧
        ((s.bank b).gate.tripped = true → (s.bank b).gate.auto = false → s.lineTrips b = false →
          (s.bank b).gate.rearmPending = false →
          t.Replying w .done ∧
            (t.bank b).gate =
              if (s.bank b).seq.plan.isRunning
              then { (s.bank b).gate with swTrip := false, rearmPending := true }
              else { (s.bank b).gate with swTrip := false, tripped := false, rearmPending := false }) ∧
        ((s.bank b).gate.tripped = true → (s.bank b).gate.auto = true →
          t.Replying w .done ∧
            (t.bank b).gate =
              if (s.bank b).seq.plan.isRunning || s.lineTrips b
              then { (s.bank b).gate with swTrip := false }
              else { (s.bank b).gate with swTrip := false, tripped := false, rearmPending := false }) ∧
        ((t.bank b).gate.tripped ≠ (s.bank b).gate.tripped → (t.bank b).PinsFollow) ∧
        ((t.bank b).gate.tripped ≠ (s.bank b).gate.tripped ∨
          (t.bank b).gate.rearmPending ≠ (s.bank b).gate.rearmPending → s.BankReported t b)) ∧
  (∀ (w : Word) (rest : List Word) (s : State) (b : BankNo), s.Heads w rest →
      action w = actBankTrip → bankNoOf (target w) = some b →
      Answers .bankTrip s fun t =>
        t.Replying w .done ∧ t.lines = s.lines ∧ t.journals = s.journals ∧ OtherBanksKept s t b ∧
        (t.bank b).seq = (s.bank b).seq ∧
        ((s.bank b).gate.tripped = false →
          (t.bank b).gate = { (s.bank b).gate with
            swTrip := true, tripped := true, trips := satInc (s.bank b).gate.trips } ∧
          t.causeSet (causeBank b) ∧ (t.bank b).PinsFollow ∧ s.BankReported t b) ∧
        ((s.bank b).gate.tripped = true → (s.bank b).gate.rearmPending = true →
          (s.bank b).gate.auto = false → s.BankReported t b) ∧
        ((s.bank b).gate.tripped = true → t.cause = s.cause ∧
          (t.bank b).gate = { (s.bank b).gate with
            swTrip := true,
            rearmPending := (s.bank b).gate.rearmPending && (s.bank b).gate.auto }))

/-- BANK_ACK clears the report slot and the further-fault count and leaves the sticky flags and masks
as they were; it moves a HALTED bank to DORMANT with the stop reason kept; a Bank Status write is
requested when something changed, and nothing changes when there was nothing to acknowledge. -/
def Obligations.BankAckClearsTheReport : Prop :=
  ∀ (w : Word) (rest : List Word) (s : State) (b : BankNo), s.Heads w rest →
    action w = actBankAck → bankNoOf (target w) = some b →
    Answers .bankAck s fun t =>
      t.Replying w .done ∧ OtherBanksKept s t b ∧ t.lines = s.lines ∧ t.journals = s.journals ∧
      t.cause = s.cause ∧
      t.bank b = { s.bank b with
        faults := { (s.bank b).faults with report := none, further := 0#16 }
        seq := { (s.bank b).seq with
          plan := if (s.bank b).seq.plan = .halted then .dormant else (s.bank b).seq.plan } } ∧
      ((s.bank b).faults.report ≠ none ∨ (s.bank b).seq.plan = .halted → s.BankReported t b) ∧
      ((s.bank b).faults.report = none → (s.bank b).faults.further = 0#16 →
        (s.bank b).seq.plan ≠ .halted → t.banks = s.banks)

/-- JOURNAL_CLOSE of a CLOSED journal is answered REFUSED_STATE; of any other, the journal is
closing and no line that names it is armed, and its reply waits for the close. Where the close has
nothing to wait for (no step, no re-read, and, in an OPEN journal, no gap and no event held), it
ends on the tick of the request. -/
def Obligations.JournalCloseBeginsTheClose : Prop :=
  (∀ (w : Word) (rest : List Word) (s : State) (j : JournalNo), s.Heads w rest →
    action w = actJournalClose → lineNoOf (target w) = some j →
    AnswersThen .journalClose s fun t =>
      t.banks = s.banks ∧ t.window = s.window ∧ t.cause = s.cause ∧
      ((s.journal j).state = .closed →
        t.Answered w .refusedState .nothing ∧ t.journals = s.journals ∧ t.lines = s.lines) ∧
      ((s.journal j).state ≠ .closed →
        t.sweep.exec = some ⟨w, .closing j⟩ ∧ (t.journal j).closing = true ∧
          (t.journal j).state = (s.journal j).state ∧ (t.journal j).step = (s.journal j).step ∧
          (∀ l, (s.line l).cfg.journal = j → (t.line l).armed = false) ∧
          (∀ l, (t.line l).holding = (s.line l).holding) ∧ OtherJournalsKept s t j)) ∧
  ∀ (w : Word) (rest : List Word) (s : State) (j : JournalNo), s.Heads w rest →
    action w = actJournalClose → lineNoOf (target w) = some j → (s.journal j).state ≠ .closed →
    (s.journal j).step = .idle → (s.journal j).rereadInFlight = false →
    ((s.journal j).state = .opened → (s.journal j).gap = 0#32 ∧ s.heldCount j = 0) →
    (∀ i, i ≠ j → (s.journal i).closing = false) → (∀ b, (s.bank b).toCheck = none) →
    Answers .journalClose s fun u =>
      (u.journal j).state = .closed ∧ (u.journal j).closing = false ∧
        (u.journal j).fault = (s.journal j).fault ∧
        (u.journal j).missed = (s.journal j).missed + BitVec.ofNat 32 (s.heldCount j) ∧
        u.heldCount j = 0 ∧ .statusWord ∈ (u.journal j).fifo ∧
        (∀ l, (s.line l).cfg.journal = j → (u.line l).armed = false) ∧
        u.Answered w .done (.journalWords j)

/-- JOURNAL_LOOK: REFUSED_STATE for a CLOSED journal, DONE without a read for a FAULTED one; an OPEN
one has a consume re-read in flight, requested only if none was. -/
def Obligations.JournalLookRereads : Prop :=
  ∀ (w : Word) (rest : List Word) (s : State) (j : JournalNo), s.Heads w rest →
    action w = actJournalLook → lineNoOf (target w) = some j →
    Answers .journalLook s fun t =>
      t.banks = s.banks ∧ t.lines = s.lines ∧ t.window = s.window ∧ t.cause = s.cause ∧
      ((s.journal j).state = .closed → t.Replying w .refusedState ∧ t.journals = s.journals) ∧
      ((s.journal j).state = .faulted → t.Replying w .done ∧ t.journals = s.journals) ∧
      ((s.journal j).state = .opened →
        t.sweep.exec = some ⟨w, .look j⟩ ∧ OtherJournalsKept s t j ∧
          t.journal j =
            if (s.journal j).rereadInFlight then s.journal j
            else { s.journal j with
              rereadInFlight := true, fifo := (s.journal j).fifo ++ [.reread] })

/-! ### Time events -/

/-- A filter sample that makes no edge: equal to the filtered level it sets the run count to 0, else
it increases it by 1; the filtered level and every other line are as before. -/
def Obligations.FilterSampleCountsTheRun : Prop :=
  ∀ (l : LineNo) (s : State), s.resetHeld = false → (s.line l).loaded = true →
    (s.line l).sampleDue = true → s.edgeDue l = false →
    Answers (.filterSample l) s fun t =>
      t.line l = { s.line l with
        sampleDue := false
        run := if s.pinsAgo2.getLsbD l.val = (s.line l).high then 0 else (s.line l).run + 1 } ∧
      OtherLinesKept s t l ∧ BlocksKept { s with lines := t.lines } t ∧ WorldKept s t

/-- An edge: the sample completes the run of N, the filtered level changes and the run count returns
to 0. Every OPEN gate that selects the line trips when the new level is the line's trip level, and a
TRIPPED one stays so and loses a MANUAL rearm that was pending; each gate is judged against all its
sources, so that an AUTO one whose last source the edge ends reopens while its bank does not run.
The edge reaches the latches of the four banks, and the line's status write is requested. On an
armed line: in STAMP mode the selected edge that completes the prescale is an event, with the
prescale as its value; in WIDTH mode the first edge after arming sets the width reference and each
later one is an event, whose value is its distance from the reference, saturating; no other edge is
an event. (That the gates are judged before the latches, and at each edge by itself, is the model's
choice, log entries 35 and 40.) -/
def Obligations.EdgeReachesGatesAndCapture : Prop :=
  ∀ (l : LineNo) (s : State), s.resetHeld = false → s.edgeDue l = true →
    AnswersThen (.edge l) s fun t =>
      (t.line l).high = !(s.line l).high ∧ (t.line l).run = 0 ∧ (t.line l).loaded = true ∧
      (t.line l).sampleDue = false ∧ (t.line l).armed = (s.line l).armed ∧
      OtherLinesKept s t l ∧
      (∀ b : BankNo, (s.bank b).gate.mask.getLsbD l.val = true →
        (!(s.line l).high) = (s.line l).cfg.tripHigh →
        (t.bank b).gate.tripped = true ∧
        ((s.bank b).gate.tripped = false →
          (t.bank b).gate.trips = satInc (s.bank b).gate.trips ∧ t.causeSet (causeBank b)) ∧
        ((s.bank b).gate.tripped = true →
          (t.bank b).gate.trips = (s.bank b).gate.trips ∧
          (t.bank b).gate.rearmPending =
            ((s.bank b).gate.rearmPending && (s.bank b).gate.auto))) ∧
      (∀ b, t.GateJudged b (s.bank b).gate (s.bank b).seq.plan.isRunning) ∧
      s.LineReported t l ∧
      s.CueTaken t (.line l (if (s.line l).high then .fall else .rise)) ∧
      ((s.line l).armed = false ∨ (s.line l).cfg.mode = .off →
        s.NoEvent t l ∧ (t.line l).prescaleCount = (s.line l).prescaleCount ∧
          (t.line l).widthRef = (s.line l).widthRef) ∧
      ((s.line l).armed = true → (s.line l).cfg.mode = .stamp →
        (t.line l).widthRef = (s.line l).widthRef ∧
        ((s.line l).cfg.select = .rise ∧ (s.line l).high = true ∨
            (s.line l).cfg.select = .fall ∧ (s.line l).high = false →
          s.NoEvent t l ∧ (t.line l).prescaleCount = (s.line l).prescaleCount) ∧
        ((s.line l).cfg.select = .both ∨ (s.line l).cfg.select = .rise ∧ (s.line l).high = false ∨
            (s.line l).cfg.select = .fall ∧ (s.line l).high = true →
          ((s.line l).prescaleCount + 1 ≠ (s.line l).cfg.prescale →
            s.NoEvent t l ∧ (t.line l).prescaleCount = (s.line l).prescaleCount + 1) ∧
          ((s.line l).prescaleCount + 1 = (s.line l).cfg.prescale →
            (t.line l).prescaleCount = 0 ∧
              s.EventMade t l (if (s.line l).high then .fall else .rise)
                (BitVec.ofNat 32 (s.line l).cfg.prescale) false))) ∧
      ((s.line l).armed = true → (s.line l).cfg.mode = .width →
        (t.line l).widthRef = some s.now ∧
        (t.line l).prescaleCount = (s.line l).prescaleCount ∧
        ((s.line l).widthRef = none → s.NoEvent t l) ∧
        ∀ r, (s.line l).widthRef = some r →
          ((s.now - r).toNat ≤ 0xFFFFFFFF →
            s.EventMade t l (if (s.line l).high then .highWidth else .lowWidth)
              (BitVec.ofNat 32 (s.now - r).toNat) false) ∧
          (0xFFFFFFFF < (s.now - r).toNat →
            s.EventMade t l (if (s.line l).high then .highWidth else .lowWidth)
              0xFFFFFFFF#32 true))

/-- A counter advance within a pass: the counter, the direction and the references take their next
values, and the bank keeps its plan state and its live frame. A value equal to channel 0's compare
emits the MATCH cue, which reaches the latches of the four banks; any other value leaves every other
bank and the bank's own Plan Sequencer as they were. The pins follow the new references. -/
def Obligations.CounterAdvanceTakesTheNextValue : Prop :=
  ∀ (b : BankNo) (v : Live) (count : Nat) (dir : Direction) (s : State), s.Advances b v count dir →
    AnswersThen (.counterAdvance b) s fun t =>
      (t.bank b).wave.counter = count ∧ (t.bank b).wave.dir = dir ∧
      (t.bank b).wave.advanceDue = false ∧
      (t.bank b).wave.lastRef =
        references (s.bank b).seq.settings (s.bank b).wave.lastRef count ∧
      (t.bank b).seq.live = some v ∧ (t.bank b).seq.plan = (s.bank b).seq.plan ∧
      (t.bank b).PinsFollow ∧ t.lines = s.lines ∧ t.journals = s.journals ∧
      (count = (s.bank b).seq.settings.q0.compare → s.CueTaken t (.cue b .matched)) ∧
      (count ≠ (s.bank b).seq.settings.q0.compare →
        OtherBanksKept s t b ∧ (t.bank b).seq = (s.bank b).seq)

/-- In RAMP a pass is the values 0 to period − 1; in TRIANGLE 0 up to period and down to 1, 2 ×
period counts in all; a boundary follows. -/
def Obligations.PassHasItsLength : Prop :=
  ∀ P : Nat, 2 ≤ P →
    (∀ n, n < P → countsFrom .ramp P n = some (n, .up)) ∧ countsFrom .ramp P P = none ∧
    (∀ n, n < P → countsFrom .triangle P n = some (n, .up)) ∧
    (∀ n, n < P → countsFrom .triangle P (P + n) = some (P - n, .down)) ∧
    countsFrom .triangle P (2 * P) = none

/-- A boundary that is not final: the pass just ended is counted, repeat remaining decreases by 1
and the next pass begins at 0, with the link read if the tag is EMPTY and no link read is in flight;
with a stop pending the bank ends DORMANT, STOPPED, its frame's retire fields are requested, for the
state CUT, and a staged frame is written READY. Either way a TRIPPED gate takes its boundary action,
the pins follow, and BOUNDARY reaches the other banks, with PLAN_END where the plan ends and MATCH
where channel 0 compares with 0. (That a link read counts as in flight from its request on is the
model's choice, log entry 16; that a source which ends on the tick may be taken before or after the
boundary is log entry 41.) -/
def Obligations.BoundaryBeginsTheNextPass : Prop :=
  ∀ (b : BankNo) (v : Live) (s : State), s.AtBoundary b v → v.repeatRemaining ≠ 0 →
    AnswersThen (.boundary b) s fun t =>
      (t.bank b).gate = s.releasedGate b ∧ (t.bank b).PinsFollow ∧ s.CueSent t b .boundary ∧
      ((s.bank b).seq.pendingStop = false →
        ((s.bank b).seq.settings.q0.compare = 0 → s.CueSent t b .matched) ∧
        (t.bank b).wave.counter = 0 ∧ (t.bank b).wave.dir = .up ∧
        (t.bank b).wave.advanceDue = false ∧
        (t.bank b).wave.lastRef =
          references (s.bank b).seq.settings (s.bank b).wave.lastRef 0 ∧
        (t.bank b).seq.plan = (s.bank b).seq.plan ∧
        (t.bank b).seq.live = some { v with
          passes := satInc v.passes, repeatRemaining := v.repeatRemaining - 1 } ∧
        ((s.bank b).seq.tag = .empty ∧ (s.bank b).seq.linkRead = false →
          (t.bank b).seq.linkRead = true ∧
            (t.bank b).fifo = (s.bank b).fifo ++ [⟨.link v.sel, .unchecked⟩]) ∧
        ((s.bank b).seq.tag ≠ .empty ∨ (s.bank b).seq.linkRead = true →
          (t.bank b).seq.linkRead = (s.bank b).seq.linkRead ∧
            (t.bank b).fifo = (s.bank b).fifo)) ∧
      ((s.bank b).seq.pendingStop = true →
        t.Ended b .dormant .stopped ∧ t.causeSet (causeBank b) ∧ (t.bank b).wave.counter = 0 ∧
        s.CueSent t b .planEnd ∧
        v.retireReq s.now (satInc v.passes) .cut ∈ (t.bank b).fifo ∧
        ∀ f, (s.bank b).seq.staged = some f →
          ⟨.state f.sel .ready, .unchecked⟩ ∈ (t.bank b).fifo)

/-- What a final boundary decides, without a pending stop and with one, which has a staged frame
written READY. The live frame's retire fields are requested, for the state SPENT, or SPENT_END where
the plan ends. A successor that starts NOW, whose latch is set or which awaits this boundary starts;
any other waits, where the cue it awaits is not of a bank that is WAITING (such a bank can start on
this boundary and send it). Every time a TRIPPED gate takes its boundary action, the pins follow,
and BOUNDARY reaches the other banks, as do FRAME_START of a frame that starts and PLAN_END of a
plan that ends. (That a link or header read counts as in flight from its request on, which decides
between LATE and the end of the plan, is the model's choice, log entry 16.) -/
def Obligations.FinalBoundaryDecides : Prop :=
  ∀ (b : BankNo) (v : Live) (s : State), s.AtBoundary b v → v.repeatRemaining = 0 →
    s.BanksCoherent →
    AnswersThen (.finalBoundary b) s fun t =>
      (t.bank b).gate = s.releasedGate b ∧ (t.bank b).PinsFollow ∧ s.CueSent t b .boundary ∧
      ((t.bank b).seq.plan = .dormant ∨ (t.bank b).seq.plan = .halted →
        s.CueSent t b .planEnd) ∧
      ((s.bank b).seq.pendingStop = true →
        t.Ended b .dormant .stopped ∧ t.causeSet (causeBank b) ∧
          v.retireReq s.now (satInc v.passes) .spent ∈ (t.bank b).fifo ∧
          ∀ f, (s.bank b).seq.staged = some f →
            ⟨.state f.sel .ready, .unchecked⟩ ∈ (t.bank b).fifo) ∧
      ((s.bank b).seq.pendingStop = false →
        (∀ f, (s.bank b).seq.staged = some f →
          (f.start = .now ∨ (s.bank b).seq.latch = .set ∨
            (s.bank b).seq.latch = .armed ∧ (s.bank b).seq.awaited = some (.cue b .boundary)) →
          s.FrameStarts t b f false
            ((s.bank b).fifo ++ [v.retireReq s.now (satInc v.passes) .spent]) ∧
            s.StartSent t b) ∧
        (∀ f, (s.bank b).seq.staged = some f → f.start ≠ .now → (s.bank b).seq.latch = .armed →
          (s.bank b).seq.awaited ≠ some (.cue b .boundary) →
          (∀ c k, (s.bank b).seq.awaited = some (.cue c k) → (s.bank c).seq.plan ≠ .waiting) →
          s.FrameWaits t b f ((s.bank b).fifo ++ [v.retireReq s.now (satInc v.passes) .spent]) ∧
            (t.bank b).seq.awaited = (s.bank b).seq.awaited) ∧
        ((s.bank b).seq.tag = .rejected →
          t.Ended b .halted .fault ∧ t.causeSet (causeBank b) ∧
            v.retireReq s.now (satInc v.passes) .spent ∈ (t.bank b).fifo) ∧
        ((s.bank b).seq.tag = .pending ∨ (s.bank b).seq.linkRead = true →
          (s.bank b).faults.masks.late = false →
          t.Ended b .halted .fault ∧
            s.Reports t b (s.bank b).faults.sticky .late .none v.sel 10 .boundary ∧
            v.retireReq s.now (satInc v.passes) .spent ∈ (t.bank b).fifo) ∧
        ((s.bank b).seq.tag = .pending ∨ (s.bank b).seq.linkRead = true →
          (s.bank b).faults.masks.late = true →
          (t.bank b).seq.plan = (s.bank b).seq.plan ∧ (t.bank b).faults.sticky.late = true ∧
            (t.bank b).faults.report = (s.bank b).faults.report ∧
            (t.bank b).seq.live = some { v with passes := satInc v.passes, extended := true } ∧
            (t.bank b).wave.counter = 0 ∧ (t.bank b).seq.linkRead = (s.bank b).seq.linkRead ∧
            (t.bank b).seq.tag = (s.bank b).seq.tag ∧ (t.bank b).seq.fetch = (s.bank b).seq.fetch ∧
            (t.bank b).fifo = (s.bank b).fifo) ∧
        ((s.bank b).seq.tag = .empty → (s.bank b).seq.linkRead = false → v.endAction = .hold →
          (t.bank b).seq.plan = .starved ∧
            (t.bank b).seq.live = some { v with passes := satInc v.passes, extended := true } ∧
            (t.bank b).seq.linkRead = true ∧ (t.bank b).wave.counter = 0 ∧
            (t.bank b).fifo = (s.bank b).fifo ++ [⟨.link v.sel, .unchecked⟩]) ∧
        ((s.bank b).seq.tag = .empty → (s.bank b).seq.linkRead = false → v.endAction = .stop →
          t.Ended b .dormant .ended ∧ t.causeSet (causeBank b) ∧
            v.retireReq s.now (satInc v.passes) .spentEnd ∈ (t.bank b).fifo))

/-- A wait limit that expires: the sticky flag is set either way; masked, the waiting frame starts
with CUE_FORCED; unmasked, the fault is reported and the bank enters HALTED, the frame written
READY. FRAME_START, or PLAN_END, reaches the other banks; a bank that halts has its frame reads
discarded, its gate reopened where it may be, and its pins at their rest levels. -/
def Obligations.CueTimeoutStartsOrHalts : Prop :=
  ∀ (b : BankNo) (f : FrameCopy) (s : State), s.resetHeld = false → s.BanksCoherent →
    s.timeoutDue b = some f →
    AnswersThen (.cueTimeout b) s fun t =>
      (t.bank b).faults.sticky.cueTimeout = true ∧
      ((s.bank b).faults.masks.cueTimeout = true →
        s.FrameStarts t b f true (s.bank b).fifo ∧ s.StartSent t b ∧
          (t.bank b).faults.report = (s.bank b).faults.report) ∧
      ((s.bank b).faults.masks.cueTimeout = false →
        s.PlanEnds t b .halted .fault ∧
          s.Reports t b (s.bank b).faults.sticky .cueTimeout .none f.sel 6 .wait ∧
          ⟨.state f.sel .ready, .unchecked⟩ ∈ (t.bank b).fifo)

/-- A pin of a started bank whose ON-delay count has reached its dead time, its desired level being
ON, is driven ON once nothing else due on the tick can change that level: that drive is all that
changes. (That the pin is judged last of what is due on a tick is log entry 28.) -/
def Obligations.OnDelayDrivesThePinOn : Prop :=
  ∀ (b : BankNo) (c : ChanNo) (partner : Bool) (s : State), s.resetHeld = false →
    s.dueMoves = [] → (s.bank b).seq.started = true →
    (((s.bank b).wave.pins.get c).pin partner).desired = true →
    (((s.bank b).wave.pins.get c).pin partner).drive ≠ .on →
    (if partner then ((s.bank b).seq.settings.get c).deadFall
      else ((s.bank b).seq.settings.get c).deadRise)
      ≤ (((s.bank b).wave.pins.get c).pin partner).delay →
    Answers (.onDelayReached b c partner) s fun t =>
      t = { s with banks := t.banks } ∧ OtherBanksKept s t b ∧
      t.bank b = { s.bank b with
        wave := { (s.bank b).wave with pins := (t.bank b).wave.pins } } ∧
      (∀ d, d ≠ c → (t.bank b).wave.pins.get d = (s.bank b).wave.pins.get d) ∧
      (((t.bank b).wave.pins.get c).pin (!partner)) =
        (((s.bank b).wave.pins.get c).pin (!partner)) ∧
      (((t.bank b).wave.pins.get c).pin partner) =
        { ((s.bank b).wave.pins.get c).pin partner with drive := .on }

/-- A journal's step on its oldest held event: with no free room a consume re-read is requested and
the step waits for it; with room, the record that the pending gap and the room call for has its
window check made: the event's, or a GAP record's with the event's to follow or, into the last free
slot, with the event to be missed. -/
def Obligations.JournalStepBegins : Prop :=
  ∀ (j : JournalNo) (l : LineNo) (s : State), s.resetHeld = false → s.stepDue j = some l →
    AnswersThen (.journalStep j) s fun t =>
      t.banks = s.banks ∧ OtherJournalsKept s t j ∧
      ((s.journal j).room = 0 → t.lines = s.lines ∧
        (t.journal j).step = .reread (some l) ∧ (t.journal j).rereadInFlight = true ∧
        ((s.journal j).rereadInFlight = false →
          (t.journal j).fifo = (s.journal j).fifo ++ [.reread])) ∧
      ((s.journal j).room ≠ 0 → s.RecordChecked t j (s.journal j) ((s.journal j).planFor l))

/-! ### Arrivals -/

/-- A read that has been discarded is dropped on its arrival, whatever it carries, and nothing else
changes. -/
def Obligations.DiscardedReadIsDropped : Prop :=
  ∀ (place : Fin 4) (r : OutRead) (s : State), s.resetHeld = false → s.readAt place = some r →
    r.discarded = true →
    ∃ c ∈ [Instr.headerRead place, .entryRead place, .linkRead place, .descriptorLoad place,
        .consumeReread place, .bankRecordRead place, .lineRecordRead place,
        .journalRecordRead place, .bootHeaderRead place],
      exec c s = .next { s with port := { s.port with reads := s.port.reads.eraseIdx place.val } }

/-- A frame header arrives for a bank that fetches it, and the read is outstanding no more; the
others stay, but that a halt discards those of its bank. The halves of a split read are put together
first; an ERROR is a BUS fault of the fetch, which halts a bank on its head frame: PLAN_END reaches
the other banks, a gate that may reopen does, and the pins take their rest levels. Of the header, a
state of EMPTY drops the frame without fault; then kind, state, entry count, codes and start
condition are judged in this order, each a FORMAT fault, of which the last three have the frame
written REJECTED. A header that passes has its entries read, or, naming none, comes to the range and
timing checks at once. -/
def Obligations.HeaderReadIsJudged : Prop :=
  (∀ (place : Fin 4) (r : OutRead) (b : BankNo) (f : Fetch) (s : State), s.Arriving place r →
    r.owner = .header b → (s.bank b).seq.fetch = some f → f.header = none → s.BanksCoherent →
    AnswersThen (.headerRead place) s fun t =>
      t.ReadsAre (s.port.reads.eraseIdx place.val) ∧
      (f.gather r = none →
        t.bank b = { s.bank b with seq := { (s.bank b).seq with
          fetch := some { f with half := some (r.second, r.answer) } } }) ∧
      (f.gather r = some none →
        s.FetchFails t b f .bus .read 0 false false (s.bank b).fifo) ∧
      ∀ bs, f.gather r = some (some bs) →
        ((parseHeader bs).check = .empty →
          t.bank b = { s.bank b with seq := { (s.bank b).seq with fetch := none, tag := .empty } }) ∧
        (∀ sub field rejected, (parseHeader bs).check = .bad sub field rejected →
          s.FetchFails t b f .format sub field.toNat rejected false (s.bank b).fifo) ∧
        ∀ mode act start, (parseHeader bs).check = .good mode act start →
          ((parseHeader bs).entryCount ≠ 0#8 →
            t.bank b = { s.bank b with
              seq := { (s.bank b).seq with
                fetch := some { f with header := some (parseHeader bs), half := none } }
              fifo := (s.bank b).fifo ++
                [⟨.entry f.sel (parseHeader bs).entryCount.toNat, .unchecked⟩] }) ∧
          ((parseHeader bs).entryCount = 0#8 →
            s.Judged t b f (checkFrame (s.bank b).faults.masks f.sel (parseHeader bs) mode act start
              []))) ∧
  (∀ (f : Fetch) (r : OutRead),
    (r.split = false → f.gather r = some r.answer) ∧
    (r.split = true → f.half = none → f.gather r = none) ∧
    (∀ second answer, r.split = true → f.half = some (second, answer) →
      (answer = none ∨ r.answer = none → f.gather r = some none) ∧
      ∀ x y, answer = some x → r.answer = some y →
        f.gather r = some (some (if second then y ++ x else x ++ y)))) ∧
  ∀ h : Header,
    (h.state = 0#8 → h.check = .empty) ∧
    (h.state ≠ 0#8 → h.kind ≠ 0xA5#8 → h.check = .bad .kind 0#8 false) ∧
    (h.state ≠ 0#8 → h.kind = 0xA5#8 → h.state ≠ 1#8 → h.check = .bad .state 1#8 false) ∧
    (h.state = 1#8 → h.kind = 0xA5#8 →
      (4 < h.entryCount.toNat → h.check = .bad .entryCount 2#8 true) ∧
      (h.entryCount.toNat ≤ 4 →
        (countModeOf h.countMode = none → h.check = .bad .badCode 3#8 true) ∧
        ∀ mode, countModeOf h.countMode = some mode →
          (endActionOf h.endAction = none → h.check = .bad .badCode 4#8 true) ∧
          ∀ act, endActionOf h.endAction = some act →
            (h.start = none → h.check = .bad .badCode 5#8 true) ∧
            ∀ start, h.start = some start → h.check = .good mode act start))

/-- R6: a frame whose pass, from divider and period as they stand after clamping, would last fewer
than 64 ticks is a TIMING fault on the period; with the TIMING mask set, the period is raised to the
smallest value that gives 64 ticks, and the frame is STRETCHED, its compare values as they were. The
range checks come first: one that fails is the frame's fault, however long its pass. They judge the
divider (1 to 256), the period (2 to 16777215), then of each entry the compare (0 to the period) and
the two dead times (0 to 1023): unmasked, the first that fails is the fault; masked, every value out
of its range is clamped to the nearest in it. -/
def Obligations.ShortFramesAreStretched : Prop :=
  ∀ (masks : Masks) (sel : Selector) (h : Header) (mode : CountMode) (act : EndAction)
    (start : StartCond) (entries : List Entry) (es : List (ChanNo × ChanMode × Entry)),
    checkEntries 0 [] entries = .ok es →
    (masks.range = false →
      (h.divider = 0 ∨ 256 < h.divider → rangeFrame masks.range h es = .bad 7 false) ∧
      (1 ≤ h.divider → h.divider ≤ 256 → h.period < 2 ∨ 16777215 < h.period →
        rangeFrame masks.range h es = .bad 8 false) ∧
      (1 ≤ h.divider → h.divider ≤ 256 → 2 ≤ h.period → h.period ≤ 16777215 →
        rangeFrame masks.range h es =
          match rangeEntries false h.period 0 es with
          | .bad field clamped => .bad field clamped
          | .ok xs clamped => .ok (h.divider, h.period, xs) clamped)) ∧
    (∀ (P n : Nat) (c : ChanNo) (m : ChanMode) (e : Entry) (rest : List (ChanNo × ChanMode × Entry)),
      (P < e.compare → rangeEntries false P n ((c, m, e) :: rest) = .bad (16 + 8 * n + 3) false) ∧
      (e.compare ≤ P → 1023 < e.deadRise →
        rangeEntries false P n ((c, m, e) :: rest) = .bad (16 + 8 * n + 4) false) ∧
      (e.compare ≤ P → e.deadRise ≤ 1023 → 1023 < e.deadFall →
        rangeEntries false P n ((c, m, e) :: rest) = .bad (16 + 8 * n + 5) false) ∧
      (e.compare ≤ P → e.deadRise ≤ 1023 → e.deadFall ≤ 1023 →
        rangeEntries false P n ((c, m, e) :: rest) =
          match rangeEntries false P (n + 1) rest with
          | .bad field clamped => .bad field clamped
          | .ok xs clamped =>
            .ok ((c, ⟨m, e.partner, e.compare, e.deadRise, e.deadFall⟩) :: xs) clamped)) ∧
    (masks.range = true → ∀ P : Nat, P = max 2 (min h.period 16777215) →
      rangeFrame masks.range h es =
        .ok (max 1 (min h.divider 256), P, es.map fun x =>
          (x.1, ⟨x.2.1, x.2.2.partner, min x.2.2.compare P, min x.2.2.deadRise 1023,
            min x.2.2.deadFall 1023⟩))
          (decide (h.divider = 0 ∨ 256 < h.divider ∨ h.period < 2 ∨ 16777215 < h.period ∨
            ∃ x ∈ es, P < x.2.2.compare ∨ 1023 < x.2.2.deadRise ∨ 1023 < x.2.2.deadFall))) ∧
    (∀ field clamped, rangeFrame masks.range h es = .bad field clamped →
      checkFrame masks sel h mode act start entries = .bad .range .none field true clamped) ∧
    ∀ divider period xs clamped, rangeFrame masks.range h es = .ok (divider, period, xs) clamped →
      (64 ≤ passTicks mode divider period →
        ∃ f, checkFrame masks sel h mode act start entries = .staged f ∧ f.period = period ∧
          f.divider = divider ∧ f.entries = xs ∧ f.stretched = false ∧ f.clamped = clamped) ∧
      (passTicks mode divider period < 64 → masks.timing = false →
        checkFrame masks sel h mode act start entries = .bad .timing .none 8 true clamped) ∧
      (passTicks mode divider period < 64 → masks.timing = true →
        ∃ f, checkFrame masks sel h mode act start entries = .staged f ∧
          f.divider = divider ∧ f.entries = xs ∧ f.stretched = true ∧ f.clamped = clamped ∧
          64 ≤ passTicks mode divider f.period ∧
          (∀ p, 64 ≤ passTicks mode divider p → f.period ≤ p) ∧
          f.period = (match mode with
            | .ramp => 64 / divider + (if 64 % divider = 0 then 0 else 1)
            | .triangle => 32 / divider + (if 32 % divider = 0 then 0 else 1)))

/-- The entries of a frame arrive, and the read is outstanding no more: an ERROR is a BUS fault of
the fetch, and else the frame is judged. The entries are judged in the order they stand, each for
its channel, a channel named before, and its mode; the first that fails is a FORMAT fault and the
frame is written REJECTED. A frame that passes has its STAGED write requested. When that write is
granted a successor is held VALID; a head frame that starts NOW becomes live, and its cues reach the
other banks; any other head frame waits, with its latch armed. (That a write is issued at the
arbiter's grant is log entry 14.) -/
def Obligations.EntryReadStagesTheFrame : Prop :=
  (∀ (place : Fin 4) (r : OutRead) (b : BankNo) (f : Fetch) (h : Header) (mode : CountMode)
    (act : EndAction) (start : StartCond) (s : State), s.Arriving place r → r.owner = .entry b →
    (s.bank b).seq.fetch = some f → f.header = some h → h.check = .good mode act start →
    s.BanksCoherent →
    AnswersThen (.entryRead place) s fun t =>
      t.ReadsAre (s.port.reads.eraseIdx place.val) ∧
      (f.gather r = none →
        t.bank b = { s.bank b with seq := { (s.bank b).seq with
          fetch := some { f with half := some (r.second, r.answer) } } }) ∧
      (f.gather r = some none →
        s.FetchFails t b f .bus .read 0 false false (s.bank b).fifo) ∧
      ∀ bs, f.gather r = some (some bs) →
        s.Judged t b f (checkFrame (s.bank b).faults.masks f.sel h mode act start
          (parseEntries h.entryCount.toNat bs))) ∧
  (∀ (b : BankNo) (f : Fetch) (sel : Selector) (copy : FrameCopy) (addr : Nat) (second : Bool)
    (fate : Fate) (s : State), s.resetHeld = false → s.BanksCoherent →
    s.choose = some (.frame b (.state sel .staged) addr second) → (s.bank b).seq.fetch = some f →
    f.copy = some copy →
    AnswersThen (.arbiterGrant [] fate) s fun t =>
      (f.role = .successor →
        (t.bank b).seq = { (s.bank b).seq with
          fetch := none, tag := .valid, staged := some copy,
          latch := if copy.start = .now then .disarmed else .armed,
          awaited := if copy.start = .now then none else some copy.start } ∧
        (t.bank b).fifo = (s.bank b).fifo.erase ⟨.state sel .staged, .ready addr second⟩) ∧
      (f.role = .head → copy.start = .now →
        s.FrameStarts t b copy false
          ((s.bank b).fifo.erase ⟨.state sel .staged, .ready addr second⟩) ∧ s.StartSent t b) ∧
      (f.role = .head → copy.start ≠ .now →
        s.FrameWaits t b copy
          ((s.bank b).fifo.erase ⟨.state sel .staged, .ready addr second⟩) ∧
        (t.bank b).seq.awaited = some copy.start)) ∧
  (∀ (masks : Masks) (sel : Selector) (h : Header) (mode : CountMode) (act : EndAction)
      (start : StartCond) (entries : List Entry) (sub : Subcode) (field : Nat),
    checkEntries 0 [] entries = .error (sub, field) →
    checkFrame masks sel h mode act start entries = .bad .format sub field true false) ∧
  ∀ (n : Nat) (seen : List ChanNo) (e : Entry) (rest : List Entry),
    (bankNoOf e.channel = none →
      checkEntries n seen (e :: rest) = .error (.channel, 16 + 8 * n)) ∧
    ∀ c, bankNoOf e.channel = some c →
      (c ∈ seen → checkEntries n seen (e :: rest) = .error (.duplicate, 16 + 8 * n)) ∧
      (c ∉ seen → chanModeOf e.mode = none →
        checkEntries n seen (e :: rest) = .error (.mode, 16 + 8 * n + 1)) ∧
      ∀ m, c ∉ seen → chanModeOf e.mode = some m →
        checkEntries n seen (e :: rest) =
          match checkEntries (n + 1) (c :: seen) rest with
          | .error x => .error x
          | .ok xs => .ok ((c, m, e) :: xs)

/-- A link read arrives, and is outstanding no more: an ERROR, and a misaligned link, is a fault in
phase STAGING that makes the tag REJECTED; a null link is recorded and nothing else of the bank
changes but that the read is over; any other link is recorded, the tag is PENDING and its frame is
fetched. -/
def Obligations.LinkReadIsActedOn : Prop :=
  ∀ (place : Fin 4) (r : OutRead) (b : BankNo) (s : State), s.Arriving place r →
    r.owner = .link b → (s.bank b).seq.linkRead = true →
    AnswersThen (.linkRead place) s fun t =>
      t.port.reads = s.port.reads.eraseIdx place.val ∧
      (r.answer = none → s.LinkFails t b .bus .read ∧ (t.bank b).fifo = (s.bank b).fifo ∧
        (t.bank b).seq.live = (s.bank b).seq.live) ∧
      ∀ bs, r.answer = some bs →
        (t.bank b).seq.live =
          (s.bank b).seq.live.map (fun v => { v with link := selectorAt bs 0 }) ∧
        ((selectorAt bs 0).index = 0xFF#8 →
          t.bank b = { s.bank b with seq := { (s.bank b).seq with
            linkRead := false, live := (t.bank b).seq.live } }) ∧
        ((selectorAt bs 0).index ≠ 0xFF#8 → (selectorAt bs 0).offset.toNat % 8 ≠ 0 →
          s.LinkFails t b .format .align ∧ (t.bank b).fifo = (s.bank b).fifo) ∧
        ((selectorAt bs 0).index ≠ 0xFF#8 → (selectorAt bs 0).offset.toNat % 8 = 0 →
          t.bank b = { s.bank b with
            seq := { (s.bank b).seq with
              linkRead := false, live := (t.bank b).seq.live, tag := .pending,
              fetch := some ⟨.successor, selectorAt bs 0, none, none, none⟩ }
            fifo := (s.bank b).fifo ++ [⟨.header (selectorAt bs 0), .unchecked⟩] })

/-- A descriptor load arrives, and is outstanding no more. OK and not stale: the descriptor enters
the cache as the most recently used, in place of the least recently used when all eight entries are
occupied. ERROR: nothing enters. Stale: nothing enters, and a fresh load is made if something waits.
Each access that waits on it is then judged against the descriptor, or answered with the descriptor
error, in the order they began to wait, but for one that an access before it has struck; one alone
goes on, or fails, as its requester does; several of a bank that pass are offered in their order. (A
load whose accesses have gone is cached too: the model's choice, log entry 37; so are the places of
the requests, log entry 15, that a frame at a write fault is known by its selector, log entry 10,
and the domain of a frame write, log entry 31.) -/
def Obligations.DescriptorLoadFillsTheCache : Prop :=
  ∀ (place : Fin 4) (r : OutRead) (n : Byte) (x : Load) (s : State), s.Arriving place r →
    r.owner = .descriptor n → loadFind n s.window.loads = some x →
    AnswersThen (.descriptorLoad place) s fun t =>
      t.ReadsAre (s.port.reads.eraseIdx place.val) ∧
      (∀ bs, x.stale = false → r.answer = some bs →
        t.window.cache = ((n, parseDescriptor bs) ::
          s.window.cache.filter fun e => e.1 ≠ n).take 8 ∧
        (∀ y ∈ t.window.loads, y.index ≠ n) ∧
        (x.waiters = [] → t.window.loads = s.window.loads.filter fun y => y.index ≠ n)) ∧
      (x.stale = false → r.answer = none →
        t.window.cache = s.window.cache ∧ (∀ y ∈ t.window.loads, y.index ≠ n) ∧
        (x.waiters = [] → t.window.loads = s.window.loads.filter fun y => y.index ≠ n)) ∧
      (x.stale = false → ∃ u : State, u.banks = s.banks ∧ u.lines = s.lines ∧
        u.journals = s.journals ∧ u.sweep = s.sweep ∧
        t = x.waiters.foldl (fun v q =>
          if v.stillWaits q then State.waited (r.answer.map parseDescriptor) v q else v) u) ∧
      (∀ b bs, ∀ as : List (FrameAccess × Nat), x.stale = false → r.answer = some bs →
        x.waiters = as.map (fun a => .bank b a.1) → (as.map Prod.fst).Nodup →
        (∀ a ∈ as, ⟨a.1, .waiting⟩ ∈ (s.bank b).fifo ∧
          judgeDescriptor (parseDescriptor bs) (a.1.sel.offset.toNat + a.1.frameOffset)
            a.1.length a.1.isWrite (s.bank b).seq.domain = .pass a.2) →
        (t.bank b).fifo = as.foldl (fun q a =>
          placeReq ⟨a.1, .ready a.2 false⟩ (q.erase ⟨a.1, .waiting⟩)) (s.bank b).fifo ∧
        (t.bank b).seq = (s.bank b).seq ∧ (t.bank b).faults = (s.bank b).faults) ∧
      (x.stale = true → t.window.cache = s.window.cache ∧
        (x.waiters ≠ [] → ∃ y ∈ t.window.loads, y.index = n ∧ y.stale = false ∧
          y.waiters = x.waiters)) ∧
      (∀ b a, x.stale = false → x.waiters = [.bank b a] → s.BanksCoherent →
        ⟨a, .waiting⟩ ∈ (s.bank b).fifo →
        (r.answer = none →
          s.AccessFails t b a .bus .descriptor ((s.bank b).fifo.erase ⟨a, .waiting⟩)) ∧
        ∀ bs, r.answer = some bs →
          (∀ addr, judgeDescriptor (parseDescriptor bs) (a.sel.offset.toNat + a.frameOffset)
              a.length a.isWrite (s.bank b).seq.domain = .pass addr →
            (t.bank b).fifo =
              placeReq ⟨a, .ready addr false⟩ ((s.bank b).fifo.erase ⟨a, .waiting⟩) ∧
            (t.bank b).seq = (s.bank b).seq ∧ (t.bank b).faults = (s.bank b).faults) ∧
          ∀ sub, judgeDescriptor (parseDescriptor bs) (a.sel.offset.toNat + a.frameOffset)
              a.length a.isWrite (s.bank b).seq.domain = .fail sub →
            s.AccessFails t b a .window sub ((s.bank b).fifo.erase ⟨a, .waiting⟩)) ∧
      (∀ j p, x.stale = false → x.waiters = [.journal j] → (s.journal j).step = .check p →
        (r.answer = none → s.JournalFaults t j .descriptor 0) ∧
        ∀ bs, r.answer = some bs →
          (∀ addr, judgeDescriptor (parseDescriptor bs) (s.journal j).nextSlot 16 true
              (s.journal j).domain = .pass addr →
            (t.journal j).step = .write p ∧
              (t.journal j).fifo = (s.journal j).fifo ++ [.record addr false]) ∧
          ∀ sub, judgeDescriptor (parseDescriptor bs) (s.journal j).nextSlot 16 true
              (s.journal j).domain = .fail sub → s.JournalFaults t j sub.journalFault 0) ∧
      (∀ j k w rec, x.stale = false → x.waiters = [.ring j] →
        s.sweep.exec = some ⟨w, .ringCheck k rec⟩ →
        (r.answer = none → t.Answered w .refusedPort .nothing ∧ t.journals = s.journals) ∧
        ∀ bs, r.answer = some bs →
          (∀ addr, judgeDescriptor (parseDescriptor bs) rec.ringOffset
              (2 ^ rec.log2Capacity.toNat * 16) true rec.domain = .pass addr →
            s.engine.state = .on → (s.journal j).state = .closed →
            t.Answered w .done (.journalWords j) ∧ s.JournalOpens t j rec) ∧
          ∀ sub, judgeDescriptor (parseDescriptor bs) rec.ringOffset
              (2 ^ rec.log2Capacity.toNat * 16) true rec.domain = .fail sub →
            t.Answered w .refusedWindow .nothing ∧ t.journals = s.journals)

/-- A consume value arrives for an OPEN journal, and its read is outstanding no more. With no step,
or with one that waits for it, it is judged at once: within the capacity it becomes the cached
consume and the watermark flag is judged, a flag that becomes set setting the journal's cause;
outside it the journal becomes FAULTED, code CONSUME_RANGE. A step that waited goes on with the room
now known: it writes, or with none left counts its event as missed; the step of a close's last GAP
record writes it, or ends. A step past that point has the value held for its end. An ERROR sets
CAUSE.PORT_ERROR and leaves the cached consume; a step that waited counts its event as missed. A
JOURNAL_LOOK is answered with the judgement, REFUSED_PORT on an ERROR. -/
def Obligations.ConsumeRereadIsJudged : Prop :=
  ∀ (place : Fin 4) (r : OutRead) (j : JournalNo) (s : State), s.Arriving place r →
    r.owner = .reread j → (s.journal j).state = .opened →
    AnswersThen (.consumeReread place) s fun t =>
      t.port.reads = s.port.reads.eraseIdx place.val ∧
      (t.journal j).rereadInFlight = false ∧ t.banks = s.banks ∧ OtherJournalsKept s t j ∧
      (∀ bs, r.answer = some bs →
        ((s.journal j).step = .idle ∨ ∃ l, (s.journal j).step = .reread l) →
        (∀ w, s.sweep.exec = some ⟨w, .look j⟩ → t.Answered w .done .nothing) ∧
        (((s.journal j).produce - BitVec.ofNat 16 (fieldAt bs 4 2)).toNat ≤ (s.journal j).capacity →
          ((s.journal j).step = .idle ∨ (s.journal j).held = none →
            (t.journal j).cached = BitVec.ofNat 16 (fieldAt bs 4 2) ∧
            ((t.journal j).watermarkFlag = true ↔ (s.journal j).watermark ≤
              ((s.journal j).produce - BitVec.ofNat 16 (fieldAt bs 4 2)).toNat) ∧
            ((s.journal j).watermarkFlag = false → (t.journal j).watermarkFlag = true →
              t.causeSet (causeJournal j))) ∧
          ((s.journal j).step = .idle → (t.journal j).state = .opened) ∧
          ((s.journal j).step = .reread none → (s.journal j).held = none →
            (((s.journal j).produce - BitVec.ofNat 16 (fieldAt bs 4 2)).toNat
                = (s.journal j).capacity → t.lines = s.lines ∧ (t.journal j).step = .idle ∧
              (t.journal j).state = .opened ∧ (t.journal j).gap = (s.journal j).gap) ∧
            (((s.journal j).produce - BitVec.ofNat 16 (fieldAt bs 4 2)).toNat
                < (s.journal j).capacity →
              ∀ x : Journal, x = { s.journal j with cached := BitVec.ofNat 16 (fieldAt bs 4 2) } →
                s.RecordChecked t j x .gapOnly)) ∧
          (∀ l, (s.journal j).step = .reread (some l) → (s.journal j).held = none →
            (((s.journal j).produce - BitVec.ofNat 16 (fieldAt bs 4 2)).toNat
                = (s.journal j).capacity → (s.line l).holding ≠ none →
              s.EventMissed t j l (s.journal j).gap ∧ (t.journal j).step = .idle ∧
                (t.journal j).state = .opened) ∧
            (((s.journal j).produce - BitVec.ofNat 16 (fieldAt bs 4 2)).toNat
                < (s.journal j).capacity →
              ∀ x : Journal, x = { s.journal j with cached := BitVec.ofNat 16 (fieldAt bs 4 2) } →
                s.RecordChecked t j x (x.planFor l)))) ∧
        ((s.journal j).capacity < ((s.journal j).produce - BitVec.ofNat 16 (fieldAt bs 4 2)).toNat →
          s.JournalFaults t j .consumeRange 0)) ∧
      (∀ bs, r.answer = some bs → (s.journal j).step ≠ .idle →
        (∀ l, (s.journal j).step ≠ .reread l) →
        (t.journal j) = { s.journal j with
          rereadInFlight := false, held := some (BitVec.ofNat 16 (fieldAt bs 4 2)) } ∧
        t.sweep = s.sweep) ∧
      (r.answer = none → t.causeSet causePort ∧
        ((s.journal j).held = none → (t.journal j).cached = (s.journal j).cached) ∧
        (∀ w, s.sweep.exec = some ⟨w, .look j⟩ → t.Answered w .refusedPort .nothing) ∧
        ((∀ l, (s.journal j).step ≠ .reread l) →
          t.journal j = { s.journal j with rereadInFlight := false }) ∧
        (∀ l, (s.journal j).step = .reread (some l) → (s.journal j).held = none →
          (s.line l).holding ≠ none →
          s.EventMissed t j l (s.journal j).gap ∧ (t.journal j).step = .idle ∧
            (t.journal j).state = .opened) ∧
        ((s.journal j).step = .reread none → (s.journal j).held = none → t.lines = s.lines ∧
          (t.journal j).step = .idle ∧ (t.journal j).state = .opened))

/-- A Bank Record arrives, and its read is outstanding no more: in each refusal no bank is touched;
an accepted start takes the record's head frame, domain, masks, trip mask and rearm mode, and each
pin its polarity, rest and trip levels; from then on every pin of the bank is driven, at its trip
level if the gate is TRIPPED and else at its rest level, a pin whose level is OFF at once. The gate
is judged under the new mask and mode. The bank is LOADING with its head frame read, or HALTED when
its head selector is misaligned, with PLAN_END sent to the other banks. A record passes with a
domain of 0 to 3, MANUAL or AUTO, and no channel pair both of whose pins have a rest level, or a
trip level, of ON. (A read answered ERROR after the engine has left ON is refused with REFUSED_STATE
too: the model's choice, log entry 12.) -/
def Obligations.BankRecordStartsTheBank : Prop :=
  (∀ (r : BankRecord) (auto : Bool), r.check = some auto ↔
    r.domain.toNat ≤ 3 ∧ r.rearm = (if auto then 1#8 else 0#8) ∧
      (∀ c, ¬ (pinBit r.rest c false = true ∧ pinBit r.rest c true = true)) ∧
      ∀ c, ¬ (pinBit r.trip c false = true ∧ pinBit r.trip c true = true)) ∧
  ∀ (place : Fin 4) (r : OutRead) (b : BankNo) (e : Executing) (s : State), s.Arriving place r →
    r.owner = .bankRecord b → s.sweep.exec = some e →
    AnswersThen (.bankRecordRead place) s fun t =>
      t.ReadsAre (s.port.reads.eraseIdx place.val) ∧
      (r.answer = none → s.engine.state = .on →
        t.Answered e.word .refusedPort .nothing ∧ t.causeSet causePort ∧ t.banks = s.banks) ∧
      (s.engine.state ≠ .on → t.Answered e.word .refusedState .nothing ∧ t.banks = s.banks) ∧
      (∀ bs, r.answer = some bs → s.engine.state = .on → (parseBankRecord bs).check = none →
        t.Answered e.word .refusedConfig .nothing ∧ t.banks = s.banks) ∧
      (∀ bs auto, r.answer = some bs → s.engine.state = .on →
        (parseBankRecord bs).check = some auto → (s.bank b).startable = false →
        t.Answered e.word .refusedState .nothing ∧ t.banks = s.banks) ∧
      (∀ bs auto, r.answer = some bs → s.engine.state = .on →
        (parseBankRecord bs).check = some auto → (s.bank b).startable = true →
        t.Answered e.word .done .nothing ∧
          (t.bank b).seq.retired = 0#48 ∧ (t.bank b).seq.started = true ∧
          (t.bank b).seq.domain = (parseBankRecord bs).domain ∧
          (t.bank b).seq.headSel = (parseBankRecord bs).head ∧
          (t.bank b).faults.masks = (parseBankRecord bs).masks ∧
          (t.bank b).gate.auto = auto ∧
          (t.bank b).gate.mask = (parseBankRecord bs).tripMask ∧
          (t.bank b).seq.settings = (s.bank b).seq.settings ∧
        (∀ (c : ChanNo) (partner : Bool) (p : Pin),
          ((t.bank b).wave.pins.get c).pin partner = p →
          p.activeLow = pinBit (parseBankRecord bs).polarity c partner ∧
          p.rest = pinBit (parseBankRecord bs).rest c partner ∧
          p.trip = pinBit (parseBankRecord bs).trip c partner ∧
          p.desired = (if (t.bank b).gate.tripped then p.trip else p.rest) ∧
          p.drive ≠ .highZ ∧ (p.desired = false → p.drive = .off)) ∧
        ((s.bank b).gate.rearmPending = false →
          t.GateJudged b { (s.bank b).gate with mask := (parseBankRecord bs).tripMask, auto } false) ∧
        (((parseBankRecord bs).head.isNull || (parseBankRecord bs).head.aligned) = true →
          OtherBanksKept s t b ∧ (t.bank b).seq.plan = .loading ∧
          (t.bank b).seq.stopReason = .none ∧ (t.bank b).faults.sticky = .clear ∧
          (t.bank b).seq.fetch = some ⟨.head, (parseBankRecord bs).head, none, none, none⟩ ∧
          (t.bank b).fifo = (s.bank b).fifo ++ [⟨.header (parseBankRecord bs).head, .unchecked⟩]) ∧
        (((parseBankRecord bs).head.isNull || (parseBankRecord bs).head.aligned) = false →
          t.Ended b .halted .fault ∧ (t.bank b).faults.sticky.format = true ∧
            t.causeSet (causeBank b) ∧ s.CueSent t b .planEnd))

/-- A Line Record arrives, and its read is outstanding no more: refused, the line keeps every item;
accepted, the seven fields are copied, the sample phase, run count, sequence number, prescale count,
width reference and lost flag restart, the filtered level is kept or, on a first load, taken from
the pin, and the holding register and the overrun count are kept; every gate is judged under the new
trip level and the line's status write is requested. A record passes with a mode of OFF, STAMP or
WIDTH, an edge select of RISE, FALL or BOTH, a prescale of 1, 2, 4 or 8, a divider of 1 to 64, an N
of 1 to 8, a journal of 0 to 7 and a trip level of LOW or HIGH, whatever its mode. -/
def Obligations.LineRecordLoadsTheLine : Prop :=
  (∀ (bs : List Byte) (cfg : LineConfig), parseLineRecord bs = some cfg ↔
    (byteAt bs 0).toNat = (match cfg.mode with | .off => 0 | .stamp => 1 | .width => 2) ∧
      (byteAt bs 1).toNat = (match cfg.select with | .rise => 0 | .fall => 1 | .both => 2) ∧
      (byteAt bs 2).toNat = cfg.prescale ∧ cfg.prescale ∈ [1, 2, 4, 8] ∧
      (byteAt bs 3).toNat = cfg.divider ∧ 1 ≤ cfg.divider ∧ cfg.divider ≤ 64 ∧
      (byteAt bs 4).toNat = cfg.count ∧ 1 ≤ cfg.count ∧ cfg.count ≤ 8 ∧
      (byteAt bs 5).toNat = cfg.journal.val ∧
      (byteAt bs 6).toNat = if cfg.tripHigh then 1 else 0) ∧
  ∀ (place : Fin 4) (r : OutRead) (l : LineNo) (e : Executing) (s : State), s.Arriving place r →
    r.owner = .lineRecord l → s.sweep.exec = some e →
    AnswersThen (.lineRecordRead place) s fun t =>
      t.port.reads = s.port.reads.eraseIdx place.val ∧
      (r.answer = none →
        t.Answered e.word .refusedPort .nothing ∧ t.causeSet causePort ∧ t.lines = s.lines) ∧
      (∀ bs, r.answer = some bs → parseLineRecord bs = none →
        t.Answered e.word .refusedConfig .nothing ∧ t.lines = s.lines ∧ t.banks = s.banks) ∧
      (∀ bs cfg, r.answer = some bs → parseLineRecord bs = some cfg →
        t.Answered e.word .done .nothing ∧ OtherLinesKept s t l ∧
          (t.line l).loaded = true ∧ (t.line l).cfg = cfg ∧ (t.line l).phase = 0 ∧
          (t.line l).run = 0 ∧ (t.line l).sequence = 0#8 ∧ (t.line l).prescaleCount = 0 ∧
          (t.line l).widthRef = none ∧ (t.line l).lost = false ∧
          (t.line l).high = (if (s.line l).loaded then (s.line l).high
            else s.pinsAgo2.getLsbD l.val) ∧
          (t.line l).armed = (cfg.mode != .off && (s.journal cfg.journal).capturing) ∧
          (t.line l).holding = (s.line l).holding ∧ (t.line l).overruns = (s.line l).overruns ∧
          (∀ b, t.GateJudged b (s.bank b).gate (s.bank b).seq.plan.isRunning) ∧
          s.LineReported t l)

/-- A Journal Record arrives, and its read is outstanding no more: each refusal leaves every journal
as it was. With a cached descriptor that grants the whole ring, the journal is OPEN with the
record's window, domain, capacity, ring offset and watermark, empty at the record's consume index,
the lines that name it are armed, and the produce and status words are requested; with one that
refuses the ring the open is refused; with none cached the check waits on a descriptor load. A
record's fields pass with a domain of 0 to 3, a log2 capacity of 2 to 12, a ring offset that is a
multiple of 16 and a watermark of 1 to the capacity. (A read answered ERROR after the engine has
left ON is refused with REFUSED_STATE too: the model's choice, log entry 12.) -/
def Obligations.JournalRecordOpensTheJournal : Prop :=
  (∀ r : JournalRecord, r.ok = true ↔
    r.domain.toNat ≤ 3 ∧ 2 ≤ r.log2Capacity.toNat ∧ r.log2Capacity.toNat ≤ 12 ∧
      r.ringOffset % 16 = 0 ∧ 1 ≤ r.watermark ∧ r.watermark ≤ 2 ^ r.log2Capacity.toNat) ∧
  ∀ (place : Fin 4) (r : OutRead) (j : JournalNo) (e : Executing) (s : State), s.Arriving place r →
    r.owner = .journalRecord j → s.sweep.exec = some e →
    AnswersThen (.journalRecordRead place) s fun t =>
      t.port.reads = s.port.reads.eraseIdx place.val ∧
      (r.answer = none → s.engine.state = .on →
        t.Answered e.word .refusedPort .nothing ∧ t.causeSet causePort ∧ t.journals = s.journals) ∧
      (s.engine.state ≠ .on → t.Answered e.word .refusedState .nothing ∧ t.journals = s.journals) ∧
      (∀ bs, r.answer = some bs → s.engine.state = .on → (parseJournalRecord bs).ok = false →
        t.Answered e.word .refusedConfig .nothing ∧ t.journals = s.journals) ∧
      (∀ bs, r.answer = some bs → s.engine.state = .on → (parseJournalRecord bs).ok = true →
        s.window.tableCount ≤ (parseJournalRecord bs).window.toNat →
        t.Answered e.word .refusedWindow .nothing ∧ t.journals = s.journals) ∧
      (∀ bs d, r.answer = some bs → s.engine.state = .on → (parseJournalRecord bs).ok = true →
        (parseJournalRecord bs).window.toNat < s.window.tableCount →
        cacheFind (parseJournalRecord bs).window s.window.cache = some d →
        (∀ addr, judgeDescriptor d (parseJournalRecord bs).ringOffset
            ((parseJournalRecord bs).capacity * 16) true (parseJournalRecord bs).domain
              = .pass addr → (s.journal j).state = .closed →
          t.Answered e.word .done (.journalWords j) ∧
            s.JournalOpens t j (parseJournalRecord bs)) ∧
        ∀ sub, judgeDescriptor d (parseJournalRecord bs).ringOffset
            ((parseJournalRecord bs).capacity * 16) true (parseJournalRecord bs).domain
              = .fail sub →
          t.Answered e.word .refusedWindow .nothing ∧ t.journals = s.journals) ∧
      (∀ bs, r.answer = some bs → s.engine.state = .on → (parseJournalRecord bs).ok = true →
        (parseJournalRecord bs).window.toNat < s.window.tableCount →
        cacheFind (parseJournalRecord bs).window s.window.cache = none →
        t.sweep.exec = some ⟨e.word, .ringCheck j (parseJournalRecord bs)⟩ ∧
          (t.journal j).state = (s.journal j).state ∧ t.lines = s.lines ∧
          (∃ y ∈ t.window.loads,
            y.index = (parseJournalRecord bs).window ∧ .ring j ∈ y.waiters) ∧
          (loadFind (parseJournalRecord bs).window s.window.loads = none →
            (t.journal j).fifo =
              (s.journal j).fifo ++ [.load (parseJournalRecord bs).window]))

/-! ### Write responses -/

/-- The response to a write of a frame: OK to a retire-field write requests the terminal state write
it held back; OK to a state write changes nothing more; ERROR to either is a BUS fault on the frame:
no write to it follows, the terminal state write that was held back among them, and an active bank
halts: its frame reads are discarded, PLAN_END reaches the other banks, a gate that may reopen does,
and the pins take their rest levels. The write answered awaits its response no more. Of a split
write the first response is only kept, and the second is an ERROR if either is. (A frame is known by
its selector: the model's choice, log entry 10; a split access is judged when both halves are in:
log entry 20.) -/
def Obligations.FrameWriteResponseIsActedOn : Prop :=
  (∀ (b : BankNo) (sel : Selector) (owner : WriteOwner) (error : Bool) (rest : List OutWrite)
    (s : State), (owner = .frameState b sel ∨ ∃ next, owner = .frameRetire b sel next) →
    (s.Responding ⟨owner, false, error⟩ rest →
      AnswersThen .frameWriteResponse s fun t =>
        t = { s with banks := t.banks, port := { s.port with writes := rest } } ∧
          OtherBanksKept s t b ∧
          t.bank b = { s.bank b with halfError := (s.bank b).halfError || error }) ∧
    (s.Responding ⟨owner, true, error⟩ rest → (s.bank b).halfError = true →
      AnswersThen .frameWriteResponse s fun t =>
        s.WriteFails t b sel .bus .write (if owner = .frameState b sel then 1 else 0) ∧
          (t.bank b).halfError = false ∧ t.WritesAre rest)) ∧
  ∀ (b : BankNo) (sel : Selector) (next : Option FrameState) (rest : List OutWrite)
    (s : State), (s.bank b).halfError = false →
    (∀ code, next = some code → s.Responding ⟨.frameRetire b sel next, true, false⟩ rest →
      AnswersThen .frameWriteResponse s fun t =>
        (t.bank b).fifo = (s.bank b).fifo ++ [⟨.state sel code, .unchecked⟩] ∧
          (t.bank b).seq = (s.bank b).seq ∧ t.port.writes = rest) ∧
    (s.Responding ⟨.frameState b sel, true, false⟩ rest →
      AnswersThen .frameWriteResponse s fun t =>
        t = { s with port := { s.port with writes := rest } }) ∧
    (s.Responding ⟨.frameRetire b sel next, true, true⟩ rest →
      AnswersThen .frameWriteResponse s fun t =>
        s.WriteFails t b sel .bus .write 0 ∧ t.WritesAre rest) ∧
    (s.Responding ⟨.frameState b sel, true, true⟩ rest →
      AnswersThen .frameWriteResponse s fun t =>
        s.WriteFails t b sel .bus .write 1 ∧ t.WritesAre rest)

/-- A record write from its issue on. Issued whole, it empties its event's holding register, or
drops the gap it carries, in whose place a missed event begins the next gap. Answered OK, the
produce index goes up by 1, the watermark is judged and the produce word is requested; answered
ERROR, the journal becomes FAULTED with code BUS and the produce index is not moved; either way the
write awaits its response no more. Of a split write the first response is only kept, and the second
is an ERROR if either is. The issue of the produce word ends the step, or takes it on from its GAP
record to its event. (That a split record's effects come with its last half is log entry 20; that
the event of a full ring is missed at the issue of its GAP record is log entry 21.) -/
def Obligations.RecordWriteResponseMovesProduce : Prop :=
  (∀ (j : JournalNo) (p : StepPlan) (addr : Nat) (second : Bool) (fate : Fate) (s : State),
    s.resetHeld = false → s.choose = some (.journal j (.record addr second)) →
    (s.journal j).step = .write p →
    AnswersThen (.arbiterGrant [] fate) s fun t =>
      (t.journal j).step = .write p ∧ (t.journal j).produce = (s.journal j).produce ∧
      (second = true ∨ addr % 4096 + 16 ≤ 4096 →
        (∀ l, p = .event l → t.line l = { s.line l with holding := none } ∧
          (t.journal j).gap = (s.journal j).gap) ∧
        (((∃ l, p = .gapThenEvent l) ∨ p = .gapOnly) →
          (t.journal j).gap = 0#32 ∧ t.lines = s.lines) ∧
        ∀ l, p = .gapThenMiss l → (s.line l).holding ≠ none → s.EventMissed t j l 0#32) ∧
      (second = false → 4096 < addr % 4096 + 16 →
        t.lines = s.lines ∧ .record addr true ∈ (t.journal j).fifo)) ∧
  (∀ (j : JournalNo) (error : Bool) (rest : List OutWrite) (s : State),
    s.Responding ⟨.record j, false, error⟩ rest →
    AnswersThen .recordWriteResponse s fun t =>
      t = { s with journals := t.journals, port := { s.port with writes := rest } } ∧
        OtherJournalsKept s t j ∧
        t.journal j = { s.journal j with halfError := (s.journal j).halfError || error }) ∧
  (∀ (j : JournalNo) (p : StepPlan) (error first : Bool) (rest : List OutWrite) (s : State),
    s.Responding ⟨.record j, true, error⟩ rest → (s.journal j).halfError = first →
    (s.journal j).step = .write p →
    AnswersThen .recordWriteResponse s fun t =>
      (t.journal j).halfError = false ∧ t.port.writes = rest ∧
      (error = false → first = false →
        (t.journal j).produce = (s.journal j).produce + 1#16 ∧ (t.journal j).step = .produce p ∧
          (t.journal j).fifo =
            (s.journal j).fifo ++ [.produceWord ((s.journal j).produce + 1#16)] ∧
          (t.journal j).state = (s.journal j).state ∧
          ((t.journal j).watermarkFlag = true ↔ (s.journal j).watermark ≤
            ((s.journal j).produce + 1#16 - (s.journal j).cached).toNat) ∧
          ((s.journal j).watermarkFlag = false → (t.journal j).watermarkFlag = true →
            t.causeSet (causeJournal j))) ∧
      (error = true ∨ first = true →
        (∀ l, p = .event l → s.JournalFaults t j .bus 1) ∧
        ((∀ l, p ≠ .event l) → s.JournalFaults t j .bus 0))) ∧
  ∀ (j : JournalNo) (p : StepPlan) (v : BitVec 16) (fate : Fate) (s : State),
    s.resetHeld = false → s.choose = some (.journal j (.produceWord v)) →
    (s.journal j).step = .produce p →
    AnswersThen (.arbiterGrant [] fate) s fun t =>
      (∀ l, p = .gapThenEvent l →
        s.RecordChecked t j
          { s.journal j with fifo := (s.journal j).fifo.erase (.produceWord v) } (.event l)) ∧
      ((∀ l, p ≠ .gapThenEvent l) →
        (t.journal j).step = .idle ∧ (t.journal j).held = none ∧
        ((s.journal j).held = none →
          (t.journal j).cached = (s.journal j).cached ∧
            (t.journal j).state = (s.journal j).state) ∧
        ∀ h, (s.journal j).held = some h →
          (((s.journal j).produce - h).toNat ≤ (s.journal j).capacity →
            (t.journal j).cached = h ∧ (t.journal j).state = (s.journal j).state) ∧
          ((s.journal j).capacity < ((s.journal j).produce - h).toNat →
            s.JournalFaults t j .consumeRange 0))

/-- The responses to Anchor Block writes: the Engine Status write that follows a reply sets
CAUSE.REPLY, and any of them answered ERROR sets CAUSE.PORT_ERROR; no other cause bit and nothing
else changes. -/
def Obligations.AnchorResponsesSetCauses : Prop :=
  ∀ (error : Bool) (last : Bool) (rest : List OutWrite) (s : State),
    (s.Responding ⟨.engineStatus true, last, error⟩ rest →
      AnswersThen .engineStatusResponse s fun t =>
        t.causeSet causeReply ∧ (error = true → t.causeSet causePort) ∧
          t = { s with cause := t.cause, port := { s.port with writes := rest } } ∧
          ∀ n, n ≠ causeReply → (n ≠ causePort ∨ error = false) →
            t.cause.getLsbD n = s.cause.getLsbD n) ∧
    (∀ owner : WriteOwner, owner.isAnchor = true → s.Responding ⟨owner, last, error⟩ rest →
      AnswersThen .anchorWriteResponse s fun t =>
        (error = true → t.causeSet causePort) ∧
          t = { s with cause := t.cause, port := { s.port with writes := rest } } ∧
          ∀ n, n ≠ causePort ∨ error = false → t.cause.getLsbD n = s.cause.getLsbD n)

/-! ### The Memory Port -/

/-- ARBITER_GRANT stops only on a host write outside the 48-bit address space. Otherwise the host's
writes reach memory in order and, with a request to grant, that request is issued: one transaction
at the most. A read of a frame, of a descriptor, of a consume index or of the Anchor Block is
answered, unless with ERROR, with what memory holds at its issue; one of a frame that crosses a
4096-byte boundary, read or write, goes in two halves, the second of which stays requested behind
the first. The write of SPENT, SPENT_END or CUT counts in the bank's retired count, and nothing else
does. (That the host's writes and the fate of the access are operands is the model's choice, log
entry 7; that a write counts at its grant is log entry 14.) -/
def Obligations.ArbiterGrantIssues : Prop :=
  ∀ (host : List Host.Cell) (fate : Fate) (s : State), s.resetHeld = false →
    ((∃ c ∈ host, 2 ^ 48 ≤ c.1) →
      ∃ a, exec (.arbiterGrant host fate) s = .fault (.hostAddress a) ∧ 2 ^ 48 ≤ a) ∧
    ((∀ c ∈ host, c.1 < 2 ^ 48) →
      ((s.hostWrites host).choose = none →
        exec (.arbiterGrant host fate) s = .next (s.hostWrites host)) ∧
      (∀ g, (s.hostWrites host).choose = some g →
        ∃ t, exec (.arbiterGrant host fate) s = .next ((s.hostWrites host).conclude t) ∧
          t = (s.hostWrites host).issue fate g ∧
          t.port.reads.length + t.port.writes.length
            ≤ s.port.reads.length + s.port.writes.length + 1 ∧
          (∀ b a addr second, g = .frame b a addr second → t.port.lastBank = b ∧
            (a.isWrite = false →
              t.port.reads = s.port.reads ++
                [⟨a.readOwner b, false, decide (4096 < addr % 4096 + a.length), second,
                  if fate.isError then none else some ((s.hostWrites host).memory.readBytes
                    (partOf addr a.length second).1 (partOf addr a.length second).2)⟩]) ∧
            (second = false → 4096 < addr % 4096 + a.length →
              (t.bank b).fifo = ((s.bank b).fifo.replace ⟨a, .ready addr false⟩
                ⟨a, .ready addr true⟩) ∧ ⟨a, .ready addr true⟩ ∈ (t.bank b).fifo ∧
              (t.bank b).seq = (s.bank b).seq) ∧
            (second = true ∨ addr % 4096 + a.length ≤ 4096 → a.isWrite = false →
              (t.bank b).fifo = (s.bank b).fifo.erase ⟨a, .ready addr second⟩)) ∧
          (∀ b sel code addr second, g = .frame b (.state sel code) addr second →
            (t.bank b).seq.retired =
              if code = .spent ∨ code = .spentEnd ∨ code = .cut
              then (s.bank b).seq.retired + 1#48 else (s.bank b).seq.retired) ∧
          (∀ c, (∀ sel code addr second, g ≠ .frame c (.state sel code) addr second) →
            (t.bank c).seq.retired = (s.bank c).seq.retired) ∧
          (∀ j, g = .journal j .reread → t.port.lastJournal = j ∧
            t.port.reads = s.port.reads ++ [⟨.reread j, false, false, false,
              if fate.isError then none else some ((s.hostWrites host).memory.readBytes
                (s.engine.anchor.toNat + 0x1C0 + 32 * j.val + 8) 8)⟩]) ∧
          (∀ j n, g = .journal j (.load n) → t.port.lastJournal = j ∧
            t.port.reads = s.port.reads ++ [⟨.descriptor n, false, false, false,
              if fate.isError then none else some ((s.hostWrites host).memory.readBytes
                (s.window.tableAddr.toNat + 16 * n.toNat) 16)⟩]) ∧
          (∀ o, g = .class4 o →
            t.port.class4 = none ∧
            t.port.reads = s.port.reads ++ [⟨o, false, false, false,
              if fate.isError then none else some ((s.hostWrites host).memory.readBytes
                (s.engine.anchor.toNat + (class4Place o).1) (class4Place o).2)⟩])))

/-- What is granted: no read while 4 are outstanding and no write while 8 await their responses;
nothing of a class while a request of a lower class number can be issued; within class 1 the first
journal, within class 2 the first bank, after the one granted last, in cyclic order, of those with a
request that can be issued, and of it the first request, reads without room passed over; within
class 3 the oldest, Bank Status writes that wait for frame writes passed over: for those that the
bank had pending at the last request of its Bank Status, of which one is pending yet. Class 3
requests stand in the order of the ticks on which they were made, and those of one tick in the order
reply, Engine Status, Bank Status 0 to 3, Line Status 0 to 7: a request keeps that order, and a tick
makes all that wait older. (That a Bank Status write which carries a request comes behind the frame
writes pending at that request is log entry 18; its age counts from its first request, log entry 38;
the order of one requester's requests is log entry 15.) -/
def Obligations.ArbiterGrantsByClass : Prop :=
  (∀ (s : State) (c : Class3),
    s.port.class3.Pairwise (fun x y => x.2 = true → y.2 = true ∧ x.1.rank ≤ y.1.rank) →
    (s.requestClass3 c).port.class3.Pairwise
        (fun x y => x.2 = true → y.2 = true ∧ x.1.rank ≤ y.1.rank) ∧
      s.port.class3.Sublist (s.requestClass3 c).port.class3 ∧
      (∃ x ∈ (s.requestClass3 c).port.class3, x.1 = c) ∧
      ((∀ x ∈ s.port.class3, x.1 ≠ c) → (c, true) ∈ (s.requestClass3 c).port.class3)) ∧
  (∀ (s : State) (b : BankNo), s.engine.state = .on ∨ s.engine.state = .quiescing →
    (s.requestBankStatus b).port.statusAfter.get b = s.pendingWrites b ∧
      (∀ c, c ≠ b →
        (s.requestBankStatus b).port.statusAfter.get c = s.port.statusAfter.get c) ∧
      ∀ a, a ∈ s.pendingWrites b ↔
        (∃ r ∈ (s.bank b).fifo, (∃ sel code, r.acc = .state sel code ∧ a = r.acc) ∨
          ∃ sel stamp passes flags next, r.acc = .retire sel stamp passes flags next ∧
            (a = .retire sel stamp passes flags none ∨
              ∃ code, next = some code ∧ a = .state sel code)) ∨
        ∃ w ∈ s.port.writes, ∃ sel code, w.owner = .frameRetire b sel (some code) ∧
          a = .state sel code) ∧
  (∀ p : Port, (∀ x ∈ p.tick.class3, x.2 = false) ∧
    p.tick.class3.map Prod.fst = p.class3.map Prod.fst) ∧
  (Class3.reply.rank < Class3.engine.rank ∧
    (∀ b l, Class3.engine.rank < (Class3.bank b).rank ∧
      (Class3.bank b).rank < (Class3.line l).rank) ∧
    (∀ b c, b < c → (Class3.bank b).rank < (Class3.bank c).rank) ∧
    ∀ l m, l < m → (Class3.line l).rank < (Class3.line m).rank) ∧
  ∀ (s : State) (g : Grant), s.choose = some g →
    (((∃ j r, g = .journal j r ∧ r.isRead = true) ∨
        (∃ b a x y, g = .frame b a x y ∧ a.isWrite = false) ∨ (∃ o, g = .class4 o)) →
      s.port.reads.length < 4) ∧
    (((∃ j r, g = .journal j r ∧ r.isRead = false) ∨
        (∃ b a x y, g = .frame b a x y ∧ a.isWrite = true) ∨ (∃ c, g = .class3 c)) →
      s.port.writes.length < 8) ∧
    ((∃ b a x y, g = .frame b a x y) ∨ (∃ c, g = .class3 c) ∨
        (∃ o, g = .class4 o ∧ s.engine.state ≠ .booting) →
      ∀ j, s.journalOffer j = none) ∧
    ((∃ c, g = .class3 c) ∨ (∃ o, g = .class4 o ∧ s.engine.state ≠ .booting) →
      ∀ b, s.bankOffer b = none) ∧
    (∀ o, g = .class4 o → s.engine.state ≠ .booting → s.class3Offer = none) ∧
    (∀ j r, g = .journal j r →
      (∃ before after, (s.journal j).fifo = before ++ r :: after ∧
        ∀ x ∈ before, x.isRead = true ∧ 4 ≤ s.port.reads.length) ∧
      ∀ k : Fin 8, k < j - (s.port.lastJournal + 1) →
        s.journalOffer (s.port.lastJournal + 1 + k) = none) ∧
    (∀ b a x y, g = .frame b a x y →
      (∃ before after, (s.bank b).fifo.filter FrameReq.isOffered
          = before ++ ⟨a, .ready x y⟩ :: after ∧
        ∀ r ∈ before, r.acc.isWrite = false ∧ 4 ≤ s.port.reads.length) ∧
      ∀ k : Fin 4, k < b - (s.port.lastBank + 1) →
        s.bankOffer (s.port.lastBank + 1 + k) = none) ∧
    (∀ c, g = .class3 c → ∃ before fresh after, s.port.class3 = before ++ (c, fresh) :: after ∧
      ∀ x ∈ before, ∃ b, x.1 = .bank b ∧
        ∃ a ∈ s.port.statusAfter.get b, a ∈ s.pendingWrites b)

/-- What an issue stores: when its write lands, exactly its bytes, and every other byte that the
host did not write reads as before; when it is lost, none. The bytes of each record are in the
places of their fields: of Bank Status, Line Status, Engine Status, the produce and status words, a
frame's retire fields, an event record and a GAP record. (That an Anchor Block write and a write of
SPENT, SPENT_END or CUT answered ERROR never reach memory, while any other write answered ERROR may,
is log entry 17.) -/
def Obligations.GrantStoresOnlyItsBytes : Prop :=
  (∀ (host : List Host.Cell) (fate : Fate) (s t : State) (a : Nat),
    exec (.arbiterGrant host fate) s = .next t → (∀ c ∈ host, c.1 ≠ a) →
    (s.resetHeld = false → ∀ g x bs, (s.hostWrites host).choose = some g →
      (s.hostWrites host).stores g = some (x, bs) → ∀ k, k < bs.length → a ≠ (x + k) % 2 ^ 48) →
    t.memory.read a = s.memory.read a) ∧
  (∀ (host : List Host.Cell) (fate : Fate) (s t : State) (g : Grant) (x : Nat) (bs : List Byte),
    exec (.arbiterGrant host fate) s = .next t → s.resetHeld = false →
    (s.hostWrites host).choose = some g → (s.hostWrites host).stores g = some (x, bs) →
    bs.length ≤ 64 ∧
      (g.lands fate = true → ∀ k, k < bs.length →
        t.memory.read ((x + k) % 2 ^ 48) = byteAt bs k) ∧
      (g.lands fate = false → ∀ a, (∀ c ∈ host, c.1 ≠ a) →
        t.memory.read a = s.memory.read a)) ∧
  (∀ k : Bank, (bankStatusBytes k).length = 64 ∧
    byteAt (bankStatusBytes k) 0x00 = k.seq.plan.code ∧
    byteAt (bankStatusBytes k) 0x01 = k.seq.stopReason.code ∧
    byteAt (bankStatusBytes k) 0x02 = k.seq.tag.code ∧
    byteAt (bankStatusBytes k) 0x03 = (if k.gate.tripped then 1#8 else 0#8) ∧
    ((byteAt (bankStatusBytes k) 0x04).getLsbD 0 = k.gate.rearmPending) ∧
    ((byteAt (bankStatusBytes k) 0x04).getLsbD 1 = k.faults.report.isSome) ∧
    byteAt (bankStatusBytes k) 0x05 = k.faults.sticky.byte ∧
    fieldAt (bankStatusBytes k) 0x06 2 = k.faults.further.toNat ∧
    (k.seq.liveSel.isNull = false → selectorAt (bankStatusBytes k) 0x08 = k.seq.liveSel) ∧
    (k.seq.liveSel.isNull = true → selectorAt (bankStatusBytes k) 0x08 = .null) ∧
    fieldAt (bankStatusBytes k) 0x10 6 = k.seq.retired.toNat ∧
    fieldAt (bankStatusBytes k) 0x18 4 = k.gate.trips.toNat ∧
    (k.faults.report = none → ∀ n, 0x20 ≤ n → byteAt (bankStatusBytes k) n = 0#8) ∧
    ∀ r, k.faults.report = some r →
      byteAt (bankStatusBytes k) 0x20 = r.cls.code ∧
      byteAt (bankStatusBytes k) 0x21 = r.sub.code ∧
      byteAt (bankStatusBytes k) 0x22 = r.phase.code ∧
      byteAt (bankStatusBytes k) 0x23 = r.field ∧
      (r.sel.isNull = false → selectorAt (bankStatusBytes k) 0x28 = r.sel) ∧
      fieldAt (bankStatusBytes k) 0x30 6 = r.stamp.toNat) ∧
  (∀ x : Line, (lineStatusBytes x).length = 8 ∧
    (byteAt (lineStatusBytes x) 0).getLsbD 0 = x.loaded ∧
    (byteAt (lineStatusBytes x) 0).getLsbD 1 = x.high ∧
    (byteAt (lineStatusBytes x) 0).getLsbD 2 = x.armed ∧
    byteAt (lineStatusBytes x) 1 = x.cfg.mode.code ∧ byteAt (lineStatusBytes x) 2 = x.sequence ∧
    fieldAt (lineStatusBytes x) 4 2 = x.overruns.toNat) ∧
  (∀ (e : EngineState) (next : BitVec 16), (engineStatusBytes e next).length = 16 ∧
    byteAt (engineStatusBytes e next) 0 = e.code ∧
    fieldAt (engineStatusBytes e next) 2 2 = (next - 1#16).toNat) ∧
  (∀ (x : Journal) (v : BitVec 16), (produceWordBytes v).length = 8 ∧
    (statusWordBytes x).length = 8 ∧ fieldAt (produceWordBytes v) 0 2 = v.toNat ∧
    byteAt (statusWordBytes x) 0 = x.state.code ∧ byteAt (statusWordBytes x) 1 = x.fault.code ∧
    fieldAt (statusWordBytes x) 4 4 = x.missed.toNat) ∧
  (∀ (stamp : Stamp) (passes : BitVec 32) (flags : Byte),
    (retireBytes stamp passes flags).length = 16 ∧
    fieldAt (retireBytes stamp passes flags) 0 6 = stamp.toNat ∧
    fieldAt (retireBytes stamp passes flags) 8 4 = passes.toNat ∧
    byteAt (retireBytes stamp passes flags) 12 = flags) ∧
  (∀ e : Event, (eventRecord e).length = 16 ∧
    byteAt (eventRecord e) 0 = BitVec.ofNat 8 e.line.val ∧
    byteAt (eventRecord e) 1 = e.kind.code ∧ byteAt (eventRecord e) 2 = e.sequence ∧
    (byteAt (eventRecord e) 3).getLsbD 0 = e.saturated ∧
    (byteAt (eventRecord e) 3).getLsbD 1 = e.overrun ∧
    fieldAt (eventRecord e) 4 4 = e.value.toNat ∧
    fieldAt (eventRecord e) 8 6 = e.stamp.toNat) ∧
  ∀ (count : BitVec 32) (stamp : Stamp), (gapRecord count stamp).length = 16 ∧
    byteAt (gapRecord count stamp) 0 = 0xFF#8 ∧ byteAt (gapRecord count stamp) 1 = 0x04#8 ∧
    fieldAt (gapRecord count stamp) 4 4 = count.toNat ∧
    fieldAt (gapRecord count stamp) 8 6 = stamp.toNat

/-- A reply that is granted carries the sequence number, the tag, action and target of its request
and the result, in the entry of the sequence number modulo 16; the sequence number then advances and
an Engine Status write is requested. The issue of that write ends the request, so that the next word
can be taken. -/
def Obligations.ReplyCarriesItsFields : Prop :=
  (∀ (fate : Fate) (s : State), s.resetHeld = false → s.choose = some (.class3 .engine) →
    AnswersThen (.arbiterGrant [] fate) s fun t =>
      (∀ w, s.sweep.exec = some ⟨w, .status⟩ → t.sweep = { s.sweep with exec := none } ∧
        t.port.writes = s.port.writes ++ [⟨.engineStatus true, true, fate.isError⟩]) ∧
      ((∀ w, s.sweep.exec ≠ some ⟨w, .status⟩) → t.sweep = s.sweep ∧
        t.port.writes = s.port.writes ++ [⟨.engineStatus false, true, fate.isError⟩])) ∧
  ∀ (w : Word) (r : Result) (s : State), s.resetHeld = false →
    s.sweep.exec = some ⟨w, .replying r⟩ → s.choose = some (.class3 .reply) →
    AnswersThen (.arbiterGrant [] .ok) s fun t =>
      t.sweep.next = s.sweep.next + 1#16 ∧ t.sweep.exec = some ⟨w, .status⟩ ∧
        (∃ x ∈ t.port.class3, x.1 = .engine) ∧
        ∀ n v, n < 8 →
          [BitVec.ofNat 8 (s.sweep.next.toNat % 256), BitVec.ofNat 8 (s.sweep.next.toNat / 256),
            tag w, action w, target w, r.code, 0#8, 0#8][n]? = some v →
          t.memory.read ((s.engine.anchor.toNat + 0x3C0 + 8 * (s.sweep.next.toNat % 16) + n)
            % 2 ^ 48) = v

/-! ### Window checks -/

/-- The window check. Step 1: an index at or past the table count fails with INDEX, and no load is
made. A hit makes its entry the most recently used and is judged by presence, form, rights, limit
and domain in order, the first that fails naming the subcode; an access that passes all has the
address base + offset. A check keeps the cache to eight entries, and to one entry and one load for
each index. The check of a bank's request offers it at its address, or fails it at once, by a
descriptor that is cached; else the request waits on the load of its index, which is started when
none is in flight. (The places of a bank's requests are log entry 15; a frame at a write fault is
known by its selector, log entry 10; the domain of a frame write is the bank's when its check is
made, log entry 31; a load counts as in flight from its request, log entry 16.) -/
def Obligations.WindowCheckInOrder : Prop :=
  (∀ (s : State) (b : BankNo) (a : FrameAccess) (st : ReqStatus) (t : State),
    t = s.checkReq b ⟨a, st⟩ → s.BanksCoherent → ⟨a, st⟩ ∈ (s.bank b).fifo →
    (s.window.tableCount ≤ a.sel.index.toNat →
      s.AccessFails t b a .window .index ((s.bank b).fifo.erase ⟨a, st⟩)) ∧
    (∀ d, a.sel.index.toNat < s.window.tableCount →
      cacheFind a.sel.index s.window.cache = some d →
      (∀ addr, judgeDescriptor d (a.sel.offset.toNat + a.frameOffset) a.length a.isWrite
          (s.bank b).seq.domain = .pass addr →
        (t.bank b).fifo = placeReq ⟨a, .ready addr false⟩ ((s.bank b).fifo.erase ⟨a, st⟩) ∧
          (t.bank b).seq = (s.bank b).seq ∧ (t.bank b).faults = (s.bank b).faults) ∧
      ∀ sub, judgeDescriptor d (a.sel.offset.toNat + a.frameOffset) a.length a.isWrite
          (s.bank b).seq.domain = .fail sub →
        s.AccessFails t b a .window sub ((s.bank b).fifo.erase ⟨a, st⟩)) ∧
    (a.sel.index.toNat < s.window.tableCount → cacheFind a.sel.index s.window.cache = none →
      ⟨a, .waiting⟩ ∈ (t.bank b).fifo ∧ (t.bank b).seq = (s.bank b).seq ∧
        (t.bank b).faults = (s.bank b).faults ∧
        (∃ y ∈ t.window.loads, y.index = a.sel.index ∧ .bank b a ∈ y.waiters) ∧
        (loadFind a.sel.index s.window.loads = none →
          ⟨.load a.sel.index, .ready (s.window.tableAddr.toNat + 16 * a.sel.index.toNat) false⟩
            ∈ (t.bank b).fifo))) ∧
  (∀ (s : State) (q : Requester) (index : Byte) (offset length : Nat) (write : Bool)
      (domain : Byte),
    (s.WindowOk → (s.windowCheck q index offset length write domain).1.WindowOk) ∧
    (s.window.tableCount ≤ index.toNat →
      s.windowCheck q index offset length write domain = (s, .fail .index)) ∧
    (∀ d, index.toNat < s.window.tableCount → cacheFind index s.window.cache = some d →
      (s.windowCheck q index offset length write domain).1.window.cache.head? = some (index, d) ∧
      (s.windowCheck q index offset length write domain).2
        = judgeDescriptor d offset length write domain)) ∧
  (∀ (d : Descriptor) (offset length : Nat) (write : Bool) (domain : Byte),
    (d.present = false → judgeDescriptor d offset length write domain = .fail .absent) ∧
    (d.present = true → (d.base % 8 ≠ 0 ∨ 3 < d.ceiling.toNat) →
      judgeDescriptor d offset length write domain = .fail .badDescriptor) ∧
    (d.present = true → d.base % 8 = 0 → d.ceiling.toNat ≤ 3 →
      (if write then d.canWrite else d.canRead) = false →
      judgeDescriptor d offset length write domain = .fail .rights) ∧
    (d.present = true → d.base % 8 = 0 → d.ceiling.toNat ≤ 3 →
      (if write then d.canWrite else d.canRead) = true →
      (2 ^ 32 < offset + length ∨ d.limit + 1 < offset + length ∨
        2 ^ 48 < d.base + offset + length) →
      judgeDescriptor d offset length write domain = .fail .limit) ∧
    (d.present = true → d.base % 8 = 0 → d.ceiling.toNat ≤ 3 →
      (if write then d.canWrite else d.canRead) = true → offset + length ≤ 2 ^ 32 →
      offset + length ≤ d.limit + 1 → d.base + offset + length ≤ 2 ^ 48 →
      judgeDescriptor d offset length write domain =
        if d.ceiling.toNat < domain.toNat then .fail .domain else .pass (d.base + offset)))

/-! ### What stays as it was -/

/-- Every command but those of the register window, of Engine Control, of the reset pin and of the
port's issue leaves memory, the waiting commands, Engine Control with its registers CONTROL,
ANCHOR_LO and ANCHOR_HI, CAUSE_ENABLE, the timebase with TICK_LO and TICK_HI, and the capture pins
as they were. (Of the other registers, CAUSE and SWEEP can change: such a command can set a cause
bit, and takes or ends a request.) -/
def Obligations.InnerCommandsKeepTheWorld : Prop :=
  ∀ (c : Instr) (s t : State), innerCommand c = true → exec c s = .next t → WorldKept s t

/-- While no close is in progress, the commands that act on banks leave every line and every journal
as it was. -/
def Obligations.BankCommandsKeepLinesAndJournals : Prop :=
  ∀ (c : Instr) (s t : State), bankCommand c = true → (∀ j, (s.journal j).closing = false) →
    exec c s = .next t → t.lines = s.lines ∧ t.journals = s.journals

/-- The end of a step. It leaves memory, the waiting commands, Engine Control with its registers
CONTROL, ANCHOR_LO and ANCHOR_HI, CAUSE_ENABLE, the timebase with TICK_LO and TICK_HI, the capture
pins and the sweep queue as they were (it can set cause bits), and a bank that holds nothing and is
DORMANT or HALTED in its plan state with all its Plan Sequencer holds. It makes the window checks
that are due, and then lets the closes go on, one at a time (log entry 26); that the checks of the
writes an event requests come after the whole event is the model's choice, log entry 45. Every step
that can move a bank or answer a request, with checks and closes or without, then requests the Bank
Status of each bank of which something that Bank Status shows has changed, while the engine is ON or
QUIESCING. A request that has its answer has its reply offered once all that the reply waits for is
issued, and not before. (That the reply of a BANK_LOOK waits no more for a read that is struck or
fails its window check before its issue is the model's choice, log entry 44.) -/
def Obligations.ConcludeKeepsEndedBanks : Prop :=
  ∀ (before s u : State), u = before.conclude s →
    WorldKept s u ∧ u.sweep.queue = s.sweep.queue ∧
    (∀ b, ((s.bank b).seq.plan = .dormant ∨ (s.bank b).seq.plan = .halted) → (s.bank b).seq.Bare →
      (u.bank b).seq = (s.bank b).seq) ∧
    (u.banks = (settle settleRounds s).banks ∧ u.lines = (settle settleRounds s).lines ∧
      u.journals = (settle settleRounds s).journals ∧
      u.window = (settle settleRounds s).window) ∧
    (∀ n b r, s.bankToCheck = some b → (s.bank b).toCheck = some r →
      settle (n + 1) s = settle n (s.checkReq b r)) ∧
    (∀ n j, (∀ b, (s.bank b).toCheck = none) → s.journalToClose = some j →
      settle (n + 1) s = settle n (s.continueClose j)) ∧
    (∀ n, (∀ b, (s.bank b).toCheck = none) → s.journalToClose = none → settle n s = s) ∧
    (∀ j, s.closeReady j = true → s.CloseGoesOn (s.continueClose j) j) ∧
    before.StatusesAsked u ∧ s.ReplyOffered u ∧
    ∀ v, v = before.concludeLight s →
      (v.banks = s.banks ∧ v.lines = s.lines ∧ v.journals = s.journals ∧ v.window = s.window ∧
        WorldKept s v ∧ v.sweep.queue = s.sweep.queue) ∧
      before.StatusesAsked v ∧ s.ReplyOffered v

/-- No command refuses, and the only fault is that of a host write outside the address space. (A
command whose event is not possible answers its state unchanged: the model's choice, log entry 3; the
host writes are its operand by log entry 7.) -/
def Obligations.NothingElseStops : Prop :=
  ∀ (c : Instr) (s : State),
    (∃ t, exec c s = .next t) ∨
      ∃ host fate a, c = .arbiterGrant host fate ∧ (∃ x ∈ host, 2 ^ 48 ≤ x.1) ∧
        exec c s = .fault (.hostAddress a)

/-! ### Invariants -/

/-- All that the next statements say of every step holds right after reset. -/
def Obligations.InvariantsHoldAtReset : Prop :=
  State.reset.MemoryOk ∧ State.reset.PortOk ∧ State.reset.QueueOk ∧ State.reset.PinsOk ∧
    State.reset.RingsOk ∧ State.reset.BanksCoherent ∧ State.reset.WindowOk

/-- Memory stays in its canonical form: addresses strictly rising, no byte listed that equals what an
unlisted address reads as. (The form is the model's own, and so is what an unlisted address reads as:
log entry 2; the spec's section 9.5 gives the address space and that writes reach it.) -/
def Obligations.StepKeepsMemoryCanonical : Prop :=
  ∀ s t : State, s.MemoryOk → step s = .next t → t.MemoryOk

/-- At most 4 reads are outstanding and at most 8 writes await their responses; the sweep queue
holds at most 4 words, no two of them identical, and none unless the engine is ON; the window cache
holds at most eight entries, a window index at most once, and at most one descriptor load is in
flight for an index. -/
def Obligations.StepKeepsPortAndQueueBounds : Prop :=
  (∀ s t : State, s.PortOk → step s = .next t → t.PortOk) ∧
    (∀ s t : State, s.QueueOk → step s = .next t → t.QueueOk) ∧
    ∀ s t : State, s.WindowOk → step s = .next t → t.WindowOk

/-- R62: the two pins of a pair are never both driven ON. Every step keeps it that a pin driven ON
has a desired level of ON and that the two desired levels of a pair, its two rest levels and its two
trip levels are never both ON. The desired levels of a pair come from one source at a time; under the
waveform the partner desires the inverse of the primary's reference, or OFF, and in OFF mode both
desire OFF; a record whose rest or trip levels name both pins of a pair is refused; and a pin whose
desired level falls is driven OFF at once. -/
def Obligations.PairsAreNeverBothOn : Prop :=
  (∀ s t : State, s.PinsOk → step s = .next t → t.PinsOk) ∧
    (∀ s : State, s.PinsOk → ∀ b c, ¬ ((s.bank b).wave.pins.get c).shortCircuit) ∧
    (∀ (k : Bank) (c : ChanNo), k.seq.started = true →
      ((k.refreshPins.wave.pins.get c).primary.desired,
        (k.refreshPins.wave.pins.get c).partner.desired) =
        if k.gate.tripped then ((k.wave.pins.get c).primary.trip, (k.wave.pins.get c).partner.trip)
        else if k.seq.plan.isRunning then
          (k.seq.settings.get c).desires (k.wave.lastRef.get c)
        else ((k.wave.pins.get c).primary.rest, (k.wave.pins.get c).partner.rest)) ∧
    (∀ (x : ChanSetting) (ref : Bool), x.mode = .off → x.desires ref = (false, false)) ∧
    (∀ (x : ChanSetting) (ref : Bool), x.mode ≠ .off →
      x.desires ref = (ref, if x.partner then !ref else false)) ∧
    (∀ (r : BankRecord) (c : ChanNo),
      (pinBit r.rest c false && pinBit r.rest c true) = true ∨
        (pinBit r.trip c false && pinBit r.trip c true) = true → r.check = none) ∧
    (∀ (p : Pin) (desired : Bool) (dead : Nat),
      ((p.resolve desired dead).drive = .on → desired = true) ∧
        (desired = false → (p.resolve desired dead).drive = .off))

/-- The unconsumed records of an OPEN journal, with those its step still writes, stay within its
capacity; a journal that is not OPEN has no step. -/
def Obligations.StepKeepsRingsWithinCapacity : Prop :=
  ∀ s t : State, s.RingsOk → step s = .next t → t.RingsOk

/-- What a plan state fixes of the live and staged frames, the tag, the latch, the fetch, the link
read and the pending stop stays so at every step of every bank. -/
def Obligations.StepKeepsBanksCoherent : Prop :=
  ∀ s t : State, s.BanksCoherent → step s = .next t → t.BanksCoherent

end
end

