-- ==== Sys2Proof/Laws/State.lean ====
section
/-! SUPPORT. One lemma per field of State per update of it, and reading back what was set. -/

namespace Sys2Proof

theorem Quad.get_set_same {α : Type} (q : Quad α) (i : Fin 4) (a : α) : (q.set i a).get i = a := by
  fin_cases i <;> rfl

theorem Quad.get_set_ne {α : Type} (q : Quad α) {i j : Fin 4} (a : α) (h : j ≠ i) :
    (q.set i a).get j = q.get j := by
  fin_cases i <;> fin_cases j <;> first | rfl | exact absurd rfl h

theorem Oct.get_set_same {α : Type} (q : Oct α) (i : Fin 8) (a : α) : (q.set i a).get i = a := by
  fin_cases i <;> rfl

theorem Oct.get_set_ne {α : Type} (q : Oct α) {i j : Fin 8} (a : α) (h : j ≠ i) :
    (q.set i a).get j = q.get j := by
  fin_cases i <;> fin_cases j <;> first | rfl | exact absurd rfl h

theorem Quad.get_map {α β : Type} (f : α → β) (q : Quad α) (i : Fin 4) :
    (q.map f).get i = f (q.get i) := by
  fin_cases i <;> rfl

theorem Oct.get_map {α β : Type} (f : α → β) (q : Oct α) (i : Fin 8) :
    (q.map f).get i = f (q.get i) := by
  fin_cases i <;> rfl

theorem Quad.get_all {α : Type} (a : α) (i : Fin 4) : (Quad.all a).get i = a := by
  fin_cases i <;> rfl

theorem Oct.get_all {α : Type} (a : α) (i : Fin 8) : (Oct.all a).get i = a := by
  fin_cases i <;> rfl

namespace Machine

/-! ### Reading back -/

@[simp] theorem bank_setBank_same (s : State) (b : BankNo) (k : Bank) : (s.setBank b k).bank b = k :=
  Quad.get_set_same _ _ _

theorem bank_setBank_ne (s : State) {b c : BankNo} (k : Bank) (h : c ≠ b) :
    (s.setBank b k).bank c = s.bank c := Quad.get_set_ne _ _ h

@[simp] theorem line_setLine_same (s : State) (l : LineNo) (x : Line) : (s.setLine l x).line l = x :=
  Oct.get_set_same _ _ _

theorem line_setLine_ne (s : State) {l m : LineNo} (x : Line) (h : m ≠ l) :
    (s.setLine l x).line m = s.line m := Oct.get_set_ne _ _ h

@[simp] theorem journal_setJournal_same (s : State) (j : JournalNo) (x : Journal) :
    (s.setJournal j x).journal j = x := Oct.get_set_same _ _ _

theorem journal_setJournal_ne (s : State) {j i : JournalNo} (x : Journal) (h : i ≠ j) :
    (s.setJournal j x).journal i = s.journal i := Oct.get_set_ne _ _ h

@[simp] theorem bank_modBank_same (s : State) (b : BankNo) (f : Bank → Bank) :
    (s.modBank b f).bank b = f (s.bank b) := Quad.get_set_same _ _ _

theorem bank_modBank_ne (s : State) {b c : BankNo} (f : Bank → Bank) (h : c ≠ b) :
    (s.modBank b f).bank c = s.bank c := Quad.get_set_ne _ _ h

@[simp] theorem bank_modSeq_same (s : State) (b : BankNo) (f : Sequencer → Sequencer) :
    (s.modSeq b f).bank b = { s.bank b with seq := f (s.bank b).seq } := Quad.get_set_same _ _ _

theorem bank_modSeq_ne (s : State) {b c : BankNo} (f : Sequencer → Sequencer) (h : c ≠ b) :
    (s.modSeq b f).bank c = s.bank c := Quad.get_set_ne _ _ h

@[simp] theorem bank_modWave_same (s : State) (b : BankNo) (f : Waveform → Waveform) :
    (s.modWave b f).bank b = { s.bank b with wave := f (s.bank b).wave } := Quad.get_set_same _ _ _

theorem bank_modWave_ne (s : State) {b c : BankNo} (f : Waveform → Waveform) (h : c ≠ b) :
    (s.modWave b f).bank c = s.bank c := Quad.get_set_ne _ _ h

@[simp] theorem bank_modGate_same (s : State) (b : BankNo) (f : Gate → Gate) :
    (s.modGate b f).bank b = { s.bank b with gate := f (s.bank b).gate } := Quad.get_set_same _ _ _

theorem bank_modGate_ne (s : State) {b c : BankNo} (f : Gate → Gate) (h : c ≠ b) :
    (s.modGate b f).bank c = s.bank c := Quad.get_set_ne _ _ h

@[simp] theorem bank_modFaults_same (s : State) (b : BankNo) (f : FaultLogic → FaultLogic) :
    (s.modFaults b f).bank b = { s.bank b with faults := f (s.bank b).faults } :=
  Quad.get_set_same _ _ _

theorem bank_modFaults_ne (s : State) {b c : BankNo} (f : FaultLogic → FaultLogic) (h : c ≠ b) :
    (s.modFaults b f).bank c = s.bank c := Quad.get_set_ne _ _ h

@[simp] theorem line_modLine_same (s : State) (l : LineNo) (f : Line → Line) :
    (s.modLine l f).line l = f (s.line l) := Oct.get_set_same _ _ _

theorem line_modLine_ne (s : State) {l m : LineNo} (f : Line → Line) (h : m ≠ l) :
    (s.modLine l f).line m = s.line m := Oct.get_set_ne _ _ h

@[simp] theorem journal_modJournal_same (s : State) (j : JournalNo) (f : Journal → Journal) :
    (s.modJournal j f).journal j = f (s.journal j) := Oct.get_set_same _ _ _

theorem journal_modJournal_ne (s : State) {j i : JournalNo} (f : Journal → Journal) (h : i ≠ j) :
    (s.modJournal j f).journal i = s.journal i := Oct.get_set_ne _ _ h

@[simp] theorem port_modPort_eq (s : State) (f : Port → Port) : (s.modPort f).port = f s.port := rfl

@[simp] theorem sweep_modSweep_eq (s : State) (f : Sweep → Sweep) :
    (s.modSweep f).sweep = f s.sweep := rfl

@[simp] theorem window_modWindow_eq (s : State) (f : WindowUnit → WindowUnit) :
    (s.modWindow f).window = f s.window := rfl

@[simp] theorem cause_raise_eq (s : State) (n : Nat) :
    (s.raise n).cause = s.cause ||| (1#16 <<< n) := rfl

/-! ### setBank -/

@[simp] theorem pending_setBank (s : State) (b : BankNo) (k : Bank) :
    (s.setBank b k).pending = s.pending := rfl
@[simp] theorem resetHeld_setBank (s : State) (b : BankNo) (k : Bank) :
    (s.setBank b k).resetHeld = s.resetHeld := rfl
@[simp] theorem engine_setBank (s : State) (b : BankNo) (k : Bank) :
    (s.setBank b k).engine = s.engine := rfl
@[simp] theorem now_setBank (s : State) (b : BankNo) (k : Bank) : (s.setBank b k).now = s.now := rfl
@[simp] theorem tickHi_setBank (s : State) (b : BankNo) (k : Bank) :
    (s.setBank b k).tickHi = s.tickHi := rfl
@[simp] theorem cause_setBank (s : State) (b : BankNo) (k : Bank) :
    (s.setBank b k).cause = s.cause := rfl
@[simp] theorem causeEnable_setBank (s : State) (b : BankNo) (k : Bank) :
    (s.setBank b k).causeEnable = s.causeEnable := rfl
@[simp] theorem readData_setBank (s : State) (b : BankNo) (k : Bank) :
    (s.setBank b k).readData = s.readData := rfl
@[simp] theorem sweep_setBank (s : State) (b : BankNo) (k : Bank) :
    (s.setBank b k).sweep = s.sweep := rfl
@[simp] theorem lines_setBank (s : State) (b : BankNo) (k : Bank) :
    (s.setBank b k).lines = s.lines := rfl
@[simp] theorem journals_setBank (s : State) (b : BankNo) (k : Bank) :
    (s.setBank b k).journals = s.journals := rfl
@[simp] theorem window_setBank (s : State) (b : BankNo) (k : Bank) :
    (s.setBank b k).window = s.window := rfl
@[simp] theorem port_setBank (s : State) (b : BankNo) (k : Bank) :
    (s.setBank b k).port = s.port := rfl
@[simp] theorem pinsNow_setBank (s : State) (b : BankNo) (k : Bank) :
    (s.setBank b k).pinsNow = s.pinsNow := rfl
@[simp] theorem pinsAgo1_setBank (s : State) (b : BankNo) (k : Bank) :
    (s.setBank b k).pinsAgo1 = s.pinsAgo1 := rfl
@[simp] theorem pinsAgo2_setBank (s : State) (b : BankNo) (k : Bank) :
    (s.setBank b k).pinsAgo2 = s.pinsAgo2 := rfl
@[simp] theorem pinScript_setBank (s : State) (b : BankNo) (k : Bank) :
    (s.setBank b k).pinScript = s.pinScript := rfl
@[simp] theorem memory_setBank (s : State) (b : BankNo) (k : Bank) :
    (s.setBank b k).memory = s.memory := rfl
@[simp] theorem freeCount_setBank (s : State) (b : BankNo) (k : Bank) :
    (s.setBank b k).freeCount = s.freeCount := rfl
@[simp] theorem line_setBank (s : State) (b : BankNo) (k : Bank) (m : LineNo) :
    (s.setBank b k).line m = s.line m := rfl
@[simp] theorem journal_setBank (s : State) (b : BankNo) (k : Bank) (i : JournalNo) :
    (s.setBank b k).journal i = s.journal i := rfl

/-! ### setLine -/

@[simp] theorem pending_setLine (s : State) (l : LineNo) (x : Line) :
    (s.setLine l x).pending = s.pending := rfl
@[simp] theorem resetHeld_setLine (s : State) (l : LineNo) (x : Line) :
    (s.setLine l x).resetHeld = s.resetHeld := rfl
@[simp] theorem engine_setLine (s : State) (l : LineNo) (x : Line) :
    (s.setLine l x).engine = s.engine := rfl
@[simp] theorem now_setLine (s : State) (l : LineNo) (x : Line) : (s.setLine l x).now = s.now := rfl
@[simp] theorem tickHi_setLine (s : State) (l : LineNo) (x : Line) :
    (s.setLine l x).tickHi = s.tickHi := rfl
@[simp] theorem cause_setLine (s : State) (l : LineNo) (x : Line) :
    (s.setLine l x).cause = s.cause := rfl
@[simp] theorem causeEnable_setLine (s : State) (l : LineNo) (x : Line) :
    (s.setLine l x).causeEnable = s.causeEnable := rfl
@[simp] theorem readData_setLine (s : State) (l : LineNo) (x : Line) :
    (s.setLine l x).readData = s.readData := rfl
@[simp] theorem sweep_setLine (s : State) (l : LineNo) (x : Line) :
    (s.setLine l x).sweep = s.sweep := rfl
@[simp] theorem banks_setLine (s : State) (l : LineNo) (x : Line) :
    (s.setLine l x).banks = s.banks := rfl
@[simp] theorem journals_setLine (s : State) (l : LineNo) (x : Line) :
    (s.setLine l x).journals = s.journals := rfl
@[simp] theorem window_setLine (s : State) (l : LineNo) (x : Line) :
    (s.setLine l x).window = s.window := rfl
@[simp] theorem port_setLine (s : State) (l : LineNo) (x : Line) :
    (s.setLine l x).port = s.port := rfl
@[simp] theorem pinsNow_setLine (s : State) (l : LineNo) (x : Line) :
    (s.setLine l x).pinsNow = s.pinsNow := rfl
@[simp] theorem pinsAgo1_setLine (s : State) (l : LineNo) (x : Line) :
    (s.setLine l x).pinsAgo1 = s.pinsAgo1 := rfl
@[simp] theorem pinsAgo2_setLine (s : State) (l : LineNo) (x : Line) :
    (s.setLine l x).pinsAgo2 = s.pinsAgo2 := rfl
@[simp] theorem pinScript_setLine (s : State) (l : LineNo) (x : Line) :
    (s.setLine l x).pinScript = s.pinScript := rfl
@[simp] theorem memory_setLine (s : State) (l : LineNo) (x : Line) :
    (s.setLine l x).memory = s.memory := rfl
@[simp] theorem freeCount_setLine (s : State) (l : LineNo) (x : Line) :
    (s.setLine l x).freeCount = s.freeCount := rfl
@[simp] theorem bank_setLine (s : State) (l : LineNo) (x : Line) (c : BankNo) :
    (s.setLine l x).bank c = s.bank c := rfl
@[simp] theorem journal_setLine (s : State) (l : LineNo) (x : Line) (i : JournalNo) :
    (s.setLine l x).journal i = s.journal i := rfl

/-! ### setJournal -/

@[simp] theorem pending_setJournal (s : State) (j : JournalNo) (x : Journal) :
    (s.setJournal j x).pending = s.pending := rfl
@[simp] theorem resetHeld_setJournal (s : State) (j : JournalNo) (x : Journal) :
    (s.setJournal j x).resetHeld = s.resetHeld := rfl
@[simp] theorem engine_setJournal (s : State) (j : JournalNo) (x : Journal) :
    (s.setJournal j x).engine = s.engine := rfl
@[simp] theorem now_setJournal (s : State) (j : JournalNo) (x : Journal) :
    (s.setJournal j x).now = s.now := rfl
@[simp] theorem tickHi_setJournal (s : State) (j : JournalNo) (x : Journal) :
    (s.setJournal j x).tickHi = s.tickHi := rfl
@[simp] theorem cause_setJournal (s : State) (j : JournalNo) (x : Journal) :
    (s.setJournal j x).cause = s.cause := rfl
@[simp] theorem causeEnable_setJournal (s : State) (j : JournalNo) (x : Journal) :
    (s.setJournal j x).causeEnable = s.causeEnable := rfl
@[simp] theorem readData_setJournal (s : State) (j : JournalNo) (x : Journal) :
    (s.setJournal j x).readData = s.readData := rfl
@[simp] theorem sweep_setJournal (s : State) (j : JournalNo) (x : Journal) :
    (s.setJournal j x).sweep = s.sweep := rfl
@[simp] theorem banks_setJournal (s : State) (j : JournalNo) (x : Journal) :
    (s.setJournal j x).banks = s.banks := rfl
@[simp] theorem lines_setJournal (s : State) (j : JournalNo) (x : Journal) :
    (s.setJournal j x).lines = s.lines := rfl
@[simp] theorem window_setJournal (s : State) (j : JournalNo) (x : Journal) :
    (s.setJournal j x).window = s.window := rfl
@[simp] theorem port_setJournal (s : State) (j : JournalNo) (x : Journal) :
    (s.setJournal j x).port = s.port := rfl
@[simp] theorem pinsNow_setJournal (s : State) (j : JournalNo) (x : Journal) :
    (s.setJournal j x).pinsNow = s.pinsNow := rfl
@[simp] theorem pinsAgo1_setJournal (s : State) (j : JournalNo) (x : Journal) :
    (s.setJournal j x).pinsAgo1 = s.pinsAgo1 := rfl
@[simp] theorem pinsAgo2_setJournal (s : State) (j : JournalNo) (x : Journal) :
    (s.setJournal j x).pinsAgo2 = s.pinsAgo2 := rfl
@[simp] theorem pinScript_setJournal (s : State) (j : JournalNo) (x : Journal) :
    (s.setJournal j x).pinScript = s.pinScript := rfl
@[simp] theorem memory_setJournal (s : State) (j : JournalNo) (x : Journal) :
    (s.setJournal j x).memory = s.memory := rfl
@[simp] theorem freeCount_setJournal (s : State) (j : JournalNo) (x : Journal) :
    (s.setJournal j x).freeCount = s.freeCount := rfl
@[simp] theorem bank_setJournal (s : State) (j : JournalNo) (x : Journal) (c : BankNo) :
    (s.setJournal j x).bank c = s.bank c := rfl
@[simp] theorem line_setJournal (s : State) (j : JournalNo) (x : Journal) (m : LineNo) :
    (s.setJournal j x).line m = s.line m := rfl

/-! ### modBank -/

@[simp] theorem pending_modBank (s : State) (b : BankNo) (f : Bank → Bank) :
    (s.modBank b f).pending = s.pending := rfl
@[simp] theorem resetHeld_modBank (s : State) (b : BankNo) (f : Bank → Bank) :
    (s.modBank b f).resetHeld = s.resetHeld := rfl
@[simp] theorem engine_modBank (s : State) (b : BankNo) (f : Bank → Bank) :
    (s.modBank b f).engine = s.engine := rfl
@[simp] theorem now_modBank (s : State) (b : BankNo) (f : Bank → Bank) :
    (s.modBank b f).now = s.now := rfl
@[simp] theorem tickHi_modBank (s : State) (b : BankNo) (f : Bank → Bank) :
    (s.modBank b f).tickHi = s.tickHi := rfl
@[simp] theorem cause_modBank (s : State) (b : BankNo) (f : Bank → Bank) :
    (s.modBank b f).cause = s.cause := rfl
@[simp] theorem causeEnable_modBank (s : State) (b : BankNo) (f : Bank → Bank) :
    (s.modBank b f).causeEnable = s.causeEnable := rfl
@[simp] theorem readData_modBank (s : State) (b : BankNo) (f : Bank → Bank) :
    (s.modBank b f).readData = s.readData := rfl
@[simp] theorem sweep_modBank (s : State) (b : BankNo) (f : Bank → Bank) :
    (s.modBank b f).sweep = s.sweep := rfl
@[simp] theorem lines_modBank (s : State) (b : BankNo) (f : Bank → Bank) :
    (s.modBank b f).lines = s.lines := rfl
@[simp] theorem journals_modBank (s : State) (b : BankNo) (f : Bank → Bank) :
    (s.modBank b f).journals = s.journals := rfl
@[simp] theorem window_modBank (s : State) (b : BankNo) (f : Bank → Bank) :
    (s.modBank b f).window = s.window := rfl
@[simp] theorem port_modBank (s : State) (b : BankNo) (f : Bank → Bank) :
    (s.modBank b f).port = s.port := rfl
@[simp] theorem pinsNow_modBank (s : State) (b : BankNo) (f : Bank → Bank) :
    (s.modBank b f).pinsNow = s.pinsNow := rfl
@[simp] theorem pinsAgo1_modBank (s : State) (b : BankNo) (f : Bank → Bank) :
    (s.modBank b f).pinsAgo1 = s.pinsAgo1 := rfl
@[simp] theorem pinsAgo2_modBank (s : State) (b : BankNo) (f : Bank → Bank) :
    (s.modBank b f).pinsAgo2 = s.pinsAgo2 := rfl
@[simp] theorem pinScript_modBank (s : State) (b : BankNo) (f : Bank → Bank) :
    (s.modBank b f).pinScript = s.pinScript := rfl
@[simp] theorem memory_modBank (s : State) (b : BankNo) (f : Bank → Bank) :
    (s.modBank b f).memory = s.memory := rfl
@[simp] theorem freeCount_modBank (s : State) (b : BankNo) (f : Bank → Bank) :
    (s.modBank b f).freeCount = s.freeCount := rfl
@[simp] theorem line_modBank (s : State) (b : BankNo) (f : Bank → Bank) (m : LineNo) :
    (s.modBank b f).line m = s.line m := rfl
@[simp] theorem journal_modBank (s : State) (b : BankNo) (f : Bank → Bank) (i : JournalNo) :
    (s.modBank b f).journal i = s.journal i := rfl

/-! ### modSeq -/

@[simp] theorem pending_modSeq (s : State) (b : BankNo) (f : Sequencer → Sequencer) :
    (s.modSeq b f).pending = s.pending := rfl
@[simp] theorem resetHeld_modSeq (s : State) (b : BankNo) (f : Sequencer → Sequencer) :
    (s.modSeq b f).resetHeld = s.resetHeld := rfl
@[simp] theorem engine_modSeq (s : State) (b : BankNo) (f : Sequencer → Sequencer) :
    (s.modSeq b f).engine = s.engine := rfl
@[simp] theorem now_modSeq (s : State) (b : BankNo) (f : Sequencer → Sequencer) :
    (s.modSeq b f).now = s.now := rfl
@[simp] theorem tickHi_modSeq (s : State) (b : BankNo) (f : Sequencer → Sequencer) :
    (s.modSeq b f).tickHi = s.tickHi := rfl
@[simp] theorem cause_modSeq (s : State) (b : BankNo) (f : Sequencer → Sequencer) :
    (s.modSeq b f).cause = s.cause := rfl
@[simp] theorem causeEnable_modSeq (s : State) (b : BankNo) (f : Sequencer → Sequencer) :
    (s.modSeq b f).causeEnable = s.causeEnable := rfl
@[simp] theorem readData_modSeq (s : State) (b : BankNo) (f : Sequencer → Sequencer) :
    (s.modSeq b f).readData = s.readData := rfl
@[simp] theorem sweep_modSeq (s : State) (b : BankNo) (f : Sequencer → Sequencer) :
    (s.modSeq b f).sweep = s.sweep := rfl
@[simp] theorem lines_modSeq (s : State) (b : BankNo) (f : Sequencer → Sequencer) :
    (s.modSeq b f).lines = s.lines := rfl
@[simp] theorem journals_modSeq (s : State) (b : BankNo) (f : Sequencer → Sequencer) :
    (s.modSeq b f).journals = s.journals := rfl
@[simp] theorem window_modSeq (s : State) (b : BankNo) (f : Sequencer → Sequencer) :
    (s.modSeq b f).window = s.window := rfl
@[simp] theorem port_modSeq (s : State) (b : BankNo) (f : Sequencer → Sequencer) :
    (s.modSeq b f).port = s.port := rfl
@[simp] theorem pinsNow_modSeq (s : State) (b : BankNo) (f : Sequencer → Sequencer) :
    (s.modSeq b f).pinsNow = s.pinsNow := rfl
@[simp] theorem pinsAgo1_modSeq (s : State) (b : BankNo) (f : Sequencer → Sequencer) :
    (s.modSeq b f).pinsAgo1 = s.pinsAgo1 := rfl
@[simp] theorem pinsAgo2_modSeq (s : State) (b : BankNo) (f : Sequencer → Sequencer) :
    (s.modSeq b f).pinsAgo2 = s.pinsAgo2 := rfl
@[simp] theorem pinScript_modSeq (s : State) (b : BankNo) (f : Sequencer → Sequencer) :
    (s.modSeq b f).pinScript = s.pinScript := rfl
@[simp] theorem memory_modSeq (s : State) (b : BankNo) (f : Sequencer → Sequencer) :
    (s.modSeq b f).memory = s.memory := rfl
@[simp] theorem freeCount_modSeq (s : State) (b : BankNo) (f : Sequencer → Sequencer) :
    (s.modSeq b f).freeCount = s.freeCount := rfl
@[simp] theorem line_modSeq (s : State) (b : BankNo) (f : Sequencer → Sequencer) (m : LineNo) :
    (s.modSeq b f).line m = s.line m := rfl
@[simp] theorem journal_modSeq (s : State) (b : BankNo) (f : Sequencer → Sequencer) (i : JournalNo) :
    (s.modSeq b f).journal i = s.journal i := rfl

/-! ### modWave -/

@[simp] theorem pending_modWave (s : State) (b : BankNo) (f : Waveform → Waveform) :
    (s.modWave b f).pending = s.pending := rfl
@[simp] theorem resetHeld_modWave (s : State) (b : BankNo) (f : Waveform → Waveform) :
    (s.modWave b f).resetHeld = s.resetHeld := rfl
@[simp] theorem engine_modWave (s : State) (b : BankNo) (f : Waveform → Waveform) :
    (s.modWave b f).engine = s.engine := rfl
@[simp] theorem now_modWave (s : State) (b : BankNo) (f : Waveform → Waveform) :
    (s.modWave b f).now = s.now := rfl
@[simp] theorem tickHi_modWave (s : State) (b : BankNo) (f : Waveform → Waveform) :
    (s.modWave b f).tickHi = s.tickHi := rfl
@[simp] theorem cause_modWave (s : State) (b : BankNo) (f : Waveform → Waveform) :
    (s.modWave b f).cause = s.cause := rfl
@[simp] theorem causeEnable_modWave (s : State) (b : BankNo) (f : Waveform → Waveform) :
    (s.modWave b f).causeEnable = s.causeEnable := rfl
@[simp] theorem readData_modWave (s : State) (b : BankNo) (f : Waveform → Waveform) :
    (s.modWave b f).readData = s.readData := rfl
@[simp] theorem sweep_modWave (s : State) (b : BankNo) (f : Waveform → Waveform) :
    (s.modWave b f).sweep = s.sweep := rfl
@[simp] theorem lines_modWave (s : State) (b : BankNo) (f : Waveform → Waveform) :
    (s.modWave b f).lines = s.lines := rfl
@[simp] theorem journals_modWave (s : State) (b : BankNo) (f : Waveform → Waveform) :
    (s.modWave b f).journals = s.journals := rfl
@[simp] theorem window_modWave (s : State) (b : BankNo) (f : Waveform → Waveform) :
    (s.modWave b f).window = s.window := rfl
@[simp] theorem port_modWave (s : State) (b : BankNo) (f : Waveform → Waveform) :
    (s.modWave b f).port = s.port := rfl
@[simp] theorem pinsNow_modWave (s : State) (b : BankNo) (f : Waveform → Waveform) :
    (s.modWave b f).pinsNow = s.pinsNow := rfl
@[simp] theorem pinsAgo1_modWave (s : State) (b : BankNo) (f : Waveform → Waveform) :
    (s.modWave b f).pinsAgo1 = s.pinsAgo1 := rfl
@[simp] theorem pinsAgo2_modWave (s : State) (b : BankNo) (f : Waveform → Waveform) :
    (s.modWave b f).pinsAgo2 = s.pinsAgo2 := rfl
@[simp] theorem pinScript_modWave (s : State) (b : BankNo) (f : Waveform → Waveform) :
    (s.modWave b f).pinScript = s.pinScript := rfl
@[simp] theorem memory_modWave (s : State) (b : BankNo) (f : Waveform → Waveform) :
    (s.modWave b f).memory = s.memory := rfl
@[simp] theorem freeCount_modWave (s : State) (b : BankNo) (f : Waveform → Waveform) :
    (s.modWave b f).freeCount = s.freeCount := rfl
@[simp] theorem line_modWave (s : State) (b : BankNo) (f : Waveform → Waveform) (m : LineNo) :
    (s.modWave b f).line m = s.line m := rfl
@[simp] theorem journal_modWave (s : State) (b : BankNo) (f : Waveform → Waveform) (i : JournalNo) :
    (s.modWave b f).journal i = s.journal i := rfl

/-! ### modGate -/

@[simp] theorem pending_modGate (s : State) (b : BankNo) (f : Gate → Gate) :
    (s.modGate b f).pending = s.pending := rfl
@[simp] theorem resetHeld_modGate (s : State) (b : BankNo) (f : Gate → Gate) :
    (s.modGate b f).resetHeld = s.resetHeld := rfl
@[simp] theorem engine_modGate (s : State) (b : BankNo) (f : Gate → Gate) :
    (s.modGate b f).engine = s.engine := rfl
@[simp] theorem now_modGate (s : State) (b : BankNo) (f : Gate → Gate) :
    (s.modGate b f).now = s.now := rfl
@[simp] theorem tickHi_modGate (s : State) (b : BankNo) (f : Gate → Gate) :
    (s.modGate b f).tickHi = s.tickHi := rfl
@[simp] theorem cause_modGate (s : State) (b : BankNo) (f : Gate → Gate) :
    (s.modGate b f).cause = s.cause := rfl
@[simp] theorem causeEnable_modGate (s : State) (b : BankNo) (f : Gate → Gate) :
    (s.modGate b f).causeEnable = s.causeEnable := rfl
@[simp] theorem readData_modGate (s : State) (b : BankNo) (f : Gate → Gate) :
    (s.modGate b f).readData = s.readData := rfl
@[simp] theorem sweep_modGate (s : State) (b : BankNo) (f : Gate → Gate) :
    (s.modGate b f).sweep = s.sweep := rfl
@[simp] theorem lines_modGate (s : State) (b : BankNo) (f : Gate → Gate) :
    (s.modGate b f).lines = s.lines := rfl
@[simp] theorem journals_modGate (s : State) (b : BankNo) (f : Gate → Gate) :
    (s.modGate b f).journals = s.journals := rfl
@[simp] theorem window_modGate (s : State) (b : BankNo) (f : Gate → Gate) :
    (s.modGate b f).window = s.window := rfl
@[simp] theorem port_modGate (s : State) (b : BankNo) (f : Gate → Gate) :
    (s.modGate b f).port = s.port := rfl
@[simp] theorem pinsNow_modGate (s : State) (b : BankNo) (f : Gate → Gate) :
    (s.modGate b f).pinsNow = s.pinsNow := rfl
@[simp] theorem pinsAgo1_modGate (s : State) (b : BankNo) (f : Gate → Gate) :
    (s.modGate b f).pinsAgo1 = s.pinsAgo1 := rfl
@[simp] theorem pinsAgo2_modGate (s : State) (b : BankNo) (f : Gate → Gate) :
    (s.modGate b f).pinsAgo2 = s.pinsAgo2 := rfl
@[simp] theorem pinScript_modGate (s : State) (b : BankNo) (f : Gate → Gate) :
    (s.modGate b f).pinScript = s.pinScript := rfl
@[simp] theorem memory_modGate (s : State) (b : BankNo) (f : Gate → Gate) :
    (s.modGate b f).memory = s.memory := rfl
@[simp] theorem freeCount_modGate (s : State) (b : BankNo) (f : Gate → Gate) :
    (s.modGate b f).freeCount = s.freeCount := rfl
@[simp] theorem line_modGate (s : State) (b : BankNo) (f : Gate → Gate) (m : LineNo) :
    (s.modGate b f).line m = s.line m := rfl
@[simp] theorem journal_modGate (s : State) (b : BankNo) (f : Gate → Gate) (i : JournalNo) :
    (s.modGate b f).journal i = s.journal i := rfl

/-! ### modFaults -/

@[simp] theorem pending_modFaults (s : State) (b : BankNo) (f : FaultLogic → FaultLogic) :
    (s.modFaults b f).pending = s.pending := rfl
@[simp] theorem resetHeld_modFaults (s : State) (b : BankNo) (f : FaultLogic → FaultLogic) :
    (s.modFaults b f).resetHeld = s.resetHeld := rfl
@[simp] theorem engine_modFaults (s : State) (b : BankNo) (f : FaultLogic → FaultLogic) :
    (s.modFaults b f).engine = s.engine := rfl
@[simp] theorem now_modFaults (s : State) (b : BankNo) (f : FaultLogic → FaultLogic) :
    (s.modFaults b f).now = s.now := rfl
@[simp] theorem tickHi_modFaults (s : State) (b : BankNo) (f : FaultLogic → FaultLogic) :
    (s.modFaults b f).tickHi = s.tickHi := rfl
@[simp] theorem cause_modFaults (s : State) (b : BankNo) (f : FaultLogic → FaultLogic) :
    (s.modFaults b f).cause = s.cause := rfl
@[simp] theorem causeEnable_modFaults (s : State) (b : BankNo) (f : FaultLogic → FaultLogic) :
    (s.modFaults b f).causeEnable = s.causeEnable := rfl
@[simp] theorem readData_modFaults (s : State) (b : BankNo) (f : FaultLogic → FaultLogic) :
    (s.modFaults b f).readData = s.readData := rfl
@[simp] theorem sweep_modFaults (s : State) (b : BankNo) (f : FaultLogic → FaultLogic) :
    (s.modFaults b f).sweep = s.sweep := rfl
@[simp] theorem lines_modFaults (s : State) (b : BankNo) (f : FaultLogic → FaultLogic) :
    (s.modFaults b f).lines = s.lines := rfl
@[simp] theorem journals_modFaults (s : State) (b : BankNo) (f : FaultLogic → FaultLogic) :
    (s.modFaults b f).journals = s.journals := rfl
@[simp] theorem window_modFaults (s : State) (b : BankNo) (f : FaultLogic → FaultLogic) :
    (s.modFaults b f).window = s.window := rfl
@[simp] theorem port_modFaults (s : State) (b : BankNo) (f : FaultLogic → FaultLogic) :
    (s.modFaults b f).port = s.port := rfl
@[simp] theorem pinsNow_modFaults (s : State) (b : BankNo) (f : FaultLogic → FaultLogic) :
    (s.modFaults b f).pinsNow = s.pinsNow := rfl
@[simp] theorem pinsAgo1_modFaults (s : State) (b : BankNo) (f : FaultLogic → FaultLogic) :
    (s.modFaults b f).pinsAgo1 = s.pinsAgo1 := rfl
@[simp] theorem pinsAgo2_modFaults (s : State) (b : BankNo) (f : FaultLogic → FaultLogic) :
    (s.modFaults b f).pinsAgo2 = s.pinsAgo2 := rfl
@[simp] theorem pinScript_modFaults (s : State) (b : BankNo) (f : FaultLogic → FaultLogic) :
    (s.modFaults b f).pinScript = s.pinScript := rfl
@[simp] theorem memory_modFaults (s : State) (b : BankNo) (f : FaultLogic → FaultLogic) :
    (s.modFaults b f).memory = s.memory := rfl
@[simp] theorem freeCount_modFaults (s : State) (b : BankNo) (f : FaultLogic → FaultLogic) :
    (s.modFaults b f).freeCount = s.freeCount := rfl
@[simp] theorem line_modFaults (s : State) (b : BankNo) (f : FaultLogic → FaultLogic) (m : LineNo) :
    (s.modFaults b f).line m = s.line m := rfl
@[simp] theorem journal_modFaults (s : State) (b : BankNo) (f : FaultLogic → FaultLogic) (i : JournalNo) :
    (s.modFaults b f).journal i = s.journal i := rfl

/-! ### modLine -/

@[simp] theorem pending_modLine (s : State) (l : LineNo) (f : Line → Line) :
    (s.modLine l f).pending = s.pending := rfl
@[simp] theorem resetHeld_modLine (s : State) (l : LineNo) (f : Line → Line) :
    (s.modLine l f).resetHeld = s.resetHeld := rfl
@[simp] theorem engine_modLine (s : State) (l : LineNo) (f : Line → Line) :
    (s.modLine l f).engine = s.engine := rfl
@[simp] theorem now_modLine (s : State) (l : LineNo) (f : Line → Line) :
    (s.modLine l f).now = s.now := rfl
@[simp] theorem tickHi_modLine (s : State) (l : LineNo) (f : Line → Line) :
    (s.modLine l f).tickHi = s.tickHi := rfl
@[simp] theorem cause_modLine (s : State) (l : LineNo) (f : Line → Line) :
    (s.modLine l f).cause = s.cause := rfl
@[simp] theorem causeEnable_modLine (s : State) (l : LineNo) (f : Line → Line) :
    (s.modLine l f).causeEnable = s.causeEnable := rfl
@[simp] theorem readData_modLine (s : State) (l : LineNo) (f : Line → Line) :
    (s.modLine l f).readData = s.readData := rfl
@[simp] theorem sweep_modLine (s : State) (l : LineNo) (f : Line → Line) :
    (s.modLine l f).sweep = s.sweep := rfl
@[simp] theorem banks_modLine (s : State) (l : LineNo) (f : Line → Line) :
    (s.modLine l f).banks = s.banks := rfl
@[simp] theorem journals_modLine (s : State) (l : LineNo) (f : Line → Line) :
    (s.modLine l f).journals = s.journals := rfl
@[simp] theorem window_modLine (s : State) (l : LineNo) (f : Line → Line) :
    (s.modLine l f).window = s.window := rfl
@[simp] theorem port_modLine (s : State) (l : LineNo) (f : Line → Line) :
    (s.modLine l f).port = s.port := rfl
@[simp] theorem pinsNow_modLine (s : State) (l : LineNo) (f : Line → Line) :
    (s.modLine l f).pinsNow = s.pinsNow := rfl
@[simp] theorem pinsAgo1_modLine (s : State) (l : LineNo) (f : Line → Line) :
    (s.modLine l f).pinsAgo1 = s.pinsAgo1 := rfl
@[simp] theorem pinsAgo2_modLine (s : State) (l : LineNo) (f : Line → Line) :
    (s.modLine l f).pinsAgo2 = s.pinsAgo2 := rfl
@[simp] theorem pinScript_modLine (s : State) (l : LineNo) (f : Line → Line) :
    (s.modLine l f).pinScript = s.pinScript := rfl
@[simp] theorem memory_modLine (s : State) (l : LineNo) (f : Line → Line) :
    (s.modLine l f).memory = s.memory := rfl
@[simp] theorem freeCount_modLine (s : State) (l : LineNo) (f : Line → Line) :
    (s.modLine l f).freeCount = s.freeCount := rfl
@[simp] theorem bank_modLine (s : State) (l : LineNo) (f : Line → Line) (c : BankNo) :
    (s.modLine l f).bank c = s.bank c := rfl
@[simp] theorem journal_modLine (s : State) (l : LineNo) (f : Line → Line) (i : JournalNo) :
    (s.modLine l f).journal i = s.journal i := rfl

/-! ### modJournal -/

@[simp] theorem pending_modJournal (s : State) (j : JournalNo) (f : Journal → Journal) :
    (s.modJournal j f).pending = s.pending := rfl
@[simp] theorem resetHeld_modJournal (s : State) (j : JournalNo) (f : Journal → Journal) :
    (s.modJournal j f).resetHeld = s.resetHeld := rfl
@[simp] theorem engine_modJournal (s : State) (j : JournalNo) (f : Journal → Journal) :
    (s.modJournal j f).engine = s.engine := rfl
@[simp] theorem now_modJournal (s : State) (j : JournalNo) (f : Journal → Journal) :
    (s.modJournal j f).now = s.now := rfl
@[simp] theorem tickHi_modJournal (s : State) (j : JournalNo) (f : Journal → Journal) :
    (s.modJournal j f).tickHi = s.tickHi := rfl
@[simp] theorem cause_modJournal (s : State) (j : JournalNo) (f : Journal → Journal) :
    (s.modJournal j f).cause = s.cause := rfl
@[simp] theorem causeEnable_modJournal (s : State) (j : JournalNo) (f : Journal → Journal) :
    (s.modJournal j f).causeEnable = s.causeEnable := rfl
@[simp] theorem readData_modJournal (s : State) (j : JournalNo) (f : Journal → Journal) :
    (s.modJournal j f).readData = s.readData := rfl
@[simp] theorem sweep_modJournal (s : State) (j : JournalNo) (f : Journal → Journal) :
    (s.modJournal j f).sweep = s.sweep := rfl
@[simp] theorem banks_modJournal (s : State) (j : JournalNo) (f : Journal → Journal) :
    (s.modJournal j f).banks = s.banks := rfl
@[simp] theorem lines_modJournal (s : State) (j : JournalNo) (f : Journal → Journal) :
    (s.modJournal j f).lines = s.lines := rfl
@[simp] theorem window_modJournal (s : State) (j : JournalNo) (f : Journal → Journal) :
    (s.modJournal j f).window = s.window := rfl
@[simp] theorem port_modJournal (s : State) (j : JournalNo) (f : Journal → Journal) :
    (s.modJournal j f).port = s.port := rfl
@[simp] theorem pinsNow_modJournal (s : State) (j : JournalNo) (f : Journal → Journal) :
    (s.modJournal j f).pinsNow = s.pinsNow := rfl
@[simp] theorem pinsAgo1_modJournal (s : State) (j : JournalNo) (f : Journal → Journal) :
    (s.modJournal j f).pinsAgo1 = s.pinsAgo1 := rfl
@[simp] theorem pinsAgo2_modJournal (s : State) (j : JournalNo) (f : Journal → Journal) :
    (s.modJournal j f).pinsAgo2 = s.pinsAgo2 := rfl
@[simp] theorem pinScript_modJournal (s : State) (j : JournalNo) (f : Journal → Journal) :
    (s.modJournal j f).pinScript = s.pinScript := rfl
@[simp] theorem memory_modJournal (s : State) (j : JournalNo) (f : Journal → Journal) :
    (s.modJournal j f).memory = s.memory := rfl
@[simp] theorem freeCount_modJournal (s : State) (j : JournalNo) (f : Journal → Journal) :
    (s.modJournal j f).freeCount = s.freeCount := rfl
@[simp] theorem bank_modJournal (s : State) (j : JournalNo) (f : Journal → Journal) (c : BankNo) :
    (s.modJournal j f).bank c = s.bank c := rfl
@[simp] theorem line_modJournal (s : State) (j : JournalNo) (f : Journal → Journal) (m : LineNo) :
    (s.modJournal j f).line m = s.line m := rfl

/-! ### modPort -/

@[simp] theorem pending_modPort (s : State) (f : Port → Port) :
    (s.modPort f).pending = s.pending := rfl
@[simp] theorem resetHeld_modPort (s : State) (f : Port → Port) :
    (s.modPort f).resetHeld = s.resetHeld := rfl
@[simp] theorem engine_modPort (s : State) (f : Port → Port) :
    (s.modPort f).engine = s.engine := rfl
@[simp] theorem now_modPort (s : State) (f : Port → Port) : (s.modPort f).now = s.now := rfl
@[simp] theorem tickHi_modPort (s : State) (f : Port → Port) :
    (s.modPort f).tickHi = s.tickHi := rfl
@[simp] theorem cause_modPort (s : State) (f : Port → Port) : (s.modPort f).cause = s.cause := rfl
@[simp] theorem causeEnable_modPort (s : State) (f : Port → Port) :
    (s.modPort f).causeEnable = s.causeEnable := rfl
@[simp] theorem readData_modPort (s : State) (f : Port → Port) :
    (s.modPort f).readData = s.readData := rfl
@[simp] theorem sweep_modPort (s : State) (f : Port → Port) : (s.modPort f).sweep = s.sweep := rfl
@[simp] theorem banks_modPort (s : State) (f : Port → Port) : (s.modPort f).banks = s.banks := rfl
@[simp] theorem lines_modPort (s : State) (f : Port → Port) : (s.modPort f).lines = s.lines := rfl
@[simp] theorem journals_modPort (s : State) (f : Port → Port) :
    (s.modPort f).journals = s.journals := rfl
@[simp] theorem window_modPort (s : State) (f : Port → Port) :
    (s.modPort f).window = s.window := rfl
@[simp] theorem pinsNow_modPort (s : State) (f : Port → Port) :
    (s.modPort f).pinsNow = s.pinsNow := rfl
@[simp] theorem pinsAgo1_modPort (s : State) (f : Port → Port) :
    (s.modPort f).pinsAgo1 = s.pinsAgo1 := rfl
@[simp] theorem pinsAgo2_modPort (s : State) (f : Port → Port) :
    (s.modPort f).pinsAgo2 = s.pinsAgo2 := rfl
@[simp] theorem pinScript_modPort (s : State) (f : Port → Port) :
    (s.modPort f).pinScript = s.pinScript := rfl
@[simp] theorem memory_modPort (s : State) (f : Port → Port) :
    (s.modPort f).memory = s.memory := rfl
@[simp] theorem freeCount_modPort (s : State) (f : Port → Port) :
    (s.modPort f).freeCount = s.freeCount := rfl
@[simp] theorem bank_modPort (s : State) (f : Port → Port) (c : BankNo) :
    (s.modPort f).bank c = s.bank c := rfl
@[simp] theorem line_modPort (s : State) (f : Port → Port) (m : LineNo) :
    (s.modPort f).line m = s.line m := rfl
@[simp] theorem journal_modPort (s : State) (f : Port → Port) (i : JournalNo) :
    (s.modPort f).journal i = s.journal i := rfl

/-! ### modSweep -/

@[simp] theorem pending_modSweep (s : State) (f : Sweep → Sweep) :
    (s.modSweep f).pending = s.pending := rfl
@[simp] theorem resetHeld_modSweep (s : State) (f : Sweep → Sweep) :
    (s.modSweep f).resetHeld = s.resetHeld := rfl
@[simp] theorem engine_modSweep (s : State) (f : Sweep → Sweep) :
    (s.modSweep f).engine = s.engine := rfl
@[simp] theorem now_modSweep (s : State) (f : Sweep → Sweep) : (s.modSweep f).now = s.now := rfl
@[simp] theorem tickHi_modSweep (s : State) (f : Sweep → Sweep) :
    (s.modSweep f).tickHi = s.tickHi := rfl
@[simp] theorem cause_modSweep (s : State) (f : Sweep → Sweep) :
    (s.modSweep f).cause = s.cause := rfl
@[simp] theorem causeEnable_modSweep (s : State) (f : Sweep → Sweep) :
    (s.modSweep f).causeEnable = s.causeEnable := rfl
@[simp] theorem readData_modSweep (s : State) (f : Sweep → Sweep) :
    (s.modSweep f).readData = s.readData := rfl
@[simp] theorem banks_modSweep (s : State) (f : Sweep → Sweep) :
    (s.modSweep f).banks = s.banks := rfl
@[simp] theorem lines_modSweep (s : State) (f : Sweep → Sweep) :
    (s.modSweep f).lines = s.lines := rfl
@[simp] theorem journals_modSweep (s : State) (f : Sweep → Sweep) :
    (s.modSweep f).journals = s.journals := rfl
@[simp] theorem window_modSweep (s : State) (f : Sweep → Sweep) :
    (s.modSweep f).window = s.window := rfl
@[simp] theorem port_modSweep (s : State) (f : Sweep → Sweep) : (s.modSweep f).port = s.port := rfl
@[simp] theorem pinsNow_modSweep (s : State) (f : Sweep → Sweep) :
    (s.modSweep f).pinsNow = s.pinsNow := rfl
@[simp] theorem pinsAgo1_modSweep (s : State) (f : Sweep → Sweep) :
    (s.modSweep f).pinsAgo1 = s.pinsAgo1 := rfl
@[simp] theorem pinsAgo2_modSweep (s : State) (f : Sweep → Sweep) :
    (s.modSweep f).pinsAgo2 = s.pinsAgo2 := rfl
@[simp] theorem pinScript_modSweep (s : State) (f : Sweep → Sweep) :
    (s.modSweep f).pinScript = s.pinScript := rfl
@[simp] theorem memory_modSweep (s : State) (f : Sweep → Sweep) :
    (s.modSweep f).memory = s.memory := rfl
@[simp] theorem freeCount_modSweep (s : State) (f : Sweep → Sweep) :
    (s.modSweep f).freeCount = s.freeCount := rfl
@[simp] theorem bank_modSweep (s : State) (f : Sweep → Sweep) (c : BankNo) :
    (s.modSweep f).bank c = s.bank c := rfl
@[simp] theorem line_modSweep (s : State) (f : Sweep → Sweep) (m : LineNo) :
    (s.modSweep f).line m = s.line m := rfl
@[simp] theorem journal_modSweep (s : State) (f : Sweep → Sweep) (i : JournalNo) :
    (s.modSweep f).journal i = s.journal i := rfl

/-! ### modWindow -/

@[simp] theorem pending_modWindow (s : State) (f : WindowUnit → WindowUnit) :
    (s.modWindow f).pending = s.pending := rfl
@[simp] theorem resetHeld_modWindow (s : State) (f : WindowUnit → WindowUnit) :
    (s.modWindow f).resetHeld = s.resetHeld := rfl
@[simp] theorem engine_modWindow (s : State) (f : WindowUnit → WindowUnit) :
    (s.modWindow f).engine = s.engine := rfl
@[simp] theorem now_modWindow (s : State) (f : WindowUnit → WindowUnit) :
    (s.modWindow f).now = s.now := rfl
@[simp] theorem tickHi_modWindow (s : State) (f : WindowUnit → WindowUnit) :
    (s.modWindow f).tickHi = s.tickHi := rfl
@[simp] theorem cause_modWindow (s : State) (f : WindowUnit → WindowUnit) :
    (s.modWindow f).cause = s.cause := rfl
@[simp] theorem causeEnable_modWindow (s : State) (f : WindowUnit → WindowUnit) :
    (s.modWindow f).causeEnable = s.causeEnable := rfl
@[simp] theorem readData_modWindow (s : State) (f : WindowUnit → WindowUnit) :
    (s.modWindow f).readData = s.readData := rfl
@[simp] theorem sweep_modWindow (s : State) (f : WindowUnit → WindowUnit) :
    (s.modWindow f).sweep = s.sweep := rfl
@[simp] theorem banks_modWindow (s : State) (f : WindowUnit → WindowUnit) :
    (s.modWindow f).banks = s.banks := rfl
@[simp] theorem lines_modWindow (s : State) (f : WindowUnit → WindowUnit) :
    (s.modWindow f).lines = s.lines := rfl
@[simp] theorem journals_modWindow (s : State) (f : WindowUnit → WindowUnit) :
    (s.modWindow f).journals = s.journals := rfl
@[simp] theorem port_modWindow (s : State) (f : WindowUnit → WindowUnit) :
    (s.modWindow f).port = s.port := rfl
@[simp] theorem pinsNow_modWindow (s : State) (f : WindowUnit → WindowUnit) :
    (s.modWindow f).pinsNow = s.pinsNow := rfl
@[simp] theorem pinsAgo1_modWindow (s : State) (f : WindowUnit → WindowUnit) :
    (s.modWindow f).pinsAgo1 = s.pinsAgo1 := rfl
@[simp] theorem pinsAgo2_modWindow (s : State) (f : WindowUnit → WindowUnit) :
    (s.modWindow f).pinsAgo2 = s.pinsAgo2 := rfl
@[simp] theorem pinScript_modWindow (s : State) (f : WindowUnit → WindowUnit) :
    (s.modWindow f).pinScript = s.pinScript := rfl
@[simp] theorem memory_modWindow (s : State) (f : WindowUnit → WindowUnit) :
    (s.modWindow f).memory = s.memory := rfl
@[simp] theorem freeCount_modWindow (s : State) (f : WindowUnit → WindowUnit) :
    (s.modWindow f).freeCount = s.freeCount := rfl
@[simp] theorem bank_modWindow (s : State) (f : WindowUnit → WindowUnit) (c : BankNo) :
    (s.modWindow f).bank c = s.bank c := rfl
@[simp] theorem line_modWindow (s : State) (f : WindowUnit → WindowUnit) (m : LineNo) :
    (s.modWindow f).line m = s.line m := rfl
@[simp] theorem journal_modWindow (s : State) (f : WindowUnit → WindowUnit) (i : JournalNo) :
    (s.modWindow f).journal i = s.journal i := rfl

/-! ### raise -/

@[simp] theorem pending_raise (s : State) (n : Nat) : (s.raise n).pending = s.pending := rfl
@[simp] theorem resetHeld_raise (s : State) (n : Nat) : (s.raise n).resetHeld = s.resetHeld := rfl
@[simp] theorem engine_raise (s : State) (n : Nat) : (s.raise n).engine = s.engine := rfl
@[simp] theorem now_raise (s : State) (n : Nat) : (s.raise n).now = s.now := rfl
@[simp] theorem tickHi_raise (s : State) (n : Nat) : (s.raise n).tickHi = s.tickHi := rfl
@[simp] theorem causeEnable_raise (s : State) (n : Nat) :
    (s.raise n).causeEnable = s.causeEnable := rfl
@[simp] theorem readData_raise (s : State) (n : Nat) : (s.raise n).readData = s.readData := rfl
@[simp] theorem sweep_raise (s : State) (n : Nat) : (s.raise n).sweep = s.sweep := rfl
@[simp] theorem banks_raise (s : State) (n : Nat) : (s.raise n).banks = s.banks := rfl
@[simp] theorem lines_raise (s : State) (n : Nat) : (s.raise n).lines = s.lines := rfl
@[simp] theorem journals_raise (s : State) (n : Nat) : (s.raise n).journals = s.journals := rfl
@[simp] theorem window_raise (s : State) (n : Nat) : (s.raise n).window = s.window := rfl
@[simp] theorem port_raise (s : State) (n : Nat) : (s.raise n).port = s.port := rfl
@[simp] theorem pinsNow_raise (s : State) (n : Nat) : (s.raise n).pinsNow = s.pinsNow := rfl
@[simp] theorem pinsAgo1_raise (s : State) (n : Nat) : (s.raise n).pinsAgo1 = s.pinsAgo1 := rfl
@[simp] theorem pinsAgo2_raise (s : State) (n : Nat) : (s.raise n).pinsAgo2 = s.pinsAgo2 := rfl
@[simp] theorem pinScript_raise (s : State) (n : Nat) : (s.raise n).pinScript = s.pinScript := rfl
@[simp] theorem memory_raise (s : State) (n : Nat) : (s.raise n).memory = s.memory := rfl
@[simp] theorem freeCount_raise (s : State) (n : Nat) : (s.raise n).freeCount = s.freeCount := rfl
@[simp] theorem bank_raise (s : State) (n : Nat) (c : BankNo) : (s.raise n).bank c = s.bank c := rfl
@[simp] theorem line_raise (s : State) (n : Nat) (m : LineNo) : (s.raise n).line m = s.line m := rfl
@[simp] theorem journal_raise (s : State) (n : Nat) (i : JournalNo) :
    (s.raise n).journal i = s.journal i := rfl

end Machine

end Sys2Proof
end

