-- ==== Sys2Proof/Laws/Frames.lean ====
section
/-! SUPPORT. What the engine's inner operations never touch: memory, the command queue, the engine's
own registers, time, the sweep queue, and the number of outstanding transactions. -/

namespace Sys2Proof.Machine

/-- The part of the state that only the Memory Port, the register window, Engine Control and time
change. -/
def State.outer (s : State) :=
  (s.memory, s.pending, s.resetHeld, s.engine, s.now, s.tickHi, s.causeEnable, s.readData,
    s.sweep.queue, s.sweep.next, s.sweep.exec.isSome, s.window.tableAddr, s.window.tableCount,
    s.port.reads.length, s.port.writes.length, s.pinsNow, s.pinsAgo1, s.pinsAgo2, s.pinScript,
    s.freeCount)

/-! ### The updates by number -/

@[simp] theorem outer_setBank (s : State) (b : BankNo) (k : Bank) :
    (s.setBank b k).outer = s.outer := rfl
@[simp] theorem outer_modBank (s : State) (b : BankNo) (f : Bank → Bank) :
    (s.modBank b f).outer = s.outer := rfl
@[simp] theorem outer_modSeq (s : State) (b : BankNo) (f : Sequencer → Sequencer) :
    (s.modSeq b f).outer = s.outer := rfl
@[simp] theorem outer_modWave (s : State) (b : BankNo) (f : Waveform → Waveform) :
    (s.modWave b f).outer = s.outer := rfl
@[simp] theorem outer_modGate (s : State) (b : BankNo) (f : Gate → Gate) :
    (s.modGate b f).outer = s.outer := rfl
@[simp] theorem outer_modFaults (s : State) (b : BankNo) (f : FaultLogic → FaultLogic) :
    (s.modFaults b f).outer = s.outer := rfl
@[simp] theorem outer_setLine (s : State) (l : LineNo) (x : Line) :
    (s.setLine l x).outer = s.outer := rfl
@[simp] theorem outer_modLine (s : State) (l : LineNo) (f : Line → Line) :
    (s.modLine l f).outer = s.outer := rfl
@[simp] theorem outer_setJournal (s : State) (j : JournalNo) (x : Journal) :
    (s.setJournal j x).outer = s.outer := rfl
@[simp] theorem outer_modJournal (s : State) (j : JournalNo) (f : Journal → Journal) :
    (s.modJournal j f).outer = s.outer := rfl
@[simp] theorem outer_raise (s : State) (n : Nat) : (s.raise n).outer = s.outer := rfl

/-- Only the lengths of the two lists of outstanding transactions count. -/
theorem outer_modPort (s : State) (f : Port → Port)
    (hr : (f s.port).reads.length = s.port.reads.length)
    (hw : (f s.port).writes.length = s.port.writes.length) : (s.modPort f).outer = s.outer := by
  simp [State.outer, hr, hw]

/-- Only the table's geometry counts. -/
theorem outer_modWindow (s : State) (f : WindowUnit → WindowUnit)
    (ha : (f s.window).tableAddr = s.window.tableAddr)
    (hc : (f s.window).tableCount = s.window.tableCount) : (s.modWindow f).outer = s.outer := by
  simp [State.outer, ha, hc]

/-- An operation folded over a list. -/
theorem outer_foldl {α : Type} (f : State → α → State) (h : ∀ s a, (f s a).outer = s.outer)
    (xs : List α) (s : State) : (xs.foldl f s).outer = s.outer := by
  induction xs generalizing s with
  | nil => rfl
  | cons a rest ih => rw [List.foldl_cons, ih, h]

/-! ### Requests -/

@[simp] theorem outer_requestClass3 (s : State) (c : Class3) :
    (s.requestClass3 c).outer = s.outer := by
  unfold State.requestClass3
  split
  · rfl
  · exact outer_modPort s _ rfl rfl

@[simp] theorem outer_requestBankStatus (s : State) (b : BankNo) :
    (s.requestBankStatus b).outer = s.outer := by
  unfold State.requestBankStatus; split
  · exact (outer_requestClass3 _ _).trans rfl
  · rfl

@[simp] theorem outer_requestLineStatus (s : State) (l : LineNo) :
    (s.requestLineStatus l).outer = s.outer := by
  unfold State.requestLineStatus; split <;> simp

@[simp] theorem outer_requestFrame (s : State) (b : BankNo) (a : FrameAccess) :
    (s.requestFrame b a).outer = s.outer := rfl

@[simp] theorem outer_requestJournal (s : State) (j : JournalNo) (r : JournalReq) :
    (s.requestJournal j r).outer = s.outer := rfl

@[simp] theorem outer_requestStatusWord (s : State) (j : JournalNo) :
    (s.requestStatusWord j).outer = s.outer := by
  unfold State.requestStatusWord; split <;> simp

/-! ### What the work of a bank leaves alone -/

/-- Everything but the banks, the cause bits, the window cache and its loads, and the requests and
marks of the Memory Port. -/
def State.beside (s : State) :=
  (s.outer, s.sweep, s.lines, s.journals)

theorem outer_of_beside {s t : State} (h : t.beside = s.beside) : t.outer = s.outer :=
  congrArg Prod.fst h

theorem sweep_of_beside {s t : State} (h : t.beside = s.beside) : t.sweep = s.sweep :=
  congrArg (fun x => x.2.1) h

theorem lines_of_beside {s t : State} (h : t.beside = s.beside) : t.lines = s.lines :=
  congrArg (fun x => x.2.2.1) h

theorem journals_of_beside {s t : State} (h : t.beside = s.beside) : t.journals = s.journals :=
  congrArg (fun x => x.2.2.2) h

@[simp] theorem beside_modBank (s : State) (b : BankNo) (f : Bank → Bank) :
    (s.modBank b f).beside = s.beside := rfl
@[simp] theorem beside_modSeq (s : State) (b : BankNo) (f : Sequencer → Sequencer) :
    (s.modSeq b f).beside = s.beside := rfl
@[simp] theorem beside_modWave (s : State) (b : BankNo) (f : Waveform → Waveform) :
    (s.modWave b f).beside = s.beside := rfl
@[simp] theorem beside_modGate (s : State) (b : BankNo) (f : Gate → Gate) :
    (s.modGate b f).beside = s.beside := rfl
@[simp] theorem beside_modFaults (s : State) (b : BankNo) (f : FaultLogic → FaultLogic) :
    (s.modFaults b f).beside = s.beside := rfl
@[simp] theorem beside_raise (s : State) (n : Nat) : (s.raise n).beside = s.beside := rfl

theorem beside_modPort (s : State) (f : Port → Port)
    (hr : (f s.port).reads.length = s.port.reads.length)
    (hw : (f s.port).writes.length = s.port.writes.length) : (s.modPort f).beside = s.beside := by
  simp [State.beside, outer_modPort s f hr hw]

@[simp] theorem beside_requestFrame (s : State) (b : BankNo) (a : FrameAccess) :
    (s.requestFrame b a).beside = s.beside := rfl

/-! ### Gates and pins -/

@[simp] theorem beside_refreshPins (s : State) (b : BankNo) : (s.refreshPins b).beside = s.beside := rfl

@[simp] theorem beside_tripGate (s : State) (b : BankNo) : (s.tripGate b).beside = s.beside := rfl

@[simp] theorem beside_openGate (s : State) (b : BankNo) : (s.openGate b).beside = s.beside := rfl

@[simp] theorem beside_releaseGate (s : State) (b : BankNo) : (s.releaseGate b).beside = s.beside := by
  unfold State.releaseGate; dsimp only; generalize hc : (_ && _ : Bool) = c
  cases c <;> simp

@[simp] theorem beside_judgeGate (s : State) (b : BankNo) : (s.judgeGate b).beside = s.beside := by
  unfold State.judgeGate; dsimp only; repeat' split
  all_goals simp

@[simp] theorem beside_judgeGates (s : State) : s.judgeGates.beside = s.beside := by
  simp [State.judgeGates]

/-! ### The Cue Network -/

@[simp] theorem beside_readLink (s : State) (b : BankNo) : (s.readLink b).beside = s.beside := by
  unfold State.readLink; repeat' split
  all_goals simp

@[simp] theorem beside_startFrame (s : State) (b : BankNo) (f : FrameCopy) (forced : Bool) :
    (s.startFrame b f forced).beside = s.beside := by
  simp [State.startFrame]

theorem beside_startCues (emit : StartCond → State → State)
    (h : ∀ c s, (emit c s).beside = s.beside) (s : State) (b : BankNo) :
    (State.startCues emit s b).beside = s.beside := by
  unfold State.startCues; split <;> simp [h]

theorem beside_takeCue (emit : StartCond → State → State) (h : ∀ c s, (emit c s).beside = s.beside)
    (c : StartCond) (s : State) (b : BankNo) : (State.takeCue emit c s b).beside = s.beside := by
  unfold State.takeCue; dsimp only; repeat' split
  all_goals simp [beside_startCues emit h]

@[simp] theorem beside_offer (n : Nat) (c : StartCond) (s : State) : (offer n c s).beside = s.beside := by
  induction n generalizing c s with
  | zero => rfl
  | succ n ih => simp [offer, beside_takeCue (offer n) ih]

@[simp] theorem beside_emit (s : State) (b : BankNo) (k : CueKind) : (s.emit b k).beside = s.beside := by
  simp [State.emit]

@[simp] theorem beside_offerEdge (s : State) (l : LineNo) (d : EdgeDir) :
    (s.offerEdge l d).beside = s.beside := by
  simp [State.offerEdge]

@[simp] theorem beside_startOwn (s : State) (b : BankNo) (f : FrameCopy) (forced : Bool) :
    (s.startOwn b f forced).beside = s.beside := by
  simp [State.startOwn, beside_startCues (offer cueDepth) (beside_offer cueDepth)]

/-! ### The Plan Sequencer and Fault Logic -/

@[simp] theorem beside_markSticky (s : State) (b : BankNo) (c : FaultClass) :
    (s.markSticky b c).beside = s.beside := rfl

@[simp] theorem beside_reportFault (s : State) (b : BankNo) (cls : FaultClass) (sub : Subcode)
    (sel : Selector) (field : Nat) (phase : Phase) :
    (s.reportFault b cls sub sel field phase).beside = s.beside := by
  unfold State.reportFault; dsimp only; split <;> simp

@[simp] theorem beside_retireLive (s : State) (b : BankNo) (code : FrameState) :
    (s.retireLive b code).beside = s.beside := by
  unfold State.retireLive; split <;> simp

@[simp] theorem beside_returnStaged (s : State) (b : BankNo) : (s.returnStaged b).beside = s.beside := by
  unfold State.returnStaged; split <;> simp

@[simp] theorem beside_dropWaiters (s : State) (b : BankNo) (p : FrameAccess → Bool) :
    (s.dropWaiters b p).beside = s.beside := rfl

@[simp] theorem beside_discardReads (s : State) (b : BankNo) : (s.discardReads b).beside = s.beside := by
  unfold State.discardReads
  rw [beside_modPort _ _ (by simp) (by simp)]
  simp

@[simp] theorem beside_endPlan (s : State) (b : BankNo) (plan : PlanState) (reason : StopReason) :
    (s.endPlan b plan reason).beside = s.beside := by
  simp [State.endPlan]

@[simp] theorem beside_stopBank (s : State) (b : BankNo) (code : FrameState) :
    (s.stopBank b code).beside = s.beside := by
  simp [State.stopBank]

@[simp] theorem beside_haltBank (s : State) (b : BankNo) (bad : Option Selector) :
    (s.haltBank b bad).beside = s.beside := by
  unfold State.haltBank; dsimp only; rw [beside_endPlan]; repeat' split
  all_goals simp

@[simp] theorem beside_withholdWrites (s : State) (b : BankNo) (sel : Selector) :
    (s.withholdWrites b sel).beside = s.beside := by
  unfold State.withholdWrites
  rw [beside_modPort _ _ (by simp) (by simp)]
  simp

@[simp] theorem beside_writeFault (s : State) (b : BankNo) (sel : Selector) (field : Nat)
    (cls : FaultClass) (sub : Subcode) : (s.writeFault b sel field cls sub).beside = s.beside := by
  unfold State.writeFault; dsimp only; split <;> simp

@[simp] theorem beside_fetchFrame (s : State) (b : BankNo) (role : Role) (sel : Selector) :
    (s.fetchFrame b role sel).beside = s.beside := rfl

@[simp] theorem beside_failFetch (s : State) (b : BankNo) (role : Role) :
    (s.failFetch b role).beside = s.beside := by
  unfold State.failFetch; dsimp only; split <;> simp

@[simp] theorem beside_fetchFault (s : State) (b : BankNo) (f : Fetch) (cls : FaultClass)
    (sub : Subcode) (field : Nat) : (s.fetchFault b f cls sub field).beside = s.beside := by
  simp [State.fetchFault]

@[simp] theorem beside_writeRejected (s : State) (b : BankNo) (sel : Selector) (clamped : Bool) :
    (s.writeRejected b sel clamped).beside = s.beside := rfl

@[simp] theorem beside_holdStaged (s : State) (b : BankNo) (f : FrameCopy) :
    (s.holdStaged b f).beside = s.beside := rfl

@[simp] theorem beside_enterWaiting (s : State) (b : BankNo) (f : FrameCopy) :
    (s.enterWaiting b f).beside = s.beside := rfl

@[simp] theorem beside_stageFrame (s : State) (b : BankNo) (f : Fetch) (copy : FrameCopy) :
    (s.stageFrame b f copy).beside = s.beside := by
  unfold State.stageFrame; dsimp only; repeat' split
  all_goals simp

@[simp] theorem beside_stagedIssued (s : State) (b : BankNo) : (s.stagedIssued b).beside = s.beside := by
  unfold State.stagedIssued; repeat' split
  all_goals simp

@[simp] theorem beside_frameIssued (s : State) (b : BankNo) (a : FrameAccess) :
    (s.frameIssued b a).beside = s.beside := by
  unfold State.frameIssued; repeat' split
  all_goals simp

@[simp] theorem beside_frameVerdict (s : State) (b : BankNo) (f : Fetch) (v : FrameVerdict) :
    (s.frameVerdict b f v).beside = s.beside := by
  unfold State.frameVerdict; dsimp only; repeat' split
  all_goals simp

@[simp] theorem beside_fetchEmpty (s : State) (b : BankNo) (role : Role) :
    (s.fetchEmpty b role).beside = s.beside := by
  unfold State.fetchEmpty; split <;> simp

@[simp] theorem beside_judgeHeader (s : State) (b : BankNo) (f : Fetch) (h : Header) :
    (s.judgeHeader b f h).beside = s.beside := by
  unfold State.judgeHeader; repeat' split
  all_goals simp

@[simp] theorem beside_judgeEntries (s : State) (b : BankNo) (f : Fetch) (h : Header)
    (bs : List Byte) : (s.judgeEntries b f h bs).beside = s.beside := by
  unfold State.judgeEntries; split <;> simp

@[simp] theorem beside_linkFault (s : State) (b : BankNo) (cls : FaultClass) (sub : Subcode) :
    (s.linkFault b cls sub).beside = s.beside := by
  simp [State.linkFault]

@[simp] theorem beside_judgeLink (s : State) (b : BankNo) (link : Selector) :
    (s.judgeLink b link).beside = s.beside := by
  unfold State.judgeLink; dsimp only; repeat' split
  all_goals simp

@[simp] theorem beside_fetchHead (s : State) (b : BankNo) : (s.fetchHead b).beside = s.beside := by
  unfold State.fetchHead; dsimp only; split <;> simp

@[simp] theorem beside_accessFault (s : State) (b : BankNo) (a : FrameAccess) (cls : FaultClass)
    (sub : Subcode) : (s.accessFault b a cls sub).beside = s.beside := by
  unfold State.accessFault; repeat' split
  all_goals simp

@[simp] theorem beside_reqChecked (s : State) (b : BankNo) (r : FrameReq) (c : CheckResult) :
    (s.reqChecked b r c).beside = s.beside := by
  unfold State.reqChecked; split <;> simp

/-- A window check of a bank's access. -/
@[simp] theorem beside_windowCheck (s : State) (b : BankNo) (a : FrameAccess) (index : Byte)
    (offset length : Nat) (write : Bool) (domain : Byte) :
    (s.windowCheck (.bank b a) index offset length write domain).1.beside = s.beside := by
  unfold State.windowCheck; repeat' split
  all_goals rfl

@[simp] theorem beside_checkReq (s : State) (b : BankNo) (r : FrameReq) :
    (s.checkReq b r).beside = s.beside := by
  simp [State.checkReq]

@[simp] theorem beside_checkNext (s : State) (b : BankNo) : (s.checkNext b).beside = s.beside := by
  unfold State.checkNext; split <;> simp

@[simp] theorem beside_matchCue (s : State) (b : BankNo) : (s.matchCue b).beside = s.beside := by
  unfold State.matchCue; split <;> simp

@[simp] theorem beside_advanceCounter (s : State) (b : BankNo) (count : Nat) (dir : Direction) :
    (s.advanceCounter b count dir).beside = s.beside := by
  simp [State.advanceCounter]

@[simp] theorem beside_passEnd (s : State) (b : BankNo) : (s.passEnd b).beside = s.beside := by
  simp [State.passEnd]

@[simp] theorem beside_nextPass (s : State) (b : BankNo) : (s.nextPass b).beside = s.beside := by
  simp [State.nextPass]

@[simp] theorem beside_innerBoundary (s : State) (b : BankNo) :
    (s.innerBoundary b).beside = s.beside := by
  unfold State.innerBoundary; dsimp only; split <;> simp

@[simp] theorem beside_extendLive (s : State) (b : BankNo) : (s.extendLive b).beside = s.beside := rfl

@[simp] theorem beside_late (s : State) (b : BankNo) : (s.late b).beside = s.beside := by
  unfold State.late; split <;> simp

@[simp] theorem beside_takeSuccessor (s : State) (b : BankNo) (f : FrameCopy) :
    (s.takeSuccessor b f).beside = s.beside := by
  unfold State.takeSuccessor; dsimp only; split <;> simp

@[simp] theorem beside_finalDecision (s : State) (b : BankNo) (v : Live) :
    (s.finalDecision b v).beside = s.beside := by
  unfold State.finalDecision; dsimp only; repeat' split
  all_goals simp

@[simp] theorem beside_lastBoundary (s : State) (b : BankNo) (v : Live) :
    (s.lastBoundary b v).beside = s.beside := by
  unfold State.lastBoundary; dsimp only; split <;> simp

@[simp] theorem beside_cueTimeout (s : State) (b : BankNo) (f : FrameCopy) :
    (s.cueTimeout b f).beside = s.beside := by
  unfold State.cueTimeout; dsimp only; split <;> simp

/-! ### The same of the outer part -/

@[simp] theorem outer_judgeGate (s : State) (b : BankNo) :
    (s.judgeGate b).outer = s.outer :=
  outer_of_beside (beside_judgeGate s b)

@[simp] theorem outer_openGate (s : State) (b : BankNo) :
    (s.openGate b).outer = s.outer :=
  outer_of_beside (beside_openGate s b)

@[simp] theorem outer_judgeGates (s : State) :
    s.judgeGates.outer = s.outer :=
  outer_of_beside (beside_judgeGates s)

@[simp] theorem outer_refreshPins (s : State) (b : BankNo) :
    (s.refreshPins b).outer = s.outer :=
  outer_of_beside (beside_refreshPins s b)

@[simp] theorem outer_offerEdge (s : State) (l : LineNo) (d : EdgeDir) :
    (s.offerEdge l d).outer = s.outer :=
  outer_of_beside (beside_offerEdge s l d)

@[simp] theorem outer_readLink (s : State) (b : BankNo) :
    (s.readLink b).outer = s.outer :=
  outer_of_beside (beside_readLink s b)

@[simp] theorem outer_stopBank (s : State) (b : BankNo) (code : FrameState) :
    (s.stopBank b code).outer = s.outer :=
  outer_of_beside (beside_stopBank s b code)

@[simp] theorem outer_writeFault (s : State) (b : BankNo) (sel : Selector) (field : Nat)
    (cls : FaultClass) (sub : Subcode) :
    (s.writeFault b sel field cls sub).outer = s.outer :=
  outer_of_beside (beside_writeFault s b sel field cls sub)

@[simp] theorem outer_fetchHead (s : State) (b : BankNo) :
    (s.fetchHead b).outer = s.outer :=
  outer_of_beside (beside_fetchHead s b)

@[simp] theorem outer_checkNext (s : State) (b : BankNo) :
    (s.checkNext b).outer = s.outer :=
  outer_of_beside (beside_checkNext s b)

@[simp] theorem outer_stagedIssued (s : State) (b : BankNo) :
    (s.stagedIssued b).outer = s.outer :=
  outer_of_beside (beside_stagedIssued s b)

@[simp] theorem outer_advanceCounter (s : State) (b : BankNo) (count : Nat) (dir : Direction) :
    (s.advanceCounter b count dir).outer = s.outer :=
  outer_of_beside (beside_advanceCounter s b count dir)

@[simp] theorem outer_innerBoundary (s : State) (b : BankNo) :
    (s.innerBoundary b).outer = s.outer :=
  outer_of_beside (beside_innerBoundary s b)

@[simp] theorem outer_lastBoundary (s : State) (b : BankNo) (v : Live) :
    (s.lastBoundary b v).outer = s.outer :=
  outer_of_beside (beside_lastBoundary s b v)

@[simp] theorem outer_cueTimeout (s : State) (b : BankNo) (f : FrameCopy) :
    (s.cueTimeout b f).outer = s.outer :=
  outer_of_beside (beside_cueTimeout s b f)

@[simp] theorem outer_fetchFault (s : State) (b : BankNo) (f : Fetch)
    (cls : FaultClass) (sub : Subcode) (field : Nat) :
    (s.fetchFault b f cls sub field).outer = s.outer :=
  outer_of_beside (beside_fetchFault s b f cls sub field)

@[simp] theorem outer_judgeHeader (s : State) (b : BankNo) (f : Fetch) (h : Header) :
    (s.judgeHeader b f h).outer = s.outer :=
  outer_of_beside (beside_judgeHeader s b f h)

@[simp] theorem outer_judgeEntries (s : State) (b : BankNo) (f : Fetch) (h : Header) (bs : List Byte) :
    (s.judgeEntries b f h bs).outer = s.outer :=
  outer_of_beside (beside_judgeEntries s b f h bs)

@[simp] theorem outer_linkFault (s : State) (b : BankNo) (cls : FaultClass) (sub : Subcode) :
    (s.linkFault b cls sub).outer = s.outer :=
  outer_of_beside (beside_linkFault s b cls sub)

@[simp] theorem outer_judgeLink (s : State) (b : BankNo) (link : Selector) :
    (s.judgeLink b link).outer = s.outer :=
  outer_of_beside (beside_judgeLink s b link)

@[simp] theorem outer_accessFault (s : State) (b : BankNo) (a : FrameAccess)
    (cls : FaultClass) (sub : Subcode) :
    (s.accessFault b a cls sub).outer = s.outer :=
  outer_of_beside (beside_accessFault s b a cls sub)

@[simp] theorem outer_reqChecked (s : State) (b : BankNo) (r : FrameReq) (c : CheckResult) :
    (s.reqChecked b r c).outer = s.outer :=
  outer_of_beside (beside_reqChecked s b r c)

@[simp] theorem outer_requestLoad (s : State) (r : Requester) (index : Byte) :
    (s.requestLoad r index).outer = s.outer := by
  unfold State.requestLoad; split <;> simp

@[simp] theorem outer_windowCheck (s : State) (r : Requester) (index : Byte) (offset length : Nat)
    (write : Bool) (domain : Byte) :
    (s.windowCheck r index offset length write domain).1.outer = s.outer := by
  unfold State.windowCheck; repeat' split
  · rfl
  · exact outer_modWindow s _ rfl rfl
  · exact outer_modWindow s _ rfl rfl
  · rw [outer_requestLoad]; exact outer_modWindow s _ rfl rfl

/-! ### The Line Front-end -/

@[simp] theorem outer_judgeArmed (s : State) (l : LineNo) : (s.judgeArmed l).outer = s.outer := by
  unfold State.judgeArmed; repeat' split
  all_goals simp

@[simp] theorem outer_judgeLines (s : State) : s.judgeLines.outer = s.outer :=
  outer_foldl _ outer_judgeArmed _ _

@[simp] theorem outer_countMissed (s : State) (j : JournalNo) (l : LineNo) :
    (s.countMissed j l).outer = s.outer := by
  simp [State.countMissed]

@[simp] theorem outer_enterEvent (s : State) (l : LineNo) (e : Event) :
    (s.enterEvent l e).outer = s.outer := by
  unfold State.enterEvent; dsimp only; split <;> simp

@[simp] theorem outer_loseEvent (s : State) (l : LineNo) : (s.loseEvent l).outer = s.outer := by
  simp [State.loseEvent]

@[simp] theorem outer_putEvent (s : State) (l : LineNo) (kind : EventKind) (value : BitVec 32)
    (saturated : Bool) : (s.putEvent l kind value saturated).outer = s.outer := by
  unfold State.putEvent; split <;> simp

@[simp] theorem outer_captureEdge (s : State) (l : LineNo) (d : EdgeDir) :
    (s.captureEdge l d).outer = s.outer := by
  unfold State.captureEdge; dsimp only; repeat' split
  all_goals simp

@[simp] theorem outer_takeSample (s : State) (l : LineNo) : (s.takeSample l).outer = s.outer := rfl

@[simp] theorem outer_acceptEdge (s : State) (l : LineNo) : (s.acceptEdge l).outer = s.outer := by
  simp [State.acceptEdge]

@[simp] theorem outer_loadLine (s : State) (l : LineNo) (cfg : LineConfig) :
    (s.loadLine l cfg).outer = s.outer := by
  simp [State.loadLine]

/-! ### The Journal Writer -/

/-- The executing request keeps its word; only its phase changes. -/
theorem outer_phase (s : State) (p : ExecPhase) :
    (s.modSweep fun x => { x with exec := x.exec.map fun e => { e with phase := p } }).outer
      = s.outer := by
  simp [State.outer]

@[simp] theorem outer_answer (s : State) (r : Result) (w : WaitFor) :
    (s.answer r w).outer = s.outer := outer_phase s _

@[simp] theorem outer_answerLook (s : State) (j : JournalNo) (r : Result) :
    (s.answerLook j r).outer = s.outer := by
  unfold State.answerLook; repeat' split
  all_goals simp

@[simp] theorem outer_answerClose (s : State) (j : JournalNo) : (s.answerClose j).outer = s.outer := by
  unfold State.answerClose; repeat' split
  all_goals simp

@[simp] theorem outer_judgeWatermark (s : State) (j : JournalNo) :
    (s.judgeWatermark j).outer = s.outer := by
  unfold State.judgeWatermark; dsimp only; repeat' split
  all_goals simp

@[simp] theorem outer_countHeld (s : State) (j : JournalNo) : (s.countHeld j).outer = s.outer := by
  refine outer_foldl _ (fun s l => ?_) _ _
  split <;> simp

@[simp] theorem outer_faultJournal (s : State) (j : JournalNo) (f : JournalFault) (lost : Bool) :
    (s.faultJournal j f lost).outer = s.outer := by
  unfold State.faultJournal; dsimp only
  generalize hc : (State.journal _ j).rereadInFlight = c
  cases c <;> simp

@[simp] theorem outer_judgeConsume (s : State) (j : JournalNo) (v : BitVec 16) :
    (s.judgeConsume j v).outer = s.outer := by
  unfold State.judgeConsume; split <;> simp

@[simp] theorem outer_endStep (s : State) (j : JournalNo) : (s.endStep j).outer = s.outer := by
  unfold State.endStep; dsimp only; split <;> simp

@[simp] theorem outer_writeRecord (s : State) (j : JournalNo) (p : StepPlan) (addr : Nat) :
    (s.writeRecord j p addr).outer = s.outer := rfl

@[simp] theorem outer_recordChecked (s : State) (j : JournalNo) (p : StepPlan) (c : CheckResult) :
    (s.recordChecked j p c).outer = s.outer := by
  unfold State.recordChecked; split <;> simp

@[simp] theorem outer_checkRecord (s : State) (j : JournalNo) (p : StepPlan) :
    (s.checkRecord j p).outer = s.outer := by
  simp [State.checkRecord]

@[simp] theorem outer_missEvent (s : State) (j : JournalNo) (l : LineNo) :
    (s.missEvent j l).outer = s.outer := by
  unfold State.missEvent; split <;> simp

@[simp] theorem outer_planEvent (s : State) (j : JournalNo) (l : LineNo) :
    (s.planEvent j l).outer = s.outer := by
  unfold State.planEvent; dsimp only; repeat' split
  all_goals simp

@[simp] theorem outer_requestReread (s : State) (j : JournalNo) :
    (s.requestReread j).outer = s.outer := by
  unfold State.requestReread; split <;> simp

@[simp] theorem outer_waitReread (s : State) (j : JournalNo) (l : Option LineNo) :
    (s.waitReread j l).outer = s.outer := by
  simp [State.waitReread]

@[simp] theorem outer_beginStep (s : State) (j : JournalNo) (l : LineNo) :
    (s.beginStep j l).outer = s.outer := by
  unfold State.beginStep; split <;> simp

@[simp] theorem outer_resumeStep (s : State) (j : JournalNo) (l : Option LineNo) :
    (s.resumeStep j l).outer = s.outer := by
  unfold State.resumeStep; repeat' split
  all_goals simp

@[simp] theorem outer_finishClose (s : State) (j : JournalNo) : (s.finishClose j).outer = s.outer := by
  simp [State.finishClose]

@[simp] theorem outer_continueClose (s : State) (j : JournalNo) :
    (s.continueClose j).outer = s.outer := by
  unfold State.continueClose; dsimp only; repeat' split
  all_goals simp

@[simp] theorem outer_beginClose (s : State) (j : JournalNo) : (s.beginClose j).outer = s.outer := by
  simp [State.beginClose]

@[simp] theorem outer_openJournal (s : State) (j : JournalNo) (r : JournalRecord) :
    (s.openJournal j r).outer = s.outer := by
  simp [State.openJournal]

@[simp] theorem outer_ringChecked (s : State) (j : JournalNo) (r : JournalRecord) (c : CheckResult) :
    (s.ringChecked j r c).outer = s.outer := by
  unfold State.ringChecked; repeat' split
  all_goals simp

@[simp] theorem outer_consumeArrived (s : State) (j : JournalNo) (v : BitVec 16) :
    (s.consumeArrived j v).outer = s.outer := by
  unfold State.consumeArrived; dsimp only; repeat' split
  all_goals simp

@[simp] theorem outer_consumeError (s : State) (j : JournalNo) : (s.consumeError j).outer = s.outer := by
  unfold State.consumeError; dsimp only; repeat' split
  all_goals simp

@[simp] theorem outer_rereadArrived (s : State) (j : JournalNo) (a : Option (List Byte)) :
    (s.rereadArrived j a).outer = s.outer := by
  unfold State.rereadArrived; split <;> simp

@[simp] theorem outer_recordAnswered (s : State) (j : JournalNo) (error : Bool) :
    (s.recordAnswered j error).outer = s.outer := by
  unfold State.recordAnswered; dsimp only; repeat' split
  all_goals simp

@[simp] theorem outer_recordIssued (s : State) (j : JournalNo) (p : StepPlan) :
    (s.recordIssued j p).outer = s.outer := by
  unfold State.recordIssued; split <;> simp

@[simp] theorem outer_produceIssued (s : State) (j : JournalNo) :
    (s.produceIssued j).outer = s.outer := by
  unfold State.produceIssued; split <;> simp

/-! ### The end of a step -/

@[simp] theorem outer_settle (n : Nat) (s : State) : (settle n s).outer = s.outer := by
  induction n generalizing s with
  | zero => rfl
  | succ n ih => unfold settle; repeat' split
                 all_goals simp [ih]

@[simp] theorem outer_noteBank (before s : State) (b : BankNo) :
    (before.noteBank s b).outer = s.outer := by
  unfold State.noteBank; split <;> simp

@[simp] theorem outer_noteStatuses (before s : State) : (before.noteStatuses s).outer = s.outer := by
  simp [State.noteStatuses]

@[simp] theorem outer_offerReply (s : State) : s.offerReply.outer = s.outer := by
  unfold State.offerReply
  split
  · rename_i e he
    repeat' split
    · rw [outer_requestClass3]; simp [State.outer, he]
    all_goals rfl
  · rfl

@[simp] theorem outer_concludeLight (before s : State) :
    (before.concludeLight s).outer = s.outer := by
  simp [State.concludeLight]

@[simp] theorem outer_conclude (before s : State) : (before.conclude s).outer = s.outer := by
  simp [State.conclude]

/-! ### Arrivals -/

@[simp] theorem outer_fetchArrived (s : State) (b : BankNo) (f : Fetch) (r : OutRead) :
    (s.fetchArrived b f r).outer = s.outer := by
  unfold State.fetchArrived; repeat' split
  all_goals simp

@[simp] theorem outer_linkArrived (s : State) (b : BankNo) (a : Option (List Byte)) :
    (s.linkArrived b a).outer = s.outer := by
  unfold State.linkArrived; repeat' split
  all_goals simp

@[simp] theorem outer_bankWaited (s : State) (b : BankNo) (a : FrameAccess)
    (d : Option Descriptor) : (s.bankWaited b a d).outer = s.outer := by
  unfold State.bankWaited; repeat' split
  all_goals simp

@[simp] theorem outer_journalWaited (s : State) (j : JournalNo) (d : Option Descriptor) :
    (s.journalWaited j d).outer = s.outer := by
  unfold State.journalWaited; dsimp only; repeat' split
  all_goals simp

@[simp] theorem outer_ringWaited (s : State) (j : JournalNo) (d : Option Descriptor) :
    (s.ringWaited j d).outer = s.outer := by
  unfold State.ringWaited; repeat' split
  all_goals simp

@[simp] theorem outer_waited (d : Option Descriptor) (s : State) (r : Requester) :
    (State.waited d s r).outer = s.outer := by
  unfold State.waited; split <;> simp

@[simp] theorem outer_loadDone (s : State) (x : Load) (d : Option Descriptor) :
    (s.loadDone x d).outer = s.outer := by
  refine outer_foldl _ (fun s r => ?_) _ _
  split <;> simp

@[simp] theorem outer_loadArrived (s : State) (index : Byte) (a : Option (List Byte)) :
    (s.loadArrived index a).outer = s.outer := by
  unfold State.loadArrived; dsimp only; repeat' split
  all_goals first | rfl | (simp only [outer_requestLoad, outer_loadDone]; rfl)

end Sys2Proof.Machine
end

