-- ==== Sys2Proof/Laws/Banks.lean ====
section
/-! SUPPORT. What the Line Front-end and the Journal Writer do leaves every bank alone. -/

namespace Sys2Proof.Machine

/-- An operation folded over a list. -/
theorem banks_foldl {α : Type} (f : State → α → State) (h : ∀ s a, (f s a).banks = s.banks)
    (xs : List α) (s : State) : (xs.foldl f s).banks = s.banks := by
  induction xs generalizing s with
  | nil => rfl
  | cons a rest ih => rw [List.foldl_cons, ih, h]

/-! ### Requests -/

@[simp] theorem banks_requestClass3 (s : State) (c : Class3) :
    (s.requestClass3 c).banks = s.banks := by
  unfold State.requestClass3
  split
  · rfl
  · rfl

@[simp] theorem banks_requestBankStatus (s : State) (b : BankNo) :
    (s.requestBankStatus b).banks = s.banks := by
  unfold State.requestBankStatus; split <;> simp

@[simp] theorem banks_requestLineStatus (s : State) (l : LineNo) :
    (s.requestLineStatus l).banks = s.banks := by
  unfold State.requestLineStatus; split <;> simp

@[simp] theorem banks_requestJournal (s : State) (j : JournalNo) (r : JournalReq) :
    (s.requestJournal j r).banks = s.banks := rfl

@[simp] theorem banks_requestStatusWord (s : State) (j : JournalNo) :
    (s.requestStatusWord j).banks = s.banks := by
  unfold State.requestStatusWord; split <;> simp

/-! ### Window checks of the journals -/

@[simp] theorem banks_checkOfJournal (s : State) (j : JournalNo) (index : Byte)
    (offset length : Nat) (write : Bool) (domain : Byte) :
    (s.windowCheck (.journal j) index offset length write domain).1.banks = s.banks := by
  unfold State.windowCheck; repeat' split
  all_goals rfl

@[simp] theorem banks_checkOfRing (s : State) (j : JournalNo) (index : Byte)
    (offset length : Nat) (write : Bool) (domain : Byte) :
    (s.windowCheck (.ring j) index offset length write domain).1.banks = s.banks := by
  unfold State.windowCheck; repeat' split
  all_goals rfl

/-! ### The Line Front-end -/

@[simp] theorem banks_judgeArmed (s : State) (l : LineNo) : (s.judgeArmed l).banks = s.banks := by
  unfold State.judgeArmed; repeat' split
  all_goals simp

@[simp] theorem banks_judgeLines (s : State) : s.judgeLines.banks = s.banks :=
  banks_foldl _ banks_judgeArmed _ _

@[simp] theorem banks_countMissed (s : State) (j : JournalNo) (l : LineNo) :
    (s.countMissed j l).banks = s.banks := by
  simp [State.countMissed]

@[simp] theorem banks_enterEvent (s : State) (l : LineNo) (e : Event) :
    (s.enterEvent l e).banks = s.banks := by
  unfold State.enterEvent; dsimp only; split <;> simp

@[simp] theorem banks_loseEvent (s : State) (l : LineNo) : (s.loseEvent l).banks = s.banks := by
  simp [State.loseEvent]

@[simp] theorem banks_putEvent (s : State) (l : LineNo) (kind : EventKind) (value : BitVec 32)
    (saturated : Bool) : (s.putEvent l kind value saturated).banks = s.banks := by
  unfold State.putEvent; split <;> simp

@[simp] theorem banks_captureEdge (s : State) (l : LineNo) (d : EdgeDir) :
    (s.captureEdge l d).banks = s.banks := by
  unfold State.captureEdge; dsimp only; repeat' split
  all_goals simp

@[simp] theorem banks_takeSample (s : State) (l : LineNo) : (s.takeSample l).banks = s.banks := rfl

/-! ### The Journal Writer -/

/-- The executing request keeps its word; only its phase changes. -/
theorem banks_phase (s : State) (p : ExecPhase) :
    (s.modSweep fun x => { x with exec := x.exec.map fun e => { e with phase := p } }).banks
      = s.banks := by
  rfl

@[simp] theorem banks_answer (s : State) (r : Result) (w : WaitFor) :
    (s.answer r w).banks = s.banks := banks_phase s _

@[simp] theorem banks_answerLook (s : State) (j : JournalNo) (r : Result) :
    (s.answerLook j r).banks = s.banks := by
  unfold State.answerLook; repeat' split
  all_goals simp

@[simp] theorem banks_answerClose (s : State) (j : JournalNo) : (s.answerClose j).banks = s.banks := by
  unfold State.answerClose; repeat' split
  all_goals simp

@[simp] theorem banks_judgeWatermark (s : State) (j : JournalNo) :
    (s.judgeWatermark j).banks = s.banks := by
  unfold State.judgeWatermark; dsimp only; repeat' split
  all_goals simp

@[simp] theorem banks_countHeld (s : State) (j : JournalNo) : (s.countHeld j).banks = s.banks := by
  refine banks_foldl _ (fun s l => ?_) _ _
  split <;> simp

@[simp] theorem banks_faultJournal (s : State) (j : JournalNo) (f : JournalFault) (lost : Bool) :
    (s.faultJournal j f lost).banks = s.banks := by
  unfold State.faultJournal; dsimp only
  generalize hc : (State.journal _ j).rereadInFlight = c
  cases c <;> simp

@[simp] theorem banks_judgeConsume (s : State) (j : JournalNo) (v : BitVec 16) :
    (s.judgeConsume j v).banks = s.banks := by
  unfold State.judgeConsume; split <;> simp

@[simp] theorem banks_endStep (s : State) (j : JournalNo) : (s.endStep j).banks = s.banks := by
  unfold State.endStep; dsimp only; split <;> simp

@[simp] theorem banks_writeRecord (s : State) (j : JournalNo) (p : StepPlan) (addr : Nat) :
    (s.writeRecord j p addr).banks = s.banks := rfl

@[simp] theorem banks_recordChecked (s : State) (j : JournalNo) (p : StepPlan) (c : CheckResult) :
    (s.recordChecked j p c).banks = s.banks := by
  unfold State.recordChecked; split <;> simp

@[simp] theorem banks_checkRecord (s : State) (j : JournalNo) (p : StepPlan) :
    (s.checkRecord j p).banks = s.banks := by
  simp [State.checkRecord]

@[simp] theorem banks_missEvent (s : State) (j : JournalNo) (l : LineNo) :
    (s.missEvent j l).banks = s.banks := by
  unfold State.missEvent; split <;> simp

@[simp] theorem banks_planEvent (s : State) (j : JournalNo) (l : LineNo) :
    (s.planEvent j l).banks = s.banks := by
  unfold State.planEvent; dsimp only; repeat' split
  all_goals simp

@[simp] theorem banks_requestReread (s : State) (j : JournalNo) :
    (s.requestReread j).banks = s.banks := by
  unfold State.requestReread; split <;> simp

@[simp] theorem banks_waitReread (s : State) (j : JournalNo) (l : Option LineNo) :
    (s.waitReread j l).banks = s.banks := by
  simp [State.waitReread]

@[simp] theorem banks_beginStep (s : State) (j : JournalNo) (l : LineNo) :
    (s.beginStep j l).banks = s.banks := by
  unfold State.beginStep; split <;> simp

@[simp] theorem banks_resumeStep (s : State) (j : JournalNo) (l : Option LineNo) :
    (s.resumeStep j l).banks = s.banks := by
  unfold State.resumeStep; repeat' split
  all_goals simp

@[simp] theorem banks_finishClose (s : State) (j : JournalNo) : (s.finishClose j).banks = s.banks := by
  simp [State.finishClose]

@[simp] theorem banks_continueClose (s : State) (j : JournalNo) :
    (s.continueClose j).banks = s.banks := by
  unfold State.continueClose; dsimp only; repeat' split
  all_goals simp

@[simp] theorem banks_beginClose (s : State) (j : JournalNo) : (s.beginClose j).banks = s.banks := by
  simp [State.beginClose]

@[simp] theorem banks_openJournal (s : State) (j : JournalNo) (r : JournalRecord) :
    (s.openJournal j r).banks = s.banks := by
  simp [State.openJournal]

@[simp] theorem banks_ringChecked (s : State) (j : JournalNo) (r : JournalRecord) (c : CheckResult) :
    (s.ringChecked j r c).banks = s.banks := by
  unfold State.ringChecked; repeat' split
  all_goals simp

@[simp] theorem banks_consumeArrived (s : State) (j : JournalNo) (v : BitVec 16) :
    (s.consumeArrived j v).banks = s.banks := by
  unfold State.consumeArrived; dsimp only; repeat' split
  all_goals simp

@[simp] theorem banks_consumeError (s : State) (j : JournalNo) : (s.consumeError j).banks = s.banks := by
  unfold State.consumeError; dsimp only; repeat' split
  all_goals simp

@[simp] theorem banks_rereadArrived (s : State) (j : JournalNo) (a : Option (List Byte)) :
    (s.rereadArrived j a).banks = s.banks := by
  unfold State.rereadArrived; split <;> simp

@[simp] theorem banks_recordAnswered (s : State) (j : JournalNo) (error : Bool) :
    (s.recordAnswered j error).banks = s.banks := by
  unfold State.recordAnswered; dsimp only; repeat' split
  all_goals simp

@[simp] theorem banks_recordIssued (s : State) (j : JournalNo) (p : StepPlan) :
    (s.recordIssued j p).banks = s.banks := by
  unfold State.recordIssued; split <;> simp

@[simp] theorem banks_produceIssued (s : State) (j : JournalNo) :
    (s.produceIssued j).banks = s.banks := by
  unfold State.produceIssued; split <;> simp

end Sys2Proof.Machine
end

