-- ==== Sys2Proof/Laws/Coherence.lean ====
section
/-! SUPPORT. What each operation does to the Plan Sequencers: which leave them alone, and that each
keeps what the plan state fixes (`Sequencer.Coherent`). -/

namespace Sys2Proof.Machine

/-- The sequencer of a bank. -/
def State.seqOf (s : State) (b : BankNo) : Sequencer := (s.bank b).seq

/-! ### Operations that leave every sequencer alone -/

theorem seqOf_modBank_same (s : State) (b : BankNo) (f : Bank → Bank) :
    (s.modBank b f).seqOf b = (f (s.bank b)).seq := by
  simp [State.seqOf]

theorem seqOf_modBank_ne (s : State) {b c : BankNo} (f : Bank → Bank) (h : c ≠ b) :
    (s.modBank b f).seqOf c = s.seqOf c := by
  simp [State.seqOf, bank_modBank_ne s f h]

theorem seqOf_modBank (s : State) (b c : BankNo) (f : Bank → Bank)
    (h : (f (s.bank b)).seq = (s.bank b).seq) : (s.modBank b f).seqOf c = s.seqOf c := by
  by_cases hc : c = b
  · subst hc; rw [seqOf_modBank_same, h, State.seqOf]
  · exact seqOf_modBank_ne s f hc

@[simp] theorem seqOf_modWave (s : State) (b c : BankNo) (f : Waveform → Waveform) :
    (s.modWave b f).seqOf c = s.seqOf c := seqOf_modBank s b c _ rfl
@[simp] theorem seqOf_modGate (s : State) (b c : BankNo) (f : Gate → Gate) :
    (s.modGate b f).seqOf c = s.seqOf c := seqOf_modBank s b c _ rfl
@[simp] theorem seqOf_modFaults (s : State) (b c : BankNo) (f : FaultLogic → FaultLogic) :
    (s.modFaults b f).seqOf c = s.seqOf c := seqOf_modBank s b c _ rfl
@[simp] theorem seqOf_requestFrame (s : State) (b c : BankNo) (a : FrameAccess) :
    (s.requestFrame b a).seqOf c = s.seqOf c := seqOf_modBank s b c _ rfl
@[simp] theorem seqOf_modPort (s : State) (c : BankNo) (f : Port → Port) :
    (s.modPort f).seqOf c = s.seqOf c := rfl
@[simp] theorem seqOf_modWindow (s : State) (c : BankNo) (f : WindowUnit → WindowUnit) :
    (s.modWindow f).seqOf c = s.seqOf c := rfl
@[simp] theorem seqOf_raise (s : State) (c : BankNo) (n : Nat) :
    (s.raise n).seqOf c = s.seqOf c := rfl

@[simp] theorem seqOf_refreshPins (s : State) (b c : BankNo) :
    (s.refreshPins b).seqOf c = s.seqOf c := by
  refine seqOf_modBank s b c _ ?_
  unfold Bank.refreshPins; split <;> rfl

@[simp] theorem seqOf_openGate (s : State) (b c : BankNo) : (s.openGate b).seqOf c = s.seqOf c := by
  simp [State.openGate]

@[simp] theorem seqOf_tripGate (s : State) (b c : BankNo) : (s.tripGate b).seqOf c = s.seqOf c := by
  simp [State.tripGate]

@[simp] theorem seqOf_releaseGate (s : State) (b c : BankNo) :
    (s.releaseGate b).seqOf c = s.seqOf c := by
  unfold State.releaseGate; dsimp only; generalize hc : (_ && _ : Bool) = d
  cases d <;> simp

@[simp] theorem seqOf_judgeGate (s : State) (b c : BankNo) :
    (s.judgeGate b).seqOf c = s.seqOf c := by
  unfold State.judgeGate; dsimp only; repeat' split
  all_goals simp

@[simp] theorem seqOf_judgeGates (s : State) (c : BankNo) : s.judgeGates.seqOf c = s.seqOf c := by
  simp [State.judgeGates]

@[simp] theorem seqOf_markSticky (s : State) (b c : BankNo) (cls : FaultClass) :
    (s.markSticky b cls).seqOf c = s.seqOf c := by
  simp [State.markSticky]

@[simp] theorem seqOf_reportFault (s : State) (b c : BankNo) (cls : FaultClass) (sub : Subcode)
    (sel : Selector) (field : Nat) (phase : Phase) :
    (s.reportFault b cls sub sel field phase).seqOf c = s.seqOf c := by
  unfold State.reportFault; dsimp only; split <;> simp

@[simp] theorem seqOf_dropWaiters (s : State) (b : BankNo) (p : FrameAccess → Bool) (c : BankNo) :
    (s.dropWaiters b p).seqOf c = s.seqOf c := rfl

@[simp] theorem seqOf_returnStaged (s : State) (b c : BankNo) :
    (s.returnStaged b).seqOf c = s.seqOf c := by
  unfold State.returnStaged; split <;> simp

@[simp] theorem seqOf_discardReads (s : State) (b c : BankNo) :
    (s.discardReads b).seqOf c = s.seqOf c := by
  unfold State.discardReads; rw [seqOf_modPort, seqOf_modBank _ _ _ _ rfl]
  simp

@[simp] theorem seqOf_withholdWrites (s : State) (b c : BankNo) (sel : Selector) :
    (s.withholdWrites b sel).seqOf c = s.seqOf c := by
  unfold State.withholdWrites; rw [seqOf_modPort, seqOf_modBank _ _ _ _ rfl]
  simp

@[simp] theorem seqOf_writeRejected (s : State) (b c : BankNo) (sel : Selector) (clamped : Bool) :
    (s.writeRejected b sel clamped).seqOf c = s.seqOf c := by
  simp [State.writeRejected]

@[simp] theorem seqOf_windowCheck (s : State) (b c : BankNo) (a : FrameAccess) (index : Byte)
    (offset length : Nat) (write : Bool) (domain : Byte) :
    (s.windowCheck (.bank b a) index offset length write domain).1.seqOf c = s.seqOf c := by
  unfold State.windowCheck; repeat' split
  · rfl
  · rfl
  · rfl
  · exact seqOf_modBank _ b c _ rfl

/-! ### Sequencers changed by one bank -/

theorem seqOf_modSeq_same (s : State) (b : BankNo) (f : Sequencer → Sequencer) :
    (s.modSeq b f).seqOf b = f (s.seqOf b) := by
  simp [State.seqOf]

theorem seqOf_modSeq_ne (s : State) {b c : BankNo} (f : Sequencer → Sequencer) (h : c ≠ b) :
    (s.modSeq b f).seqOf c = s.seqOf c := by
  simp [State.seqOf, bank_modSeq_ne s f h]

/-- Every other bank is coherent. -/
def State.CoherentBut (s : State) (b : BankNo) : Prop := ∀ c, c ≠ b → (s.seqOf c).Coherent

theorem coherentBut_of (s : State) (h : s.BanksCoherent) (b : BankNo) : s.CoherentBut b :=
  fun c _ => h c

theorem banksCoherent_of (s : State) (b : BankNo) (h : s.CoherentBut b)
    (hb : (s.seqOf b).Coherent) : s.BanksCoherent := by
  intro c
  by_cases hc : c = b
  · subst hc; exact hb
  · exact h c hc

/-- The sequencers of two states are the same. -/
theorem coherent_congr {s t : State} (h : ∀ c, t.seqOf c = s.seqOf c) (hs : s.BanksCoherent) :
    t.BanksCoherent := by
  intro c
  have := h c
  simp only [State.seqOf] at this
  rw [this]; exact hs c

theorem but_congr {s t : State} {b : BankNo} (h : ∀ c, c ≠ b → t.seqOf c = s.seqOf c)
    (hs : s.CoherentBut b) : t.CoherentBut b := by
  intro c hc
  rw [h c hc]; exact hs c hc

/-- An update of one sequencer that keeps it coherent. -/
theorem coherent_modSeq (s : State) (b : BankNo) (f : Sequencer → Sequencer)
    (hs : s.CoherentBut b) (hf : (f (s.seqOf b)).Coherent) : (s.modSeq b f).BanksCoherent :=
  banksCoherent_of _ b (but_congr (fun _ hc => seqOf_modSeq_ne s f hc) hs)
    (by rw [seqOf_modSeq_same]; exact hf)

/-! ### Starting a frame (R35, R75) -/

/-- What a sequencer must have when a frame of it is about to become live. -/
def Sequencer.ReadyToStart (q : Sequencer) : Prop :=
  q.fetch = none ∧ q.linkRead = false ∧ q.pendingStop = false

theorem begin_coherent (k : Bank) (f : FrameCopy) (forced : Bool) (h : k.seq.ReadyToStart) :
    (k.begin f forced).seq.Coherent := by
  obtain ⟨h1, h2, h3⟩ := h
  simp [Bank.begin, Sequencer.Coherent, PlanState.isRunning, h1, h2, h3]

theorem coherent_readLink (s : State) (b : BankNo) (h : s.BanksCoherent) :
    (s.readLink b).BanksCoherent := by
  unfold State.readLink
  split
  · split
    · rename_i hm
      refine coherent_congr (fun c => seqOf_requestFrame _ b c _)
        (coherent_modSeq s b _ (coherentBut_of s h b) ?_)
      have hb := h b
      simp only [Sequencer.mayReadLink, Bool.and_eq_true, Bool.not_eq_true', decide_eq_true_eq] at hm
      simp only [State.seqOf, Sequencer.Coherent] at hb ⊢
      simp_all
    · exact h
  · exact h

theorem coherent_startFrame (s : State) (b : BankNo) (f : FrameCopy) (forced : Bool)
    (h : s.CoherentBut b) (hb : (s.seqOf b).ReadyToStart) :
    (s.startFrame b f forced).BanksCoherent := by
  unfold State.startFrame
  refine coherent_congr (fun c => seqOf_refreshPins _ b c) (coherent_readLink _ b ?_)
  refine banksCoherent_of _ b ?_ ?_
  · exact but_congr (fun c hc => by rw [seqOf_modBank_ne _ _ hc, seqOf_requestFrame]) h
  · rw [seqOf_modBank_same]
    refine begin_coherent _ f forced ?_
    have : ((s.requestFrame b (.state f.sel .live)).bank b).seq = s.seqOf b :=
      seqOf_requestFrame s b b _
    rw [this]; exact hb

/-! ### The Cue Network -/

/-- An operation that keeps every sequencer coherent. -/
def Keeps (f : State → State) : Prop := ∀ s, s.BanksCoherent → (f s).BanksCoherent

theorem coherent_startCues (emit : StartCond → State → State) (he : ∀ c, Keeps (emit c)) (s : State)
    (b : BankNo) (h : s.BanksCoherent) : (State.startCues emit s b).BanksCoherent := by
  unfold State.startCues
  split
  · exact he _ _ (he _ _ h)
  · exact he _ _ h

/-- A WAITING bank holds no fetch, no link read and no pending stop. -/
theorem waiting_ready (q : Sequencer) (h : q.Coherent) (hw : q.plan = .waiting) :
    q.ReadyToStart := by
  obtain ⟨_, _, _, _, _, hwait, _, hf, hl, hp⟩ := h
  refine ⟨?_, ?_, ?_⟩
  · cases hq : q.fetch with
    | none => rfl
    | some f => rcases hf f hq with h | h <;> simp_all
  · cases hq : q.linkRead with
    | false => rfl
    | true => have := hl hq; simp_all [PlanState.isRunning]
  · cases hq : q.pendingStop with
    | false => rfl
    | true => have := hp hq; simp_all [PlanState.isRunning]

/-- A bank whose tag is VALID has no fetch and no link read in flight. -/
theorem valid_quiet (q : Sequencer) (h : q.Coherent) (ht : q.tag = .valid) :
    q.fetch = none ∧ q.linkRead = false ∧ (q.plan.isRunning = true ∨ q.plan = .waiting) := by
  obtain ⟨_, _, hown, _, _, _, _, hf, hl, _⟩ := h
  have hp := hown (by simp [ht])
  refine ⟨?_, ?_, hp⟩
  · cases hq : q.fetch with
    | none => rfl
    | some f =>
      rcases hf f hq with h | h
      · rcases hp with hp | hp <;> simp_all [PlanState.isRunning]
      · simp_all
  · cases hq : q.linkRead with
    | false => rfl
    | true => have := hl hq; simp_all

/-- A bank with its tag EMPTY holds no frame, and its latch is not armed. -/
theorem empty_bare (q : Sequencer) (h : q.Coherent) (ht : q.tag = .empty) :
    q.staged = none ∧ q.latch = .disarmed ∧ q.plan ≠ .waiting := by
  obtain ⟨_, hs, _, hl, _, hw, _⟩ := h
  refine ⟨?_, ?_, ?_⟩
  · cases hq : q.staged <;> simp_all
  · by_contra hc; have := hl hc; simp_all
  · intro hq; have := hw hq; simp_all

/-- A LOADING bank holds nothing. -/
theorem loading_bare (q : Sequencer) (h : q.Coherent) (hp : q.plan = .loading) :
    q.tag = .empty ∧ q.live = none ∧ q.linkRead = false ∧ q.pendingStop = false := by
  obtain ⟨hv, _, hown, _, _, _, _, _, hl, hs⟩ := h
  refine ⟨?_, ?_, ?_, ?_⟩
  · by_contra hc; have := hown hc; simp_all [PlanState.isRunning]
  · cases hq : q.live <;> simp_all [PlanState.isRunning]
  · cases hq : q.linkRead <;> simp_all [PlanState.isRunning]
  · cases hq : q.pendingStop <;> simp_all [PlanState.isRunning]

/-- A DORMANT or HALTED bank holds nothing at all. -/
theorem inactive_bare (q : Sequencer) (h : q.Coherent) (hp : q.plan = .dormant ∨ q.plan = .halted) :
    q.live = none ∧ q.staged = none ∧ q.tag = .empty ∧ q.fetch = none ∧ q.latch = .disarmed ∧
      q.linkRead = false ∧ q.pendingStop = false := by
  have hr : q.plan.isRunning = false := by rcases hp with hp | hp <;> simp [hp, PlanState.isRunning]
  have hw : q.plan ≠ .waiting := by rcases hp with hp | hp <;> simp [hp]
  have hl : q.plan ≠ .loading := by rcases hp with hp | hp <;> simp [hp]
  obtain ⟨hv, hs, hown, hlat, _, _, _, hf, hlink, hstop⟩ := h
  have ht : q.tag = .empty := by
    by_contra hc; have := hown hc; simp_all
  refine ⟨?_, ?_, ht, ?_, ?_, ?_, ?_⟩
  · cases hq : q.live <;> simp_all
  · cases hq : q.staged <;> simp_all
  · cases hq : q.fetch with
    | none => rfl
    | some f => rcases hf f hq with h | h <;> simp_all
  · by_contra hc; have := hlat hc; simp_all
  · cases hq : q.linkRead <;> simp_all
  · cases hq : q.pendingStop <;> simp_all

theorem coherent_takeCue (emit : StartCond → State → State) (he : ∀ c, Keeps (emit c))
    (c : StartCond) (s : State) (b : BankNo) (h : s.BanksCoherent) :
    (State.takeCue emit c s b).BanksCoherent := by
  unfold State.takeCue
  dsimp only
  split
  · rename_i hm
    split
    · rename_i hw
      split
      · refine coherent_startCues emit he _ b (coherent_startFrame s b _ false
          (coherentBut_of s h b) ?_)
        exact waiting_ready _ (h b) hw
      · exact h
    · rename_i hw
      refine coherent_modSeq s b _ (coherentBut_of s h b) ?_
      have hb := h b
      have ht : (s.bank b).seq.tag = .valid := hb.2.2.2.1 (by simp_all)
      have hq := valid_quiet _ hb ht
      simp only [State.seqOf, Sequencer.Coherent] at hb ⊢
      simp_all
  · exact h

theorem coherent_offer (n : Nat) (c : StartCond) : Keeps (offer n c) := by
  induction n generalizing c with
  | zero => intro s h; exact h
  | succ n ih =>
    intro s h
    simp only [offer]
    exact coherent_takeCue _ ih _ _ _ (coherent_takeCue _ ih _ _ _ (coherent_takeCue _ ih _ _ _
      (coherent_takeCue _ ih _ _ _ h)))

/-- A running bank stays in its plan state whatever cue or edge comes. -/
theorem running_offer (n : Nat) (c : StartCond) (s : State) (b : BankNo)
    (h : (s.seqOf b).plan.isRunning = true) :
    ((offer n c s).seqOf b).plan = (s.seqOf b).plan := by
  induction n generalizing c s with
  | zero => rfl
  | succ n ih =>
    have start : ∀ (t : State) (d : BankNo) (f : FrameCopy), (t.seqOf b).plan.isRunning = true →
        d ≠ b → ((State.startCues (offer n) (t.startFrame d f false) d).seqOf b).plan
          = (t.seqOf b).plan := by
      intro t d f ht hd
      have h1 : ((t.startFrame d f false).seqOf b).plan = (t.seqOf b).plan := by
        have hk : ((t.requestFrame d (.state f.sel .live)).modBank d
            fun k => k.begin f false).seqOf b = t.seqOf b := by
          rw [seqOf_modBank_ne _ _ (Ne.symm hd), seqOf_requestFrame]
        unfold State.startFrame
        rw [seqOf_refreshPins]
        unfold State.readLink
        repeat' split
        · rw [seqOf_requestFrame, seqOf_modSeq_ne _ _ (Ne.symm hd), hk]
        · rw [hk]
        · rw [hk]
      have h2 := ih (.cue d .frameStart) (t.startFrame d f false) (by rw [h1]; exact ht)
      unfold State.startCues
      split
      · rw [ih _ _ (by rw [h2, h1]; exact ht), h2, h1]
      · rw [h2, h1]
    have one : ∀ (t : State) (d : BankNo), (t.seqOf b).plan.isRunning = true →
        ((State.takeCue (offer n) c t d).seqOf b).plan = (t.seqOf b).plan := by
      intro t d ht
      unfold State.takeCue
      dsimp only
      split
      · split
        · rename_i hw
          split
          · refine start t d _ ht ?_
            intro hd; subst hd; simp [State.seqOf, hw, PlanState.isRunning] at ht
          · rfl
        · by_cases hd : b = d
          · subst hd; rw [seqOf_modSeq_same]
          · rw [seqOf_modSeq_ne _ _ hd]
      · rfl
    simp only [offer]
    have a0 := one s 0 h
    have a1 := one _ 1 (a0 ▸ h)
    have a2 := one _ 2 (a1 ▸ a0 ▸ h)
    have a3 := one _ 3 (a2 ▸ a1 ▸ a0 ▸ h)
    rw [a3, a2, a1, a0]

theorem coherent_emit (s : State) (b : BankNo) (k : CueKind) (h : s.BanksCoherent) :
    (s.emit b k).BanksCoherent := coherent_offer _ _ s h

theorem coherent_offerEdge (s : State) (l : LineNo) (d : EdgeDir) (h : s.BanksCoherent) :
    (s.offerEdge l d).BanksCoherent := coherent_offer _ _ s h

theorem coherent_startOwn (s : State) (b : BankNo) (f : FrameCopy) (forced : Bool)
    (h : s.CoherentBut b) (hb : (s.seqOf b).ReadyToStart) : (s.startOwn b f forced).BanksCoherent :=
  coherent_startCues _ (fun c => coherent_offer cueDepth c) _ b
    (coherent_startFrame s b f forced h hb)

/-! ### The end of a plan -/

/-- Whatever the bank was before, it is coherent once its plan has ended. -/
theorem coherent_endPlan (s : State) (b : BankNo) (plan : PlanState) (reason : StopReason)
    (hp : plan = .dormant ∨ plan = .halted) (h : s.CoherentBut b) :
    (s.endPlan b plan reason).BanksCoherent := by
  unfold State.endPlan
  refine coherent_emit _ b _ (coherent_congr (s := (s.discardReads b).modBank b fun k =>
    { k with seq := k.seq.ended plan reason, wave := k.wave.atZero }) (fun c => by simp) ?_)
  refine banksCoherent_of _ b ?_ ?_
  · exact but_congr (fun c hc => by rw [seqOf_modBank_ne _ _ hc, seqOf_discardReads]) h
  · rw [seqOf_modBank_same]
    rcases hp with rfl | rfl <;>
      simp [Sequencer.ended, Sequencer.Coherent, PlanState.isRunning]

theorem seqOf_retireLive_ne (s : State) {b c : BankNo} (code : FrameState) (hc : c ≠ b) :
    (s.retireLive b code).seqOf c = s.seqOf c := by
  unfold State.retireLive
  split
  · rw [seqOf_requestFrame, seqOf_modSeq_ne _ _ hc]
  · rfl

theorem seqOf_retireLive_same (s : State) (b : BankNo) (code : FrameState) :
    (s.retireLive b code).seqOf b = { s.seqOf b with live := none } := by
  unfold State.retireLive
  split
  · rw [seqOf_requestFrame, seqOf_modSeq_same]
  · rename_i h
    simp only [State.seqOf] at h ⊢
    rw [← h]

theorem but_retireLive (s : State) (b : BankNo) (code : FrameState) (h : s.CoherentBut b) :
    (s.retireLive b code).CoherentBut b :=
  but_congr (fun _ hc => seqOf_retireLive_ne s code hc) h

theorem coherent_stopBank (s : State) (b : BankNo) (code : FrameState) (h : s.CoherentBut b) :
    (s.stopBank b code).BanksCoherent :=
  coherent_endPlan _ b _ _ (Or.inl rfl)
    (but_congr (fun c _ => seqOf_returnStaged _ b c) (but_retireLive s b code h))

theorem coherent_haltBank (s : State) (b : BankNo) (bad : Option Selector) (h : s.CoherentBut b) :
    (s.haltBank b bad).BanksCoherent := by
  unfold State.haltBank
  dsimp only
  refine coherent_endPlan _ b _ _ (Or.inr rfl) ?_
  have h1 : ∀ t : State, t.CoherentBut b →
      (match (t.bank b).seq.staged with
        | some f => if bad = some f.sel then t else t.returnStaged b
        | none => t).CoherentBut b := by
    intro t ht
    repeat' split
    · exact ht
    · exact but_congr (fun c _ => seqOf_returnStaged _ b c) ht
    · exact ht
  refine h1 _ ?_
  repeat' split
  · exact h
  · exact but_retireLive s b _ h
  · exact h

theorem coherent_writeFault (s : State) (b : BankNo) (sel : Selector) (field : Nat)
    (cls : FaultClass) (sub : Subcode) (h : s.BanksCoherent) :
    (s.writeFault b sel field cls sub).BanksCoherent := by
  unfold State.writeFault
  dsimp only
  have h1 : ((s.reportFault b cls sub sel field .boundary).withholdWrites b sel).BanksCoherent :=
    coherent_congr (fun c => by simp) h
  split
  · exact coherent_haltBank _ b _ (coherentBut_of _ h1 b)
  · exact h1

/-! ### Fetching -/

/-- A fetch that has failed. -/
theorem coherent_failFetch (s : State) (b : BankNo) (f : Fetch) (h : s.CoherentBut b)
    (hb : f.role = .successor → (s.seqOf b).Coherent ∧ (s.seqOf b).tag = .pending) :
    (s.failFetch b f.role).BanksCoherent := by
  unfold State.failFetch
  dsimp only
  have h1 : (s.modSeq b fun q => { q with fetch := none }).CoherentBut b :=
    but_congr (fun _ hc => seqOf_modSeq_ne _ _ hc) h
  cases hr : f.role with
  | head => exact coherent_haltBank _ b none h1
  | successor =>
    refine coherent_modSeq _ b _ h1 ?_
    rw [seqOf_modSeq_same]
    obtain ⟨hc, ht⟩ := hb hr
    have hw : (s.seqOf b).plan ≠ .waiting := by
      intro hw; have := hc.2.2.2.2.2.1 hw; simp_all
    simp only [Sequencer.Coherent] at hc ⊢
    simp_all

theorem coherent_fetchFault (s : State) (b : BankNo) (f : Fetch) (cls : FaultClass) (sub : Subcode)
    (field : Nat) (h : s.CoherentBut b)
    (hb : f.role = .successor → (s.seqOf b).Coherent ∧ (s.seqOf b).tag = .pending) :
    (s.fetchFault b f cls sub field).BanksCoherent :=
  coherent_failFetch _ b f (but_congr (fun c _ => seqOf_reportFault _ b c _ _ _ _ _) h)
    (by simpa using hb)

/-- A coherent bank with a fetch in flight, as the failure of that fetch needs it. -/
theorem fetch_pending (s : State) (b : BankNo) (f : Fetch) (h : s.BanksCoherent)
    (hf : (s.bank b).seq.fetch = some f) :
    f.role = .successor → (s.seqOf b).Coherent ∧ (s.seqOf b).tag = .pending := by
  intro hr
  refine ⟨h b, ?_⟩
  obtain ⟨_, _, _, _, _, _, _, hq, _⟩ := h b
  rcases hq f hf with h | h
  · simp_all
  · exact h.2

theorem coherent_stageFrame (s : State) (b : BankNo) (f : Fetch) (copy : FrameCopy)
    (h : s.BanksCoherent) (hf : (s.bank b).seq.fetch = some f) :
    (s.stageFrame b f copy).BanksCoherent := by
  have key : ∀ t : State, (∀ c, t.seqOf c = s.seqOf c) →
      ((t.modSeq b fun q => { q with fetch := some { f with copy := some copy } }).requestFrame b
        (.state copy.sel .staged)).BanksCoherent := by
    intro t ht
    refine coherent_congr (fun c => seqOf_requestFrame _ b c _)
      (coherent_modSeq t b _ (but_congr (fun c _ => ht c) (coherentBut_of s h b)) ?_)
    rw [ht]
    obtain ⟨h1, h2, h3, h4, h5, h6, h7, h8, h9, h10⟩ := h b
    refine ⟨h1, h2, h3, h4, h5, h6, fun _ => rfl, ?_, h9, h10⟩
    intro g hg
    obtain rfl : { f with copy := some copy } = g := by simpa using hg
    exact h8 f hf
  unfold State.stageFrame
  dsimp only
  apply key
  intro c
  repeat' split
  all_goals simp

theorem seqOf_holdStaged (s : State) (b : BankNo) (copy : FrameCopy) :
    (s.holdStaged b copy).seqOf b = { s.seqOf b with
      fetch := none, tag := .valid, staged := some copy,
      latch := if copy.start = .now then .disarmed else .armed, awaited := copy.awaits } :=
  seqOf_modSeq_same _ _ _

theorem coherent_stagedIssued (s : State) (b : BankNo) (h : s.BanksCoherent) :
    (s.stagedIssued b).BanksCoherent := by
  have hb := h b
  have hbut (copy : FrameCopy) : (s.holdStaged b copy).CoherentBut b :=
    but_congr (fun c hc => seqOf_modSeq_ne _ _ hc) (coherentBut_of s h b)
  unfold State.stagedIssued
  split
  · rename_i sel hd hf copy hfetch
    have hrole := hb.2.2.2.2.2.2.2.1 _ hfetch
    refine banksCoherent_of _ b (hbut copy) ?_
    rw [seqOf_holdStaged]
    have hpend : (s.seqOf b).tag = .pending := by
      rcases hrole with hx | hx
      · simp at hx
      · exact hx.2
    have hw : (s.seqOf b).plan ≠ .waiting := by
      intro hw; have := hb.2.2.2.2.2.1 hw; simp_all
    by_cases hnow : copy.start = .now <;>
      simp only [State.seqOf, Sequencer.Coherent] at hb hpend hw ⊢ <;> simp_all
  · rename_i sel hd hf copy hfetch
    have hload : (s.seqOf b).plan = .loading := by
      rcases hb.2.2.2.2.2.2.2.1 _ hfetch with hx | hx
      · exact hx.2
      · simp at hx
    have hbare := loading_bare _ hb hload
    split
    · refine coherent_startOwn _ b copy false (hbut copy) ?_
      rw [seqOf_holdStaged]
      exact ⟨rfl, hbare.2.2.1, hbare.2.2.2⟩
    · rename_i hnow
      unfold State.enterWaiting
      refine coherent_congr (fun c => seqOf_refreshPins _ b c) (banksCoherent_of _ b ?_ ?_)
      · exact but_congr (fun c hc => seqOf_modBank_ne _ _ hc) (hbut copy)
      · rw [seqOf_modBank_same]
        change ({ (s.holdStaged b copy).seqOf b with
          plan := .waiting, live := none, timer := _ } : Sequencer).Coherent
        rw [seqOf_holdStaged]
        simp [Sequencer.Coherent, PlanState.isRunning, hnow, State.seqOf, hbare]
  · exact h

theorem coherent_frameVerdict (s : State) (b : BankNo) (f : Fetch) (v : FrameVerdict)
    (h : s.BanksCoherent) (hf : (s.bank b).seq.fetch = some f) :
    (s.frameVerdict b f v).BanksCoherent := by
  unfold State.frameVerdict
  split
  · exact coherent_stageFrame s b f _ h hf
  · dsimp only
    rename_i cls sub field rejected clamped
    have hx : ∀ t : State, (∀ c, t.seqOf c = s.seqOf c) →
        (t.fetchFault b f cls sub field).BanksCoherent := by
      intro t ht
      refine coherent_fetchFault t b f cls sub field
        (but_congr (fun c _ => ht c) (coherentBut_of s h b)) ?_
      rw [ht b]; exact fetch_pending s b f h hf
    apply hx
    intro c
    repeat' split
    all_goals simp

theorem coherent_fetchEmpty (s : State) (b : BankNo) (f : Fetch) (h : s.BanksCoherent)
    (hf : (s.bank b).seq.fetch = some f) : (s.fetchEmpty b f.role).BanksCoherent := by
  unfold State.fetchEmpty
  have hb := h b
  have hrole := hb.2.2.2.2.2.2.2.1 f hf
  cases hr : f.role with
  | head =>
    refine coherent_modSeq s b _ (coherentBut_of s h b) ?_
    have hbare := loading_bare _ hb (by simp_all)
    simp only [State.seqOf, Sequencer.Coherent] at hb ⊢
    simp_all [PlanState.isRunning]
  | successor =>
    refine coherent_modSeq s b _ (coherentBut_of s h b) ?_
    have hpend : (s.bank b).seq.tag = .pending := by simp_all
    have hw : (s.bank b).seq.plan ≠ .waiting := by
      intro hw; have := hb.2.2.2.2.2.1 hw; simp_all
    have hlat : (s.bank b).seq.latch = .disarmed := by
      by_contra hc; have := hb.2.2.2.1 hc; simp_all
    have hlink : (s.bank b).seq.linkRead = false := by
      cases hq : (s.bank b).seq.linkRead with
      | false => rfl
      | true => have := hb.2.2.2.2.2.2.2.2.1 hq; simp_all
    simp only [State.seqOf, Sequencer.Coherent] at hb ⊢
    simp_all

theorem coherent_judgeHeader (s : State) (b : BankNo) (f : Fetch) (hd : Header)
    (h : s.BanksCoherent) (hf : (s.bank b).seq.fetch = some f) :
    (s.judgeHeader b f hd).BanksCoherent := by
  unfold State.judgeHeader
  split
  · exact coherent_fetchEmpty s b f h hf
  · exact coherent_frameVerdict s b f _ h hf
  · split
    · exact coherent_frameVerdict s b f _ h hf
    · refine coherent_congr (fun c => seqOf_requestFrame _ b c _)
        (coherent_modSeq s b _ (coherentBut_of s h b) ?_)
      have hb := h b
      have hrole := hb.2.2.2.2.2.2.2.1 f hf
      simp only [State.seqOf, Sequencer.Coherent] at hb ⊢
      simp_all

theorem coherent_judgeEntries (s : State) (b : BankNo) (f : Fetch) (hd : Header) (bs : List Byte)
    (h : s.BanksCoherent) (hf : (s.bank b).seq.fetch = some f) :
    (s.judgeEntries b f hd bs).BanksCoherent := by
  unfold State.judgeEntries
  split
  · exact coherent_frameVerdict s b f _ h hf
  · exact h

/-- The tag becomes REJECTED under a running bank that holds no successor. -/
theorem coherent_linkFault (s : State) (b : BankNo) (cls : FaultClass) (sub : Subcode)
    (h : s.BanksCoherent) (hr : (s.seqOf b).plan.isRunning = true) (ht : (s.seqOf b).tag = .empty) :
    (s.linkFault b cls sub).BanksCoherent := by
  unfold State.linkFault
  refine coherent_modSeq _ b _
    (but_congr (fun c _ => seqOf_reportFault _ b c _ _ _ _ _) (coherentBut_of s h b)) ?_
  rw [seqOf_reportFault]
  have hb := h b
  have hw : (s.seqOf b).plan ≠ .waiting := by
    intro hw; simp [hw, PlanState.isRunning] at hr
  simp only [State.seqOf, Sequencer.Coherent, Sequencer.linkDone] at hb ht hr hw ⊢
  simp_all

theorem coherent_judgeLink (s : State) (b : BankNo) (link : Selector) (h : s.BanksCoherent)
    (hl : (s.bank b).seq.linkRead = true) : (s.judgeLink b link).BanksCoherent := by
  unfold State.judgeLink
  dsimp only
  have hb := h b
  have hrun : (s.bank b).seq.plan.isRunning = true ∧ (s.bank b).seq.tag = .empty :=
    hb.2.2.2.2.2.2.2.2.1 hl
  have h1 : (s.modSeq b fun q => q.recordLink link).BanksCoherent := by
    refine coherent_modSeq s b _ (coherentBut_of s h b) ?_
    simp only [State.seqOf, Sequencer.Coherent, Sequencer.recordLink, Sequencer.linkDone] at hb ⊢
    simp_all
  have h2 : (s.modSeq b fun q => q.recordLink link).seqOf b = (s.bank b).seq.recordLink link :=
    seqOf_modSeq_same s b _
  split
  · exact h1
  · split
    · refine coherent_linkFault _ b _ _ h1 ?_ ?_
      · rw [h2]; exact hrun.1
      · rw [h2]; exact hrun.2
    · unfold State.fetchFrame
      refine coherent_congr (fun c => seqOf_requestFrame _ b c _) (coherent_modSeq _ b _ ?_ ?_)
      · exact but_congr (fun c hc => seqOf_modSeq_ne _ _ hc) (coherentBut_of _ h1 b)
      · rw [seqOf_modSeq_same, h2]
        have hw : (s.bank b).seq.plan ≠ .waiting := by
          intro hw; simp [hw, PlanState.isRunning] at hrun
        simp only [Sequencer.Coherent, Sequencer.recordLink, Sequencer.linkDone] at hb ⊢
        simp_all

/-- The head frame of a LOADING bank is fetched. -/
theorem coherent_fetchHead (s : State) (b : BankNo) (h : s.BanksCoherent)
    (hp : (s.seqOf b).plan = .loading) : (s.fetchHead b).BanksCoherent := by
  unfold State.fetchHead
  dsimp only
  split
  · refine coherent_fetchFault s b _ _ _ _ (coherentBut_of s h b) ?_
    intro hr; simp at hr
  · unfold State.fetchFrame
    refine coherent_congr (fun c => seqOf_requestFrame _ b c _)
      (coherent_modSeq s b _ (coherentBut_of s h b) ?_)
    have hb := h b
    simp only [State.seqOf, Sequencer.Coherent] at hb hp ⊢
    simp_all

/-! ### Checks -/

theorem coherent_accessFault (s : State) (b : BankNo) (a : FrameAccess) (cls : FaultClass)
    (sub : Subcode) (h : s.BanksCoherent) : (s.accessFault b a cls sub).BanksCoherent := by
  unfold State.accessFault
  split
  · split
    · rename_i f hf
      exact coherent_fetchFault s b f _ _ _ (coherentBut_of s h b) (fetch_pending s b f h hf)
    · exact h
  · split
    · rename_i f hf
      exact coherent_fetchFault s b f _ _ _ (coherentBut_of s h b) (fetch_pending s b f h hf)
    · exact h
  · split
    · rename_i hl
      have := (h b).2.2.2.2.2.2.2.2.1 hl
      exact coherent_linkFault s b _ _ h this.1 this.2
    · exact h
  · exact coherent_writeFault s b _ _ _ _ h
  · exact coherent_writeFault s b _ _ _ _ h
  · exact h

theorem coherent_reqChecked (s : State) (b : BankNo) (r : FrameReq) (c : CheckResult)
    (h : s.BanksCoherent) : (s.reqChecked b r c).BanksCoherent := by
  unfold State.reqChecked
  split
  · exact coherent_congr (fun c => seqOf_modBank s b c _ rfl) h
  · exact coherent_congr (fun c => seqOf_modBank s b c _ rfl) h
  · exact coherent_accessFault _ b _ _ _ (coherent_congr (fun c => seqOf_modBank s b c _ rfl) h)

theorem coherent_checkNext (s : State) (b : BankNo) (h : s.BanksCoherent) :
    (s.checkNext b).BanksCoherent := by
  unfold State.checkNext
  split
  · exact coherent_reqChecked _ b _ _ (coherent_congr (fun c => seqOf_windowCheck s b c _ _ _ _ _ _) h)
  · exact h

theorem coherent_bankWaited (s : State) (b : BankNo) (a : FrameAccess) (d : Option Descriptor)
    (h : s.BanksCoherent) : (s.bankWaited b a d).BanksCoherent := by
  unfold State.bankWaited
  split
  · exact coherent_reqChecked s b _ _ h
  · exact coherent_accessFault _ b _ _ _ (coherent_congr (fun c => seqOf_modBank s b c _ rfl) h)

/-! ### Passes and boundaries -/

theorem coherent_matchCue (s : State) (b : BankNo) (h : s.BanksCoherent) :
    (s.matchCue b).BanksCoherent := by
  unfold State.matchCue
  split
  · exact coherent_emit s b _ h
  · exact h

theorem coherent_advanceCounter (s : State) (b : BankNo) (count : Nat) (dir : Direction)
    (h : s.BanksCoherent) : (s.advanceCounter b count dir).BanksCoherent :=
  coherent_matchCue _ b (coherent_congr
    (fun c => by rw [seqOf_refreshPins]; exact seqOf_modBank s b c _ rfl) h)

/-- An update of the live frame context alone. -/
theorem coherent_modLive (q : Sequencer) (f : Live → Live) (h : q.Coherent) :
    (q.modLive f).Coherent := by
  simp only [Sequencer.Coherent, Sequencer.modLive] at h ⊢
  simp_all

theorem coherent_passEnd (s : State) (b : BankNo) (h : s.BanksCoherent) :
    (s.passEnd b).BanksCoherent := by
  unfold State.passEnd
  dsimp only
  refine coherent_congr (fun c => seqOf_releaseGate _ b c) (coherent_emit _ b _ ?_)
  refine banksCoherent_of _ b ?_ ?_
  · exact but_congr (fun c hc => seqOf_modBank_ne _ _ hc) (coherentBut_of s h b)
  · rw [seqOf_modBank_same]; exact coherent_modLive _ _ (h b)

/-- A boundary leaves a running bank in its plan state. -/
theorem plan_passEnd (s : State) (b : BankNo) (h : (s.seqOf b).plan.isRunning = true) :
    ((s.passEnd b).seqOf b).plan = (s.seqOf b).plan := by
  unfold State.passEnd
  dsimp only
  rw [seqOf_releaseGate]
  have h1 : ∀ t : State, t.seqOf b = (s.seqOf b).modLive (fun v => { v with passes := satInc v.passes }) →
      ((t.emit b .boundary).seqOf b).plan = (s.seqOf b).plan := by
    intro t ht
    unfold State.emit
    rw [running_offer _ _ _ _ (by rw [ht]; exact h), ht]
    rfl
  exact h1 _ (seqOf_modBank_same s b _)

theorem coherent_nextPass (s : State) (b : BankNo) (h : s.BanksCoherent) :
    (s.nextPass b).BanksCoherent := by
  unfold State.nextPass
  dsimp only
  refine coherent_matchCue _ b (coherent_congr (fun c => seqOf_refreshPins _ b c)
    (coherent_readLink _ b ?_))
  exact coherent_congr (fun c => seqOf_modBank s b c _ rfl) h

theorem coherent_innerBoundary (s : State) (b : BankNo) (h : s.BanksCoherent) :
    (s.innerBoundary b).BanksCoherent := by
  unfold State.innerBoundary
  dsimp only
  have h1 := coherent_passEnd s b h
  split
  · exact coherent_stopBank _ b _ (coherentBut_of _ h1 b)
  · exact coherent_nextPass _ b (coherent_modSeq _ b _ (coherentBut_of _ h1 b)
      (coherent_modLive _ _ (h1 b)))

theorem coherent_extendLive (s : State) (b : BankNo) (h : s.BanksCoherent) :
    (s.extendLive b).BanksCoherent :=
  coherent_modSeq _ b _ (coherentBut_of s h b) (coherent_modLive _ _ (h b))

theorem coherent_late (s : State) (b : BankNo) (h : s.BanksCoherent) : (s.late b).BanksCoherent := by
  unfold State.late
  split
  · exact coherent_nextPass _ b (coherent_extendLive _ b
      (coherent_congr (fun c => seqOf_markSticky s b c _) h))
  · exact coherent_haltBank _ b _ (but_retireLive _ b _
      (but_congr (fun c _ => seqOf_reportFault _ b c _ _ _ _ _) (coherentBut_of s h b)))

/-- A VALID successor of a running bank is taken at a boundary without a pending stop. -/
theorem coherent_takeSuccessor (s : State) (b : BankNo) (f : FrameCopy) (h : s.BanksCoherent)
    (ht : (s.seqOf b).tag = .valid) (hf : (s.seqOf b).staged = some f)
    (hp : (s.seqOf b).pendingStop = false) : (s.takeSuccessor b f).BanksCoherent := by
  unfold State.takeSuccessor
  dsimp only
  have hbut := but_retireLive s b .spent (coherentBut_of s h b)
  have hown := seqOf_retireLive_same s b .spent
  have hb : (s.seqOf b).Coherent := h b
  have hq := valid_quiet _ hb ht
  split
  · refine coherent_startOwn _ b f false hbut ?_
    rw [hown]
    exact ⟨hq.1, hq.2.1, hp⟩
  · rename_i hn
    unfold State.enterWaiting
    refine coherent_congr (fun c => seqOf_refreshPins _ b c) (banksCoherent_of _ b ?_ ?_)
    · exact but_congr (fun c hc => seqOf_modBank_ne _ _ hc) hbut
    · rw [seqOf_modBank_same]
      change ({ (s.retireLive b .spent).seqOf b with
        plan := .waiting, live := none, timer := _ } : Sequencer).Coherent
      have hl : (s.seqOf b).latch = .armed := by
        have h1 := hb.2.2.2.2.1 f hf
        have h2 : ((s.retireLive b .spent).bank b).seq.latch = (s.seqOf b).latch := by
          have := congrArg Sequencer.latch hown
          simpa [State.seqOf] using this
        rw [h2] at hn
        cases hq : (s.seqOf b).latch <;> simp_all
      rw [hown]
      simp [Sequencer.Coherent, PlanState.isRunning, hq.1, hq.2.1, hl, hp, ht, hf]

theorem coherent_finalDecision (s : State) (b : BankNo) (v : Live) (h : s.BanksCoherent)
    (hr : (s.seqOf b).plan.isRunning = true) (hp : (s.seqOf b).pendingStop = false) :
    (s.finalDecision b v).BanksCoherent := by
  unfold State.finalDecision
  dsimp only
  split
  · rename_i f ht hf
    exact coherent_takeSuccessor s b f h ht hf hp
  · exact h
  · exact coherent_haltBank _ b _ (but_retireLive s b _ (coherentBut_of s h b))
  · exact coherent_late s b h
  · split
    · exact coherent_late s b h
    · split
      · refine coherent_nextPass _ b (coherent_extendLive _ b
          (coherent_modSeq s b _ (coherentBut_of s h b) ?_))
        have hb := h b
        have hw : (s.seqOf b).plan ≠ .waiting := by
          intro hw; simp [hw, PlanState.isRunning] at hr
        have hl : (s.seqOf b).plan ≠ .loading := by
          intro hw; simp [hw, PlanState.isRunning] at hr
        simp only [State.seqOf, Sequencer.Coherent, PlanState.isRunning] at hb hr hw hl ⊢
        simp_all
        exact hr.imp of_decide_eq_true of_decide_eq_true
      · exact coherent_endPlan _ b _ _ (Or.inl rfl) (but_retireLive s b _ (coherentBut_of s h b))

theorem coherent_cueTimeout (s : State) (b : BankNo) (f : FrameCopy) (h : s.BanksCoherent)
    (hw : (s.seqOf b).plan = .waiting) : (s.cueTimeout b f).BanksCoherent := by
  unfold State.cueTimeout
  dsimp only
  have hbut : (s.modSeq b fun q =>
      { q with latch := .disarmed, awaited := none, timer := none }).CoherentBut b :=
    but_congr (fun c hc => seqOf_modSeq_ne _ _ hc) (coherentBut_of s h b)
  split
  · refine coherent_startOwn _ b f true
      (but_congr (fun c _ => seqOf_markSticky _ b c _) hbut) ?_
    rw [seqOf_markSticky, seqOf_modSeq_same]
    exact waiting_ready (s.seqOf b) (h b) hw
  · exact coherent_haltBank _ b _ (but_congr (fun c _ => seqOf_reportFault _ b c _ _ _ _ _) hbut)

end Sys2Proof.Machine
end

