-- ==== Sys2Proof/Laws/Steps.lean ====
section
/-! SUPPORT. What a command can answer, by the shape of its meaning: a property of states that the
effects of a shape keep is kept by every command of that shape. -/

namespace Sys2Proof.Machine

/-- In every next state that an outcome gives, `P` holds. -/
def Gives (P : State → Prop) (o : Out) : Prop := ∀ t, o = .next t → P t

theorem gives_next {P : State → Prop} {t : State} (h : P t) : Gives P (.next t) := by
  intro u hu; cases hu; exact h

theorem gives_unlessReset {P : State → Prop} {s : State} {f : State → State} (h : P s)
    (hf : s.resetHeld = false → P (f s)) : Gives P (unlessReset s f) := by
  refine gives_next ?_
  split
  · exact h
  · rename_i hr; exact hf (by simpa using hr)

theorem taking_of {P : State → Prop} {s : State} {kind : Word → Bool} {f : Word → State → State}
    (h : P s)
    (hf : ∀ w, s.takeable = some w → kind w = true → P (s.concludeLight (f w (s.takeHead w)))) :
    P (s.taking kind f) := by
  unfold State.taking
  split
  · rename_i w hw
    split
    · rename_i hk; exact hf w hw hk
    · exact h
  · exact h

theorem takingFull_of {P : State → Prop} {s : State} {kind : Word → Bool}
    {f : Word → State → State} (h : P s)
    (hf : ∀ w, s.takeable = some w → kind w = true → P (s.conclude (f w (s.takeHead w)))) :
    P (s.takingFull kind f) := by
  unfold State.takingFull
  split
  · rename_i w hw
    split
    · rename_i hk; exact hf w hw hk
    · exact h
  · exact h

theorem forBank_of {P : State → Prop} {w : Word} {s : State} {f : BankNo → State}
    (h : P (s.answer .refusedTarget .nothing)) (hf : ∀ b, P (f b)) : P (State.forBank w s f) := by
  unfold State.forBank; split
  · exact hf _
  · exact h

theorem forLine_of {P : State → Prop} {w : Word} {s : State} {f : LineNo → State}
    (h : P (s.answer .refusedTarget .nothing)) (hf : ∀ b, P (f b)) : P (State.forLine w s f) := by
  unfold State.forLine; split
  · exact hf _
  · exact h

theorem forJournal_of {P : State → Prop} {w : Word} {s : State} {f : JournalNo → State}
    (h : P (s.answer .refusedTarget .nothing)) (hf : ∀ b, P (f b)) :
    P (State.forJournal w s f) := by
  unfold State.forJournal; split
  · exact hf _
  · exact h

theorem arrive_of {P : State → Prop} {s : State} {place : Fin 4}
    {f : OutRead → Option (State → State)} (h : P s) (hd : P (s.dropRead place))
    (hf : ∀ r g, s.readAt place = some r → f r = some g → P (s.conclude (g (s.dropRead place)))) :
    P (s.arrive place f) := by
  unfold State.arrive
  split
  · rename_i r hr
    split
    · rename_i g hg
      split
      · exact hd
      · exact hf r g hr hg
    · exact h
  · exact h

theorem respond_of {P : State → Prop} {s : State} {f : OutWrite → Option (State → State)}
    (h : P s)
    (hf : ∀ w rest g, s.port.writes = w :: rest → f w = some g → P (s.conclude (g s.dropWrite))) :
    P (s.respond f) := by
  unfold State.respond
  split
  · rename_i w rest hw
    split
    · rename_i g hg; exact hf w rest g hw hg
    · exact h
  · exact h

/-- What every command does to a state but for the queue, a step does: to the rest of the queue, or
to a state in which time goes on. -/
theorem step_of {P : State → Prop} (hp : ∀ s q, P s → P { s with pending := q })
    (hd : ∀ s, P s → P s.drawn) (hx : ∀ c s, P s → Gives P (exec c s))
    (ht : ∀ s, P s → P s.advanceTick) (s : State) (h : P s) : Gives P (step s) := by
  unfold step
  split
  · exact hx _ _ (hp _ _ h)
  · unfold idle
    split
    · exact hx _ _ (hd _ h)
    · exact gives_next (ht _ h)

/-- `fold`ing operations that keep a property keeps it. -/
theorem foldl_of {α : Type} {P : State → Prop} {f : State → α → State}
    (h : ∀ s a, P s → P (f s a)) (l : List α) (s : State) (hs : P s) : P (l.foldl f s) := by
  induction l generalizing s with
  | nil => exact hs
  | cons a l ih => exact ih _ (h _ _ hs)

end Sys2Proof.Machine
end

