-- ==== Sys2Proof/Laws/CoherentSteps.lean ====
section
/-! SUPPORT. The effects of whole commands on the Plan Sequencers: each keeps what the plan state
fixes (`Sequencer.Coherent`). -/

namespace Sys2Proof.Machine

theorem seqOf_of_banks {s t : State} (h : t.banks = s.banks) (c : BankNo) : t.seqOf c = s.seqOf c := by
  simp only [State.seqOf, State.bank, h]

theorem coherent_of_banks {s t : State} (h : t.banks = s.banks) (hs : s.BanksCoherent) :
    t.BanksCoherent := coherent_congr (seqOf_of_banks h) hs

/-! ### The end of a step -/

theorem coherent_settle (n : Nat) (s : State) (h : s.BanksCoherent) : (settle n s).BanksCoherent := by
  induction n generalizing s with
  | zero => exact h
  | succ n ih =>
    unfold settle
    split
    · exact ih _ (coherent_checkNext s _ h)
    · split
      · exact ih _ (coherent_of_banks (banks_continueClose s _) h)
      · exact h

@[simp] theorem banks_noteStatuses (before s : State) : (before.noteStatuses s).banks = s.banks := by
  have h : ∀ t b, (before.noteBank t b).banks = t.banks := by
    intro t b; unfold State.noteBank; split <;> simp
  simp [State.noteStatuses, h]

@[simp] theorem banks_offerReply (s : State) : s.offerReply.banks = s.banks := by
  unfold State.offerReply; repeat' split
  all_goals simp

@[simp] theorem banks_concludeLight (before s : State) :
    (before.concludeLight s).banks = s.banks := by
  simp [State.concludeLight]

theorem coherent_concludeLight (before s : State) (h : s.BanksCoherent) :
    (before.concludeLight s).BanksCoherent := coherent_of_banks (banks_concludeLight before s) h

theorem coherent_conclude (before s : State) (h : s.BanksCoherent) :
    (before.conclude s).BanksCoherent := coherent_concludeLight _ _ (coherent_settle _ s h)

/-! ### Requests -/

theorem coherent_stopNow (s : State) (b : BankNo) (h : s.BanksCoherent) :
    (s.stopNow b).BanksCoherent :=
  coherent_of_banks (banks_answer _ _ _) (coherent_stopBank s b _ (coherentBut_of s h b))

theorem coherent_bankStop (s : State) (now : Bool) (b : BankNo) (h : s.BanksCoherent) :
    (s.bankStop now b).BanksCoherent := by
  unfold State.bankStop
  dsimp only
  repeat' split
  · exact coherent_stopNow s b h
  · refine coherent_of_banks (banks_answer _ _ _) (coherent_modSeq s b _ (coherentBut_of s h b) ?_)
    have hb := h b
    simp only [State.seqOf, Sequencer.Coherent] at hb ⊢
    simp_all
  · exact coherent_stopNow s b h
  · exact coherent_of_banks (banks_answer _ _ _) h

theorem coherent_bankLook (s : State) (b : BankNo) (h : s.BanksCoherent) :
    (s.bankLook b).BanksCoherent := by
  unfold State.bankLook
  repeat' split
  · rename_i hm
    refine coherent_of_banks (banks_answer _ _ _) (coherent_fetchHead s b h ?_)
    simp only [Sequencer.mayReadHead, Bool.and_eq_true, decide_eq_true_eq] at hm
    exact hm.1
  · exact coherent_of_banks (banks_answer _ _ _) (coherent_readLink s b h)
  · exact coherent_of_banks (banks_answer _ _ _) h

theorem coherent_bankRearm (s : State) (b : BankNo) (h : s.BanksCoherent) :
    (s.bankRearm b).BanksCoherent := by
  unfold State.bankRearm
  dsimp only
  repeat' split
  · exact coherent_of_banks (banks_answer _ _ _) h
  · exact coherent_of_banks (banks_answer _ _ _) (coherent_congr (fun c => by simp) h)
  · exact coherent_of_banks (banks_answer _ _ _) h
  · refine coherent_of_banks (banks_answer _ _ _) (coherent_congr (fun c => ?_) h)
    unfold State.rearmManual
    dsimp only
    repeat' split
    all_goals simp

theorem coherent_bankTrip (s : State) (b : BankNo) (h : s.BanksCoherent) :
    (s.bankTrip b).BanksCoherent :=
  coherent_of_banks (banks_answer _ _ _) (coherent_congr (fun c => by simp) h)

theorem coherent_bankAck (s : State) (b : BankNo) (h : s.BanksCoherent) :
    (s.bankAck b).BanksCoherent := by
  unfold State.bankAck
  refine coherent_of_banks (banks_answer _ _ _) (coherent_modSeq _ b _
    (coherentBut_of _ (coherent_congr (fun c => seqOf_modFaults s b c _) h) b) ?_)
  rw [seqOf_modFaults]
  have hb := h b
  by_cases hp : (s.bank b).seq.plan = .halted
  · have hq := inactive_bare _ hb (Or.inr hp)
    simp [State.seqOf, Sequencer.Coherent, PlanState.isRunning, hp, hq]
  · simpa [State.seqOf, hp] using hb

/-- A startable bank holds nothing, and is coherent once its start is accepted. -/
theorem coherent_acceptStart (s : State) (b : BankNo) (r : BankRecord) (auto : Bool)
    (h : s.BanksCoherent) (hd : (s.bank b).startable = true) :
    (s.acceptStart b r auto).BanksCoherent := by
  unfold State.acceptStart
  have hp : (s.bank b).seq.plan = .dormant := by
    simp only [Bank.startable, Bool.and_eq_true, decide_eq_true_eq] at hd; exact hd.1
  have h2 : (s.modBank b fun k => k.accept r auto).seqOf b = (s.bank b).seq.accept r := by
    rw [seqOf_modBank_same]; rfl
  have h1 : (s.modBank b fun k => k.accept r auto).BanksCoherent := by
    refine banksCoherent_of _ b (but_congr (fun c hc => seqOf_modBank_ne s _ hc)
      (coherentBut_of s h b)) ?_
    rw [h2]
    have hq := inactive_bare _ (h b) (Or.inl hp)
    simp [Sequencer.Coherent, Sequencer.accept, PlanState.isRunning, hq]
  refine coherent_fetchHead _ b (coherent_of_banks (banks_answer _ _ _)
    (coherent_congr (fun c => by simp) h1)) ?_
  rw [seqOf_of_banks (banks_answer _ _ _), seqOf_refreshPins, seqOf_judgeGate, h2]
  rfl

theorem coherent_bankRecordArrived (s : State) (b : BankNo) (a : Option (List Byte))
    (h : s.BanksCoherent) : (s.bankRecordArrived b a).BanksCoherent := by
  have hx : ∀ r, (s.answer r .nothing).BanksCoherent :=
    fun r => coherent_of_banks (banks_answer s r _) h
  unfold State.bankRecordArrived
  split
  · exact coherent_of_banks (by simp) h
  · split
    · exact hx _
    · split
      · exact hx _
      · split
        · rename_i hd; exact coherent_acceptStart s b _ _ h hd
        · exact hx _

theorem coherent_loadLine (s : State) (l : LineNo) (cfg : LineConfig) (h : s.BanksCoherent) :
    (s.loadLine l cfg).BanksCoherent := by
  refine coherent_congr (fun c => ?_) h
  unfold State.loadLine
  dsimp only
  rw [seqOf_judgeGates, seqOf_of_banks (banks_requestLineStatus _ _)]
  rfl

theorem coherent_lineRecordArrived (s : State) (l : LineNo) (a : Option (List Byte))
    (h : s.BanksCoherent) : (s.lineRecordArrived l a).BanksCoherent := by
  unfold State.lineRecordArrived
  repeat' split
  · exact coherent_of_banks (by simp) h
  · exact coherent_of_banks (banks_answer _ _ _) h
  · exact coherent_of_banks (banks_answer _ _ _) (coherent_loadLine s l _ h)

@[simp] theorem banks_journalRecordArrived (s : State) (j : JournalNo) (a : Option (List Byte)) :
    (s.journalRecordArrived j a).banks = s.banks := by
  unfold State.journalRecordArrived
  repeat' split
  all_goals simp [State.checkRing, State.setPhase]

@[simp] theorem banks_journalLook (s : State) (j : JournalNo) : (s.journalLook j).banks = s.banks := by
  unfold State.journalLook; split <;> simp [State.setPhase]

@[simp] theorem banks_journalClose (s : State) (j : JournalNo) :
    (s.journalClose j).banks = s.banks := by
  unfold State.journalClose; split <;> simp [State.setPhase]

/-! ### Time -/

theorem coherent_acceptEdge (s : State) (l : LineNo) (h : s.BanksCoherent) :
    (s.acceptEdge l).BanksCoherent := by
  unfold State.acceptEdge
  refine coherent_of_banks (banks_captureEdge _ _ _) (coherent_offerEdge _ _ _
    (coherent_congr (fun c => ?_) h))
  rw [seqOf_judgeGates, seqOf_of_banks (banks_requestLineStatus _ _)]
  rfl

/-- The counter at a boundary or an advance has a live frame under a running plan. -/
theorem advanceDue_running {s : State} {b : BankNo} {v : Live} (h : s.advanceDue b = some v) :
    (s.seqOf b).plan.isRunning = true := by
  unfold State.advanceDue at h
  dsimp only at h
  split at h
  · rename_i hr; simp only [Bool.and_eq_true] at hr; exact hr.1
  · cases h

theorem coherent_lastBoundary (s : State) (b : BankNo) (v : Live) (h : s.BanksCoherent)
    (hv : s.advanceDue b = some v) : (s.lastBoundary b v).BanksCoherent := by
  unfold State.lastBoundary
  have h1 := coherent_passEnd s b h
  dsimp only
  split
  · exact coherent_stopBank _ b _ (coherentBut_of _ h1 b)
  · rename_i hp
    have hr := advanceDue_running hv
    exact coherent_finalDecision _ b v h1 (by rw [plan_passEnd s b hr]; exact hr) (by simpa [State.seqOf] using hp)

theorem coherent_cueTimeout_of (s : State) (b : BankNo) (f : FrameCopy) (h : s.BanksCoherent)
    (hf : s.timeoutDue b = some f) : (s.cueTimeout b f).BanksCoherent := by
  refine coherent_cueTimeout s b f h ?_
  unfold State.timeoutDue at hf
  dsimp only at hf
  split at hf
  · rename_i hc
    simp only [Bool.and_eq_true, decide_eq_true_eq] at hc
    exact hc.1
  · cases hf

theorem seqOf_advanceTick (s : State) (b : BankNo) : s.advanceTick.seqOf b = s.seqOf b := by
  have h : ∀ k : Bank, k.tick.seq = k.seq := by
    intro k; unfold Bank.tick; dsimp only; repeat' split
    all_goals rfl
  unfold State.advanceTick
  split
  · rfl
  · have hg : ∀ q : Quad Bank, ((q.map Bank.tick).get b).seq = (q.get b).seq := by
      intro q; unfold Quad.get; dsimp only [Quad.map]; split <;> exact h _
    exact hg s.banks

/-! ### Arrivals -/

theorem coherent_fetchArrived (s : State) (b : BankNo) (f : Fetch) (r : OutRead)
    (h : s.BanksCoherent) (hf : (s.bank b).seq.fetch = some f) :
    (s.fetchArrived b f r).BanksCoherent := by
  unfold State.fetchArrived
  split
  · refine coherent_modSeq s b _ (coherentBut_of s h b) ?_
    have hb := h b
    have hrole := hb.2.2.2.2.2.2.2.1 f hf
    simp only [State.seqOf, Sequencer.Coherent] at hb ⊢
    simp_all
  · exact coherent_fetchFault s b f _ _ _ (coherentBut_of s h b) (fetch_pending s b f h hf)
  · split
    · exact coherent_judgeHeader s b f _ h hf
    · exact coherent_judgeEntries s b f _ _ h hf

theorem coherent_toFetch (s : State) (b : BankNo) (r : OutRead) (h : s.BanksCoherent) :
    (State.toFetch b r s).BanksCoherent := by
  unfold State.toFetch
  split
  · rename_i f hf; exact coherent_fetchArrived s b f r h hf
  · exact h

theorem coherent_linkArrived (s : State) (b : BankNo) (a : Option (List Byte))
    (h : s.BanksCoherent) : (s.linkArrived b a).BanksCoherent := by
  unfold State.linkArrived
  split
  · rename_i hl
    split
    · have := (h b).2.2.2.2.2.2.2.2.1 hl
      exact coherent_linkFault s b _ _ h this.1 this.2
    · exact coherent_judgeLink s b _ h hl
  · exact h

@[simp] theorem banks_journalWaited (s : State) (j : JournalNo) (d : Option Descriptor) :
    (s.journalWaited j d).banks = s.banks := by
  unfold State.journalWaited; dsimp only; repeat' split
  all_goals simp

@[simp] theorem banks_ringWaited (s : State) (j : JournalNo) (d : Option Descriptor) :
    (s.ringWaited j d).banks = s.banks := by
  unfold State.ringWaited; repeat' split
  all_goals simp

theorem coherent_waited (s : State) (d : Option Descriptor) (r : Requester) (h : s.BanksCoherent) :
    (State.waited d s r).BanksCoherent := by
  unfold State.waited
  split
  · exact coherent_bankWaited s _ _ d h
  · exact coherent_of_banks (banks_journalWaited s _ d) h
  · exact coherent_of_banks (banks_ringWaited s _ d) h

theorem coherent_loadDone (s : State) (x : Load) (d : Option Descriptor) (h : s.BanksCoherent) :
    (s.loadDone x d).BanksCoherent := by
  refine foldl_of (fun s r hs => ?_) _ _ h
  split
  · exact coherent_waited s d r hs
  · exact hs

theorem seqOf_requestLoad (s : State) (r : Requester) (index : Byte) (b : BankNo) :
    (s.requestLoad r index).seqOf b = s.seqOf b := by
  unfold State.requestLoad
  split
  · exact seqOf_modBank s _ b _ rfl
  · rfl
  · rfl

theorem coherent_loadArrived (s : State) (index : Byte) (a : Option (List Byte))
    (h : s.BanksCoherent) : (s.loadArrived index a).BanksCoherent := by
  unfold State.loadArrived
  dsimp only
  repeat' split
  · exact h
  · exact h
  · exact coherent_congr (fun c => seqOf_requestLoad _ _ _ c) h
  · exact coherent_loadDone _ _ _ h
  · exact coherent_loadDone _ _ _ h

/-! ### Responses and issues -/

theorem coherent_frameAnswered (s : State) (b : BankNo) (sel : Selector) (retire : Bool)
    (next : Option FrameState) (error : Bool) (h : s.BanksCoherent) :
    (s.frameAnswered b sel retire next error).BanksCoherent := by
  unfold State.frameAnswered
  split
  · exact coherent_writeFault s b _ _ _ _ h
  split
  · exact coherent_congr (fun c => seqOf_requestFrame s b c _) h
  · exact h

theorem coherent_frameResponse (s : State) (b : BankNo) (sel : Selector) (retire : Bool)
    (next : Option FrameState) (w : OutWrite) (h : s.BanksCoherent) :
    (s.frameResponse b sel retire next w).BanksCoherent := by
  unfold State.frameResponse
  split
  · exact coherent_frameAnswered _ b _ _ _ _ (coherent_congr (fun c => seqOf_modBank s b c _ rfl) h)
  · exact coherent_congr (fun c => seqOf_modBank s b c _ rfl) h

@[simp] theorem banks_recordResponse (s : State) (j : JournalNo) (w : OutWrite) :
    (s.recordResponse j w).banks = s.banks := by
  unfold State.recordResponse; split <;> simp

@[simp] theorem banks_issueJournal (s : State) (j : JournalNo) (r : JournalReq) (fate : Fate) :
    (s.issueJournal j r fate).banks = s.banks := by
  unfold State.issueJournal
  dsimp only
  repeat' split
  all_goals simp [State.issueRead, State.issueAnchor, State.issueWrite, State.popJournal]

@[simp] theorem banks_issueClass3 (s : State) (c : Class3) (fate : Fate) :
    (s.issueClass3 c fate).banks = s.banks := by
  unfold State.issueClass3 State.issueReply State.issueEngineStatus
  dsimp only
  repeat' split
  all_goals simp [State.issueAnchor, State.issueWrite, State.popClass3]

@[simp] theorem banks_sendFrame (s : State) (b : BankNo) (a : FrameAccess) (addr : Nat)
    (second : Bool) (fate : Fate) : (s.sendFrame b a addr second fate).banks = s.banks := by
  unfold State.sendFrame; dsimp only; split <;> rfl

theorem coherent_frameIssued (s : State) (b : BankNo) (a : FrameAccess) (h : s.BanksCoherent) :
    (s.frameIssued b a).BanksCoherent := by
  unfold State.frameIssued
  repeat' split
  · exact coherent_stagedIssued s b h
  · exact coherent_modSeq _ b _ (coherentBut_of _ h b) (h b)
  · exact h
  · exact h

theorem coherent_issueFrame (s : State) (b : BankNo) (a : FrameAccess) (addr : Nat) (second : Bool)
    (fate : Fate) (h : s.BanksCoherent) : (s.issueFrame b a addr second fate).BanksCoherent := by
  have h1 := coherent_of_banks (banks_sendFrame s b a addr second fate) h
  unfold State.issueFrame
  dsimp only
  split
  · exact coherent_frameIssued _ b a (coherent_congr (fun c => seqOf_modBank _ b c _ rfl) h1)
  · exact coherent_congr (fun c => seqOf_modBank _ b c _ rfl) h1

theorem coherent_issue (s : State) (fate : Fate) (g : Grant) (h : s.BanksCoherent) :
    (s.issue fate g).BanksCoherent := by
  unfold State.issue
  split
  · exact coherent_of_banks (banks_issueJournal s _ _ fate) h
  · exact coherent_issueFrame s _ _ _ _ fate h
  · exact coherent_of_banks (banks_issueClass3 s _ fate) h
  · exact h

/-! ### Engine Control -/

theorem coherent_reset (b : BankNo) : (State.reset.bank b).seq.Coherent := by
  have : (State.reset.bank b) = Bank.reset := by
    fin_cases b <;> rfl
  rw [this]
  simp [Bank.reset, Sequencer.reset, Sequencer.Coherent, PlanState.isRunning]

@[simp] theorem seqOf_discardLoads (s : State) (b : BankNo) : s.discardLoads.seqOf b = s.seqOf b := by
  have hg : ∀ q : Quad Bank, ((q.map Bank.dropLoads).get b).seq = (q.get b).seq := by
    intro q; unfold Quad.get; dsimp only [Quad.map]; split <;> rfl
  exact hg s.banks

theorem seqOf_enterBooting (s : State) (b : BankNo) : s.enterBooting.seqOf b = s.seqOf b := by
  unfold State.enterBooting
  dsimp only
  have key : ∀ t : State, t.seqOf b = s.seqOf b → (if t.engine.anchor.toNat % 64 ≠ 0 then
      t.anchorFault .align else { t with
        engine := { t.engine with bootRead := true }
        port := { t.port with class4 := some .boot } }).seqOf b = s.seqOf b := by
    intro t ht
    split
    · exact ht
    · exact ht
  exact key _ (seqOf_discardLoads _ b)

theorem banks_announceOn (s : State) : s.announceOn.banks = s.banks := by
  unfold State.announceOn
  dsimp only
  rw [banks_foldl _ (fun s l => ?_), banks_foldl _ (fun s b => by simp), banks_requestClass3]
  unfold State.releaseLine
  split <;> simp

theorem coherent_bootArrived (s : State) (a : Option (List Byte)) (h : s.BanksCoherent) :
    (s.bootArrived a).BanksCoherent := by
  unfold State.bootArrived
  repeat' split
  · exact h
  · exact coherent_of_banks (banks_announceOn _) h
  · exact h
  · exact h

theorem coherent_enterQuiescing (s : State) (h : s.BanksCoherent) :
    s.enterQuiescing.BanksCoherent := by
  unfold State.enterQuiescing
  dsimp only
  refine coherent_of_banks (banks_foldl _ (fun s j => ?_) _ _) (foldl_of (fun s b hs => ?_) _ _ ?_)
  · unfold State.quiesceJournal; split <;> simp
  · unfold State.quiesceBank; split
    · exact coherent_stopBank s b _ (coherentBut_of s hs b)
    · exact hs
  · exact coherent_of_banks (banks_requestClass3 _ _) h

theorem coherent_runChanged (s : State) (value : Bool) (h : s.BanksCoherent) :
    (s.runChanged value).BanksCoherent := by
  unfold State.runChanged
  split
  · exact coherent_congr (seqOf_enterBooting s) h
  · exact h
  · exact coherent_enterQuiescing s h
  · exact h
  · exact h

theorem coherent_writeRun (s : State) (value : Bool) (h : s.BanksCoherent) :
    (s.writeRun value).BanksCoherent := by
  unfold State.writeRun
  split
  · exact h
  · exact coherent_conclude _ _ (coherent_runChanged _ _ h)

theorem coherent_completeQuiesce (s : State) (fate : Fate) (h : s.BanksCoherent) :
    (s.completeQuiesce fate).BanksCoherent := by
  unfold State.completeQuiesce State.issueEngineStatus
  dsimp only
  repeat' split
  all_goals first
    | exact h
    | exact coherent_congr (seqOf_enterBooting _) h

theorem coherent_engineReset (s : State) : s.engineReset.BanksCoherent := coherent_reset

theorem coherent_resetPin (s : State) (level : Bool) (h : s.BanksCoherent) :
    (s.resetPin level).BanksCoherent := by
  unfold State.resetPin
  split
  · exact h
  · exact coherent_reset

theorem coherent_offerWord (s : State) (w : Word) (h : s.BanksCoherent) :
    (s.offerWord w).BanksCoherent := by
  unfold State.offerWord
  repeat' split
  all_goals exact h

theorem coherent_writeRegister (s : State) (offset : Nat) (w : Word) (h : s.BanksCoherent) :
    (s.writeRegister offset w).BanksCoherent := by
  unfold State.writeRegister
  split
  · unfold State.writeControl; split
    · exact coherent_engineReset s
    · exact coherent_writeRun s _ h
  · exact h
  · exact h
  · exact coherent_offerWord s w h
  all_goals exact h

end Sys2Proof.Machine
end

