-- ==== Sys2Proof/Laws/Conclude.lean ====
section
/-! SUPPORT. The end of a step: the order of its window checks and closes, the status requests it makes,
which touch the class 3 requests only, and the offer of a reply. -/

namespace Sys2Proof.Machine

/-- Only class 3 requests differ, and what they come after, and none of them has left. -/
structure MoreClass3 (s t : State) : Prop where
  eq : t = { s with port :=
    { s.port with class3 := t.port.class3, statusAfter := t.port.statusAfter } }
  mem : ∀ x ∈ s.port.class3, x ∈ t.port.class3

theorem MoreClass3.refl (s : State) : MoreClass3 s s := ⟨rfl, fun _ h => h⟩

theorem MoreClass3.trans {s t u : State} (h : MoreClass3 s t) (k : MoreClass3 t u) :
    MoreClass3 s u := by
  refine ⟨?_, fun x hx => k.mem x (h.mem x hx)⟩
  have h1 := k.eq
  rw [h.eq] at h1
  exact h1

theorem MoreClass3.keeps {s t : State} {c : Class3} (h : MoreClass3 s t)
    (hs : ∃ x ∈ s.port.class3, x.1 = c) : ∃ x ∈ t.port.class3, x.1 = c := by
  obtain ⟨x, hx, hc⟩ := hs
  exact ⟨x, h.mem x hx, hc⟩

theorem MoreClass3.reporting {s t : State} (h : MoreClass3 s t) : t.reporting = s.reporting := by
  unfold State.reporting; rw [h.eq]

theorem mem_insertClass3 {c : Class3} {x : Class3 × Bool} {l : List (Class3 × Bool)} :
    x ∈ insertClass3 c l ↔ x = (c, true) ∨ x ∈ l := by
  induction l with
  | nil => simp [insertClass3]
  | cons d r ih =>
    obtain ⟨d, fr⟩ := d
    simp only [insertClass3]
    split
    · simp
    · simp only [List.mem_cons, ih]; tauto

/-- A class 3 request touches the class 3 requests alone. -/
theorem requestClass3_eq (s : State) (c : Class3) : s.requestClass3 c =
    { s with port := { s.port with class3 := (s.requestClass3 c).port.class3 } } := by
  unfold State.requestClass3
  split <;> rfl

theorem more_requestClass3 (s : State) (c : Class3) : MoreClass3 s (s.requestClass3 c) := by
  unfold State.requestClass3
  split
  · exact MoreClass3.refl s
  · exact ⟨rfl, fun x hx => by simp [mem_insertClass3, hx]⟩

theorem more_requestBankStatus (s : State) (b : BankNo) : MoreClass3 s (s.requestBankStatus b) := by
  unfold State.requestBankStatus
  split
  · refine MoreClass3.trans (t := s.modPort fun p =>
      { p with statusAfter := p.statusAfter.set b (s.pendingWrites b) }) ?_ (more_requestClass3 _ _)
    exact ⟨rfl, fun _ h => h⟩
  · exact MoreClass3.refl s

/-- A class 3 request that has been made is among those that wait. -/
theorem requested_requestClass3 (s : State) (c : Class3) :
    ∃ x ∈ (s.requestClass3 c).port.class3, x.1 = c := by
  unfold State.requestClass3
  split
  · rename_i h
    simpa only [List.any_eq_true, decide_eq_true_eq] using h
  · exact ⟨(c, true), by simp [mem_insertClass3], rfl⟩

/-- While the engine reports, the Bank Status write asked for waits, behind the bank's pending writes
and no other (R159). -/
theorem requestBankStatus_spec (s : State) (b : BankNo) (hr : s.reporting = true) :
    (∃ x ∈ (s.requestBankStatus b).port.class3, x.1 = .bank b) ∧
      (s.requestBankStatus b).port.statusAfter = s.port.statusAfter.set b (s.pendingWrites b) := by
  unfold State.requestBankStatus
  rw [if_pos hr]
  exact ⟨requested_requestClass3 _ _, by rw [requestClass3_eq]; rfl⟩

theorem more_noteBank (a s : State) (b : BankNo) : MoreClass3 s (a.noteBank s b) := by
  unfold State.noteBank
  split
  · exact MoreClass3.refl s
  · exact more_requestBankStatus s b

theorem more_noteStatuses (a s : State) : MoreClass3 s (a.noteStatuses s) :=
  (((more_noteBank a s 0).trans (more_noteBank a _ 1)).trans (more_noteBank a _ 2)).trans
    (more_noteBank a _ 3)

/-- Where a status has changed while the engine reports, its write is requested. -/
theorem noted_noteStatuses (a s : State) (b : BankNo) (h : sameStatus (a.bank b) (s.bank b) = false)
    (hr : s.reporting = true) : ∃ x ∈ (a.noteStatuses s).port.class3, x.1 = .bank b := by
  have key : ∀ (t : State), t.banks = s.banks → t.engine = s.engine →
      ∃ x ∈ (a.noteBank t b).port.class3, x.1 = .bank b := by
    intro t hb he
    unfold State.noteBank
    rw [if_neg (by unfold State.bank at h ⊢; rw [hb, h]; simp)]
    exact (requestBankStatus_spec t b (by unfold State.reporting at hr ⊢; rw [he]; exact hr)).1
  have m0 := more_noteBank a s 0
  have m1 := m0.trans (more_noteBank a _ 1)
  have m2 := m1.trans (more_noteBank a _ 2)
  have k1 := more_noteBank a (a.noteBank s 0) 1
  have k2 := more_noteBank a (a.noteBank (a.noteBank s 0) 1) 2
  have k3 := more_noteBank a (a.noteBank (a.noteBank (a.noteBank s 0) 1) 2) 3
  unfold State.noteStatuses
  fin_cases b
  · exact ((k1.trans k2).trans k3).keeps (key s rfl rfl)
  · exact (k2.trans k3).keeps (key _ (by rw [m0.eq]) (by rw [m0.eq]))
  · exact k3.keeps (key _ (by rw [m1.eq]) (by rw [m1.eq]))
  · exact key _ (by rw [m2.eq]) (by rw [m2.eq])

/-- A step that moves no bank requests no status. -/
theorem noteStatuses_of_banks {s t : State} (h : t.banks = s.banks) : s.noteStatuses t = t := by
  have h1 : ∀ b, sameStatus (s.bank b) (t.bank b) = true := by
    intro b; unfold State.bank; rw [h]; simp [sameStatus]
  simp [State.noteStatuses, State.noteBank, h1]

/-- A request answered with nothing to wait for has its reply offered at the end of the step. -/
theorem concludeLight_answered {a s : State} {w : Word} {r : Result}
    (h : s.sweep.exec = some ⟨w, .answered r .nothing⟩) :
    MoreClass3 ((a.noteStatuses s).modSweep fun x => { x with exec := some ⟨w, .replying r⟩ })
      (a.concludeLight s) ∧ ∃ x ∈ (a.concludeLight s).port.class3, x.1 = .reply := by
  have h1 : (a.noteStatuses s).sweep.exec = some ⟨w, .answered r .nothing⟩ := by
    rw [(more_noteStatuses a s).eq]; exact h
  have h2 : a.concludeLight s = ((a.noteStatuses s).modSweep fun x =>
      { x with exec := some ⟨w, .replying r⟩ }).requestClass3 .reply := by
    unfold State.concludeLight State.offerReply
    simp [h1, State.satisfied]
  rw [h2]
  exact ⟨more_requestClass3 _ _, requested_requestClass3 _ _⟩

/-! ### The entry to ON -/

/-- The status writes of the engine and of the four banks wait, and nothing else has been touched. -/
theorem more_statusRequests (s : State) :
    MoreClass3 s (four.foldl State.requestBankStatus (s.requestClass3 .engine)) ∧
      (∃ x ∈ (four.foldl State.requestBankStatus (s.requestClass3 .engine)).port.class3,
        x.1 = .engine) ∧
      (s.reporting = true → ∀ b,
        ∃ x ∈ (four.foldl State.requestBankStatus (s.requestClass3 .engine)).port.class3,
          x.1 = .bank b) := by
  have h0 := more_requestClass3 s .engine
  have he := requested_requestClass3 s .engine
  revert h0 he
  generalize s.requestClass3 .engine = t
  intro h0 he
  have h1 := more_requestBankStatus t 0
  have h2 := more_requestBankStatus (t.requestBankStatus 0) 1
  have h3 := more_requestBankStatus ((t.requestBankStatus 0).requestBankStatus 1) 2
  have h4 := more_requestBankStatus
    (((t.requestBankStatus 0).requestBankStatus 1).requestBankStatus 2) 3
  have hall := ((h1.trans h2).trans h3).trans h4
  refine ⟨h0.trans hall, hall.keeps he, fun hr b => ?_⟩
  have ht : t.reporting = true := by rw [h0.reporting, hr]
  fin_cases b
  · exact ((h2.trans h3).trans h4).keeps (requestBankStatus_spec _ 0 ht).1
  · exact (h3.trans h4).keeps (requestBankStatus_spec _ 1 (by rw [h1.reporting, ht])).1
  · exact h4.keeps (requestBankStatus_spec _ 2 (by rw [(h1.trans h2).reporting, ht])).1
  · exact (requestBankStatus_spec _ 3 (by rw [((h1.trans h2).trans h3).reporting, ht])).1

/-- The lines' held requests are released behind them. -/
theorem more_releaseLines (ls : List LineNo) (s : State) : ∃ t x, MoreClass3 s t ∧
    ls.foldl State.releaseLine s = { t with lines := x } := by
  induction ls generalizing s with
  | nil => exact ⟨s, s.lines, .refl s, rfl⟩
  | cons l rest ih =>
    rw [List.foldl_cons]
    obtain ⟨u, x, hu, hx⟩ := ih (s.releaseLine l)
    have h1 : ∃ y, MoreClass3 { s with lines := y } (s.releaseLine l) := by
      unfold State.releaseLine
      split
      · exact ⟨_, more_requestClass3 (s.modLine l _) _⟩
      · exact ⟨s.lines, .refl s⟩
    obtain ⟨y, h1⟩ := h1
    have h2 := h1.trans hu
    refine ⟨{ u with lines := s.lines }, x, ⟨?_, h2.mem⟩, hx⟩
    rw [h2.eq]

/-- What the entry to ON requests (R163, R164, R180). -/
theorem announceOn_spec (s : State) : ∃ t x, MoreClass3 s t ∧ s.announceOn = { t with lines := x } ∧
    (∃ y ∈ t.port.class3, y.1 = .engine) ∧
    (s.reporting = true → ∀ b, ∃ y ∈ t.port.class3, y.1 = .bank b) := by
  obtain ⟨h1, h2, h3⟩ := more_statusRequests s
  obtain ⟨t, x, ht, hx⟩ :=
    more_releaseLines eight (four.foldl State.requestBankStatus (s.requestClass3 .engine))
  exact ⟨t, x, h1.trans ht, hx, ht.keeps h2, fun hr b => ht.keeps (h3 hr b)⟩

/-! ### The rounds at the end of a step -/

/-- A window check that is due is made first. -/
theorem settle_check {n : Nat} {s : State} {b : BankNo} {r : FrameReq}
    (hb : s.bankToCheck = some b) (hr : (s.bank b).toCheck = some r) :
    settle (n + 1) s = settle n (s.checkReq b r) := by
  conv => lhs; unfold settle
  rw [hb]
  dsimp only
  unfold State.checkNext
  rw [hr]

theorem bankToCheck_none {s : State} (h : ∀ b, (s.bank b).toCheck = none) :
    s.bankToCheck = none := by
  unfold State.bankToCheck; rw [List.find?_eq_none]; intro b _; rw [h b]; simp

/-- With no check due, a close that can go on goes on. -/
theorem settle_close {n : Nat} {s : State} {j : JournalNo} (hb : ∀ b, (s.bank b).toCheck = none)
    (hj : s.journalToClose = some j) : settle (n + 1) s = settle n (s.continueClose j) := by
  conv => lhs; unfold settle
  rw [bankToCheck_none hb, hj]

/-- With neither, nothing is left to settle. -/
theorem settle_done {n : Nat} {s : State} (hb : ∀ b, (s.bank b).toCheck = none)
    (hj : s.journalToClose = none) : settle n s = s := by
  cases n with
  | zero => rfl
  | succ n => unfold settle; rw [bankToCheck_none hb, hj]

/-! ### The reply -/

/-- The offer of a reply touches the executing request and class 3 alone. -/
theorem offerReply_eq (s : State) : ∃ q c,
    s.offerReply = { s with sweep := q, port := { s.port with class3 := c } } ∧
      ∀ x ∈ s.port.class3, x ∈ c := by
  unfold State.offerReply
  cases s.sweep.exec with
  | none => exact ⟨s.sweep, s.port.class3, rfl, fun _ h => h⟩
  | some e =>
    obtain ⟨w, ph⟩ := e
    cases ph with
    | answered r wt =>
      dsimp only
      split
      · have h := more_requestClass3
          (s.modSweep fun x => { x with exec := some ⟨w, .replying r⟩ }) .reply
        exact ⟨{ s.sweep with exec := some ⟨w, .replying r⟩ }, _, requestClass3_eq _ _, h.mem⟩
      · exact ⟨s.sweep, s.port.class3, rfl, fun _ h => h⟩
    | _ => exact ⟨s.sweep, s.port.class3, rfl, fun _ h => h⟩

/-- The end of a step without checks and closes touches class 3, what it comes after and the
executing request alone, and takes no class 3 request away. -/
theorem concludeLight_eq (before s : State) : ∃ q c d,
    before.concludeLight s = { s with
      sweep := q, port := { s.port with class3 := c, statusAfter := d } } ∧
      ∀ x ∈ (before.noteStatuses s).port.class3, x ∈ c := by
  obtain ⟨q, c, e, hm⟩ := offerReply_eq (before.noteStatuses s)
  refine ⟨q, c, (before.noteStatuses s).port.statusAfter, ?_, hm⟩
  show (before.noteStatuses s).offerReply = _
  rw [e, (more_noteStatuses before s).eq]

/-- At the end of a step the Bank Status of a bank that has changed is requested (R47, R94, R112). -/
theorem status_concludeLight {before s : State} {b : BankNo} (hr : s.reporting = true)
    (h : sameStatus (before.bank b) (s.bank b) = false) :
    ∃ x ∈ (before.concludeLight s).port.class3, x.1 = .bank b := by
  obtain ⟨x, hx, hc⟩ := noted_noteStatuses before s b h hr
  obtain ⟨q, c, d, e, hm⟩ := concludeLight_eq before s
  exact ⟨x, by rw [e]; exact hm x hx, hc⟩

/-- A request that has its answer has its reply offered once what it waits for is issued (R159, R172). -/
theorem reply_concludeLight {before s : State} {w : Word} {r : Result} {wait : WaitFor}
    (h : s.sweep.exec = some ⟨w, .answered r wait⟩) :
    ((before.concludeLight s).satisfied wait = true →
      (before.concludeLight s).sweep.exec = some ⟨w, .replying r⟩ ∧
        ∃ x ∈ (before.concludeLight s).port.class3, x.1 = .reply) ∧
    ((before.concludeLight s).satisfied wait = false →
      (before.concludeLight s).sweep.exec = some ⟨w, .answered r wait⟩) := by
  have hv : (before.noteStatuses s).sweep.exec = some ⟨w, .answered r wait⟩ := by
    rw [(more_noteStatuses before s).eq]; exact h
  change ((before.noteStatuses s).offerReply.satisfied wait = true →
    (before.noteStatuses s).offerReply.sweep.exec = _ ∧
      ∃ x ∈ (before.noteStatuses s).offerReply.port.class3, x.1 = .reply) ∧
    ((before.noteStatuses s).offerReply.satisfied wait = false →
      (before.noteStatuses s).offerReply.sweep.exec = _)
  revert hv
  generalize before.noteStatuses s = v
  intro hv
  obtain ⟨q, c, e, _⟩ := offerReply_eq v
  have hsat : v.offerReply.satisfied wait = v.satisfied wait := by rw [e]; cases wait <;> rfl
  rw [hsat]
  unfold State.offerReply
  rw [hv]
  dsimp only
  cases v.satisfied wait with
  | true =>
    rw [if_pos rfl]
    refine ⟨fun _ => ⟨?_, requested_requestClass3 _ _⟩, fun h => Bool.noConfusion h⟩
    rw [requestClass3_eq]; rfl
  | false =>
    rw [if_neg (by decide)]
    exact ⟨fun h => Bool.noConfusion h, fun _ => hv⟩

/-- A step that answers no request ends with its status requests. -/
theorem concludeLight_unanswered {a s : State}
    (h : ∀ w r x, s.sweep.exec ≠ some ⟨w, .answered r x⟩) : a.concludeLight s = a.noteStatuses s := by
  have h1 : (a.noteStatuses s).sweep = s.sweep := by rw [(more_noteStatuses a s).eq]
  unfold State.concludeLight State.offerReply
  rw [h1]
  cases he : s.sweep.exec with
  | none => rfl
  | some e =>
    obtain ⟨w, p⟩ := e
    cases p <;> simp_all

end Sys2Proof.Machine
end

