-- ==== Sys2Proof/Laws/Commands.lean ====
section
/-! SUPPORT. What each command answers when the event it names is possible: one equation for each
shape of command. -/

namespace Sys2Proof.Machine

/-- Outside reset a command has its effect. -/
theorem running {s : State} {f : State → State} (h : s.resetHeld = false) :
    unlessReset s f = .next (f s) := by
  simp [unlessReset, h]

/-! ### Requests that are taken -/

theorem takeable_head {s : State} {w : Word} {rest : List Word} (he : s.sweep.exec = none)
    (hq : s.sweep.queue = w :: rest) : s.takeable = some w := by
  simp [State.takeable, he, hq]

theorem taking_head {s : State} {w : Word} {kind : Word → Bool} {f : Word → State → State}
    (hr : s.resetHeld = false) (ht : s.takeable = some w) (hk : kind w = true) :
    unlessReset s (fun s => s.taking kind f) = .next (s.concludeLight (f w (s.takeHead w))) := by
  simp [unlessReset, hr, State.taking, ht, hk]

theorem takingFull_head {s : State} {w : Word} {kind : Word → Bool} {f : Word → State → State}
    (hr : s.resetHeld = false) (ht : s.takeable = some w) (hk : kind w = true) :
    unlessReset s (fun s => s.takingFull kind f) = .next (s.conclude (f w (s.takeHead w))) := by
  simp [unlessReset, hr, State.takingFull, ht, hk]

theorem takeHead_exec {s : State} {w : Word} : (s.takeHead w).sweep.exec = some ⟨w, .record⟩ := rfl

theorem forBank_some {w : Word} {s : State} {f : BankNo → State} {b : BankNo}
    (h : bankNoOf (target w) = some b) : State.forBank w s f = f b := by
  unfold State.forBank; rw [h]

theorem forJournal_some {w : Word} {s : State} {f : JournalNo → State} {j : JournalNo}
    (h : lineNoOf (target w) = some j) : State.forJournal w s f = f j := by
  unfold State.forJournal; rw [h]

theorem forLine_some {w : Word} {s : State} {f : LineNo → State} {l : LineNo}
    (h : lineNoOf (target w) = some l) : State.forLine w s f = f l := by
  unfold State.forLine; rw [h]

theorem exec_answer {s : State} {w : Word} {p : ExecPhase} {r : Result} {x : WaitFor}
    (h : s.sweep.exec = some ⟨w, p⟩) : (s.answer r x).sweep.exec = some ⟨w, .answered r x⟩ := by
  simp [State.answer, State.modSweep, h]

/-! ### Time events -/

theorem exec_filterSample {l : LineNo} {s : State} (hr : s.resetHeld = false)
    (hl : (s.line l).loaded = true) (hd : (s.line l).sampleDue = true) (he : s.edgeDue l = false) :
    exec (.filterSample l) s = .next (s.takeSample l) := by
  simp only [exec, execFilterSample]; rw [running hr, if_pos (by simp [hl, hd, he])]

theorem exec_edge {l : LineNo} {s : State} (hr : s.resetHeld = false) (he : s.edgeDue l = true) :
    exec (.edge l) s = .next (s.conclude (s.acceptEdge l)) := by
  simp only [exec, execEdge]; rw [running hr, if_pos he]

theorem exec_onDelayReached {b : BankNo} {c : ChanNo} {p : Bool} {s : State}
    (hr : s.resetHeld = false) (hd : s.onDelayDue b c p = true) :
    exec (.onDelayReached b c p) s =
      .next (s.modWave b fun w => { w with pins := w.pins.set c ((w.pins.get c).turnOn p) }) := by
  simp only [exec, execOnDelayReached]; rw [running hr, if_pos hd]

/-- The live frame of a counter whose advance is due. -/
theorem advanceDue_live {s : State} {b : BankNo} {v : Live} (h : s.advanceDue b = some v) :
    (s.bank b).seq.plan.isRunning = true ∧ (s.bank b).seq.live = some v ∧
      (s.bank b).wave.advanceDue = true := by
  unfold State.advanceDue at h
  dsimp only at h
  split at h
  · rename_i hc; simp at hc; exact ⟨hc.1, h, hc.2⟩
  · cases h

theorem exec_counterAdvance {b : BankNo} {v : Live} {n : Nat} {d : Direction} {s : State}
    (hr : s.resetHeld = false) (ha : s.advanceDue b = some v) (hn : s.dueCount b v = some (n, d)) :
    exec (.counterAdvance b) s = .next (s.conclude (s.advanceCounter b n d)) := by
  simp only [exec, execCounterAdvance]; rw [running hr, ha]; dsimp only; rw [hn]

theorem exec_boundary {b : BankNo} {v : Live} {s : State} (hr : s.resetHeld = false)
    (ha : s.advanceDue b = some v) (hn : s.dueCount b v = none) (hv : v.repeatRemaining ≠ 0) :
    exec (.boundary b) s = .next (s.conclude (s.innerBoundary b)) := by
  simp only [exec, execBoundary]; rw [running hr, ha]; dsimp only; rw [hn, if_pos (by simp [hv])]

theorem exec_finalBoundary {b : BankNo} {v : Live} {s : State} (hr : s.resetHeld = false)
    (ha : s.advanceDue b = some v) (hn : s.dueCount b v = none) (hv : v.repeatRemaining = 0) :
    exec (.finalBoundary b) s = .next (s.conclude (s.lastBoundary b v)) := by
  simp only [exec, execFinalBoundary]; rw [running hr, ha]; dsimp only
  rw [hn, if_pos (by simp [hv])]

/-- The frame whose wait limit expires is the staged one of a waiting bank. -/
theorem timeoutDue_staged {s : State} {b : BankNo} {f : FrameCopy} (h : s.timeoutDue b = some f) :
    (s.bank b).seq.plan = .waiting ∧ (s.bank b).seq.staged = some f := by
  unfold State.timeoutDue at h
  dsimp only at h
  split at h
  · rename_i hc; simp at hc; exact ⟨hc.1, h⟩
  · cases h

theorem exec_cueTimeout {b : BankNo} {f : FrameCopy} {s : State} (hr : s.resetHeld = false)
    (h : s.timeoutDue b = some f) :
    exec (.cueTimeout b) s = .next (s.conclude (s.cueTimeout b f)) := by
  simp only [exec, execCueTimeout]; rw [running hr, h]

theorem exec_journalStep {j : JournalNo} {l : LineNo} {s : State} (hr : s.resetHeld = false)
    (h : s.stepDue j = some l) :
    exec (.journalStep j) s = .next (s.conclude (s.beginStep j l)) := by
  simp only [exec, execJournalStep]; rw [running hr, h]

/-! ### Arrivals and responses -/

/-- The read at a place arrives: `f` names the effect of its kind. -/
theorem arrives {place : Fin 4} {r : OutRead} {s : State} {f : OutRead → Option (State → State)}
    {g : State → State} (hr : s.resetHeld = false) (hp : s.readAt place = some r)
    (hd : r.discarded = false) (hf : f r = some g) :
    unlessReset s (fun s => s.arrive place f) = .next (s.conclude (g (s.dropRead place))) := by
  rw [running hr]; unfold State.arrive; rw [hp]; dsimp only; rw [hf]; dsimp only; rw [hd]; rfl

/-- A discarded read is dropped. -/
theorem arrives_discarded {place : Fin 4} {r : OutRead} {s : State}
    {f : OutRead → Option (State → State)} {g : State → State} (hr : s.resetHeld = false)
    (hp : s.readAt place = some r) (hd : r.discarded = true) (hf : f r = some g) :
    unlessReset s (fun s => s.arrive place f) = .next (s.dropRead place) := by
  rw [running hr]; unfold State.arrive; rw [hp]; dsimp only; rw [hf]; dsimp only; rw [if_pos hd]

/-- The oldest outstanding write is answered. -/
theorem responds {w : OutWrite} {rest : List OutWrite} {s : State}
    {f : OutWrite → Option (State → State)} {g : State → State} (hr : s.resetHeld = false)
    (hw : s.port.writes = w :: rest) (hf : f w = some g) :
    unlessReset s (fun s => s.respond f) = .next (s.conclude (g s.dropWrite)) := by
  rw [running hr]; unfold State.respond; rw [hw]; dsimp only; rw [hf]

theorem dropWrite_eq {s : State} {w : OutWrite} {rest : List OutWrite}
    (h : s.port.writes = w :: rest) :
    s.dropWrite = { s with port := { s.port with writes := rest } } := by
  have hp : s.dropWrite.port = { s.port with writes := rest } := by
    unfold State.dropWrite
    change { s.port with writes := s.port.writes.tail } = _
    rw [h]; rfl
  rw [← hp]; rfl

/-! ### The grant -/

theorem badHostWrite_some {host : List Host.Cell} (h : ∃ c ∈ host, 2 ^ 48 ≤ c.1) :
    ∃ a, badHostWrite host = some a ∧ 2 ^ 48 ≤ a := by
  induction host with
  | nil => obtain ⟨c, h, _⟩ := h; cases h
  | cons d r ih =>
    obtain ⟨x, v⟩ := d
    unfold badHostWrite
    split
    · rename_i hx
      obtain ⟨c, hc, hl⟩ := h
      rcases List.mem_cons.mp hc with rfl | hc
      · exact absurd hx (by simpa using hl)
      · exact ih ⟨c, hc, hl⟩
    · rename_i hx; exact ⟨x, rfl, by omega⟩

theorem badHostWrite_none {host : List Host.Cell} (h : ∀ c ∈ host, c.1 < 2 ^ 48) :
    badHostWrite host = none := by
  induction host with
  | nil => rfl
  | cons d r ih =>
    obtain ⟨x, v⟩ := d
    unfold badHostWrite
    rw [if_pos (h _ List.mem_cons_self)]
    exact ih fun c hc => h c (List.mem_cons_of_mem _ hc)

theorem exec_arbiterGrant {host : List Host.Cell} {fate : Fate} {s : State}
    (hr : s.resetHeld = false) (h : ∀ c ∈ host, c.1 < 2 ^ 48) :
    exec (.arbiterGrant host fate) s = .next ((s.hostWrites host).grant fate) := by
  simp only [exec, execArbiterGrant]; rw [badHostWrite_none h]; exact running hr

end Sys2Proof.Machine
end

