-- ==== Sys2Proof/Laws/Cues.lean ====
section
/-! SUPPORT. What a cue leaves of a bank, and what a bank is after a frame has started, a plan has
ended, a fault has been reported. -/

namespace Sys2Proof.Machine

/-! ### A cue touches banks only -/

theorem only_startFrame (s : State) (b : BankNo) (f : FrameCopy) (forced : Bool) :
    ∃ q, s.startFrame b f forced = { s with banks := q } := by
  unfold State.startFrame State.readLink
  repeat' split
  all_goals exact ⟨_, rfl⟩

theorem only_startCues (emit : StartCond → State → State)
    (h : ∀ c s, ∃ q, emit c s = { s with banks := q }) (s : State) (b : BankNo) :
    ∃ q, State.startCues emit s b = { s with banks := q } := by
  unfold State.startCues
  obtain ⟨q, hq⟩ := h (.cue b .frameStart) s
  split
  · obtain ⟨r, hr⟩ := h (.cue b .matched) (emit (.cue b .frameStart) s)
    exact ⟨r, by rw [hr, hq]⟩
  · exact ⟨q, hq⟩

theorem only_takeCue (emit : StartCond → State → State)
    (h : ∀ c s, ∃ q, emit c s = { s with banks := q }) (c : StartCond) (s : State) (b : BankNo) :
    ∃ q, State.takeCue emit c s b = { s with banks := q } := by
  unfold State.takeCue
  dsimp only
  repeat' split
  · rename_i f _
    obtain ⟨q, hq⟩ := only_startFrame s b f false
    obtain ⟨r, hr⟩ := only_startCues emit h (s.startFrame b f false) b
    exact ⟨r, by rw [hr, hq]⟩
  all_goals exact ⟨_, rfl⟩

/-- A cue or edge changes nothing but banks. -/
theorem only_offer (n : Nat) (c : StartCond) (s : State) :
    ∃ q, offer n c s = { s with banks := q } := by
  induction n generalizing c s with
  | zero => exact ⟨s.banks, rfl⟩
  | succ n ih =>
    obtain ⟨q0, h0⟩ := only_takeCue (offer n) ih c s 0
    obtain ⟨q1, h1⟩ := only_takeCue (offer n) ih c (State.takeCue (offer n) c s 0) 1
    obtain ⟨q2, h2⟩ := only_takeCue (offer n) ih c
      (State.takeCue (offer n) c (State.takeCue (offer n) c s 0) 1) 2
    obtain ⟨q3, h3⟩ := only_takeCue (offer n) ih c (State.takeCue (offer n) c
      (State.takeCue (offer n) c (State.takeCue (offer n) c s 0) 1) 2) 3
    exact ⟨q3, by rw [offer, h3, h2, h1, h0]⟩

@[simp] theorem cause_offer (n : Nat) (c : StartCond) (s : State) : (offer n c s).cause = s.cause := by
  obtain ⟨q, hq⟩ := only_offer n c s; rw [hq]
@[simp] theorem window_offer (n : Nat) (c : StartCond) (s : State) :
    (offer n c s).window = s.window := by
  obtain ⟨q, hq⟩ := only_offer n c s; rw [hq]
@[simp] theorem port_offer (n : Nat) (c : StartCond) (s : State) : (offer n c s).port = s.port := by
  obtain ⟨q, hq⟩ := only_offer n c s; rw [hq]
@[simp] theorem now_offer (n : Nat) (c : StartCond) (s : State) : (offer n c s).now = s.now := by
  obtain ⟨q, hq⟩ := only_offer n c s; rw [hq]
@[simp] theorem sweep_offer (n : Nat) (c : StartCond) (s : State) : (offer n c s).sweep = s.sweep := by
  obtain ⟨q, hq⟩ := only_offer n c s; rw [hq]
@[simp] theorem lines_offer (n : Nat) (c : StartCond) (s : State) : (offer n c s).lines = s.lines := by
  obtain ⟨q, hq⟩ := only_offer n c s; rw [hq]
@[simp] theorem journals_offer (n : Nat) (c : StartCond) (s : State) :
    (offer n c s).journals = s.journals := by
  obtain ⟨q, hq⟩ := only_offer n c s; rw [hq]

/-! ### What a cue leaves of a bank that does not wait -/

/-- A bank under another state of its latch. -/
def Bank.relatch (k : Bank) (l : LatchState) : Bank := { k with seq := { k.seq with latch := l } }

theorem Bank.relatch_self (k : Bank) : k.relatch k.seq.latch = k := rfl

/-- The latch as it was, or an armed one set. -/
def LatchState.mayBecome (l m : LatchState) : Prop := m = l ∨ (l = .armed ∧ m = .set)

theorem LatchState.mayBecome_trans {l m n : LatchState} (h : l.mayBecome m) (k : m.mayBecome n) :
    l.mayBecome n := by
  unfold mayBecome at *
  rcases h with rfl | ⟨rfl, rfl⟩
  · exact k
  · rcases k with rfl | ⟨h, _⟩
    · exact Or.inr ⟨rfl, rfl⟩
    · cases h

theorem bank_startFrame_ne (s : State) {b d : BankNo} (f : FrameCopy) (forced : Bool) (h : d ≠ b) :
    (s.startFrame b f forced).bank d = s.bank d := by
  unfold State.startFrame State.refreshPins State.readLink State.requestFrame
  rw [bank_modBank_ne _ _ h]
  repeat' split
  · rw [bank_modBank_ne _ _ h, bank_modSeq_ne _ _ h, bank_modBank_ne _ _ h, bank_modBank_ne _ _ h]
  · rw [bank_modBank_ne _ _ h, bank_modBank_ne _ _ h]
  · rw [bank_modBank_ne _ _ h, bank_modBank_ne _ _ h]

/-- A bank that does not wait: a cue can do no more to it than set its armed latch. -/
def Relatched (b : BankNo) (s t : State) : Prop :=
  ∃ l, (s.bank b).seq.latch.mayBecome l ∧ t.bank b = (s.bank b).relatch l

theorem Relatched.refl (b : BankNo) (s : State) : Relatched b s s :=
  ⟨_, Or.inl rfl, (Bank.relatch_self _).symm⟩

theorem Relatched.of_eq {b : BankNo} {s t : State} (h : t.bank b = s.bank b) : Relatched b s t :=
  ⟨_, Or.inl rfl, h.trans (Bank.relatch_self _).symm⟩

theorem Relatched.trans {b : BankNo} {s t u : State} (h : Relatched b s t) (k : Relatched b t u) :
    Relatched b s u := by
  obtain ⟨l, hl, ht⟩ := h
  obtain ⟨m, hm, hu⟩ := k
  refine ⟨m, LatchState.mayBecome_trans hl ?_, ?_⟩
  · rw [ht] at hm; exact hm
  · rw [hu, ht]; rfl

theorem Relatched.plan {b : BankNo} {s t : State} (h : Relatched b s t) :
    (t.bank b).seq.plan = (s.bank b).seq.plan := by
  obtain ⟨l, _, ht⟩ := h; rw [ht]; rfl

theorem relatched_startCues {emit : StartCond → State → State} {b : BankNo}
    (h : ∀ c s, (s.bank b).seq.plan ≠ .waiting → Relatched b s (emit c s)) (s : State) (d : BankNo)
    (hs : (s.bank b).seq.plan ≠ .waiting) : Relatched b s (State.startCues emit s d) := by
  have h1 := h (.cue d .frameStart) s hs
  unfold State.startCues
  split
  · exact h1.trans (h _ _ (by rw [h1.plan]; exact hs))
  · exact h1

theorem relatched_takeCue {emit : StartCond → State → State} {b : BankNo}
    (h : ∀ c s, (s.bank b).seq.plan ≠ .waiting → Relatched b s (emit c s)) (c : StartCond) (s : State)
    (d : BankNo) (hs : (s.bank b).seq.plan ≠ .waiting) : Relatched b s (State.takeCue emit c s d) := by
  unfold State.takeCue
  dsimp only
  split
  · rename_i hl
    simp only [Bool.and_eq_true, decide_eq_true_eq] at hl
    split
    · rename_i hw
      split
      · rename_i f _
        have hd : b ≠ d := by rintro rfl; exact hs hw
        have h1 : (s.startFrame d f false).bank b = s.bank b := bank_startFrame_ne s f false hd
        exact (Relatched.of_eq h1).trans (relatched_startCues h _ d (by rw [h1]; exact hs))
      · exact Relatched.refl b s
    · by_cases hd : b = d
      · subst hd
        exact ⟨.set, Or.inr ⟨hl.1, rfl⟩, bank_modSeq_same _ _ _⟩
      · exact Relatched.of_eq (bank_modSeq_ne _ _ hd)
  · exact Relatched.refl b s

/-- A cue or edge reaches a bank that does not wait. -/
theorem relatched_offer (n : Nat) (c : StartCond) (s : State) (b : BankNo)
    (hs : (s.bank b).seq.plan ≠ .waiting) : Relatched b s (offer n c s) := by
  induction n generalizing c s with
  | zero => exact Relatched.refl b s
  | succ n ih =>
    have h0 := relatched_takeCue ih c s 0 hs
    have h1 := h0.trans (relatched_takeCue ih c _ 1 (by rw [h0.plan]; exact hs))
    have h2 := h1.trans (relatched_takeCue ih c _ 2 (by rw [h1.plan]; exact hs))
    exact h2.trans (relatched_takeCue ih c _ 3 (by rw [h2.plan]; exact hs))

/-! ### What a cue leaves of a bank with a disarmed latch -/

theorem disarmed_takeCue {emit : StartCond → State → State} {b : BankNo}
    (h : ∀ c s, (s.bank b).seq.latch = .disarmed → (emit c s).bank b = s.bank b) (c : StartCond)
    (s : State) (d : BankNo) (hs : (s.bank b).seq.latch = .disarmed) :
    (State.takeCue emit c s d).bank b = s.bank b := by
  unfold State.takeCue
  dsimp only
  split
  · rename_i hl
    simp only [Bool.and_eq_true, decide_eq_true_eq] at hl
    have hd : b ≠ d := by rintro rfl; rw [hs] at hl; cases hl.1
    split
    · split
      · rename_i f _
        have h1 : (s.startFrame d f false).bank b = s.bank b := bank_startFrame_ne s f false hd
        have h2 := h (.cue d .frameStart) (s.startFrame d f false) (by rw [h1]; exact hs)
        unfold State.startCues
        split
        · rw [h _ _ (by rw [h2, h1]; exact hs), h2, h1]
        · rw [h2, h1]
      · rfl
    · exact bank_modSeq_ne _ _ hd
  · rfl

/-- A cue or edge changes nothing of a bank whose latch is disarmed. -/
theorem bank_offer_disarmed (n : Nat) (c : StartCond) (s : State) (b : BankNo)
    (hs : (s.bank b).seq.latch = .disarmed) : (offer n c s).bank b = s.bank b := by
  induction n generalizing c s with
  | zero => rfl
  | succ n ih =>
    have h0 := disarmed_takeCue ih c s 0 hs
    have h1 := (disarmed_takeCue ih c _ 1 (by rw [h0]; exact hs)).trans h0
    have h2 := (disarmed_takeCue ih c _ 2 (by rw [h1]; exact hs)).trans h1
    exact (disarmed_takeCue ih c _ 3 (by rw [h2]; exact hs)).trans h2

theorem bank_emit_disarmed (s : State) (d : BankNo) (k : CueKind) (b : BankNo)
    (hs : (s.bank b).seq.latch = .disarmed) : (s.emit d k).bank b = s.bank b :=
  bank_offer_disarmed _ _ s b hs

/-- Where no bank waits, a cue starts no frame: a latch that does not await it stays as it was. -/
theorem bank_offer_unawaited (n : Nat) (c : StartCond) (s : State) (b : BankNo)
    (hw : ∀ d, (s.bank d).seq.plan ≠ .waiting) (ha : (s.bank b).seq.awaited ≠ some c) :
    (offer n c s).bank b = s.bank b := by
  cases n with
  | zero => rfl
  | succ n =>
    have key : ∀ (t : State) (d : BankNo), (∀ e, (t.bank e).seq.plan ≠ .waiting) →
        (t.bank b).seq.awaited ≠ some c →
        (State.takeCue (offer n) c t d).bank b = t.bank b ∧
          ∀ e, ((State.takeCue (offer n) c t d).bank e).seq.plan ≠ .waiting := by
      intro t d ht hb
      unfold State.takeCue
      dsimp only
      split
      · rename_i hl
        simp only [Bool.and_eq_true, decide_eq_true_eq] at hl
        rw [if_neg (ht d)]
        have hd : b ≠ d := by rintro rfl; exact hb hl.2
        refine ⟨bank_modSeq_ne _ _ hd, ?_⟩
        intro e
        by_cases he : e = d
        · subst he; rw [bank_modSeq_same]; exact ht e
        · rw [bank_modSeq_ne _ _ he]; exact ht e
      · exact ⟨rfl, ht⟩
    obtain ⟨h0, k0⟩ := key s 0 hw ha
    obtain ⟨h1, k1⟩ := key _ 1 k0 (by rw [h0]; exact ha)
    obtain ⟨h2, k2⟩ := key _ 2 k1 (by rw [h1, h0]; exact ha)
    obtain ⟨h3, _⟩ := key _ 3 k2 (by rw [h2, h1, h0]; exact ha)
    rw [offer, h3, h2, h1, h0]

/-! ### A bank's cause and faults -/

/-- A cause bit that has been raised is set. -/
theorem causeBit_raise (s : State) (n : Nat) (h : n < 16) : (s.raise n).cause.getLsbD n = true := by
  rw [cause_raise_eq, BitVec.getLsbD_or, BitVec.getLsbD_shiftLeft]
  simp [h]

/-- Raising another cause bit leaves a set one set. -/
theorem causeBit_mono (s : State) (n m : Nat) (h : s.cause.getLsbD m = true) :
    (s.raise n).cause.getLsbD m = true := by
  rw [cause_raise_eq, BitVec.getLsbD_or, h, Bool.true_or]

end Sys2Proof.Machine
end

