-- ==== Sys2Proof/Laws/Plans.lean ====
section
/-! SUPPORT. A bank after a plan has ended, a stop or a halt, after a frame has started, and after a
boundary; its faults after a report. -/

namespace Sys2Proof.Machine

/-! ### Pins and gates leave the rest of a bank -/

@[simp] theorem seq_refresh (k : Bank) : k.refreshPins.seq = k.seq := by
  unfold Bank.refreshPins; split <;> rfl
@[simp] theorem gate_refresh (k : Bank) : k.refreshPins.gate = k.gate := by
  unfold Bank.refreshPins; split <;> rfl
@[simp] theorem faults_refresh (k : Bank) : k.refreshPins.faults = k.faults := by
  unfold Bank.refreshPins; split <;> rfl
@[simp] theorem fifo_refresh (k : Bank) : k.refreshPins.fifo = k.fifo := by
  unfold Bank.refreshPins; split <;> rfl
@[simp] theorem counter_refresh (k : Bank) : k.refreshPins.wave.counter = k.wave.counter := by
  unfold Bank.refreshPins; split <;> rfl
@[simp] theorem dir_refresh (k : Bank) : k.refreshPins.wave.dir = k.wave.dir := by
  unfold Bank.refreshPins; split <;> rfl
@[simp] theorem advanceDue_refresh (k : Bank) :
    k.refreshPins.wave.advanceDue = k.wave.advanceDue := by
  unfold Bank.refreshPins; split <;> rfl
@[simp] theorem lastRef_refresh (k : Bank) : k.refreshPins.wave.lastRef = k.wave.lastRef := by
  unfold Bank.refreshPins; split <;> rfl

/-- All of a bank but its gate and its pins. -/
def Bank.core (k : Bank) :=
  (k.seq, k.faults, k.fifo, k.wave.counter, k.wave.dir, k.wave.advanceDue, k.wave.lastRef)

@[simp] theorem core_refresh (k : Bank) : k.refreshPins.core = k.core := by
  simp [Bank.core]

theorem core_refreshPins (s : State) (b : BankNo) :
    ((s.refreshPins b).bank b).core = (s.bank b).core := by
  simp [State.refreshPins]

theorem core_openGate (s : State) (b : BankNo) :
    ((s.openGate b).bank b).core = (s.bank b).core := by
  unfold State.openGate
  rw [core_refreshPins, bank_modGate_same]; rfl

theorem core_releaseGate (s : State) (b : BankNo) :
    ((s.releaseGate b).bank b).core = (s.bank b).core := by
  unfold State.releaseGate
  dsimp only
  generalize hc : (_ && _ : Bool) = c
  cases c
  · rfl
  · exact core_openGate s b

theorem core_judgeGate (s : State) (b : BankNo) :
    ((s.judgeGate b).bank b).core = (s.bank b).core := by
  unfold State.judgeGate State.tripGate
  dsimp only
  repeat' split
  all_goals first
    | rfl
    | exact core_openGate s b
    | rw [core_refreshPins]; simp [State.raise, State.bank, State.modGate, State.modBank,
        State.setBank, Quad.get_set_same, Bank.core]
    | simp [Bank.core]

/-! ### The end of a plan -/

@[simp] theorem bank_discardReads (s : State) (b : BankNo) :
    (s.discardReads b).bank b =
      { s.bank b with fifo := (s.bank b).fifo.filter fun r => !r.acc.fetches } := by
  simp [State.discardReads, State.dropWaiters]

/-- The bank whose plan has ended. -/
theorem core_endPlan (s : State) (b : BankNo) (plan : PlanState) (reason : StopReason) :
    ((s.endPlan b plan reason).bank b).core =
      ((s.bank b).seq.ended plan reason, (s.bank b).faults,
        (s.bank b).fifo.filter fun r => !r.acc.fetches, 0, .up, false, (s.bank b).wave.lastRef) := by
  have h : ∀ t : State, (t.bank b).seq = (s.bank b).seq.ended plan reason →
      (((((t.releaseGate b).refreshPins b).raise (causeBank b)).emit b .planEnd).bank b).core
        = (t.bank b).core := by
    intro t ht
    have h1 : ((((t.releaseGate b).refreshPins b).raise (causeBank b)).bank b).core
        = (t.bank b).core := by
      change (((t.releaseGate b).refreshPins b).bank b).core = _
      rw [core_refreshPins, core_releaseGate]
    rw [bank_emit_disarmed, h1]
    have h2 := congrArg Prod.fst h1
    change ((((t.releaseGate b).refreshPins b).raise (causeBank b)).bank b).seq = (t.bank b).seq at h2
    rw [h2, ht]; rfl
  unfold State.endPlan
  dsimp only
  rw [h _ (by rw [bank_modBank_same, bank_discardReads])]
  rw [bank_modBank_same, bank_discardReads]
  rfl

theorem seq_endPlan (s : State) (b : BankNo) (plan : PlanState) (reason : StopReason) :
    ((s.endPlan b plan reason).bank b).seq = (s.bank b).seq.ended plan reason :=
  congrArg (fun x => x.1) (core_endPlan s b plan reason)
theorem faults_endPlan (s : State) (b : BankNo) (plan : PlanState) (reason : StopReason) :
    ((s.endPlan b plan reason).bank b).faults = (s.bank b).faults :=
  congrArg (fun x => x.2.1) (core_endPlan s b plan reason)
theorem fifo_endPlan (s : State) (b : BankNo) (plan : PlanState) (reason : StopReason) :
    ((s.endPlan b plan reason).bank b).fifo = (s.bank b).fifo.filter fun r => !r.acc.fetches :=
  congrArg (fun x => x.2.2.1) (core_endPlan s b plan reason)
theorem counter_endPlan (s : State) (b : BankNo) (plan : PlanState) (reason : StopReason) :
    ((s.endPlan b plan reason).bank b).wave.counter = 0 :=
  congrArg (fun x => x.2.2.2.1) (core_endPlan s b plan reason)

theorem cause_releaseGate (s : State) (b : BankNo) : (s.releaseGate b).cause = s.cause := by
  unfold State.releaseGate
  dsimp only
  generalize hc : (_ && _ : Bool) = c
  cases c <;> rfl

theorem cause_discardReads (s : State) (b : BankNo) : (s.discardReads b).cause = s.cause :=
  rfl

theorem cause_endPlan (s : State) (b : BankNo) (plan : PlanState) (reason : StopReason) :
    (s.endPlan b plan reason).cause = s.cause ||| (1#16 <<< causeBank b) := by
  unfold State.endPlan State.emit
  dsimp only
  rw [cause_offer, cause_raise_eq]
  change ((((s.discardReads b).modBank b _).releaseGate b)).cause ||| _ = _
  rw [cause_releaseGate]
  change (s.discardReads b).cause ||| _ = _
  rw [cause_discardReads]

theorem causeBit_endPlan (s : State) (b : BankNo) (plan : PlanState) (reason : StopReason) :
    (s.endPlan b plan reason).cause.getLsbD (causeBank b) = true := by
  rw [cause_endPlan]
  have := causeBit_raise s (causeBank b) (by have := b.isLt; unfold causeBank; omega)
  rwa [cause_raise_eq] at this

/-! ### Stops and halts -/

theorem faults_retireLive (s : State) (b : BankNo) (code : FrameState) :
    ((s.retireLive b code).bank b).faults = (s.bank b).faults := by
  unfold State.retireLive State.requestFrame
  split
  · simp
  · rfl

theorem faults_returnStaged (s : State) (b : BankNo) :
    ((s.returnStaged b).bank b).faults = (s.bank b).faults := by
  unfold State.returnStaged State.requestFrame
  split
  · simp
  · rfl

@[simp] theorem faults_stopBank (s : State) (b : BankNo) (code : FrameState) :
    ((s.stopBank b code).bank b).faults = (s.bank b).faults := by
  unfold State.stopBank
  rw [faults_endPlan, faults_returnStaged, faults_retireLive]

theorem faults_haltBank (s : State) (b : BankNo) (bad : Option Selector) :
    ((s.haltBank b bad).bank b).faults = (s.bank b).faults := by
  unfold State.haltBank
  dsimp only
  rw [faults_endPlan]
  have h : ∀ t : State, (t.bank b).faults = (s.bank b).faults →
      ((match (t.bank b).seq.staged with
        | some f => if bad = some f.sel then t else t.returnStaged b
        | none => t).bank b).faults = (s.bank b).faults := by
    intro t ht
    repeat' split
    · exact ht
    · rw [faults_returnStaged, ht]
    · exact ht
  refine h _ ?_
  repeat' split
  · rfl
  · exact faults_retireLive _ _ _
  · rfl

theorem causeBit_stopBank (s : State) (b : BankNo) (code : FrameState) :
    (s.stopBank b code).cause.getLsbD (causeBank b) = true := causeBit_endPlan _ _ _ _

theorem causeBit_haltBank (s : State) (b : BankNo) (bad : Option Selector) :
    (s.haltBank b bad).cause.getLsbD (causeBank b) = true := causeBit_endPlan _ _ _ _

theorem counter_stopBank (s : State) (b : BankNo) (code : FrameState) :
    ((s.stopBank b code).bank b).wave.counter = 0 := counter_endPlan _ _ _ _

theorem counter_haltBank (s : State) (b : BankNo) (bad : Option Selector) :
    ((s.haltBank b bad).bank b).wave.counter = 0 := counter_endPlan _ _ _ _

/-- Whatever the bank's Plan Sequencer was, what a plan's end leaves of it. -/
theorem seq_stopBank (s : State) (b : BankNo) (code : FrameState) :
    ∃ q : Sequencer, ((s.stopBank b code).bank b).seq = q.ended .dormant .stopped :=
  ⟨_, seq_endPlan _ _ _ _⟩

theorem seq_haltBank (s : State) (b : BankNo) (bad : Option Selector) :
    ∃ q : Sequencer, ((s.haltBank b bad).bank b).seq = q.ended .halted .fault :=
  ⟨_, seq_endPlan _ _ _ _⟩

/-! ### Reports -/

theorem core_markSticky (s : State) (b : BankNo) (c : FaultClass) :
    (s.markSticky b c).bank b =
      { s.bank b with faults := { (s.bank b).faults with
          sticky := (s.bank b).faults.sticky.mark c } } := bank_modFaults_same _ _ _

/-- A report changes nothing of its bank but Fault Logic. -/
theorem bank_reportFault (s : State) (b : BankNo) (cls : FaultClass) (sub : Subcode)
    (sel : Selector) (field : Nat) (phase : Phase) :
    (s.reportFault b cls sub sel field phase).bank b = { s.bank b with
      faults := { (s.bank b).faults with
        sticky := (s.bank b).faults.sticky.mark cls
        report := some ((s.bank b).faults.report.getD
          ⟨cls, sub, sel, BitVec.ofNat 8 field, s.now, phase⟩)
        further := if (s.bank b).faults.report.isNone then (s.bank b).faults.further
          else satInc (s.bank b).faults.further } } := by
  unfold State.reportFault
  dsimp only
  have hm := core_markSticky s b cls
  rw [hm]
  dsimp only
  split
  · rename_i h
    obtain hr : (s.bank b).faults.report = none := by simpa using h
    rw [bank_raise, bank_modFaults_same, hm]
    simp [hr]
    rfl
  · rename_i h
    obtain ⟨r, hr⟩ : ∃ r, (s.bank b).faults.report = some r := by
      cases hq : (s.bank b).faults.report with
      | none => simp [hq] at h
      | some r => exact ⟨r, rfl⟩
    rw [bank_modFaults_same, hm]
    simp [hr]

theorem causeBit_reportFault (s : State) (b : BankNo) (cls : FaultClass) (sub : Subcode)
    (sel : Selector) (field : Nat) (phase : Phase) (h : (s.bank b).faults.report = none) :
    (s.reportFault b cls sub sel field phase).cause.getLsbD (causeBank b) = true := by
  unfold State.reportFault
  dsimp only
  rw [if_pos (by rw [core_markSticky]; simp [h])]
  exact causeBit_raise _ _ (by have := b.isLt; unfold causeBank; omega)

end Sys2Proof.Machine
end

