-- ==== Sys2Proof/Laws/Gates.lean ====
section
/-! SUPPORT. What the operations of the Trip Gate do to their own bank and to the others, what an
active source does to every gate that selects it, and that no cue touches a gate. -/

namespace Sys2Proof.Machine

/-! ### One gate -/

/-- A gate that opens. -/
theorem openGate_spec (s : State) (b : BankNo) :
    ((s.openGate b).bank b).gate =
        { (s.bank b).gate with tripped := false, rearmPending := false } ∧
      ((s.openGate b).bank b).seq = (s.bank b).seq ∧
      ∀ c, c ≠ b → (s.openGate b).bank c = s.bank c := by
  unfold State.openGate State.refreshPins
  refine ⟨by simp, by simp, ?_⟩
  intro c hc; rw [bank_modBank_ne _ _ hc, bank_modGate_ne _ _ hc]

/-- An OPEN gate that trips. -/
theorem tripGate_spec (s : State) (b : BankNo) :
    ((s.tripGate b).bank b).gate =
        { (s.bank b).gate with tripped := true, trips := satInc (s.bank b).gate.trips } ∧
      ((s.tripGate b).bank b).seq = (s.bank b).seq ∧
      (s.tripGate b).cause.getLsbD (causeBank b) = true ∧
      ∀ c, c ≠ b → (s.tripGate b).bank c = s.bank c := by
  unfold State.tripGate State.refreshPins
  refine ⟨by simp, by simp, ?_, ?_⟩
  · exact causeBit_raise (s.modGate b _) _ (by have := b.isLt; unfold causeBank; omega)
  · intro c hc; rw [bank_modBank_ne _ _ hc, bank_raise, bank_modGate_ne _ _ hc]

/-- A gate judged afresh keeps its mode and its mask, and leaves the rest of its bank and every other
bank alone. -/
theorem judgeGate_spec (s : State) (b : BankNo) :
    ((s.judgeGate b).bank b).core = (s.bank b).core ∧
      ((s.judgeGate b).bank b).gate.auto = (s.bank b).gate.auto ∧
      ((s.judgeGate b).bank b).gate.mask = (s.bank b).gate.mask ∧
      ∀ c, c ≠ b → (s.judgeGate b).bank c = s.bank c := by
  refine ⟨core_judgeGate s b, ?_, ?_, ?_⟩
  · unfold State.judgeGate; dsimp only; repeat' split
    all_goals first
      | rfl
      | rw [(openGate_spec s b).1]
      | rw [(tripGate_spec s b).1]
      | rw [bank_modGate_same]
  · unfold State.judgeGate; dsimp only; repeat' split
    all_goals first
      | rfl
      | rw [(openGate_spec s b).1]
      | rw [(tripGate_spec s b).1]
      | rw [bank_modGate_same]
  · intro c hc; unfold State.judgeGate; dsimp only; repeat' split
    all_goals first
      | rfl
      | rw [(openGate_spec s b).2.2 c hc]
      | rw [(tripGate_spec s b).2.2.2 c hc]
      | rw [bank_modGate_ne _ _ hc]

theorem gate_refreshPins (s : State) (b : BankNo) :
    ((s.refreshPins b).bank b).gate = (s.bank b).gate := by
  unfold State.refreshPins; rw [bank_modBank_same, gate_refresh]

theorem releaseGate_gate (s : State) (b : BankNo) :
    ((s.releaseGate b).bank b).gate.auto = (s.bank b).gate.auto ∧
      ((s.releaseGate b).bank b).gate.mask = (s.bank b).gate.mask := by
  unfold State.releaseGate; dsimp only
  generalize hc : (_ && _ : Bool) = c
  cases c
  · exact ⟨rfl, rfl⟩
  · rw [if_pos rfl, (openGate_spec s b).1]; exact ⟨rfl, rfl⟩

/-- The end of a plan keeps the gate's mode and mask. -/
theorem endPlan_gate (s : State) (b : BankNo) (plan : PlanState) (reason : StopReason) :
    ((s.endPlan b plan reason).bank b).gate.auto = (s.bank b).gate.auto ∧
      ((s.endPlan b plan reason).bank b).gate.mask = (s.bank b).gate.mask := by
  have h : ∀ t : State, (t.bank b).seq = (s.bank b).seq.ended plan reason →
      (t.bank b).gate = (s.bank b).gate →
      (((((t.releaseGate b).refreshPins b).raise (causeBank b)).emit b .planEnd).bank b).gate.auto
          = (s.bank b).gate.auto ∧
        (((((t.releaseGate b).refreshPins b).raise (causeBank b)).emit b .planEnd).bank b).gate.mask
          = (s.bank b).gate.mask := by
    intro t ht hg
    have h1 : ((((t.releaseGate b).refreshPins b).raise (causeBank b)).bank b).core
        = (t.bank b).core := by
      change (((t.releaseGate b).refreshPins b).bank b).core = _
      rw [core_refreshPins, core_releaseGate]
    have h2 := congrArg Prod.fst h1
    change ((((t.releaseGate b).refreshPins b).raise (causeBank b)).bank b).seq = (t.bank b).seq at h2
    rw [bank_emit_disarmed _ _ _ _ (by rw [h2, ht]; rfl)]
    change (((t.releaseGate b).refreshPins b).bank b).gate.auto = _ ∧
      (((t.releaseGate b).refreshPins b).bank b).gate.mask = _
    rw [gate_refreshPins, (releaseGate_gate t b).1, (releaseGate_gate t b).2, hg]
    exact ⟨rfl, rfl⟩
  unfold State.endPlan
  exact h _ (by rw [bank_modBank_same, bank_discardReads])
    (by rw [bank_modBank_same, bank_discardReads])

/-! ### A cue touches no gate -/

theorem gate_startFrame (s : State) (c : BankNo) (f : FrameCopy) (forced : Bool) (b : BankNo) :
    ((s.startFrame c f forced).bank b).gate = (s.bank b).gate := by
  by_cases h : b = c
  · subst h
    unfold State.startFrame State.refreshPins State.readLink State.requestFrame
    rw [bank_modBank_same, gate_refresh]
    repeat' split
    all_goals first
      | rw [bank_modBank_same, bank_modSeq_same, bank_modBank_same, bank_modBank_same]
      | rw [bank_modBank_same, bank_modBank_same]
    all_goals rfl
  · rw [bank_startFrame_ne _ _ _ h]

theorem gate_takeCue {emit : StartCond → State → State}
    (h : ∀ c s b, ((emit c s).bank b).gate = (s.bank b).gate) (c : StartCond) (s : State)
    (d b : BankNo) : ((State.takeCue emit c s d).bank b).gate = (s.bank b).gate := by
  unfold State.takeCue State.startCues
  dsimp only
  repeat' split
  all_goals try rfl
  · rw [h, h, gate_startFrame]
  · rw [h, gate_startFrame]
  · by_cases hb : b = d
    · subst hb; rw [bank_modSeq_same]
    · rw [bank_modSeq_ne _ _ hb]

theorem gate_offer (n : Nat) (c : StartCond) (s : State) (b : BankNo) :
    ((offer n c s).bank b).gate = (s.bank b).gate := by
  induction n generalizing c s b with
  | zero => rfl
  | succ n ih =>
    unfold offer
    rw [gate_takeCue ih, gate_takeCue ih, gate_takeCue ih, gate_takeCue ih]

/-! ### An active source -/

theorem causeBit_judgeGate (s : State) (b : BankNo) (m : Nat) (h : s.cause.getLsbD m = true) :
    (s.judgeGate b).cause.getLsbD m = true := by
  unfold State.judgeGate; dsimp only; repeat' split
  all_goals first
    | exact h
    | exact causeBit_mono (s.modGate b _) _ _ h

/-- A gate after an active source has been judged: TRIPPED, a MANUAL rearm pending no more. -/
def Gate.held (g : Gate) : Gate :=
  { g with
    tripped := true
    trips := if g.tripped then g.trips else satInc g.trips
    rearmPending := if g.tripped then g.rearmPending && g.auto else g.rearmPending }

/-- A gate judged while a source of it is active (R82, R87). -/
theorem judgeGate_active (s : State) (b : BankNo) (h : s.sourceActive b = true) :
    ((s.judgeGate b).bank b).gate = (s.bank b).gate.held ∧
      ((s.bank b).gate.tripped = false →
        (s.judgeGate b).cause.getLsbD (causeBank b) = true) := by
  unfold State.judgeGate Gate.held
  dsimp only
  cases ht : (s.bank b).gate.tripped with
  | false =>
    rw [if_pos (by rfl), if_pos h]
    obtain ⟨g1, _, g3, _⟩ := tripGate_spec s b
    rw [g1]
    exact ⟨rfl, fun _ => g3⟩
  | true =>
    rw [if_neg (by decide)]
    refine ⟨?_, fun hz => (by cases hz)⟩
    cases ha : (s.bank b).gate.auto with
    | true =>
      rw [if_pos rfl, h, if_neg (by simp)]
      generalize (s.bank b).gate = g at *
      cases g; simp_all
    | false =>
      rw [if_neg (by decide), h]
      cases hr : (s.bank b).gate.rearmPending with
      | true =>
        rw [if_pos (by rfl), bank_modGate_same]
        generalize (s.bank b).gate = g at *
        cases g; simp_all
      | false =>
        rw [if_neg (by decide)]
        generalize (s.bank b).gate = g at *
        cases g; simp_all

/-- The same when all four gates are judged. -/
theorem judgeGates_active (s : State) (b : BankNo) (h : s.sourceActive b = true) :
    (s.judgeGates.bank b).gate = (s.bank b).gate.held ∧
      ((s.bank b).gate.tripped = false → s.judgeGates.cause.getLsbD (causeBank b) = true) := by
  have nx : ∀ (t : State) c, c ≠ b → (t.judgeGate c).bank b = t.bank b :=
    fun t c hc => (judgeGate_spec t c).2.2.2 b (Ne.symm hc)
  have src : ∀ (t : State) c, c ≠ b → t.sourceActive b = true →
      (t.judgeGate c).sourceActive b = true := by
    intro t c hc ht
    unfold State.sourceActive State.lineTrips State.line at ht ⊢
    rw [nx t c hc, lines_of_beside (beside_judgeGate t c)]; exact ht
  unfold State.judgeGates
  have cm : ∀ (t : State) c, t.cause.getLsbD (causeBank b) = true →
      (t.judgeGate c).cause.getLsbD (causeBank b) = true := fun t c h => causeBit_judgeGate t c _ h
  match b, src, nx, cm, h with
  | 0, src, nx, cm, h =>
    obtain ⟨a1, a2⟩ := judgeGate_active s 0 h
    rw [nx _ 3 (by decide), nx _ 2 (by decide), nx _ 1 (by decide)]
    exact ⟨a1, fun ht => cm _ _ (cm _ _ (cm _ _ (a2 ht)))⟩
  | 1, src, nx, cm, h =>
    obtain ⟨a1, a2⟩ := judgeGate_active _ 1 (src s 0 (by decide) h)
    rw [nx s 0 (by decide)] at a1 a2
    rw [nx _ 3 (by decide), nx _ 2 (by decide)]
    exact ⟨a1, fun ht => cm _ _ (cm _ _ (a2 ht))⟩
  | 2, src, nx, cm, h =>
    obtain ⟨a1, a2⟩ := judgeGate_active _ 2 (src _ 1 (by decide) (src s 0 (by decide) h))
    rw [nx _ 1 (by decide), nx s 0 (by decide)] at a1 a2
    rw [nx _ 3 (by decide)]
    exact ⟨a1, fun ht => cm _ _ (a2 ht)⟩
  | 3, src, nx, cm, h =>
    obtain ⟨a1, a2⟩ := judgeGate_active _ 3
      (src _ 2 (by decide) (src _ 1 (by decide) (src s 0 (by decide) h)))
    rw [nx _ 2 (by decide), nx _ 1 (by decide), nx s 0 (by decide)] at a1 a2
    exact ⟨a1, a2⟩

end Sys2Proof.Machine
end

