-- ==== Sys2Proof/Laws/FramePlans.lean ====
section
/-! SUPPORT. What the operations of the Plan Sequencer leave of their own bank: writes withheld,
halts, fetch and link faults, a frame held or started, and the two parts of a boundary. -/

namespace Sys2Proof.Machine

/-! ### Withheld writes -/

theorem bank_withholdWrites (s : State) (b : BankNo) (sel : Selector) :
    (s.withholdWrites b sel).bank b =
      { s.bank b with fifo := cancelWrites sel (s.bank b).fifo } := by
  unfold State.withholdWrites
  rw [bank_modPort, bank_modBank_same]; rfl

theorem cause_withholdWrites (s : State) (b : BankNo) (sel : Selector) :
    (s.withholdWrites b sel).cause = s.cause := rfl

/-- A write to the frame that is left has one half issued. -/
theorem begun_of_cancelWrites (sel : Selector) (l : List FrameReq) :
    ∀ r ∈ cancelWrites sel l, r.acc.isWrite = true → r.acc.sel = sel → r.status.begun = true := by
  induction l with
  | nil => intro r h; cases h
  | cons a rest ih =>
    intro r h hw hs
    unfold cancelWrites at h
    split at h
    · split at h
      · rename_i hb
        rcases List.mem_cons.mp h with h | h
        · subst h; exact hb
        · exact ih r h hw hs
      · exact ih r h hw hs
    · rename_i hn
      rcases List.mem_cons.mp h with h | h
      · subst h; simp [FrameAccess.writesTo, hw, hs] at hn
      · exact ih r h hw hs

/-! ### Frames that end, and halts -/

/-- Retiring a frame leaves none live and touches nothing else but the requests. -/
theorem retireLive_spec (s : State) (b : BankNo) (code : FrameState) :
    (∃ lv, ((s.retireLive b code).bank b).seq = { (s.bank b).seq with live := lv }) ∧
      ((s.retireLive b code).bank b).gate = (s.bank b).gate := by
  unfold State.retireLive State.requestFrame
  split
  · rw [bank_modBank_same, bank_modSeq_same]; exact ⟨⟨none, rfl⟩, rfl⟩
  · exact ⟨⟨(s.bank b).seq.live, rfl⟩, rfl⟩

theorem retireLive_live {s : State} {b : BankNo} {v : Live} (h : (s.bank b).seq.live = some v)
    (code : FrameState) :
    ((s.retireLive b code).bank b).seq = { (s.bank b).seq with live := none } ∧
      ((s.retireLive b code).bank b).fifo = (s.bank b).fifo ++
        [⟨.retire v.sel s.now v.passes v.flags (some code), .unchecked⟩] := by
  unfold State.retireLive State.requestFrame
  rw [h]
  dsimp only
  rw [bank_modBank_same, bank_modSeq_same]
  exact ⟨rfl, rfl⟩

theorem returnStaged_spec (s : State) (b : BankNo) :
    ((s.returnStaged b).bank b).seq = (s.bank b).seq ∧
      ((s.returnStaged b).bank b).gate = (s.bank b).gate ∧
      (∀ r ∈ (s.bank b).fifo, r ∈ ((s.returnStaged b).bank b).fifo) ∧
      ∀ f, (s.bank b).seq.staged = some f →
        ⟨.state f.sel .ready, .unchecked⟩ ∈ ((s.returnStaged b).bank b).fifo := by
  unfold State.returnStaged State.requestFrame
  split
  · rename_i g hg
    rw [bank_modBank_same]
    exact ⟨rfl, rfl, fun r h => List.mem_append_left _ h, fun f hf => by
      rw [hg] at hf; cases hf; simp⟩
  · rename_i hn
    exact ⟨rfl, rfl, fun _ h => h, fun f hf => by rw [hn] at hf; cases hf⟩

/-- A halt with no frame at fault retires the live frame and returns the staged one. -/
theorem haltBank_none (s : State) (b : BankNo) :
    s.haltBank b none = ((s.retireLive b .cut).returnStaged b).endPlan b .halted .fault := by
  have k : ∀ t : State, (match (t.bank b).seq.staged with
      | some f => if none = some f.sel then t else t.returnStaged b
      | none => t : State) = t.returnStaged b := by
    intro t; unfold State.returnStaged
    cases (t.bank b).seq.staged <;> simp
  unfold State.haltBank
  dsimp only
  cases hl : (s.bank b).seq.live with
  | none =>
    dsimp only
    rw [show s.retireLive b .cut = s by unfold State.retireLive; rw [hl]]
    exact congrArg (fun t => State.endPlan t b .halted .fault) (k s)
  | some v =>
    dsimp only
    rw [if_neg (by simp)]
    exact congrArg (fun t => State.endPlan t b .halted .fault) (k _)

theorem haltBank_spec (s : State) (b : BankNo) :
    ((s.haltBank b none).bank b).seq = (s.bank b).seq.ended .halted .fault ∧
      ((s.haltBank b none).bank b).gate.auto = (s.bank b).gate.auto ∧
      ((s.haltBank b none).bank b).gate.mask = (s.bank b).gate.mask := by
  obtain ⟨h1, h2, _⟩ := returnStaged_spec (s.retireLive b .cut) b
  obtain ⟨⟨lv, h3⟩, h4⟩ := retireLive_spec s b .cut
  rw [haltBank_none, seq_endPlan, (endPlan_gate _ b _ _).1, (endPlan_gate _ b _ _).2, h1, h2, h3, h4]
  exact ⟨rfl, rfl, rfl⟩

/-- A halt over a frame at fault requests no further write of that frame. -/
theorem haltBank_fifo (s : State) (b : BankNo) (sel : Selector) :
    ∀ r ∈ ((s.haltBank b (some sel)).bank b).fifo, r.acc.isWrite = true → r.acc.sel = sel →
      r ∈ (s.bank b).fifo := by
  intro r hr hw hs
  unfold State.haltBank at hr
  dsimp only at hr
  rw [fifo_endPlan] at hr
  have hr := (List.mem_filter.mp hr).1
  have step : ∀ t : State, r ∈ ((match (t.bank b).seq.staged with
      | some f => if some sel = some f.sel then t else t.returnStaged b
      | none => t : State).bank b).fifo → r ∈ (t.bank b).fifo := by
    intro t h
    split at h
    · rename_i f hf
      split at h
      · exact h
      · rename_i hne
        unfold State.returnStaged at h
        rw [hf] at h
        dsimp only at h
        unfold State.requestFrame at h
        rw [bank_modBank_same] at h
        rcases List.mem_append.mp h with h | h
        · exact h
        · obtain rfl : r = ⟨.state f.sel .ready, .unchecked⟩ := by simpa using h
          exact absurd (congrArg some hs.symm) hne
    · exact h
  have hr := step _ hr
  split at hr
  · rename_i v hv
    split at hr
    · exact hr
    · rename_i hne
      rw [(retireLive_live hv .cut).2] at hr
      rcases List.mem_append.mp hr with h | h
      · exact h
      · obtain rfl : r = ⟨.retire v.sel s.now v.passes v.flags (some .cut), .unchecked⟩ := by
          simpa using h
        exact absurd (congrArg some hs.symm) hne
  · exact hr

/-! ### Faults on fetches and links -/

/-- A fetch that fails: a head frame halts the bank, a successor makes the tag REJECTED (R105). -/
theorem failFetch_spec (s : State) (b : BankNo) (role : Role) :
    ((s.failFetch b role).bank b).faults = (s.bank b).faults ∧
      (role = .head → s.failFetch b role =
        (s.modSeq b fun q => { q with fetch := none }).haltBank b none) ∧
      (role = .successor → (s.failFetch b role).bank b =
        { s.bank b with seq := { (s.bank b).seq with fetch := none, tag := .rejected } }) := by
  unfold State.failFetch
  dsimp only
  cases role with
  | head =>
    dsimp only
    exact ⟨by rw [faults_haltBank, bank_modSeq_same], fun _ => rfl, fun h => (by cases h)⟩
  | successor =>
    dsimp only
    exact ⟨by rw [bank_modSeq_same, bank_modSeq_same], fun h => (by cases h),
      fun _ => by rw [bank_modSeq_same, bank_modSeq_same]⟩

theorem fetchFault_spec (s : State) (b : BankNo) (f : Fetch) (cls : FaultClass) (sub : Subcode)
    (field : Nat) :
    ((s.fetchFault b f cls sub field).bank b).faults.sticky = (s.bank b).faults.sticky.mark cls ∧
      (f.role = .head →
        ((s.fetchFault b f cls sub field).bank b).seq =
          ({ (s.bank b).seq with fetch := none } : Sequencer).ended .halted .fault ∧
        (s.fetchFault b f cls sub field).cause.getLsbD (causeBank b) = true) ∧
      (f.role = .successor →
        ((s.fetchFault b f cls sub field).bank b).seq =
          { (s.bank b).seq with fetch := none, tag := .rejected } ∧
        ((s.fetchFault b f cls sub field).bank b).fifo = (s.bank b).fifo) := by
  unfold State.fetchFault
  obtain ⟨h1, h2, h3⟩ := failFetch_spec (s.reportFault b cls sub f.sel field f.role.phase) b f.role
  refine ⟨by rw [h1, bank_reportFault], ?_, ?_⟩
  · intro h
    rw [h2 h]
    refine ⟨?_, causeBit_haltBank _ _ _⟩
    rw [(haltBank_spec _ b).1, bank_modSeq_same, bank_reportFault]
  · intro h; rw [h3 h, bank_reportFault]; exact ⟨rfl, rfl⟩

theorem linkFault_spec (s : State) (b : BankNo) (cls : FaultClass) (sub : Subcode) :
    ((s.linkFault b cls sub).bank b).seq =
        { (s.bank b).seq with linkRead := false, tag := .rejected } ∧
      ((s.linkFault b cls sub).bank b).faults.sticky = (s.bank b).faults.sticky.mark cls ∧
      ((s.linkFault b cls sub).bank b).fifo = (s.bank b).fifo := by
  unfold State.linkFault
  rw [bank_modSeq_same, bank_reportFault]
  exact ⟨rfl, rfl, rfl⟩

/-! ### A frame held, a frame started -/

theorem bank_holdStaged (s : State) (b : BankNo) (f : FrameCopy) :
    (s.holdStaged b f).bank b = { s.bank b with
      seq := { (s.bank b).seq with
        fetch := none, tag := .valid, staged := some f,
        latch := if f.start = .now then .disarmed else .armed, awaited := f.awaits } } :=
  bank_modSeq_same _ _ _

/-- A frame that has become live (R35, R51, R75). -/
theorem startFrame_spec (s : State) (b : BankNo) (f : FrameCopy) (forced : Bool) :
    ((s.startFrame b f forced).bank b).seq.live = some (f.live forced) ∧
      ((s.startFrame b f forced).bank b).seq.plan = .running ∧
      ((s.startFrame b f forced).bank b).seq.tag = .empty ∧
      ((s.startFrame b f forced).bank b).seq.latch = .disarmed ∧
      ((s.startFrame b f forced).bank b).wave.counter = 0 ∧
      ((s.startFrame b f forced).bank b).seq.settings = (s.bank b).seq.merged f ∧
      ((s.startFrame b f forced).bank b).faults = (s.bank b).faults := by
  unfold State.startFrame State.refreshPins State.readLink State.requestFrame
  rw [bank_modBank_same]
  rw [seq_refresh, counter_refresh, faults_refresh]
  repeat' split
  all_goals first
    | rw [bank_modBank_same, bank_modSeq_same, bank_modBank_same, bank_modBank_same]
    | rw [bank_modBank_same, bank_modBank_same]
  all_goals exact ⟨rfl, rfl, rfl, rfl, rfl, rfl, rfl⟩

/-- The cues of its own start leave the bank as the start made it. -/
theorem bank_startOwn (s : State) (b : BankNo) (f : FrameCopy) (forced : Bool) :
    (s.startOwn b f forced).bank b = (s.startFrame b f forced).bank b := by
  have hd := (startFrame_spec s b f forced).2.2.2.1
  have h1 := bank_offer_disarmed cueDepth (.cue b .frameStart) (s.startFrame b f forced) b hd
  unfold State.startOwn State.startCues
  split
  · rw [bank_offer_disarmed cueDepth (.cue b .matched) _ b (by rw [h1]; exact hd), h1]
  · rw [h1]

/-! ### Boundaries -/

theorem running_ne_waiting {p : PlanState} (h : p.isRunning = true) : p ≠ .waiting := by
  rintro rfl; simp [PlanState.isRunning] at h

theorem relatched_matchCue (s : State) (b c : BankNo) (h : (s.bank b).seq.plan ≠ .waiting) :
    Relatched b s (s.matchCue c) := by
  unfold State.matchCue; split
  · exact relatched_offer _ _ _ _ h
  · exact Relatched.refl b s

/-- A running bank after the end of a pass: counted, the counter at 0, its latch perhaps set. -/
theorem core_passEnd (s : State) (b : BankNo) (v : Live)
    (hr : (s.bank b).seq.plan.isRunning = true) (hl : (s.bank b).seq.live = some v) :
    ∃ l, (s.bank b).seq.latch.mayBecome l ∧
      ((s.passEnd b).bank b).core =
        ({ (s.bank b).seq with live := some { v with passes := satInc v.passes }, latch := l },
          (s.bank b).faults, (s.bank b).fifo, 0, .up, false, (s.bank b).wave.lastRef) := by
  unfold State.passEnd
  dsimp only
  rw [core_releaseGate]
  generalize hu : (s.modBank b fun k => { k with
      seq := k.seq.modLive fun v => { v with passes := satInc v.passes }
      wave := k.wave.atZero }) = u
  have hb : u.bank b = { s.bank b with
      seq := (s.bank b).seq.modLive fun v => { v with passes := satInc v.passes }
      wave := (s.bank b).wave.atZero } := by
    rw [← hu, bank_modBank_same]
  obtain ⟨l, h1, h2⟩ := relatched_offer cueDepth (.cue b .boundary) u b
    (by rw [hb]; exact running_ne_waiting hr)
  refine ⟨l, ?_, ?_⟩
  · rw [hb] at h1; exact h1
  · change (State.bank (offer _ _ _) b).core = _
    rw [h2, hb]
    unfold Sequencer.modLive
    rw [hl]
    rfl

/-- Where no bank waits and the boundary's own cue is not awaited, the latch stays as it was. -/
theorem seq_passEnd_quiet (s : State) (b : BankNo) (v : Live) (hl : (s.bank b).seq.live = some v)
    (hw : ∀ d, (s.bank d).seq.plan ≠ .waiting)
    (ha : (s.bank b).seq.awaited ≠ some (.cue b .boundary)) :
    ((s.passEnd b).bank b).seq =
      { (s.bank b).seq with live := some { v with passes := satInc v.passes } } := by
  unfold State.passEnd
  dsimp only
  have := congrArg (fun x => x.1) (core_releaseGate ((s.modBank b fun k => { k with
      seq := k.seq.modLive fun v => { v with passes := satInc v.passes }
      wave := k.wave.atZero }).emit b .boundary) b)
  refine this.trans ?_
  generalize hu : (s.modBank b fun k => { k with
      seq := k.seq.modLive fun v => { v with passes := satInc v.passes }
      wave := k.wave.atZero }) = u
  have hb : u.bank b = { s.bank b with
      seq := (s.bank b).seq.modLive fun v => { v with passes := satInc v.passes }
      wave := (s.bank b).wave.atZero } := by
    rw [← hu, bank_modBank_same]
  have hp : ∀ d, (u.bank d).seq.plan ≠ .waiting := by
    intro d
    by_cases hd : d = b
    · subst hd; rw [hb]; exact hw d
    · rw [← hu, bank_modBank_ne _ _ hd]; exact hw d
  change (State.bank (offer _ _ _) b).seq = _
  rw [bank_offer_unawaited _ _ _ _ hp (by rw [hb]; exact ha), hb]
  unfold Sequencer.modLive
  rw [hl]
  rfl

/-- A running bank at the start of a further pass. -/
theorem nextPass_spec (s : State) (b : BankNo) (hr : (s.bank b).seq.plan.isRunning = true) :
    ((s.nextPass b).bank b).seq.plan = (s.bank b).seq.plan ∧
      ((s.nextPass b).bank b).seq.live = (s.bank b).seq.live ∧
      ((s.nextPass b).bank b).wave.counter = 0 ∧ ((s.nextPass b).bank b).wave.dir = .up ∧
      ((s.nextPass b).bank b).wave.advanceDue = false ∧
      ((s.nextPass b).bank b).faults = (s.bank b).faults := by
  unfold State.nextPass
  dsimp only
  generalize hu : (s.modBank b fun k => k.takeCount 0 .up) = u
  have hb : u.bank b = (s.bank b).takeCount 0 .up := by rw [← hu, bank_modBank_same]
  obtain ⟨r1, r2, r3, r4⟩ : ((u.readLink b).bank b).seq.plan = (u.bank b).seq.plan ∧
      ((u.readLink b).bank b).seq.live = (u.bank b).seq.live ∧
      ((u.readLink b).bank b).wave = (u.bank b).wave ∧
      ((u.readLink b).bank b).faults = (u.bank b).faults := by
    unfold State.readLink State.requestFrame
    repeat' split
    · rw [bank_modBank_same, bank_modSeq_same]; exact ⟨rfl, rfl, rfl, rfl⟩
    · exact ⟨rfl, rfl, rfl, rfl⟩
    · exact ⟨rfl, rfl, rfl, rfl⟩
  generalize u.readLink b = w at *
  have e : (w.refreshPins b).bank b = (w.bank b).refreshPins := by
    unfold State.refreshPins; rw [bank_modBank_same]
  obtain ⟨l, _, h2⟩ := relatched_matchCue (w.refreshPins b) b b
    (by rw [e, seq_refresh, r1, hb]; exact running_ne_waiting hr)
  rw [h2, e]
  unfold Bank.relatch
  dsimp only
  rw [seq_refresh, counter_refresh, dir_refresh, advanceDue_refresh, faults_refresh, r1, r2, r3, r4,
    hb]
  exact ⟨rfl, rfl, rfl, rfl, rfl, rfl⟩

end Sys2Proof.Machine
end

