-- ==== Sys2Proof/Laws/Releases.lean ====
section
/-! SUPPORT. The Trip Gate's boundary action through the ends and boundaries that take it, and what a
stop, a start and a next pass leave in a bank's requests. -/

namespace Sys2Proof.Machine

/-! ### The boundary action (R86, R88, R89) -/

/-- A gate after its boundary action, `lines` saying whether a selected line is at its trip level. -/
def Gate.released (g : Gate) (lines : Bool) : Gate :=
  if g.tripped && (if g.auto then !g.swTrip && !lines else g.rearmPending)
  then { g with tripped := false, rearmPending := false } else g

/-- Taken twice, the boundary action is taken once. -/
theorem Gate.released_twice (g : Gate) (lines : Bool) :
    (g.released lines).released lines = g.released lines := by
  obtain ⟨t, sw, r, m, a, n⟩ := g
  cases t <;> cases sw <;> cases r <;> cases a <;> cases lines <;> rfl

theorem Gate.released_mask (g : Gate) (lines : Bool) : (g.released lines).mask = g.mask := by
  unfold Gate.released
  generalize (_ && _ : Bool) = c
  cases c <;> rfl

theorem gate_releaseGate (s : State) (b : BankNo) :
    ((s.releaseGate b).bank b).gate = (s.bank b).gate.released (s.lineTrips b) := by
  unfold State.releaseGate Gate.released State.sourceActive
  dsimp only
  rw [Bool.not_or]
  generalize (_ && _ : Bool) = c
  cases c
  · rfl
  · exact (openGate_spec s b).1

/-- The trip lines of a bank depend on its mask and on the lines alone. -/
theorem lineTrips_of {s t : State} {b : BankNo} (hl : t.lines = s.lines)
    (hm : (t.bank b).gate.mask = (s.bank b).gate.mask) : t.lineTrips b = s.lineTrips b := by
  unfold State.lineTrips State.line; rw [hl, hm]

theorem gate_emit (s : State) (c : BankNo) (k : CueKind) (b : BankNo) :
    ((s.emit c k).bank b).gate = (s.bank b).gate := gate_offer _ _ _ _

theorem gate_matchCue (s : State) (c b : BankNo) :
    ((s.matchCue c).bank b).gate = (s.bank b).gate := by
  unfold State.matchCue; split
  · exact gate_emit _ _ _ _
  · rfl

/-- The end of a plan takes the boundary action. -/
theorem gate_endPlan (s : State) (b : BankNo) (plan : PlanState) (reason : StopReason) :
    ((s.endPlan b plan reason).bank b).gate = (s.bank b).gate.released (s.lineTrips b) := by
  have h : ∀ t : State, t.lines = s.lines → (t.bank b).gate = (s.bank b).gate →
      (((((t.releaseGate b).refreshPins b).raise (causeBank b)).emit b .planEnd).bank b).gate
        = (s.bank b).gate.released (s.lineTrips b) := by
    intro t hl hg
    rw [gate_emit, bank_raise, gate_refreshPins, gate_releaseGate, hg,
      lineTrips_of hl (by rw [hg])]
  unfold State.endPlan
  exact h _ rfl (by rw [bank_modBank_same, bank_discardReads])

theorem gate_retireLive (s : State) (b : BankNo) (code : FrameState) :
    ((s.retireLive b code).bank b).gate = (s.bank b).gate := (retireLive_spec s b code).2

theorem gate_returnStaged (s : State) (b : BankNo) :
    ((s.returnStaged b).bank b).gate = (s.bank b).gate := (returnStaged_spec s b).2.1

theorem lines_retireLive (s : State) (b : BankNo) (code : FrameState) :
    (s.retireLive b code).lines = s.lines := by
  unfold State.retireLive State.requestFrame; split <;> rfl

theorem lines_returnStaged (s : State) (b : BankNo) : (s.returnStaged b).lines = s.lines := by
  unfold State.returnStaged State.requestFrame; split <;> rfl

theorem gate_stopBank (s : State) (b : BankNo) (code : FrameState) :
    ((s.stopBank b code).bank b).gate = (s.bank b).gate.released (s.lineTrips b) := by
  unfold State.stopBank
  rw [gate_endPlan, gate_returnStaged, gate_retireLive,
    lineTrips_of (s := s) (by rw [lines_returnStaged, lines_retireLive])
      (by rw [gate_returnStaged, gate_retireLive])]

theorem gate_haltBank (s : State) (b : BankNo) (bad : Option Selector) :
    ((s.haltBank b bad).bank b).gate = (s.bank b).gate.released (s.lineTrips b) := by
  have key : ∀ v : State, v.lines = s.lines ∧ (v.bank b).gate = (s.bank b).gate →
      ((v.endPlan b .halted .fault).bank b).gate = (s.bank b).gate.released (s.lineTrips b) := by
    intro v ⟨hl, hg⟩
    rw [gate_endPlan, hg, lineTrips_of hl (by rw [hg])]
  unfold State.haltBank
  apply key
  repeat' split
  all_goals simp only [lines_returnStaged, lines_retireLive, gate_returnStaged, gate_retireLive,
    and_self]

/-- The end of a pass takes the boundary action. -/
theorem gate_passEnd (s : State) (b : BankNo) :
    ((s.passEnd b).bank b).gate = (s.bank b).gate.released (s.lineTrips b) := by
  unfold State.passEnd
  dsimp only
  generalize hu : (s.modBank b fun k => { k with
      seq := k.seq.modLive fun v => { v with passes := satInc v.passes }
      wave := k.wave.atZero }) = u
  have hg : ((u.emit b .boundary).bank b).gate = (s.bank b).gate := by
    rw [gate_emit, ← hu, bank_modBank_same]
  have hl : (u.emit b .boundary).lines = s.lines := by
    rw [lines_of_beside (beside_emit u b .boundary), ← hu]; rfl
  rw [gate_releaseGate, hg, lineTrips_of hl (by rw [hg])]

/-- After the end of a pass, the boundary action has been taken. -/
theorem gate_passEnd_twice (s : State) (b : BankNo) :
    ((s.passEnd b).bank b).gate.released ((s.passEnd b).lineTrips b)
      = (s.bank b).gate.released (s.lineTrips b) := by
  have hl : (s.passEnd b).lines = s.lines := lines_of_beside (beside_passEnd s b)
  rw [lineTrips_of hl (by rw [gate_passEnd, Gate.released_mask]), gate_passEnd, Gate.released_twice]

theorem gate_readLink (s : State) (b : BankNo) :
    ((s.readLink b).bank b).gate = (s.bank b).gate := by
  unfold State.readLink State.requestFrame
  repeat' split
  · rw [bank_modBank_same, bank_modSeq_same]
  all_goals rfl

theorem gate_nextPass (s : State) (b : BankNo) :
    ((s.nextPass b).bank b).gate = (s.bank b).gate := by
  unfold State.nextPass
  dsimp only
  rw [gate_matchCue, gate_refreshPins, gate_readLink, bank_modBank_same]; rfl

theorem gate_startOwn (s : State) (b : BankNo) (f : FrameCopy) (forced : Bool) :
    ((s.startOwn b f forced).bank b).gate = (s.bank b).gate := by
  rw [bank_startOwn, gate_startFrame]

theorem gate_enterWaiting (s : State) (b : BankNo) (f : FrameCopy) :
    ((s.enterWaiting b f).bank b).gate = (s.bank b).gate := by
  unfold State.enterWaiting; rw [gate_refreshPins, bank_modBank_same]

/-! ### Requests of a stop -/

/-- What retiring the live frame adds to the requests. -/
theorem fifo_retireLive (s : State) (b : BankNo) (code : FrameState) :
    ((s.retireLive b code).bank b).fifo = (s.bank b).fifo ++
      ((s.bank b).seq.live.map fun v => (⟨.retire v.sel s.now v.passes v.flags (some code),
        .unchecked⟩ : FrameReq)).toList := by
  cases hl : (s.bank b).seq.live with
  | some v => exact (retireLive_live hl code).2
  | none => unfold State.retireLive; rw [hl]; simp

/-- What returning the staged frame adds to the requests. -/
theorem fifo_returnStaged (s : State) (b : BankNo) :
    ((s.returnStaged b).bank b).fifo = (s.bank b).fifo ++
      ((s.bank b).seq.staged.map fun f => (⟨.state f.sel .ready, .unchecked⟩ : FrameReq)).toList := by
  unfold State.returnStaged State.requestFrame
  cases hf : (s.bank b).seq.staged with
  | some f => dsimp only; rw [bank_modBank_same]; rfl
  | none => simp

/-- The requests of a bank that has ended its plan by a stop or a halt. -/
theorem fifo_ended (s : State) (b : BankNo) (code : FrameState) (plan : PlanState)
    (reason : StopReason) :
    ((((s.retireLive b code).returnStaged b).endPlan b plan reason).bank b).fifo =
      ((s.bank b).fifo.filter fun r => !r.acc.fetches)
        ++ ((s.bank b).seq.live.map fun v => (⟨.retire v.sel s.now v.passes v.flags (some code),
          .unchecked⟩ : FrameReq)).toList
        ++ ((s.bank b).seq.staged.map fun f =>
          (⟨.state f.sel .ready, .unchecked⟩ : FrameReq)).toList := by
  have hs : ((s.retireLive b code).bank b).seq.staged = (s.bank b).seq.staged := by
    obtain ⟨⟨lv, h⟩, _⟩ := retireLive_spec s b code; rw [h]
  rw [fifo_endPlan, fifo_returnStaged, fifo_retireLive, hs, List.filter_append, List.filter_append]
  congr 1
  · congr 1
    cases (s.bank b).seq.live with
    | some v => rfl
    | none => rfl
  · cases (s.bank b).seq.staged with
    | some f => rfl
    | none => rfl

end Sys2Proof.Machine
end

