-- ==== Sys2Proof/Laws/Latches.lean ====
section
/-! SUPPORT. A cue or edge at the latch that awaits it: set in a running bank, the start of the frame
in a waiting one; and at a latch that awaits another. -/

namespace Sys2Proof.Machine

/-! ### A frame that starts -/

/-- What a start makes of its bank depends on that bank alone. -/
theorem startFrame_congr {s t : State} {b : BankNo} (h : t.bank b = s.bank b) (f : FrameCopy)
    (forced : Bool) : (t.startFrame b f forced).bank b = (s.startFrame b f forced).bank b := by
  have hl : ∀ u : State, ∃ g : Bank → Bank, ∀ v : State, v.bank b = u.bank b →
      (v.readLink b).bank b = g (v.bank b) := by
    intro u
    refine ⟨fun k => match k.seq.live with
      | some x => if k.seq.mayReadLink then
          { k with seq := { k.seq with linkRead := true }, fifo := k.fifo ++ [⟨.link x.sel, .unchecked⟩] }
          else k
      | none => k, ?_⟩
    intro v _
    unfold State.readLink State.requestFrame
    repeat' split
    all_goals simp_all
  unfold State.startFrame State.refreshPins State.requestFrame
  rw [bank_modBank_same, bank_modBank_same]
  obtain ⟨g, hg⟩ := hl (((s.modBank b fun k => { k with
    fifo := k.fifo ++ [⟨.state f.sel .live, .unchecked⟩] }).modBank b fun k => k.begin f forced))
  rw [hg _ rfl, hg _ (by rw [bank_modBank_same, bank_modBank_same, bank_modBank_same,
    bank_modBank_same, h])]
  rw [bank_modBank_same, bank_modBank_same, bank_modBank_same, bank_modBank_same, h]

/-- The staged slot and the timer after a start, and the writes and the link read it requests. -/
theorem startFrame_rest (s : State) (b : BankNo) (f : FrameCopy) (forced : Bool) :
    ((s.startFrame b f forced).bank b).seq.staged = none ∧
      ((s.startFrame b f forced).bank b).seq.timer = none ∧
      ((s.bank b).seq.linkRead = false →
        ((s.startFrame b f forced).bank b).fifo =
          (s.bank b).fifo ++ [⟨.state f.sel .live, .unchecked⟩, ⟨.link f.sel, .unchecked⟩]) := by
  unfold State.startFrame State.refreshPins State.requestFrame
  rw [bank_modBank_same, seq_refresh, fifo_refresh]
  generalize hu : ((s.modBank b fun k => { k with
    fifo := k.fifo ++ [⟨.state f.sel .live, .unchecked⟩] }).modBank b fun k => k.begin f forced) = u
  have hb : u.bank b = { (s.bank b).begin f forced with
      fifo := (s.bank b).fifo ++ [⟨.state f.sel .live, .unchecked⟩] } := by
    rw [← hu, bank_modBank_same, bank_modBank_same]; rfl
  unfold State.readLink State.requestFrame
  have hl : (u.bank b).seq.live = some (f.live forced) := by rw [hb]; rfl
  rw [hl]
  dsimp only
  split
  · rw [bank_modBank_same, bank_modSeq_same, hb]
    exact ⟨rfl, rfl, fun _ => by simp [FrameCopy.live]⟩
  · rename_i hn
    rw [hb]
    refine ⟨rfl, rfl, fun hk => ?_⟩
    rw [hb] at hn
    exact absurd (by simp [Sequencer.mayReadLink, Bank.begin, PlanState.isRunning, hk]) hn

/-! ### A matching cue, a running bank (R73) -/

theorem Relatched.set {b : BankNo} {s t : State} {k : Bank} (h : Relatched b s t)
    (hs : s.bank b = k.relatch .set) : t.bank b = k.relatch .set := by
  obtain ⟨l, hl, ht⟩ := h
  rw [ht, hs]
  rw [hs] at hl
  rcases hl with hl | ⟨hl, _⟩
  · rw [hl]; rfl
  · cases hl

theorem takeCue_sets {emit : StartCond → State → State} {c : StartCond} {s t : State} {b : BankNo}
    (h : Relatched b s t) (hr : (s.bank b).seq.plan ≠ .waiting)
    (hl : (s.bank b).seq.latch = .armed) (ha : (s.bank b).seq.awaited = some c) :
    (State.takeCue emit c t b).bank b = (s.bank b).relatch .set := by
  obtain ⟨l, hm, ht⟩ := h
  unfold State.takeCue
  dsimp only
  rw [ht]
  rcases hm with hm | ⟨_, hm⟩
  · rw [if_pos (by simp [Bank.relatch, hm, hl, ha]), if_neg (by exact hr), bank_modSeq_same, ht]
    rfl
  · subst hm
    rw [if_neg (by simp [Bank.relatch]), ht]

/-- The cue that an armed latch of a running bank awaits sets it. -/
theorem bank_offer_awaited (n : Nat) (c : StartCond) (s : State) (b : BankNo)
    (hr : (s.bank b).seq.plan ≠ .waiting) (hl : (s.bank b).seq.latch = .armed)
    (ha : (s.bank b).seq.awaited = some c) :
    (offer (n + 1) c s).bank b = (s.bank b).relatch .set := by
  have go : ∀ (t : State) (d : BankNo), Relatched b s t →
      Relatched b s (State.takeCue (offer n) c t d) := fun t d h =>
    h.trans (relatched_takeCue (fun c s => relatched_offer n c s b) c t d (by rw [h.plan]; exact hr))
  have set : ∀ (t : State) (d : BankNo), t.bank b = (s.bank b).relatch .set →
      (State.takeCue (offer n) c t d).bank b = (s.bank b).relatch .set := fun t d h =>
    (relatched_takeCue (fun c s => relatched_offer n c s b) c t d
      (by rw [h]; exact hr)).set h
  have h0 := Relatched.refl b s
  unfold offer
  match b, hr, hl, ha, go, set, h0 with
  | 0, hr, hl, ha, go, set, h0 => exact set _ 3 (set _ 2 (set _ 1 (takeCue_sets h0 hr hl ha)))
  | 1, hr, hl, ha, go, set, h0 => exact set _ 3 (set _ 2 (takeCue_sets (go _ 0 h0) hr hl ha))
  | 2, hr, hl, ha, go, set, h0 => exact set _ 3 (takeCue_sets (go _ 1 (go _ 0 h0)) hr hl ha)
  | 3, hr, hl, ha, go, set, h0 => exact takeCue_sets (go _ 2 (go _ 1 (go _ 0 h0))) hr hl ha

/-! ### A matching cue, a waiting bank (R75) -/

/-- The bank as it was, or as the start of its frame makes it. -/
def StartedOr (b : BankNo) (f : FrameCopy) (s t : State) : Prop :=
  t.bank b = s.bank b ∨ t.bank b = (s.startFrame b f false).bank b

theorem disarmed_startFrame (s : State) (b : BankNo) (f : FrameCopy) (forced : Bool) :
    ((s.startFrame b f forced).bank b).seq.latch = .disarmed :=
  (startFrame_spec s b f forced).2.2.2.1

theorem startCues_disarmed {b : BankNo} (n : Nat) (s : State) (d : BankNo)
    (h : (s.bank b).seq.latch = .disarmed) :
    (State.startCues (offer n) s d).bank b = s.bank b := by
  have h1 := bank_offer_disarmed n (.cue d .frameStart) s b h
  unfold State.startCues
  split
  · rw [bank_offer_disarmed n _ _ b (by rw [h1]; exact h), h1]
  · exact h1

theorem startedOr_startCues {b : BankNo} {f : FrameCopy} {s : State} {n : Nat}
    (ih : ∀ c t, StartedOr b f s t → StartedOr b f s (offer n c t)) (t : State) (d : BankNo)
    (h : StartedOr b f s t) : StartedOr b f s (State.startCues (offer n) t d) := by
  unfold State.startCues
  split
  · exact ih _ _ (ih _ _ h)
  · exact ih _ _ h

theorem takeCue_starts {n : Nat} {c : StartCond} {s t : State} {b : BankNo} {f : FrameCopy}
    (h : StartedOr b f s t) (hw : (s.bank b).seq.plan = .waiting)
    (hs : (s.bank b).seq.staged = some f) :
    StartedOr b f s (State.takeCue (offer n) c t b) ∧
      ((s.bank b).seq.latch = .armed → (s.bank b).seq.awaited = some c →
        (State.takeCue (offer n) c t b).bank b = (s.startFrame b f false).bank b) := by
  rcases h with h | h
  · unfold State.takeCue
    dsimp only
    rw [h]
    have e : (State.startCues (offer n) (t.startFrame b f false) b).bank b
        = (s.startFrame b f false).bank b := by
      rw [startCues_disarmed n _ _ (disarmed_startFrame _ _ _ _), startFrame_congr h]
    by_cases hn : (decide ((s.bank b).seq.latch = .armed)
        && decide ((s.bank b).seq.awaited = some c)) = true
    · rw [if_pos hn, if_pos hw, hs]
      exact ⟨Or.inr e, fun _ _ => e⟩
    · rw [if_neg hn]
      exact ⟨Or.inl h, fun hl ha => absurd (by simp [hl, ha]) hn⟩
  · have hd : (t.bank b).seq.latch = .disarmed := by rw [h]; exact disarmed_startFrame _ _ _ _
    have e := disarmed_takeCue (fun c s => bank_offer_disarmed n c s b) c t b hd
    exact ⟨Or.inr (e.trans h), fun _ _ => e.trans h⟩

theorem startedOr_takeCue {n : Nat} {c : StartCond} {s : State} {b : BankNo} {f : FrameCopy}
    (ih : ∀ c t, StartedOr b f s t → StartedOr b f s (offer n c t))
    (hw : (s.bank b).seq.plan = .waiting) (hs : (s.bank b).seq.staged = some f) (t : State)
    (d : BankNo) (h : StartedOr b f s t) : StartedOr b f s (State.takeCue (offer n) c t d) := by
  by_cases hd : d = b
  · subst hd; exact (takeCue_starts h hw hs).1
  · have hbd : b ≠ d := Ne.symm hd
    unfold State.takeCue
    dsimp only
    repeat' split
    · rename_i g _
      refine startedOr_startCues ih _ d ?_
      unfold StartedOr
      rw [bank_startFrame_ne t g false hbd]; exact h
    · exact h
    · unfold StartedOr; rw [bank_modSeq_ne _ _ hbd]; exact h
    · exact h

theorem startedOr_offer (n : Nat) {s : State} {b : BankNo} {f : FrameCopy}
    (hw : (s.bank b).seq.plan = .waiting) (hs : (s.bank b).seq.staged = some f) (c : StartCond)
    (t : State) (h : StartedOr b f s t) : StartedOr b f s (offer n c t) := by
  induction n generalizing c t with
  | zero => exact h
  | succ n ih =>
    unfold offer
    exact startedOr_takeCue ih hw hs _ 3 (startedOr_takeCue ih hw hs _ 2
      (startedOr_takeCue ih hw hs _ 1 (startedOr_takeCue ih hw hs _ 0 h)))

/-- The cue that a waiting bank awaits starts its frame. -/
theorem bank_offer_starts (n : Nat) (c : StartCond) (s : State) (b : BankNo) (f : FrameCopy)
    (hw : (s.bank b).seq.plan = .waiting) (hs : (s.bank b).seq.staged = some f)
    (hl : (s.bank b).seq.latch = .armed) (ha : (s.bank b).seq.awaited = some c) :
    (offer (n + 1) c s).bank b = (s.startFrame b f false).bank b := by
  have h0 : StartedOr b f s s := Or.inl rfl
  have go : ∀ (t : State) (d : BankNo), StartedOr b f s t →
      StartedOr b f s (State.takeCue (offer n) c t d) :=
    startedOr_takeCue (startedOr_offer n hw hs) hw hs
  have fin : ∀ (t : State) (d : BankNo), t.bank b = (s.startFrame b f false).bank b →
      (State.takeCue (offer n) c t d).bank b = (s.startFrame b f false).bank b := by
    intro t d h
    rw [disarmed_takeCue (fun c s => bank_offer_disarmed n c s b) c t d
      (by rw [h]; exact disarmed_startFrame _ _ _ _), h]
  have now := fun (t : State) (h : StartedOr b f s t) =>
    (takeCue_starts (n := n) (c := c) h hw hs).2 hl ha
  unfold offer
  match b, now, go, fin, h0 with
  | 0, now, go, fin, h0 => exact fin _ 3 (fin _ 2 (fin _ 1 (now _ h0)))
  | 1, now, go, fin, h0 => exact fin _ 3 (fin _ 2 (now _ (go _ 0 h0)))
  | 2, now, go, fin, h0 => exact fin _ 3 (now _ (go _ 1 (go _ 0 h0)))
  | 3, now, go, fin, h0 => exact now _ (go _ 2 (go _ 1 (go _ 0 h0)))

/-! ### A cue that is not awaited -/

/-- A latch that awaits a line, or a cue of a bank that does not wait, takes no other cue: no start on
this tick emits the one it awaits. -/
theorem bank_offer_unheard (n : Nat) (c : StartCond) (s : State) (b : BankNo)
    (ha : (s.bank b).seq.awaited ≠ some c)
    (hq : ∀ d k, (s.bank b).seq.awaited = some (.cue d k) → (s.bank d).seq.plan ≠ .waiting) :
    (offer n c s).bank b = s.bank b := by
  induction n generalizing c s with
  | zero => rfl
  | succ n ih =>
    have key : ∀ (t : State) (d : BankNo), t.bank b = s.bank b →
        (∀ e, (s.bank e).seq.plan ≠ .waiting → (t.bank e).seq.plan ≠ .waiting) →
        (State.takeCue (offer n) c t d).bank b = s.bank b ∧
          ∀ e, (s.bank e).seq.plan ≠ .waiting →
            ((State.takeCue (offer n) c t d).bank e).seq.plan ≠ .waiting := by
      intro t d ht hp
      have hkeep : ∀ e, (s.bank e).seq.plan ≠ .waiting →
          ((State.takeCue (offer n) c t d).bank e).seq.plan ≠ .waiting := fun e he => by
        rw [(relatched_takeCue (fun c s => relatched_offer n c s e) c t d (hp e he)).plan]
        exact hp e he
      refine ⟨?_, hkeep⟩
      unfold State.takeCue
      dsimp only
      split
      · rename_i hl
        simp only [Bool.and_eq_true, decide_eq_true_eq] at hl
        have hd : b ≠ d := by rintro rfl; rw [ht] at hl; exact ha hl.2
        split
        · rename_i hw
          split
          · rename_i g _
            have h1 : (t.startFrame d g false).bank b = s.bank b :=
              (bank_startFrame_ne t g false hd).trans ht
            have hne : ∀ k, (s.bank b).seq.awaited ≠ some (.cue d k) := fun k hk =>
              hp d (hq d k hk) hw
            have hq1 : ∀ e k, (s.bank b).seq.awaited = some (.cue e k) →
                ((t.startFrame d g false).bank e).seq.plan ≠ .waiting := by
              intro e k hk
              have he : e ≠ d := by rintro rfl; exact hne k hk
              rw [bank_startFrame_ne t g false he]; exact hp e (hq e k hk)
            have h2 := ih (.cue d .frameStart) (t.startFrame d g false) (by rw [h1]; exact hne _)
              (by rw [h1]; exact hq1)
            unfold State.startCues
            split
            · rw [ih _ _ (by rw [h2, h1]; exact hne _), h2, h1]
              rw [h2, h1]
              intro e k hk
              rw [(relatched_offer n _ _ e (hq1 e k hk)).plan]
              exact hq1 e k hk
            · rw [h2, h1]
          · exact ht
        · rw [bank_modSeq_ne _ _ hd]; exact ht
      · exact ht
    obtain ⟨h0, k0⟩ := key s 0 rfl (fun _ h => h)
    obtain ⟨h1, k1⟩ := key _ 1 h0 k0
    obtain ⟨h2, k2⟩ := key _ 2 h1 k1
    obtain ⟨h3, _⟩ := key _ 3 h2 k2
    rw [offer, h3]

end Sys2Proof.Machine
end

