-- ==== Sys2Proof/Laws/Settled.lean ====
section
/-! SUPPORT. What the window checks and closes at the end of a step leave alone: another bank whose
cue latch is disarmed, a bank that holds nothing, and, while no journal closes, every line and every
journal. -/

namespace Sys2Proof.Machine

/-! ### Another bank, its latch disarmed -/

section
variable {b c : BankNo} (hbc : b ≠ c)
include hbc

theorem other_reportFault (s : State) (cls : FaultClass) (sub : Subcode) (sel : Selector)
    (field : Nat) (ph : Phase) :
    (s.reportFault c cls sub sel field ph).bank b = s.bank b := by
  have e (t : State) (k : FaultClass) : (t.markSticky c k).bank b = t.bank b :=
    bank_modFaults_ne _ _ hbc
  unfold State.reportFault
  dsimp only
  split
  · rw [bank_raise, bank_modFaults_ne _ _ hbc, e]
  · rw [bank_modFaults_ne _ _ hbc, e]

theorem other_retireLive (s : State) (code : FrameState) :
    (s.retireLive c code).bank b = s.bank b := by
  unfold State.retireLive State.requestFrame
  split
  · rw [bank_modBank_ne _ _ hbc, bank_modSeq_ne _ _ hbc]
  · rfl

theorem other_returnStaged (s : State) : (s.returnStaged c).bank b = s.bank b := by
  unfold State.returnStaged State.requestFrame
  split
  · rw [bank_modBank_ne _ _ hbc]
  · rfl

theorem other_discardReads (s : State) : (s.discardReads c).bank b = s.bank b := by
  unfold State.discardReads
  rw [bank_modPort, bank_modBank_ne _ _ hbc]; rfl

theorem other_releaseGate (s : State) : (s.releaseGate c).bank b = s.bank b := by
  unfold State.releaseGate
  dsimp only
  generalize (_ && _ : Bool) = x
  cases x
  · rfl
  · exact (openGate_spec s c).2.2 b hbc

theorem other_endPlan (s : State) (p : PlanState) (r : StopReason)
    (hd : (s.bank b).seq.latch = .disarmed) : (s.endPlan c p r).bank b = s.bank b := by
  have h (t : State) (ht : t.bank b = s.bank b) :
      ((((t.releaseGate c).refreshPins c).raise (causeBank c)).emit c .planEnd).bank b
        = s.bank b := by
    have e : (((t.releaseGate c).refreshPins c).raise (causeBank c)).bank b = s.bank b := by
      rw [bank_raise]
      unfold State.refreshPins
      rw [bank_modBank_ne _ _ hbc, other_releaseGate hbc, ht]
    rw [bank_emit_disarmed _ _ _ _ (by rw [e]; exact hd), e]
  unfold State.endPlan
  exact h _ (by rw [bank_modBank_ne _ _ hbc, other_discardReads hbc])

theorem other_haltBank (s : State) (bad : Option Selector)
    (hd : (s.bank b).seq.latch = .disarmed) : (s.haltBank c bad).bank b = s.bank b := by
  unfold State.haltBank
  dsimp only
  have h (t : State) (ht : t.bank b = s.bank b) :
      (t.endPlan c .halted .fault).bank b = s.bank b := by
    rw [other_endPlan hbc _ _ _ (by rw [ht]; exact hd), ht]
  apply h
  repeat' split
  all_goals first | rfl | rw [other_returnStaged hbc] | rw [other_retireLive hbc]
  all_goals rw [other_retireLive hbc]

theorem other_writeFault (s : State) (sel : Selector) (field : Nat) (cls : FaultClass)
    (sub : Subcode) (hd : (s.bank b).seq.latch = .disarmed) :
    (s.writeFault c sel field cls sub).bank b = s.bank b := by
  have w (t : State) : (t.withholdWrites c sel).bank b = t.bank b := by
    unfold State.withholdWrites
    rw [bank_modPort, bank_modBank_ne _ _ hbc]; rfl
  have e : ((s.reportFault c cls sub sel field .boundary).withholdWrites c sel).bank b
      = s.bank b := by
    rw [w, other_reportFault hbc]
  unfold State.writeFault
  dsimp only
  split
  · rw [other_haltBank hbc _ _ (by rw [e]; exact hd), e]
  · exact e

theorem other_fetchFault (s : State) (f : Fetch) (cls : FaultClass) (sub : Subcode) (field : Nat)
    (hd : (s.bank b).seq.latch = .disarmed) :
    (s.fetchFault c f cls sub field).bank b = s.bank b := by
  have k (t : State) (r : Role) (ht : (t.bank b).seq.latch = .disarmed) :
      (t.failFetch c r).bank b = t.bank b := by
    have e : (t.modSeq c fun q => { q with fetch := none }).bank b = t.bank b :=
      bank_modSeq_ne _ _ hbc
    unfold State.failFetch
    dsimp only
    split
    · rw [other_haltBank hbc _ _ (by rw [e]; exact ht), e]
    · rw [bank_modSeq_ne _ _ hbc, e]
  unfold State.fetchFault
  rw [k _ _ (by rw [other_reportFault hbc]; exact hd), other_reportFault hbc]

theorem other_accessFault (s : State) (a : FrameAccess) (cls : FaultClass) (sub : Subcode)
    (hd : (s.bank b).seq.latch = .disarmed) :
    (s.accessFault c a cls sub).bank b = s.bank b := by
  have e (t : State) : (t.linkFault c cls sub).bank b = t.bank b := by
    unfold State.linkFault; rw [bank_modSeq_ne _ _ hbc, other_reportFault hbc]
  unfold State.accessFault
  repeat' split
  all_goals first
    | rfl
    | rw [other_fetchFault hbc _ _ _ _ _ hd]
    | rw [e]
    | rw [other_writeFault hbc _ _ _ _ _ hd]

theorem other_checkNext (s : State) (hd : (s.bank b).seq.latch = .disarmed) :
    (s.checkNext c).bank b = s.bank b := by
  have w (a : FrameAccess) (i : Byte) (o l : Nat) (wr : Bool) (d : Byte) :
      (s.windowCheck (.bank c a) i o l wr d).1.bank b = s.bank b := by
    unfold State.windowCheck
    repeat' split
    all_goals first | rfl | exact bank_modBank_ne _ _ hbc
  have h (t : State) (r : FrameReq) (k : CheckResult) (ht : (t.bank b).seq.latch = .disarmed) :
      (t.reqChecked c r k).bank b = t.bank b := by
    have e (f : Bank → Bank) : (t.modBank c f).bank b = t.bank b := bank_modBank_ne _ _ hbc
    unfold State.reqChecked
    split
    · exact e _
    · exact e _
    · rw [other_accessFault hbc _ _ _ _ (by rw [e]; exact ht), e]
  unfold State.checkNext
  split
  · unfold State.checkReq; dsimp only; rw [h _ _ _ (by rw [w]; exact hd), w]
  · rfl

end

/-! ### A bank that holds nothing -/

/-- The bank is DORMANT or HALTED and its Plan Sequencer holds nothing of a plan. -/
def Sequencer.Idle (q : Sequencer) : Prop :=
  (q.plan = .dormant ∨ q.plan = .halted) ∧ q.fetch = none ∧ q.linkRead = false ∧
    q.latch = .disarmed

theorem idle_writeFault (s : State) (b : BankNo) (sel : Selector) (field : Nat) (cls : FaultClass)
    (sub : Subcode) (h : (s.bank b).seq.Idle) :
    ((s.writeFault b sel field cls sub).bank b).seq = (s.bank b).seq := by
  have e : (((s.reportFault b cls sub sel field .boundary).withholdWrites b sel).bank b).seq
      = (s.bank b).seq := by
    rw [bank_withholdWrites, bank_reportFault]
  unfold State.writeFault
  dsimp only
  rw [if_neg]
  · exact e
  · rw [e]; rcases h.1 with h | h <;> rw [h] <;> decide

theorem idle_reqChecked (s : State) (b : BankNo) (r : FrameReq) (k : CheckResult)
    (h : (s.bank b).seq.Idle) : ((s.reqChecked b r k).bank b).seq = (s.bank b).seq := by
  unfold State.reqChecked
  split
  · rw [bank_modBank_same]; rfl
  · rw [bank_modBank_same]; rfl
  · have e : ((s.modBank b fun k => k.strike r).bank b).seq = (s.bank b).seq := by
      rw [bank_modBank_same]; rfl
    generalize (s.modBank b fun k => k.strike r) = u at e
    rw [← e] at h
    rw [← e]
    obtain ⟨h0, h4, h5, h6⟩ := h
    unfold State.accessFault
    split
    · rw [h4]
    · rw [h4]
    · rw [h5]; rfl
    · exact idle_writeFault _ _ _ _ _ _ ⟨h0, h4, h5, h6⟩
    · exact idle_writeFault _ _ _ _ _ _ ⟨h0, h4, h5, h6⟩
    · rfl

theorem idle_checkNext (s : State) (b : BankNo) (h : (s.bank b).seq.Idle) :
    ((s.checkNext b).bank b).seq = (s.bank b).seq := by
  have w (a : FrameAccess) (i : Byte) (o l : Nat) (wr : Bool) (d : Byte) :
      ((s.windowCheck (.bank b a) i o l wr d).1.bank b).seq = (s.bank b).seq := by
    unfold State.windowCheck
    repeat' split
    all_goals first
      | rfl
      | (show ((State.modBank _ b _).bank b).seq = _; rw [bank_modBank_same]; rfl)
  unfold State.checkNext
  split
  · unfold State.checkReq
    dsimp only
    rw [idle_reqChecked _ _ _ _ (by rw [w]; exact h), w]
  · rfl

/-- The checks and closes at the end of a step leave the Plan Sequencer of a bank that holds nothing
as it was. -/
theorem idle_settle (n : Nat) (s : State) (b : BankNo) (h : (s.bank b).seq.Idle) :
    ((settle n s).bank b).seq = (s.bank b).seq := by
  induction n generalizing s with
  | zero => rfl
  | succ n ih =>
    unfold settle
    split
    · rename_i c _
      have e : ((s.checkNext c).bank b).seq = (s.bank b).seq := by
        by_cases hc : b = c
        · subst hc; exact idle_checkNext s b h
        · rw [other_checkNext hc _ h.2.2.2]
      rw [ih _ (by rw [e]; exact h), e]
    · split
      · rename_i j _
        have e : (s.continueClose j).bank b = s.bank b := by
          unfold State.bank; rw [banks_continueClose]
        rw [ih _ (by rw [e]; exact h), e]
      · rfl

theorem offerReply_banks (s : State) : s.offerReply.banks = s.banks := by
  unfold State.offerReply
  repeat' split
  · rw [(more_requestClass3 _ _).eq]; rfl
  all_goals rfl

/-- So does the end of a step as a whole. -/
theorem idle_conclude (a s : State) (b : BankNo) (h : (s.bank b).seq.Idle) :
    ((a.conclude s).bank b).seq = (s.bank b).seq := by
  unfold State.conclude State.concludeLight State.bank
  rw [offerReply_banks, (more_noteStatuses _ _).eq]
  exact idle_settle settleRounds s b h

/-! ### Lines and journals, while no journal closes -/

theorem ends_settle (n : Nat) (s : State) (hc : ∀ j, (s.journal j).closing = false) :
    (settle n s).lines = s.lines ∧ (settle n s).journals = s.journals := by
  induction n generalizing s with
  | zero => exact ⟨rfl, rfl⟩
  | succ n ih =>
    unfold settle
    split
    · rename_i b _
      have hl := lines_of_beside (beside_checkNext s b)
      have hj := journals_of_beside (beside_checkNext s b)
      obtain ⟨i1, i2⟩ := ih (s.checkNext b) (by intro j; unfold State.journal; rw [hj]; exact hc j)
      exact ⟨i1.trans hl, i2.trans hj⟩
    · split
      · rename_i j hj
        unfold State.journalToClose at hj
        have := List.find?_some hj
        unfold State.closeReady at this
        dsimp only at this
        rw [hc j] at this
        simp at this
      · exact ⟨rfl, rfl⟩

theorem ends_offerReply (s : State) :
    s.offerReply.lines = s.lines ∧ s.offerReply.journals = s.journals := by
  unfold State.offerReply
  repeat' split
  · rw [(more_requestClass3 _ _).eq]; exact ⟨rfl, rfl⟩
  all_goals exact ⟨rfl, rfl⟩

theorem ends_concludeLight (a s : State) :
    (a.concludeLight s).lines = s.lines ∧ (a.concludeLight s).journals = s.journals := by
  unfold State.concludeLight
  rw [(ends_offerReply _).1, (ends_offerReply _).2, (more_noteStatuses _ _).eq]
  exact ⟨rfl, rfl⟩

/-- While no journal closes, the end of a step leaves every line and every journal as it was. -/
theorem ends_conclude (a s : State) (hc : ∀ j, (s.journal j).closing = false) :
    (a.conclude s).lines = s.lines ∧ (a.conclude s).journals = s.journals := by
  unfold State.conclude
  obtain ⟨h1, h2⟩ := ends_concludeLight a (settle settleRounds s)
  obtain ⟨k1, k2⟩ := ends_settle settleRounds s hc
  exact ⟨h1.trans k1, h2.trans k2⟩

end Sys2Proof.Machine
end

