-- ==== Sys2Proof/Laws/CueReach.lean ====
section
/-! SUPPORT. A cue of one bank at the latches of the others, through every operation that comes before
or after it on the tick: a latch that has not yet heard it, and one that has. -/

namespace Sys2Proof.Machine

/-! ### Before the cue and after it (R68, R73, R75) -/

/-- Where bank `c` awaits this cue of `b`, it stands at `u` as it stood at `s`. -/
def Unheard (s u : State) (b : BankNo) (k : CueKind) (c : BankNo) : Prop :=
  (s.bank c).seq.latch = .armed → (s.bank c).seq.awaited = some (.cue b k) →
    (u.bank c).seq = (s.bank c).seq ∧ (u.bank c).fifo = (s.bank c).fifo

/-- Where bank `c` awaits this cue of `b`, its latch is set at `t`, or, if it was WAITING, its frame
has started. -/
def Heard (s t : State) (b : BankNo) (k : CueKind) (c : BankNo) : Prop :=
  (s.bank c).seq.latch = .armed → (s.bank c).seq.awaited = some (.cue b k) →
    ((s.bank c).seq.plan ≠ .waiting → (t.bank c).seq = { (s.bank c).seq with latch := .set }) ∧
    (∀ f, (s.bank c).seq.plan = .waiting → (s.bank c).seq.staged = some f →
      ∃ u : State, (u.bank c).seq = (s.bank c).seq ∧ (u.bank c).fifo = (s.bank c).fifo ∧
        t.bank c = (u.startFrame c f false).bank c)

variable {s u v : State} {b c d : BankNo} {k j : CueKind}

theorem Unheard.refl (s : State) (b : BankNo) (k : CueKind) (c : BankNo) : Unheard s s b k c :=
  fun _ _ => ⟨rfl, rfl⟩

theorem Unheard.congr (h : Unheard s u b k c) (e : v.bank c = u.bank c) : Unheard s v b k c := by
  intro h1 h2; rw [e]; exact h h1 h2

theorem Heard.congr (h : Heard s u b k c) (e : v.bank c = u.bank c) : Heard s v b k c := by
  intro h1 h2; rw [e]; exact h h1 h2

/-- Another cue is not heard by a latch that awaits one of a bank which does not wait. -/
theorem Unheard.offer (n : Nat) (x : StartCond) (h : Unheard s u b k c) (hx : x ≠ .cue b k)
    (hb : (u.bank b).seq.plan ≠ .waiting) : Unheard s (offer n x u) b k c := by
  intro h1 h2
  obtain ⟨e, e'⟩ := h h1 h2
  rw [bank_offer_unheard n x u c (by rw [e, h2]; exact fun hz => hx (Option.some.inj hz).symm)
    (by rw [e, h2]; intro d q hz; cases hz; exact hb)]
  exact ⟨e, e'⟩

/-- The cue itself is heard. -/
theorem Unheard.heard (n : Nat) (h : Unheard s u b k c) :
    Heard s (Machine.offer (n + 1) (.cue b k) u) b k c := by
  intro h1 h2
  obtain ⟨e, e'⟩ := h h1 h2
  refine ⟨fun hp => ?_, fun f hw hf => ⟨u, e, e', ?_⟩⟩
  · rw [bank_offer_awaited n (.cue b k) u c (by rw [e]; exact hp) (by rw [e]; exact h1)
      (by rw [e]; exact h2)]
    unfold Bank.relatch; dsimp only; rw [e]
  · exact bank_offer_starts n (.cue b k) u c f (by rw [e]; exact hw) (by rw [e]; exact hf)
      (by rw [e]; exact h1) (by rw [e]; exact h2)

/-- No later cue undoes it. -/
theorem Heard.offer (n : Nat) (x : StartCond) (h : Heard s u b k c) :
    Heard s (Machine.offer n x u) b k c := by
  intro h1 h2
  obtain ⟨a1, a2⟩ := h h1 h2
  refine ⟨fun hp => ?_, fun f hw hf => ?_⟩
  · have e := a1 hp
    obtain ⟨l, hl, ht⟩ := relatched_offer n x u c (by rw [e]; exact hp)
    rw [ht]
    rw [e] at hl
    unfold Bank.relatch; dsimp only; rw [e]
    rcases hl with hl | ⟨hl, _⟩
    · rw [hl]
    · cases hl
  · obtain ⟨v, e1, e2, e3⟩ := a2 f hw hf
    refine ⟨v, e1, e2, ?_⟩
    rw [bank_offer_disarmed n x u c (by rw [e3]; exact disarmed_startFrame _ _ _ _), e3]

/-! ### The operations of one bank leave the others -/

theorem bank_refreshPins_ne (s : State) (h : c ≠ b) : (s.refreshPins b).bank c = s.bank c := by
  unfold State.refreshPins; rw [bank_modBank_ne _ _ h]

theorem bank_markSticky_ne (s : State) (x : FaultClass) (h : c ≠ b) :
    (s.markSticky b x).bank c = s.bank c := by
  unfold State.markSticky State.modFaults; rw [bank_modBank_ne _ _ h]

theorem bank_readLink_ne (s : State) (h : c ≠ b) : (s.readLink b).bank c = s.bank c := by
  unfold State.readLink State.requestFrame
  repeat' split
  · rw [bank_modBank_ne _ _ h, bank_modSeq_ne _ _ h]
  all_goals rfl

theorem bank_enterWaiting_ne (s : State) (f : FrameCopy) (h : c ≠ b) :
    (s.enterWaiting b f).bank c = s.bank c := by
  unfold State.enterWaiting; rw [bank_refreshPins_ne _ h, bank_modBank_ne _ _ h]

/-- A halt ends the plan of a state that differs in its own bank alone. -/
theorem haltBank_eq_endPlan (s : State) (h : c ≠ b) (bad : Option Selector) :
    ∃ v : State, v.bank c = s.bank c ∧ s.haltBank b bad = v.endPlan b .halted .fault := by
  unfold State.haltBank
  dsimp only
  refine ⟨_, ?_, rfl⟩
  repeat' split
  all_goals first | rfl | (simp only [other_returnStaged h, other_retireLive h])

/-! ### The ends of a plan -/

/-- The end of a plan is heard: it emits PLAN_END (R68). -/
theorem Unheard.endPlan (p : PlanState) (r : StopReason) (hc : c ≠ b)
    (h : Unheard s u b .planEnd c) : Heard s (u.endPlan b p r) b .planEnd c := by
  unfold State.endPlan
  dsimp only
  refine Unheard.heard 3 (h.congr ?_)
  rw [bank_raise, bank_refreshPins_ne _ hc, other_releaseGate hc, bank_modBank_ne _ _ hc,
    other_discardReads hc]

theorem Heard.endPlan (p : PlanState) (r : StopReason) (hc : c ≠ b) (h : Heard s u d k c) :
    Heard s (u.endPlan b p r) d k c := by
  unfold State.endPlan
  dsimp only
  refine Heard.offer _ _ (h.congr ?_)
  rw [bank_raise, bank_refreshPins_ne _ hc, other_releaseGate hc, bank_modBank_ne _ _ hc,
    other_discardReads hc]

theorem Unheard.stopBank (code : FrameState) (hc : c ≠ b) (h : Unheard s u b .planEnd c) :
    Heard s (u.stopBank b code) b .planEnd c :=
  Unheard.endPlan _ _ hc (h.congr (by rw [other_returnStaged hc, other_retireLive hc]))

theorem Heard.stopBank (code : FrameState) (hc : c ≠ b) (h : Heard s u d k c) :
    Heard s (u.stopBank b code) d k c :=
  Heard.endPlan _ _ hc (h.congr (by rw [other_returnStaged hc, other_retireLive hc]))

theorem Unheard.haltBank (bad : Option Selector) (hc : c ≠ b) (h : Unheard s u b .planEnd c) :
    Heard s (u.haltBank b bad) b .planEnd c := by
  obtain ⟨v, e, e'⟩ := haltBank_eq_endPlan u hc bad
  rw [e']; exact Unheard.endPlan _ _ hc (h.congr e)

theorem Heard.haltBank (bad : Option Selector) (hc : c ≠ b) (h : Heard s u d k c) :
    Heard s (u.haltBank b bad) d k c := by
  obtain ⟨v, e, e'⟩ := haltBank_eq_endPlan u hc bad
  rw [e']; exact Heard.endPlan _ _ hc (h.congr e)

/-! ### Passes, boundaries and starts -/

theorem Heard.matchCue (h : Heard s u d k c) : Heard s (u.matchCue b) d k c := by
  unfold State.matchCue; split
  · exact Heard.offer _ _ h
  · exact h

theorem Heard.nextPass (hc : c ≠ b) (h : Heard s u d k c) : Heard s (u.nextPass b) d k c := by
  unfold State.nextPass
  refine Heard.matchCue (h.congr ?_)
  rw [bank_refreshPins_ne _ hc, bank_readLink_ne _ hc, bank_modBank_ne _ _ hc]

theorem Heard.startOwn (f : FrameCopy) (forced : Bool) (hc : c ≠ b) (h : Heard s u d k c) :
    Heard s (u.startOwn b f forced) d k c := by
  unfold State.startOwn State.startCues
  have h0 : Heard s (u.startFrame b f forced) d k c := h.congr (bank_startFrame_ne _ _ _ hc)
  split
  · exact Heard.offer _ _ (Heard.offer _ _ h0)
  · exact Heard.offer _ _ h0

/-- A start by a step of its own bank is heard: FRAME_START, and MATCH where channel 0 compares with
0 (R58, R68). -/
theorem Unheard.startOwn (f : FrameCopy) (forced : Bool)
    (h : ∀ k, k = .frameStart ∨ k = .matched → Unheard s u b k c) (hc : c ≠ b) :
    Heard s (u.startOwn b f forced) b .frameStart c ∧
      (((u.startOwn b f forced).bank b).seq.settings.q0.compare = 0 →
        Heard s (u.startOwn b f forced) b .matched c) := by
  obtain ⟨_, hpl, _, hd, hcnt, _, _⟩ := startFrame_spec u b f forced
  have h1 := bank_offer_disarmed cueDepth (.cue b .frameStart) (u.startFrame b f forced) b hd
  rw [bank_startOwn]
  unfold State.startOwn State.startCues
  refine ⟨?_, fun hm => ?_⟩
  · have h0 : Heard s (Machine.offer cueDepth (.cue b .frameStart)
        (u.startFrame b f forced)) b
        .frameStart c :=
      Unheard.heard 3 ((h _ (Or.inl rfl)).congr (bank_startFrame_ne _ _ _ hc))
    split
    · exact Heard.offer _ _ h0
    · exact h0
  · rw [if_pos]
    · refine Unheard.heard 3 (Unheard.offer _ _
        ((h _ (Or.inr rfl)).congr (bank_startFrame_ne _ _ _ hc)) (by simp) ?_)
      rw [hpl]; simp
    · unfold Bank.matches0
      rw [h1, hcnt, hm]; rfl

/-- A boundary is heard, and no other cue of its bank yet. -/
theorem heard_passEnd (s : State) (hr : (s.bank b).seq.plan ≠ .waiting) (hc : c ≠ b) :
    Heard s (s.passEnd b) b .boundary c ∧
      ∀ k, k ≠ .boundary → Unheard s (s.passEnd b) b k c := by
  unfold State.passEnd
  dsimp only
  generalize hu : (s.modBank b fun k => { k with
    seq := k.seq.modLive fun v => { v with passes := satInc v.passes }, wave := k.wave.atZero }) = u
  have hun : ∀ k, Unheard s u b k c := fun k =>
    (Unheard.refl s b k c).congr (by rw [← hu, bank_modBank_ne _ _ hc])
  have hub : (u.bank b).seq.plan ≠ .waiting := by rw [← hu, bank_modBank_same]; exact hr
  exact ⟨(Unheard.heard 3 (hun _)).congr (other_releaseGate hc _), fun k hk =>
    (Unheard.offer _ _ (hun k) (by simpa using fun h => hk h.symm) hub).congr
      (other_releaseGate hc _)⟩

end Sys2Proof.Machine
end

