-- ==== Sys2Proof/Laws/Journals.lean ====
section
/-! SUPPORT. What the operations of the Journal Writer and of arming do, one lemma each: the
watermark, the status word, missed events, FAULTED, a step's record, and the armed condition. -/

namespace Sys2Proof.Machine

/-! ### The watermark and the status word -/

/-- Judging the watermark sets the flag as R138 has it and touches nothing else but the cause. -/
theorem judgeWatermark_spec (s : State) (j : JournalNo) :
    (s.judgeWatermark j).banks = s.banks ∧ (s.judgeWatermark j).lines = s.lines ∧
      (s.judgeWatermark j).sweep = s.sweep ∧
      (∀ i, i ≠ j → (s.judgeWatermark j).journal i = s.journal i) ∧
      (s.judgeWatermark j).journal j = { s.journal j with
        watermarkFlag := decide ((s.journal j).watermark ≤ (s.journal j).unconsumed) } := by
  unfold State.judgeWatermark
  dsimp only
  split
  · rename_i h
    split
    · rename_i hf
      refine ⟨rfl, rfl, rfl, fun _ _ => rfl, ?_⟩
      rw [decide_eq_true h, ← hf]
    · refine ⟨rfl, rfl, rfl, fun i hi => ?_, ?_⟩
      · rw [journal_raise, journal_modJournal_ne _ _ hi]
      · rw [journal_raise, journal_modJournal_same, decide_eq_true h]
  · rename_i h
    refine ⟨rfl, rfl, rfl, fun i hi => ?_, ?_⟩
    · rw [journal_modJournal_ne _ _ hi]
    · rw [journal_modJournal_same, decide_eq_false h]

/-- A status word is among the journal's requests; its earlier requests stand. -/
theorem requestStatusWord_spec (s : State) (j : JournalNo) :
    (∀ i, i ≠ j → (s.requestStatusWord j).journal i = s.journal i) ∧
      (∃ q, (s.requestStatusWord j).journal j = { s.journal j with fifo := q } ∧
        .statusWord ∈ q ∧ ∀ r ∈ (s.journal j).fifo, r ∈ q) ∧
      (s.requestStatusWord j).lines = s.lines ∧ (s.requestStatusWord j).cause = s.cause ∧
      (s.requestStatusWord j).sweep = s.sweep := by
  unfold State.requestStatusWord
  split
  · rename_i h
    exact ⟨fun _ _ => rfl, ⟨(s.journal j).fifo, rfl, by simpa using h, fun _ h => h⟩, rfl, rfl, rfl⟩
  · unfold State.requestJournal
    exact ⟨fun i hi => journal_modJournal_ne _ _ hi,
      ⟨_, journal_modJournal_same _ _ _, by simp, fun r h => by simp [h]⟩, rfl, rfl, rfl⟩

/-! ### Missed events and FAULTED -/

/-- An event counted as missed: the total and the requests of its journal, and the holding register
of its line. -/
theorem countMissed_spec (s : State) (j : JournalNo) (l : LineNo) :
    (∀ i, i ≠ j → (s.countMissed j l).journal i = s.journal i) ∧
      (∃ q m, (s.countMissed j l).journal j = { s.journal j with fifo := q, missed := m } ∧
        .statusWord ∈ q ∧ ∀ r ∈ (s.journal j).fifo, r ∈ q) ∧
      ((s.countMissed j l).line l).holding = none ∧
      (∀ m, m ≠ l → (s.countMissed j l).line m = s.line m) ∧
      (s.countMissed j l).cause = s.cause := by
  unfold State.countMissed
  obtain ⟨h1, ⟨q, h2, h3, h4⟩, h5, h6, _⟩ := requestStatusWord_spec
    ((s.modJournal j fun x => { x with missed := x.missed + 1#32 }).modLine l fun x =>
      { x with holding := none }) j
  refine ⟨fun i hi => ?_, ⟨q, _, by rw [h2]; rw [journal_modLine,
    journal_modJournal_same], h3, fun r hr => h4 r ?_⟩, ?_, ?_, ?_⟩
  · rw [h1 i hi, journal_modLine, journal_modJournal_ne _ _ hi]
  · rw [journal_modLine, journal_modJournal_same]; exact hr
  · unfold State.line; rw [h5]
    change ((State.modLine _ l _).line l).holding = none
    rw [line_modLine_same]
  · intro m hm; unfold State.line; rw [h5]
    change (State.modLine _ l _).line m = _
    rw [line_modLine_ne _ _ hm]; rfl
  · rw [h6]; rfl

/-- Whether a line holds an event for a journal depends on its holding register alone. -/
theorem heldFor_of_holding {s t : State} {j : JournalNo} {l : LineNo}
    (h : (t.line l).holding = (s.line l).holding) : t.heldFor j l = s.heldFor j l := by
  unfold State.heldFor; rw [h]

/-- Every event held for the journal is counted and its holding register emptied. -/
theorem countHeld_spec (s : State) (j : JournalNo) :
    (∀ i, i ≠ j → (s.countHeld j).journal i = s.journal i) ∧
      (∃ q m, (s.countHeld j).journal j = { s.journal j with fifo := q, missed := m } ∧
        ∀ r ∈ (s.journal j).fifo, r ∈ q) ∧
      (s.countHeld j).cause = s.cause ∧
      ∀ l, s.heldFor j l ≠ none → ((s.countHeld j).line l).holding = none := by
  have key : ∀ (ls : List LineNo) (t : State),
      let u := ls.foldl (fun s l => if (s.heldFor j l).isSome then s.countMissed j l else s) t
      (∀ i, i ≠ j → u.journal i = t.journal i) ∧
        (∃ q m, u.journal j = { t.journal j with fifo := q, missed := m } ∧
          ∀ r ∈ (t.journal j).fifo, r ∈ q) ∧
        u.cause = t.cause ∧
        ∀ l, ((t.heldFor j l ≠ none ∧ l ∈ ls) ∨ (t.line l).holding = none) →
          (u.line l).holding = none := by
    intro ls
    induction ls with
    | nil =>
      intro t
      refine ⟨fun _ _ => rfl, ⟨_, _, rfl, fun _ h => h⟩, rfl, ?_⟩
      rintro l (⟨_, h⟩ | h)
      · cases h
      · exact h
    | cons a r ih =>
      intro t
      rw [List.foldl_cons]
      obtain ⟨i1, ⟨q, m, i2, i3⟩, i4, i5⟩ :=
        ih (if (t.heldFor j a).isSome then t.countMissed j a else t)
      by_cases hc : (t.heldFor j a).isSome = true
      · rw [if_pos hc] at i1 i2 i3 i4 i5 ⊢
        obtain ⟨c1, ⟨p, n, c2, c3, c4⟩, c5, c6, c7⟩ := countMissed_spec t j a
        refine ⟨fun i hi => (i1 i hi).trans (c1 i hi),
          ⟨q, m, by rw [i2, c2], fun r hr => i3 r ?_⟩, i4.trans c7, ?_⟩
        · rw [c2]; exact c4 r hr
        · intro l hl
          apply i5
          by_cases hla : l = a
          · subst hla; exact Or.inr c5
          · rcases hl with ⟨h1, h2⟩ | h
            · left
              refine ⟨?_, (List.mem_cons.mp h2).resolve_left hla⟩
              rw [heldFor_of_holding (s := t) (by rw [c6 l hla])]; exact h1
            · right; rw [c6 l hla]; exact h
      · rw [if_neg hc] at i1 i2 i3 i4 i5 ⊢
        refine ⟨i1, ⟨q, m, i2, i3⟩, i4, ?_⟩
        intro l hl
        apply i5
        rcases hl with ⟨h1, h2⟩ | h
        · rcases List.mem_cons.mp h2 with h2 | h2
          · subst h2; exact absurd (Option.ne_none_iff_isSome.mp h1) hc
          · exact Or.inl ⟨h1, h2⟩
        · exact Or.inr h
  obtain ⟨k1, k2, k3, k4⟩ := key eight s
  exact ⟨k1, k2, k3, fun l hl => k4 l (Or.inl ⟨hl, by fin_cases l <;> decide⟩)⟩

theorem answerLook_spec (s : State) (j : JournalNo) (r : Result) :
    (s.answerLook j r).journals = s.journals ∧ (s.answerLook j r).cause = s.cause ∧
      (s.answerLook j r).lines = s.lines ∧ (s.answerLook j r).banks = s.banks := by
  unfold State.answerLook State.answer
  repeat' split
  all_goals exact ⟨rfl, rfl, rfl, rfl⟩

/-- A journal that becomes FAULTED (R140). -/
theorem faultJournal_spec (s : State) (j : JournalNo) (f : JournalFault) (lost : Bool) :
    (∀ i, i ≠ j → (s.faultJournal j f lost).journal i = s.journal i) ∧
      (∃ q m, (s.faultJournal j f lost).journal j = { s.journal j with
          fifo := q, missed := m, state := .faulted, fault := f, gap := 0#32, step := .idle,
          held := none } ∧ .statusWord ∈ q) ∧
      (s.faultJournal j f lost).cause.getLsbD (causeJournal j) = true ∧
      ∀ l, s.heldFor j l ≠ none → ((s.faultJournal j f lost).line l).holding = none := by
  unfold State.faultJournal
  dsimp only
  generalize hu : (s.modJournal j fun x => { x with
      state := .faulted, fault := f, gap := 0#32, step := .idle, held := none,
      missed := if lost then x.missed + 1#32 else x.missed }) = u
  obtain ⟨c1, ⟨q, m, c2, _⟩, _, c4⟩ := countHeld_spec u j
  obtain ⟨w1, ⟨p, w2, w3, _⟩, w4, w5, _⟩ :=
    requestStatusWord_spec ((u.countHeld j).raise (causeJournal j)) j
  have e : ∀ t : State,
      (if (t.journal j).rereadInFlight then t else t.answerLook j .done : State).journals
        = t.journals ∧
      (if (t.journal j).rereadInFlight then t else t.answerLook j .done : State).cause = t.cause ∧
      (if (t.journal j).rereadInFlight then t else t.answerLook j .done : State).lines
        = t.lines := by
    intro t
    obtain ⟨a1, a2, a3, _⟩ := answerLook_spec t j .done
    split
    · exact ⟨rfl, rfl, rfl⟩
    · exact ⟨a1, a2, a3⟩
  obtain ⟨e1, e2, e3⟩ := e (((u.countHeld j).raise (causeJournal j)).requestStatusWord j)
  have hj : u.journal j = { s.journal j with
      state := .faulted, fault := f, gap := 0#32, step := .idle, held := none,
      missed := if lost then (s.journal j).missed + 1#32 else (s.journal j).missed } := by
    rw [← hu, journal_modJournal_same]
  have ho : ∀ i, i ≠ j → u.journal i = s.journal i := fun i hi => by
    rw [← hu, journal_modJournal_ne _ _ hi]
  refine ⟨fun i hi => ?_, ⟨p, m, ?_, w3⟩, ?_, ?_⟩
  · refine (congrArg (fun q : Oct Journal => q.get i) e1).trans ?_
    change State.journal _ i = _
    rw [w1 i hi, journal_raise, c1 i hi, ho i hi]
  · refine (congrArg (fun q : Oct Journal => q.get j) e1).trans ?_
    change State.journal _ j = _
    rw [w2, journal_raise, c2, hj]
  · rw [e2, w5]
    have hb : causeJournal j < 16 := by have := j.isLt; unfold causeJournal; omega
    rw [cause_raise_eq, BitVec.getLsbD_or, BitVec.getLsbD_shiftLeft]
    simp [hb]
  · intro l hl
    refine (congrArg (fun q : Oct Line => (q.get l).holding) e3).trans ?_
    change (State.line _ l).holding = _
    unfold State.line; rw [w4]
    exact c4 l (by rw [heldFor_of_holding (s := s) (by rw [← hu]; rfl)]; exact hl)

/-- The event chosen for a step is held for the journal. -/
theorem heldFor_of_oldest {s : State} {j : JournalNo} {l : LineNo} (h : s.oldest j = some l) :
    s.heldFor j l ≠ none := by
  have key : ∀ (ls : List LineNo) l e, s.oldestAmong j ls = some (l, e) → s.heldFor j l ≠ none := by
    intro ls
    induction ls with
    | nil => intro l e h; cases h
    | cons a r ih =>
      intro l e h
      unfold State.oldestAmong at h
      cases hh : s.heldFor j a with
      | none => rw [hh] at h; exact ih l e h
      | some x =>
        rw [hh] at h
        cases ho : s.oldestAmong j r with
        | none => rw [ho] at h; cases h; rw [hh]; simp
        | some y =>
          rw [ho] at h
          dsimp only at h
          split at h
          · cases h; exact ih _ _ ho
          · cases h; rw [hh]; simp
  unfold State.oldest at h
  cases ho : s.oldestAmong j eight with
  | none => rw [ho] at h; cases h
  | some y => rw [ho] at h; cases h; exact key _ _ _ ho

/-! ### A step's record -/

theorem journal_windowCheck_ne (s : State) {i j : JournalNo} (h : i ≠ j) (index : Byte)
    (offset length : Nat) (write : Bool) (domain : Byte) :
    (s.windowCheck (.journal j) index offset length write domain).1.journal i = s.journal i := by
  unfold State.windowCheck
  repeat' split
  all_goals first
    | rfl
    | exact journal_modJournal_ne _ _ h

theorem journal_recordChecked_ne (s : State) {i j : JournalNo} (h : i ≠ j) (p : StepPlan)
    (c : CheckResult) : (s.recordChecked j p c).journal i = s.journal i := by
  unfold State.recordChecked
  split
  · unfold State.writeRecord State.requestJournal
    rw [journal_modJournal_ne _ _ h, journal_modJournal_ne _ _ h]
  · exact (faultJournal_spec _ _ _ _).1 i h
  · rfl

/-- The check of a step's record leaves every other journal alone. -/
theorem journal_checkRecord_ne (s : State) {i j : JournalNo} (h : i ≠ j) (p : StepPlan) :
    (s.checkRecord j p).journal i = s.journal i := by
  unfold State.checkRecord
  dsimp only
  rw [journal_recordChecked_ne _ h, journal_windowCheck_ne _ h, journal_modJournal_ne _ _ h]

/-! ### Line Status requests and the armed condition -/

/-- A Line Status request, made or held, changes no more of its line than the held mark. -/
theorem requestLineStatus_spec (s : State) (l : LineNo) :
    (∀ m, m ≠ l → (s.requestLineStatus l).line m = s.line m) ∧
      (∃ h, (s.requestLineStatus l).line l = { s.line l with statusHeld := h }) ∧
      (s.requestLineStatus l).journals = s.journals ∧ (s.requestLineStatus l).cause = s.cause ∧
      (s.requestLineStatus l).sweep = s.sweep ∧ (s.requestLineStatus l).banks = s.banks ∧
      (s.requestLineStatus l).now = s.now ∧ (s.requestLineStatus l).window = s.window := by
  unfold State.requestLineStatus
  split
  · rw [(more_requestClass3 s (.line l)).eq]
    exact ⟨fun _ _ => rfl, ⟨(s.line l).statusHeld, rfl⟩, rfl, rfl, rfl, rfl, rfl, rfl⟩
  · exact ⟨fun m hm => line_modLine_ne _ _ hm, ⟨true, line_modLine_same _ _ _⟩, rfl, rfl, rfl, rfl,
      rfl, rfl⟩

/-- What arming keeps of a state, and of every line. -/
structure Rearmed (s t : State) : Prop where
  banks : t.banks = s.banks
  journals : t.journals = s.journals
  window : t.window = s.window
  cause : t.cause = s.cause
  sweep : t.sweep = s.sweep
  now : t.now = s.now
  cfg : ∀ m, (t.line m).cfg = (s.line m).cfg
  loaded : ∀ m, (t.line m).loaded = (s.line m).loaded
  holding : ∀ m, (t.line m).holding = (s.line m).holding

theorem Rearmed.refl (s : State) : Rearmed s s :=
  ⟨rfl, rfl, rfl, rfl, rfl, rfl, fun _ => rfl, fun _ => rfl, fun _ => rfl⟩

theorem Rearmed.trans {s t u : State} (h : Rearmed s t) (k : Rearmed t u) : Rearmed s u :=
  ⟨k.banks.trans h.banks, k.journals.trans h.journals, k.window.trans h.window,
    k.cause.trans h.cause, k.sweep.trans h.sweep, k.now.trans h.now,
    fun m => (k.cfg m).trans (h.cfg m), fun m => (k.loaded m).trans (h.loaded m),
    fun m => (k.holding m).trans (h.holding m)⟩

theorem Rearmed.mayArm {s t : State} (h : Rearmed s t) (m : LineNo) : t.mayArm m = s.mayArm m := by
  unfold State.mayArm State.journal; rw [h.cfg, h.loaded, h.journals]

theorem rearmed_modLine (s : State) (l : LineNo) {f : Line → Line}
    (hf : ∀ x, (f x).cfg = x.cfg ∧ (f x).loaded = x.loaded ∧ (f x).holding = x.holding) :
    Rearmed s (s.modLine l f) := by
  have h : ∀ m, ((s.modLine l f).line m).cfg = (s.line m).cfg ∧
      ((s.modLine l f).line m).loaded = (s.line m).loaded ∧
      ((s.modLine l f).line m).holding = (s.line m).holding := by
    intro m
    by_cases hm : m = l
    · subst hm; rw [line_modLine_same]; exact hf _
    · rw [line_modLine_ne _ _ hm]; exact ⟨rfl, rfl, rfl⟩
  exact ⟨rfl, rfl, rfl, rfl, rfl, rfl, fun m => (h m).1, fun m => (h m).2.1, fun m => (h m).2.2⟩

theorem rearmed_requestLineStatus (s : State) (l : LineNo) : Rearmed s (s.requestLineStatus l) := by
  obtain ⟨h1, ⟨x, h2⟩, h3, h4, h5, h6, h7, h8⟩ := requestLineStatus_spec s l
  have h : ∀ m, ((s.requestLineStatus l).line m).cfg = (s.line m).cfg ∧
      ((s.requestLineStatus l).line m).loaded = (s.line m).loaded ∧
      ((s.requestLineStatus l).line m).holding = (s.line m).holding := by
    intro m
    by_cases hm : m = l
    · subst hm; rw [h2]; exact ⟨rfl, rfl, rfl⟩
    · rw [h1 m hm]; exact ⟨rfl, rfl, rfl⟩
  exact ⟨h6, h3, h8, h4, h5, h7, fun m => (h m).1, fun m => (h m).2.1, fun m => (h m).2.2⟩

/-- One line judged afresh is armed exactly when it may be; the others are as before. -/
theorem judgeArmed_spec (s : State) (l : LineNo) :
    Rearmed s (s.judgeArmed l) ∧ ((s.judgeArmed l).line l).armed = s.mayArm l ∧
      ∀ m, m ≠ l → (s.judgeArmed l).line m = s.line m := by
  have go : ∀ f : Line → Line,
      (∀ x, (f x).cfg = x.cfg ∧ (f x).loaded = x.loaded ∧ (f x).holding = x.holding) →
      (∀ x, (f x).armed = s.mayArm l) →
      Rearmed s ((s.modLine l f).requestLineStatus l) ∧
        (((s.modLine l f).requestLineStatus l).line l).armed = s.mayArm l ∧
        ∀ m, m ≠ l → ((s.modLine l f).requestLineStatus l).line m = s.line m := by
    intro f hf ha
    obtain ⟨h1, ⟨x, h2⟩, _⟩ := requestLineStatus_spec (s.modLine l f) l
    refine ⟨(rearmed_modLine s l hf).trans (rearmed_requestLineStatus _ l), ?_, fun m hm => ?_⟩
    · rw [h2]; change ((s.modLine l f).line l).armed = _; rw [line_modLine_same]; exact ha _
    · rw [h1 m hm, line_modLine_ne _ _ hm]
  unfold State.judgeArmed
  split
  · rename_i h; exact ⟨Rearmed.refl s, h.symm, fun _ _ => rfl⟩
  · split
    · rename_i h; exact go Line.arm (fun _ => ⟨rfl, rfl, rfl⟩) fun _ => h.symm
    · rename_i h
      exact go (fun x => { x with armed := false }) (fun _ => ⟨rfl, rfl, rfl⟩) fun _ =>
        (by simpa using h : s.mayArm l = false).symm

/-- Every line is armed exactly when it may be (R119). -/
theorem judgeLines_spec (s : State) :
    Rearmed s s.judgeLines ∧ ∀ m, (s.judgeLines.line m).armed = s.mayArm m := by
  have key : ∀ (ls : List LineNo) (t : State), Rearmed t (ls.foldl State.judgeArmed t) ∧
      ∀ m, (t.line m).armed = t.mayArm m ∨ m ∈ ls →
        ((ls.foldl State.judgeArmed t).line m).armed = t.mayArm m := by
    intro ls
    induction ls with
    | nil =>
      intro t
      refine ⟨Rearmed.refl t, fun m h => ?_⟩
      rcases h with h | h
      · exact h
      · cases h
    | cons a r ih =>
      intro t
      rw [List.foldl_cons]
      obtain ⟨i1, i2⟩ := ih (t.judgeArmed a)
      obtain ⟨c1, c2, c3⟩ := judgeArmed_spec t a
      refine ⟨c1.trans i1, fun m h => ?_⟩
      rw [i2, c1.mayArm m]
      rw [c1.mayArm m]
      by_cases hma : m = a
      · subst hma; exact Or.inl c2
      · rcases h with h | h
        · left; rw [c3 m hma]; exact h
        · right; exact (List.mem_cons.mp h).resolve_left hma
  obtain ⟨k1, k2⟩ := key eight s
  exact ⟨k1, fun m => k2 m (Or.inr (by fin_cases m <;> decide))⟩

end Sys2Proof.Machine
end

