-- ==== Sys2Proof/Laws/HeldEvents.lean ====
section
/-! SUPPORT. The events held for a journal: how a fault and the end of a close count them, and what the
end of a close leaves. -/

namespace Sys2Proof.Machine

theorem missed_countMissed (s : State) (j : JournalNo) (l : LineNo) :
    ((s.countMissed j l).journal j).missed = (s.journal j).missed + 1#32 := by
  unfold State.countMissed
  obtain ⟨_, ⟨q, h2, _, _⟩, _⟩ := requestStatusWord_spec
    ((s.modJournal j fun x => { x with missed := x.missed + 1#32 }).modLine l fun x =>
      { x with holding := none }) j
  rw [h2, journal_modLine, journal_modJournal_same]

@[simp] theorem sweep_countMissed (s : State) (j : JournalNo) (l : LineNo) :
    (s.countMissed j l).sweep = s.sweep := by
  unfold State.countMissed; rw [(requestStatusWord_spec _ _).2.2.2.2]; rfl

/-- Every event held for the journal is counted, and no line holds one for it any more (R140, R143). -/
theorem countHeld_missed (s : State) (j : JournalNo) :
    ((s.countHeld j).journal j).missed = (s.journal j).missed + BitVec.ofNat 32 (s.heldCount j) ∧
      (∀ l, (s.countHeld j).heldFor j l = none) ∧ (s.countHeld j).sweep = s.sweep ∧
      ∀ l, ((s.countHeld j).line l).armed = (s.line l).armed := by
  have key : ∀ (ls : List LineNo), ls.Nodup → ∀ (t : State),
      let u := ls.foldl (fun s l => if (s.heldFor j l).isSome then s.countMissed j l else s) t
      (u.journal j).missed = (t.journal j).missed
          + BitVec.ofNat 32 (ls.filter fun l => (t.heldFor j l).isSome).length ∧
        (∀ l, (l ∈ ls ∨ t.heldFor j l = none) → u.heldFor j l = none) ∧ u.sweep = t.sweep ∧
        ∀ l, (u.line l).armed = (t.line l).armed := by
    intro ls
    induction ls with
    | nil => exact fun _ t => ⟨by simp, fun l h => h.resolve_left (by simp), rfl, fun _ => rfl⟩
    | cons a r ih =>
      intro hn t
      rw [List.nodup_cons] at hn
      rw [List.foldl_cons]
      by_cases hc : (t.heldFor j a).isSome = true
      · rw [if_pos hc]
        obtain ⟨i1, i2, i3, i4⟩ := ih hn.2 (t.countMissed j a)
        obtain ⟨c1, ⟨p, n, c2, c3, c4⟩, c5, c6, c7⟩ := countMissed_spec t j a
        have hf : ∀ l, l ≠ a → (t.countMissed j a).heldFor j l = t.heldFor j l :=
          fun l hl => heldFor_of_holding (by rw [c6 l hl])
        refine ⟨?_, ?_, ?_, ?_⟩
        · rw [i1, missed_countMissed]
          have e : (r.filter fun l => ((t.countMissed j a).heldFor j l).isSome)
              = r.filter fun l => (t.heldFor j l).isSome := by
            apply List.filter_congr
            intro l hl
            rw [hf l (by rintro rfl; exact hn.1 hl)]
          rw [e, List.filter_cons, if_pos hc, List.length_cons, BitVec.add_assoc]
          congr 1; apply BitVec.eq_of_toNat_eq; simp [BitVec.toNat_add, Nat.add_comm]
        · intro l hl
          apply i2
          by_cases hla : l = a
          · subst hla; right; unfold State.heldFor; rw [c5]
          · rcases hl with hl | hl
            · exact Or.inl ((List.mem_cons.mp hl).resolve_left hla)
            · right; rw [hf l hla]; exact hl
        · rw [i3, sweep_countMissed]
        · intro l
          rw [i4]
          by_cases hla : l = a
          · subst hla
            have h := (requestStatusWord_spec ((t.modJournal j fun x =>
              { x with missed := x.missed + 1#32 }).modLine l fun x =>
                { x with holding := none }) j).2.2.1
            unfold State.countMissed
            unfold State.line at h ⊢
            rw [h]
            show ((State.modLine _ l _).line l).armed = _
            rw [line_modLine_same]; rfl
          · rw [c6 l hla]
      · rw [if_neg hc]
        obtain ⟨i1, i2, i3⟩ := ih hn.2 t
        refine ⟨?_, ?_, i3⟩
        · rw [i1, List.filter_cons, if_neg hc]
        · intro l hl
          apply i2
          rcases hl with hl | hl
          · rcases List.mem_cons.mp hl with h | h
            · subst h; right; simpa using hc
            · exact Or.inl h
          · exact Or.inr hl
  obtain ⟨k1, k2, k3⟩ := key eight (by decide) s
  exact ⟨k1, fun l => k2 l (Or.inl (by fin_cases l <;> decide)), k3⟩

/-- What a fault of a journal makes of its missed total (R140). -/
theorem missed_faultJournal (s : State) (j : JournalNo) (f : JournalFault) (lost : Bool) :
    ((s.faultJournal j f lost).journal j).missed = (s.journal j).missed
      + BitVec.ofNat 32 ((if lost then 1 else 0) + s.heldCount j) := by
  unfold State.faultJournal
  dsimp only
  generalize hu : (s.modJournal j fun x => { x with
      state := .faulted, fault := f, gap := 0#32, step := .idle, held := none,
      missed := if lost then x.missed + 1#32 else x.missed }) = u
  have hum : (u.journal j).missed
      = if lost then (s.journal j).missed + 1#32 else (s.journal j).missed := by
    rw [← hu, journal_modJournal_same]
  have huc : u.heldCount j = s.heldCount j := by
    unfold State.heldCount
    congr 1; apply List.filter_congr; intro l _
    rw [heldFor_of_holding (s := s)]; rw [← hu]; rfl
  have e : ∀ t : State, ((if (t.journal j).rereadInFlight then t
      else t.answerLook j .done : State).journal j) = t.journal j := by
    intro t; split
    · rfl
    · unfold State.journal; rw [(answerLook_spec t j .done).1]
  rw [e]
  obtain ⟨_, ⟨q, h2, _, _⟩, _⟩ :=
    requestStatusWord_spec ((u.countHeld j).raise (causeJournal j)) j
  rw [h2, journal_raise]
  dsimp only
  rw [(countHeld_missed u j).1, hum, huc]
  cases lost
  · simp
  · simp only [if_true]
    rw [BitVec.add_assoc]; congr 1; apply BitVec.eq_of_toNat_eq; simp [BitVec.toNat_add]

/-- A journal has an oldest event exactly when some line holds one for it (R134). -/
theorem oldest_none {s : State} {j : JournalNo} : s.oldest j = none ↔ ∀ l, s.heldFor j l = none := by
  have key : ∀ ls : List LineNo,
      s.oldestAmong j ls = none ↔ ∀ l ∈ ls, s.heldFor j l = none := by
    intro ls
    induction ls with
    | nil => simp [State.oldestAmong]
    | cons a r ih =>
      unfold State.oldestAmong
      cases ha : s.heldFor j a with
      | none => simp [ha, ih]
      | some x =>
        simp only [List.mem_cons, forall_eq_or_imp, ha]
        cases ho : s.oldestAmong j r <;> dsimp only
        · simp
        · split <;> simp
  have h : s.oldest j = none ↔ s.oldestAmong j eight = none := by
    unfold State.oldest; simp
  rw [h, key]
  exact ⟨fun h l => h l (by fin_cases l <;> decide), fun h l _ => h l⟩

theorem heldCount_eq_zero {s : State} {j : JournalNo} :
    s.heldCount j = 0 ↔ ∀ l, s.heldFor j l = none := by
  unfold State.heldCount
  rw [List.length_eq_zero_iff, List.filter_eq_nil_iff]
  constructor
  · intro h l; have := h l (by fin_cases l <;> decide); simpa using this
  · intro h l _; rw [h l]; simp

/-- The end of a close: the journal is CLOSED, its status word requested, and a JOURNAL_CLOSE that
executes answered (R142 step 4). -/
theorem finishClose_spec (s : State) (j : JournalNo) :
    (∃ q, ((s.finishClose j).journal j) = { s.journal j with
        state := .closed, closing := false, lastGapDone := false, fifo := q } ∧
      .statusWord ∈ q) ∧
    (s.finishClose j).lines = s.lines ∧
    (∀ i, i ≠ j → (s.finishClose j).journal i = s.journal i) ∧
    ∀ w, s.sweep.exec = some ⟨w, .closing j⟩ →
      (s.finishClose j).sweep.exec = some ⟨w, .answered .done (.journalWords j)⟩ := by
  unfold State.finishClose
  generalize hu : (s.modJournal j fun x =>
    { x with state := .closed, closing := false, lastGapDone := false }) = u
  have huj : u.journal j = { s.journal j with
      state := .closed, closing := false, lastGapDone := false } := by
    rw [← hu, journal_modJournal_same]
  have huo : ∀ i, i ≠ j → u.journal i = s.journal i := fun i hi => by
    rw [← hu, journal_modJournal_ne _ _ hi]
  have hul : u.lines = s.lines := by rw [← hu]; rfl
  have hus : u.sweep = s.sweep := by rw [← hu]; rfl
  obtain ⟨a1, ⟨q, a2, a3, a4⟩, a5, a6, a7⟩ := requestStatusWord_spec u j
  generalize u.requestStatusWord j = v at a1 a2 a5 a6 a7
  have e : (v.answerClose j).journals = v.journals ∧ (v.answerClose j).lines = v.lines := by
    unfold State.answerClose; split
    · split <;> exact ⟨rfl, rfl⟩
    · exact ⟨rfl, rfl⟩
  have ej : ∀ i, (v.answerClose j).journal i = v.journal i := fun i => by
    unfold State.journal; rw [e.1]
  refine ⟨⟨q, by rw [ej, a2, huj], a3⟩, by rw [e.2, a5, hul], fun i hi => by
    rw [ej, a1 i hi, huo i hi], fun w hw => ?_⟩
  unfold State.answerClose
  rw [a7, hus, hw]
  dsimp only
  rw [if_pos rfl]
  unfold State.answer State.modSweep
  dsimp only
  rw [a7, hus, hw]; rfl

end Sys2Proof.Machine
end

