-- ==== Sys2Proof/Laws/Memory.lean ====
section
/-! SUPPORT. The shared memory: what a byte reads as after a write, and that every operation keeps
the canonical form. -/

namespace Sys2Proof.Machine

/-! ### The canonical form -/

/-- Every listed address lies above `i`. -/
def Memory.above (i : Nat) (m : Memory) : Prop := ∀ c ∈ m, i < c.1

theorem wf_cons {a : Nat} {v : Byte} {m : Memory} :
    Memory.wf ((a, v) :: m) = true ↔
      v ≠ Config.unwrittenByte ∧ Memory.above a m ∧ Memory.wf m = true := by
  induction m generalizing a v with
  | nil => simp [Memory.wf, Memory.above]
  | cons c rest ih =>
    obtain ⟨b, w⟩ := c
    simp only [Memory.wf, Bool.and_eq_true, decide_eq_true_eq, bne_iff_ne]
    constructor
    · rintro ⟨⟨hab, hv⟩, hw⟩
      refine ⟨hv, ?_, hw⟩
      have hb := (ih.mp hw).2.1
      intro c hc
      rcases List.mem_cons.mp hc with rfl | hc
      · exact hab
      · exact Nat.lt_trans hab (hb c hc)
    · rintro ⟨hv, habove, hw⟩
      exact ⟨⟨habove (b, w) (List.mem_cons_self ..), hv⟩, hw⟩

theorem mem_insert {i : Nat} {v : Byte} {m : Memory} {c : Host.Cell} (h : c ∈ Memory.insert i v m) :
    c = (i, v) ∨ c ∈ m := by
  induction m with
  | nil => simpa [Memory.insert] using h
  | cons d rest ih =>
    obtain ⟨a, w⟩ := d
    simp only [Memory.insert] at h
    split at h
    · simpa using h
    · split at h
      · rcases List.mem_cons.mp h with h | h
        · exact Or.inl h
        · exact Or.inr (List.mem_cons_of_mem _ h)
      · rcases List.mem_cons.mp h with h | h
        · exact Or.inr (h ▸ List.mem_cons_self ..)
        · rcases ih h with h | h
          · exact Or.inl h
          · exact Or.inr (List.mem_cons_of_mem _ h)

theorem wf_insert (i : Nat) (v : Byte) (m : Memory) (hv : v ≠ Config.unwrittenByte)
    (h : m.wf = true) : (Memory.insert i v m).wf = true := by
  induction m with
  | nil => simpa [Memory.insert, Memory.wf] using hv
  | cons d rest ih =>
    obtain ⟨a, w⟩ := d
    obtain ⟨hw, ha, hr⟩ := wf_cons.mp h
    simp only [Memory.insert]
    split
    · rename_i hlt
      refine wf_cons.mpr ⟨hv, ?_, h⟩
      intro c hc
      rcases List.mem_cons.mp hc with rfl | hc
      · exact hlt
      · exact Nat.lt_trans hlt (ha c hc)
    · rename_i hge
      split
      · rename_i heq
        subst heq
        exact wf_cons.mpr ⟨hv, ha, hr⟩
      · rename_i hne
        refine wf_cons.mpr ⟨hw, ?_, ih hr⟩
        intro c hc
        rcases mem_insert hc with rfl | hc
        · show a < i; omega
        · exact ha c hc

theorem wf_erase (i : Nat) (m : Memory) (h : m.wf = true) : (m.erase i).wf = true := by
  induction m with
  | nil => rfl
  | cons d rest ih =>
    obtain ⟨a, w⟩ := d
    obtain ⟨hw, ha, hr⟩ := wf_cons.mp h
    simp only [Memory.erase, List.filter_cons]
    split
    · refine wf_cons.mpr ⟨hw, ?_, ih hr⟩
      intro c hc
      exact ha c (List.mem_filter.mp hc).1
    · exact ih hr

/-- A write of one byte keeps the canonical form. -/
theorem wf_write (m : Memory) (i : Nat) (v : Byte) (h : m.wf = true) : (m.write i v).wf = true := by
  unfold Memory.write
  split
  · exact wf_erase i m h
  · rename_i hv; exact wf_insert i v m hv h

theorem wf_writeBytes (m : Memory) (addr : Nat) (bs : List Byte) (h : m.wf = true) :
    (m.writeBytes addr bs).wf = true := by
  induction bs generalizing m addr with
  | nil => exact h
  | cons v rest ih => exact ih _ _ (wf_write m _ v h)

theorem wf_hostWrites (m : Memory) (host : List Host.Cell) (h : m.wf = true) :
    (m.hostWrites host).wf = true := by
  induction host generalizing m with
  | nil => exact h
  | cons c rest ih => exact ih _ (wf_write m c.1 c.2 h)

/-! ### Reading after a write -/

theorem read_insert_same (i : Nat) (v : Byte) (m : Memory) : (Memory.insert i v m).read i = v := by
  induction m with
  | nil => simp [Memory.insert, Memory.read]
  | cons d rest ih =>
    obtain ⟨a, w⟩ := d
    simp only [Memory.insert]
    split
    · simp [Memory.read]
    · split
      · simp [Memory.read]
      · rename_i hne; simp [Memory.read, Ne.symm hne, ih]

theorem read_insert_ne (i j : Nat) (v : Byte) (m : Memory) (h : j ≠ i) :
    (Memory.insert i v m).read j = m.read j := by
  induction m with
  | nil => simp [Memory.insert, Memory.read, Ne.symm h]
  | cons d rest ih =>
    obtain ⟨a, w⟩ := d
    simp only [Memory.insert]
    split
    · simp [Memory.read, Ne.symm h]
    · split
      · rename_i heq; subst heq; simp [Memory.read, Ne.symm h]
      · simp [Memory.read, ih]

theorem read_erase_same (i : Nat) (m : Memory) : (m.erase i).read i = Config.unwrittenByte := by
  induction m with
  | nil => rfl
  | cons d rest ih =>
    obtain ⟨a, w⟩ := d
    simp only [Memory.erase, List.filter_cons]
    split
    · rename_i hne
      have : a ≠ i := by simpa using hne
      simp only [Memory.read, this, if_false]
      exact ih
    · exact ih

theorem read_erase_ne (i j : Nat) (m : Memory) (h : j ≠ i) : (m.erase i).read j = m.read j := by
  induction m with
  | nil => rfl
  | cons d rest ih =>
    obtain ⟨a, w⟩ := d
    simp only [Memory.erase, List.filter_cons]
    split
    · simp only [Memory.read]; rw [← ih]; rfl
    · rename_i hne
      have : a = i := by simpa using hne
      simp only [Memory.read, this, Ne.symm h, if_false]
      exact ih

theorem read_write_same (m : Memory) (i : Nat) (v : Byte) : (m.write i v).read i = v := by
  unfold Memory.write
  split
  · rename_i hv; rw [read_erase_same, hv]
  · exact read_insert_same i v m

theorem read_write_ne (m : Memory) (i j : Nat) (v : Byte) (h : j ≠ i) :
    (m.write i v).read j = m.read j := by
  unfold Memory.write
  split
  · exact read_erase_ne i j m h
  · exact read_insert_ne i j v m h

/-- A byte outside the bytes written reads as before. -/
theorem read_writeBytes_outside (m : Memory) (addr : Nat) (bs : List Byte) (i : Nat)
    (h : ∀ n, n < bs.length → i ≠ (addr + n) % 2 ^ 48) : (m.writeBytes addr bs).read i = m.read i := by
  induction bs generalizing m addr with
  | nil => rfl
  | cons v rest ih =>
    simp only [Memory.writeBytes]
    rw [ih]
    · exact read_write_ne _ _ _ _ (h 0 (by simp))
    · intro n hn
      have := h (n + 1) (by simpa using hn)
      rwa [show addr + 1 + n = addr + (n + 1) by omega]

/-- A byte that was written reads as it was written. -/
theorem read_writeBytes (m : Memory) (addr : Nat) (bs : List Byte) (n : Nat) (hn : n < bs.length)
    (hl : bs.length ≤ 2 ^ 48) : (m.writeBytes addr bs).read ((addr + n) % 2 ^ 48) = bs[n] := by
  induction bs generalizing m addr n with
  | nil => simp at hn
  | cons v r ih =>
    simp only [Memory.writeBytes]
    simp only [List.length_cons] at hl hn
    cases n with
    | zero =>
      rw [read_writeBytes_outside, Nat.add_zero, read_write_same]; rfl
      intro k hk
      omega
    | succ n =>
      rw [show addr + (n + 1) = addr + 1 + n by omega, ih _ _ _ (by omega) (by omega)]; rfl

/-- A byte that no listed host write names reads as before. -/
theorem read_hostWrites_outside (m : Memory) (host : List Host.Cell) (i : Nat)
    (h : ∀ c ∈ host, c.1 ≠ i) : (m.hostWrites host).read i = m.read i := by
  induction host generalizing m with
  | nil => rfl
  | cons c rest ih =>
    simp only [Memory.hostWrites]
    rw [ih _ (fun d hd => h d (List.mem_cons_of_mem _ hd))]
    exact read_write_ne _ _ _ _ (Ne.symm (h c (List.mem_cons_self ..)))

end Sys2Proof.Machine
end

