-- ==== Sys2Proof/Laws/PortSteps.lean ====
section
/-! SUPPORT. The Memory Port, the shared memory and the sweep queue under whole commands: what an
issue adds, what the arbiter may choose, and what everything else leaves alone. -/

namespace Sys2Proof.Machine

/-! ### Reading parts of `outer` -/

theorem memory_of_outer {s t : State} (h : t.outer = s.outer) : t.memory = s.memory :=
  congrArg (fun x => x.1) h

theorem pending_of_outer {s t : State} (h : t.outer = s.outer) : t.pending = s.pending :=
  congrArg (fun x => x.2.1) h

theorem resetHeld_of_outer {s t : State} (h : t.outer = s.outer) : t.resetHeld = s.resetHeld :=
  congrArg (fun x => x.2.2.1) h

theorem engine_of_outer {s t : State} (h : t.outer = s.outer) : t.engine = s.engine :=
  congrArg (fun x => x.2.2.2.1) h

theorem now_of_outer {s t : State} (h : t.outer = s.outer) : t.now = s.now :=
  congrArg (fun x => x.2.2.2.2.1) h

theorem tickHi_of_outer {s t : State} (h : t.outer = s.outer) : t.tickHi = s.tickHi :=
  congrArg (fun x => x.2.2.2.2.2.1) h

theorem causeEnable_of_outer {s t : State} (h : t.outer = s.outer) :
    t.causeEnable = s.causeEnable := congrArg (fun x => x.2.2.2.2.2.2.1) h

theorem readData_of_outer {s t : State} (h : t.outer = s.outer) : t.readData = s.readData :=
  congrArg (fun x => x.2.2.2.2.2.2.2.1) h

theorem queue_of_outer {s t : State} (h : t.outer = s.outer) : t.sweep.queue = s.sweep.queue :=
  congrArg (fun x => x.2.2.2.2.2.2.2.2.1) h

theorem next_of_outer {s t : State} (h : t.outer = s.outer) : t.sweep.next = s.sweep.next :=
  congrArg (fun x => x.2.2.2.2.2.2.2.2.2.1) h

theorem executing_of_outer {s t : State} (h : t.outer = s.outer) :
    t.sweep.exec.isSome = s.sweep.exec.isSome := congrArg (fun x => x.2.2.2.2.2.2.2.2.2.2.1) h

theorem reads_of_outer {s t : State} (h : t.outer = s.outer) :
    t.port.reads.length = s.port.reads.length :=
  congrArg (fun x => x.2.2.2.2.2.2.2.2.2.2.2.2.2.1) h

theorem writes_of_outer {s t : State} (h : t.outer = s.outer) :
    t.port.writes.length = s.port.writes.length :=
  congrArg (fun x => x.2.2.2.2.2.2.2.2.2.2.2.2.2.2.1) h

/-! ### What an issue adds -/

/-- The granted request is a read. -/
def Grant.isRead : Grant → Bool
  | .journal _ r => r.isRead
  | .frame _ a _ _ => !a.isWrite
  | .class3 _ => false
  | .class4 _ => true

/-- Two states with the same outstanding transactions, and the memory of the second canonical when
that of the first is. -/
structure Grown (s t : State) (reads writes : Nat) : Prop where
  reads_le : t.port.reads.length ≤ s.port.reads.length + reads
  writes_le : t.port.writes.length ≤ s.port.writes.length + writes
  memory_wf : s.memory.wf = true → t.memory.wf = true
  engine_eq : t.engine = s.engine
  queue_eq : t.sweep.queue = s.sweep.queue

theorem Grown.refl (s : State) (r w : Nat) : Grown s s r w :=
  ⟨by omega, by omega, id, rfl, rfl⟩

theorem Grown.outer {s t u : State} {r w : Nat} (h : Grown s t r w) (ho : u.outer = t.outer) :
    Grown s u r w :=
  ⟨by rw [reads_of_outer ho]; exact h.reads_le, by rw [writes_of_outer ho]; exact h.writes_le,
    fun hm => by rw [memory_of_outer ho]; exact h.memory_wf hm,
    by rw [engine_of_outer ho]; exact h.engine_eq, by rw [queue_of_outer ho]; exact h.queue_eq⟩

theorem Grown.after {s t u : State} {r w : Nat} (ho : t.outer = s.outer) (h : Grown t u r w) :
    Grown s u r w :=
  ⟨by rw [← reads_of_outer ho]; exact h.reads_le, by rw [← writes_of_outer ho]; exact h.writes_le,
    fun hm => h.memory_wf (by rw [memory_of_outer ho]; exact hm),
    by rw [h.engine_eq, engine_of_outer ho], by rw [h.queue_eq, queue_of_outer ho]⟩

theorem grown_issueRead (s : State) (owner : ReadOwner) (addr len : Nat) (split second : Bool)
    (fate : Fate) : Grown s (s.issueRead owner addr len split second fate) 1 0 :=
  ⟨by simp [State.issueRead], by simp [State.issueRead], id, rfl, rfl⟩

theorem grown_issueWrite (s : State) (owner : WriteOwner) (addr : Nat) (bs : List Byte)
    (last lands error : Bool) : Grown s (s.issueWrite owner addr bs last lands error) 0 1 := by
  refine ⟨by simp [State.issueWrite], by simp [State.issueWrite], ?_, rfl, rfl⟩
  intro h
  unfold State.issueWrite
  dsimp only
  split
  · exact wf_writeBytes _ _ _ h
  · exact h

theorem grown_issueAnchor (s : State) (owner : WriteOwner) (offset : Nat) (bs : List Byte)
    (fate : Fate) : Grown s (s.issueAnchor owner offset bs fate) 0 1 := grown_issueWrite s _ _ _ _ _ _

@[simp] theorem outer_popJournal (s : State) (j : JournalNo) (r : JournalReq) :
    (s.popJournal j r).outer = s.outer := rfl
@[simp] theorem outer_popClass3 (s : State) (c : Class3) : (s.popClass3 c).outer = s.outer := rfl

theorem Grown.read_le {s t : State} (h : Grown s t 1 0) : Grown s t 1 1 :=
  ⟨h.1, by have := h.2; omega, h.3, h.4, h.5⟩

theorem grown_issueJournal (s : State) (j : JournalNo) (r : JournalReq) (fate : Fate) :
    Grown s (s.issueJournal j r fate) (if r.isRead then 1 else 0) (if r.isRead then 0 else 1) := by
  unfold State.issueJournal
  cases r with
  | load n =>
    dsimp only [JournalReq.isRead]
    refine Grown.after ?_ (grown_issueRead _ _ _ _ _ _ _)
    rfl
  | reread =>
    dsimp only [JournalReq.isRead]
    refine Grown.after ?_ (grown_issueRead _ _ _ _ _ _ _)
    rfl
  | produceWord v =>
    dsimp only [JournalReq.isRead]
    refine Grown.outer (Grown.after ?_ (grown_issueAnchor _ _ _ _ _)) (outer_produceIssued _ _)
    rfl
  | statusWord =>
    dsimp only [JournalReq.isRead]
    refine Grown.after ?_ (grown_issueAnchor _ _ _ _ _)
    rfl
  | record addr second =>
    dsimp only [JournalReq.isRead]
    split
    · split
      · refine Grown.outer (Grown.after ?_ (grown_issueWrite _ _ _ _ _ _ _))
          ((outer_recordIssued _ _ _).trans (outer_popJournal _ _ _))
        rfl
      · refine Grown.outer (Grown.after ?_ (grown_issueWrite _ _ _ _ _ _ _)) (outer_modJournal _ _ _)
        rfl
    · exact (Grown.refl s _ _).outer rfl

@[simp] theorem outer_frameIssued (s : State) (b : BankNo) (a : FrameAccess) :
    (s.frameIssued b a).outer = s.outer := outer_of_beside (beside_frameIssued s b a)

theorem grown_issueFrame (s : State) (b : BankNo) (a : FrameAccess) (addr : Nat) (second : Bool)
    (fate : Fate) : Grown s (s.issueFrame b a addr second fate) (if a.isWrite then 0 else 1)
      (if a.isWrite then 1 else 0) := by
  have hs : Grown s (s.sendFrame b a addr second fate) (if a.isWrite then 0 else 1)
      (if a.isWrite then 1 else 0) := by
    have h0 : (s.modPort fun p => { p with lastBank := b }).outer = s.outer := rfl
    unfold State.sendFrame
    dsimp only
    cases a.isWrite
    · exact (grown_issueRead _ _ _ _ _ _ _).after h0
    · exact (grown_issueWrite _ _ _ _ _ _ _).after h0
  unfold State.issueFrame
  dsimp only
  split
  · exact hs.outer (outer_frameIssued _ _ _)
  · exact hs.outer rfl

theorem grown_issueEngineStatus (s : State) (shown : EngineState) (fate : Fate) :
    Grown s (s.issueEngineStatus shown fate) 0 1 := by
  have h := grown_issueAnchor s (.engineStatus s.awaitsStatus) offEngineStatus
    (engineStatusBytes shown s.sweep.next) fate
  unfold State.issueEngineStatus
  dsimp only
  split
  · exact ⟨h.1, h.2, h.3, h.4, h.5⟩
  · exact h

theorem grown_issueReply (s : State) (fate : Fate) : Grown s (s.issueReply fate) 0 1 := by
  unfold State.issueReply
  split
  · split
    · rename_i e _ _ r _
      have h := grown_issueAnchor s .reply (offReply s.sweep.next) (replyBytes s.sweep.next e.word r) fate
      have h1 : ∀ f : Sweep → Sweep, (∀ x, (f x).queue = x.queue) →
          Grown s ((s.issueAnchor .reply (offReply s.sweep.next)
            (replyBytes s.sweep.next e.word r) fate).modSweep f) 0 1 := fun f hf =>
        ⟨h.1, h.2, h.3, h.4, (hf _).trans h.5⟩
      refine Grown.outer (h1 (fun x => { x with
        next := x.next + 1#16, exec := some { e with phase := .status } }) fun _ => rfl) ?_
      exact outer_requestClass3 _ _
    · exact Grown.refl _ _ _
  · exact Grown.refl _ _ _

theorem grown_issueClass3 (s : State) (c : Class3) (fate : Fate) :
    Grown s (s.issueClass3 c fate) 0 1 := by
  unfold State.issueClass3
  cases c with
  | reply => exact (grown_issueReply _ _).after (outer_popClass3 s _)
  | engine => exact (grown_issueEngineStatus _ _ _).after (outer_popClass3 s _)
  | bank b => exact (grown_issueAnchor _ _ _ _ _).after (outer_popClass3 s _)
  | line l => exact (grown_issueAnchor _ _ _ _ _).after (outer_popClass3 s _)

/-- An issue adds one outstanding transaction of its kind at the most. -/
theorem grown_issue (s : State) (fate : Fate) (g : Grant) :
    Grown s (s.issue fate g) (if g.isRead then 1 else 0) (if g.isRead then 0 else 1) := by
  unfold State.issue
  cases g with
  | journal j r => exact grown_issueJournal s j r fate
  | frame b a addr second =>
    have h := grown_issueFrame s b a addr second fate
    cases ha : a.isWrite <;> simpa [Grant.isRead, ha] using h
  | class3 c => exact grown_issueClass3 s c fate
  | class4 o =>
    dsimp only [Grant.isRead, State.issueClass4]
    refine Grown.after ?_ (grown_issueRead _ _ _ _ _ _ _)
    rfl

/-! ### What the arbiter may choose -/

/-- There is room for what is offered. -/
def State.room (s : State) (g : Grant) : Prop :=
  (if g.isRead then s.port.readRoom else s.port.writeRoom) = true

/-- What is offered first stands in the list and has room. -/
theorem firstIssuable_spec {α : Type} (isRead : α → Bool) (r w : Bool) (l : List α) (x : α)
    (h : firstIssuable isRead r w l = some x) : x ∈ l ∧ (if isRead x then r else w) = true := by
  induction l with
  | nil => cases h
  | cons y rest ih =>
    unfold firstIssuable at h
    split at h
    · rename_i hy
      split at h
      · rename_i hr; cases h; exact ⟨List.mem_cons_self, by rw [if_pos hy]; exact hr⟩
      · exact ⟨List.mem_cons_of_mem _ (ih h).1, (ih h).2⟩
    · rename_i hy
      split at h
      · rename_i hw; cases h; exact ⟨List.mem_cons_self, by rw [if_neg hy]; exact hw⟩
      · cases h

theorem room_journalOffer {s : State} {j : JournalNo} {g : Grant} (h : s.journalOffer j = some g) :
    s.room g := by
  obtain ⟨r, hr, rfl⟩ := Option.map_eq_some_iff.mp h
  exact (firstIssuable_spec _ _ _ _ _ hr).2

theorem room_bankOffer {s : State} {b : BankNo} {g : Grant} (h : s.bankOffer b = some g) :
    s.room g := by
  obtain ⟨r, hr, hg⟩ := Option.bind_eq_some_iff.mp h
  have := (firstIssuable_spec _ _ _ _ _ hr).2
  unfold FrameReq.grant at hg
  split at hg
  · cases hg; exact this
  · cases hg

theorem room_class3Offer {s : State} {g : Grant} (h : s.class3Offer = some g) : s.room g := by
  unfold State.class3Offer at h
  split at h
  · rename_i hw
    obtain ⟨x, _, rfl⟩ := Option.map_eq_some_iff.mp h
    exact hw
  · cases h

theorem room_class4Offer {s : State} {g : Grant} (h : s.class4Offer = some g) : s.room g := by
  unfold State.class4Offer at h
  repeat' split at h
  all_goals first
    | cases h; assumption
    | cases h

/-- The request that is granted has room (R155). -/
theorem room_choose {s : State} {g : Grant} (h : s.choose = some g) : s.room g := by
  unfold State.choose at h
  split at h
  · simp only [Option.orElse_eq_orElse, Option.orElse_eq_or, Option.or_eq_some_iff] at h
    rcases h with h | ⟨_, h | ⟨_, h | ⟨_, h⟩⟩⟩
    · obtain ⟨j, _, hj⟩ := List.exists_of_findSome?_eq_some h
      exact room_journalOffer hj
    · obtain ⟨b, _, hb⟩ := List.exists_of_findSome?_eq_some h
      exact room_bankOffer hb
    · exact room_class3Offer h
    · exact room_class4Offer h
  · split at h
    · exact room_class4Offer h
    · cases h

/-- The chosen request's issue keeps the bounds of R155. -/
theorem portOk_issue (s : State) (fate : Fate) (g : Grant) (hc : s.choose = some g) (h : s.PortOk) :
    (s.issue fate g).PortOk := by
  have hg := grown_issue s fate g
  have hr := room_choose hc
  have h1 := hg.reads_le
  have h2 := hg.writes_le
  unfold State.room at hr
  unfold State.PortOk at h ⊢
  cases hi : g.isRead <;> simp only [hi, if_true, if_false, Bool.false_eq_true] at hr h1 h2 <;>
    simp only [Port.readRoom, Port.writeRoom, decide_eq_true_eq] at hr <;> omega

end Sys2Proof.Machine
end

