-- ==== Sys2Proof/Laws/OuterSteps.lean ====
section
/-! SUPPORT. The effects of the commands that touch neither memory, nor the sweep queue, nor the
number of outstanding transactions, nor Engine Control. -/

namespace Sys2Proof.Machine

@[simp] theorem outer_setPhase (s : State) (p : ExecPhase) : (s.setPhase p).outer = s.outer :=
  outer_phase s p

@[simp] theorem outer_readRecord (s : State) (o : ReadOwner) : (s.readRecord o).outer = s.outer :=
  outer_modPort s _ rfl rfl

@[simp] theorem outer_flushWindows (s : State) : s.flushWindows.outer = s.outer :=
  outer_modWindow s _ rfl rfl

@[simp] theorem outer_bankStart (s : State) (b : BankNo) : (s.bankStart b).outer = s.outer := by
  unfold State.bankStart; split <;> simp

@[simp] theorem outer_stopNow (s : State) (b : BankNo) : (s.stopNow b).outer = s.outer := by
  simp [State.stopNow]

@[simp] theorem outer_bankStop (s : State) (now : Bool) (b : BankNo) :
    (s.bankStop now b).outer = s.outer := by
  unfold State.bankStop; dsimp only; repeat' split
  all_goals simp

@[simp] theorem outer_bankLook (s : State) (b : BankNo) : (s.bankLook b).outer = s.outer := by
  unfold State.bankLook; repeat' split
  all_goals simp

@[simp] theorem outer_rearmManual (s : State) (b : BankNo) : (s.rearmManual b).outer = s.outer := by
  unfold State.rearmManual; dsimp only; repeat' split
  all_goals simp

@[simp] theorem outer_bankRearm (s : State) (b : BankNo) : (s.bankRearm b).outer = s.outer := by
  unfold State.bankRearm; dsimp only; repeat' split
  all_goals simp

@[simp] theorem outer_bankTrip (s : State) (b : BankNo) : (s.bankTrip b).outer = s.outer := by
  simp [State.bankTrip]

@[simp] theorem outer_bankAck (s : State) (b : BankNo) : (s.bankAck b).outer = s.outer := by
  simp [State.bankAck]

@[simp] theorem outer_journalOpen (s : State) (j : JournalNo) : (s.journalOpen j).outer = s.outer := by
  unfold State.journalOpen; split <;> simp

@[simp] theorem outer_journalClose (s : State) (j : JournalNo) :
    (s.journalClose j).outer = s.outer := by
  unfold State.journalClose; split <;> simp

@[simp] theorem outer_journalLook (s : State) (j : JournalNo) : (s.journalLook j).outer = s.outer := by
  unfold State.journalLook; split <;> simp

@[simp] theorem outer_acceptStart (s : State) (b : BankNo) (r : BankRecord) (auto : Bool) :
    (s.acceptStart b r auto).outer = s.outer := by
  simp [State.acceptStart]

@[simp] theorem outer_bankRecordArrived (s : State) (b : BankNo) (a : Option (List Byte)) :
    (s.bankRecordArrived b a).outer = s.outer := by
  unfold State.bankRecordArrived; repeat' split
  all_goals simp

@[simp] theorem outer_lineRecordArrived (s : State) (l : LineNo) (a : Option (List Byte)) :
    (s.lineRecordArrived l a).outer = s.outer := by
  unfold State.lineRecordArrived; repeat' split
  all_goals simp

@[simp] theorem outer_journalRecordArrived (s : State) (j : JournalNo) (a : Option (List Byte)) :
    (s.journalRecordArrived j a).outer = s.outer := by
  unfold State.journalRecordArrived; repeat' split
  all_goals simp [State.checkRing]

@[simp] theorem outer_toFetch (s : State) (b : BankNo) (r : OutRead) :
    (State.toFetch b r s).outer = s.outer := by
  unfold State.toFetch; split <;> simp

@[simp] theorem outer_frameResponse (s : State) (b : BankNo) (sel : Selector) (retire : Bool)
    (next : Option FrameState) (w : OutWrite) :
    (s.frameResponse b sel retire next w).outer = s.outer := by
  unfold State.frameResponse State.frameAnswered; repeat' split
  all_goals simp

@[simp] theorem outer_recordResponse (s : State) (j : JournalNo) (w : OutWrite) :
    (s.recordResponse j w).outer = s.outer := by
  unfold State.recordResponse; split <;> simp

@[simp] theorem outer_portError (s : State) (error : Bool) : (s.portError error).outer = s.outer := by
  unfold State.portError; split <;> simp

@[simp] theorem outer_announceOn (s : State) : s.announceOn.outer = s.outer := by
  unfold State.announceOn
  dsimp only
  rw [outer_foldl _ (fun s l => ?_), outer_foldl _ (fun s b => by simp), outer_requestClass3]
  unfold State.releaseLine
  split <;> simp

@[simp] theorem outer_quiesceBank (s : State) (b : BankNo) : (s.quiesceBank b).outer = s.outer := by
  unfold State.quiesceBank; split <;> simp

@[simp] theorem outer_quiesceJournal (s : State) (j : JournalNo) :
    (s.quiesceJournal j).outer = s.outer := by
  unfold State.quiesceJournal; split <;> simp

end Sys2Proof.Machine
end

