-- ==== Sys2Proof/Laws/Issue.lean ====
section
/-! SUPPORT. What the issue of a request stores, and which request the arbiter chooses. -/

namespace Sys2Proof.Machine

/-! ### The bytes stored -/

/-- Memory after an issue: these bytes written at this address, when the write lands. -/
def landed (m : Memory) (p : Option (Nat × List Byte)) (lands : Bool) : Memory :=
  match p with
  | some (x, bs) => if lands then m.writeBytes x bs else m
  | none => m

theorem length_leBytes (n v : Nat) : (leBytes n v).length = n := by
  induction n generalizing v with
  | zero => rfl
  | succ n ih => simp [leBytes, ih]

theorem length_selectorBytes (x : Selector) : x.bytes.length = 8 := by
  simp [Selector.bytes, length_leBytes]

theorem length_recordBytes (s : State) (j : JournalNo) (p : StepPlan) :
    (s.recordBytes j p).length = 16 := by
  unfold State.recordBytes
  repeat' split
  all_goals simp [eventRecord, gapRecord, length_leBytes]

theorem length_bankStatusBytes (k : Bank) : (bankStatusBytes k).length = 64 := by
  have h : (reportBytes k.faults.report).length = 32 := by
    unfold reportBytes; split <;> simp [length_leBytes, length_selectorBytes]
  unfold bankStatusBytes
  simp [length_leBytes, length_selectorBytes, h]

theorem memory_issueJournal (s : State) (fate : Fate) (j : JournalNo) (r : JournalReq) :
    (s.issueJournal j r fate).memory
      = landed s.memory (s.stores (.journal j r)) (Grant.lands fate (.journal j r)) := by
  unfold State.stores State.issueJournal landed
  cases r with
  | load n => rfl
  | reread => rfl
  | produceWord v =>
    dsimp only
    rw [memory_of_outer (outer_produceIssued _ _)]; rfl
  | statusWord => rfl
  | record addr second =>
    dsimp only
    cases hp : (s.journal j).step with
    | write p =>
      dsimp only
      split
      · rw [memory_of_outer (outer_recordIssued _ _ _)]; rfl
      · rfl
    | _ => rfl

theorem memory_issueFrame (s : State) (fate : Fate) (b : BankNo) (a : FrameAccess) (addr : Nat)
    (second : Bool) : (s.issueFrame b a addr second fate).memory
      = landed s.memory (s.stores (.frame b a addr second))
          (Grant.lands fate (.frame b a addr second)) := by
  have hs : (s.sendFrame b a addr second fate).memory
      = landed s.memory (s.stores (.frame b a addr second))
          (Grant.lands fate (.frame b a addr second)) := by
    unfold State.sendFrame State.stores landed
    dsimp only
    cases a.isWrite <;> rfl
  unfold State.issueFrame
  dsimp only
  split
  · rw [memory_of_outer (outer_frameIssued _ _ _)]; exact hs
  · exact hs

theorem memory_issueClass3 (s : State) (fate : Fate) (c : Class3) :
    (s.issueClass3 c fate).memory
      = landed s.memory (s.stores (.class3 c)) (Grant.lands fate (.class3 c)) := by
  unfold State.stores State.issueClass3 landed
  cases c with
  | reply =>
    dsimp only
    unfold State.issueReply
    have he : (s.popClass3 .reply).sweep = s.sweep := rfl
    rw [he]
    cases hx : s.sweep.exec with
    | none => rfl
    | some e =>
      obtain ⟨w, ph⟩ := e
      cases ph with
      | replying r =>
        dsimp only
        rw [memory_of_outer (outer_requestClass3 _ _)]
        rfl
      | _ => rfl
  | engine =>
    dsimp only
    unfold State.issueEngineStatus
    dsimp only
    split <;> rfl
  | bank b => rfl
  | line l => rfl

/-- The issue of a request stores what `State.stores` says, if it lands. -/
theorem memory_issue (s : State) (fate : Fate) (g : Grant) :
    (s.issue fate g).memory = landed s.memory (s.stores g) (Grant.lands fate g) := by
  unfold State.issue
  cases g with
  | journal j r => exact memory_issueJournal s fate j r
  | frame b a addr second => exact memory_issueFrame s fate b a addr second
  | class3 c => exact memory_issueClass3 s fate c
  | class4 o => rfl

/-! ### The arbiter's choice -/

theorem journalOffer_some {s : State} {j : JournalNo} {g : Grant}
    (h : s.journalOffer j = some g) :
    ∃ r, firstIssuable JournalReq.isRead s.port.readRoom s.port.writeRoom (s.journal j).fifo = some r
      ∧ g = .journal j r := by
  obtain ⟨r, hr, rfl⟩ := Option.map_eq_some_iff.mp h
  exact ⟨r, hr, rfl⟩

theorem bankOffer_some {s : State} {b : BankNo} {g : Grant} (h : s.bankOffer b = some g) :
    ∃ a x y, firstIssuable (fun r : FrameReq => !r.acc.isWrite) s.port.readRoom s.port.writeRoom
        ((s.bank b).fifo.filter FrameReq.isOffered) = some ⟨a, .ready x y⟩
      ∧ g = .frame b a x y := by
  obtain ⟨r, hr, hg⟩ := Option.bind_eq_some_iff.mp h
  obtain ⟨a, st⟩ := r
  cases st with
  | ready x y => cases hg; exact ⟨a, x, y, hr, rfl⟩
  | _ => cases hg

/-- Only reads without room stand before what is offered first. -/
theorem firstIssuable_before {α : Type} {isRead : α → Bool} {r w : Bool} {l : List α} {x : α}
    (h : firstIssuable isRead r w l = some x) :
    ∃ l1 l2, l = l1 ++ x :: l2 ∧ ∀ y ∈ l1, isRead y = true ∧ r = false := by
  induction l with
  | nil => cases h
  | cons y rest ih =>
    unfold firstIssuable at h
    split at h
    · rename_i hy
      split at h
      · cases h; exact ⟨[], rest, rfl, by simp⟩
      · rename_i hr
        obtain ⟨l1, l2, h1, h2⟩ := ih h
        refine ⟨y :: l1, l2, by rw [h1]; rfl, ?_⟩
        intro z hz
        rcases List.mem_cons.mp hz with hz | hz
        · subst hz; exact ⟨hy, by simpa using hr⟩
        · exact h2 z hz
    · split at h
      · cases h; exact ⟨[], rest, rfl, by simp⟩
      · cases h

theorem class3Offer_some {s : State} {g : Grant} (h : s.class3Offer = some g) :
    ∃ c, g = .class3 c := by
  unfold State.class3Offer at h
  split at h
  · obtain ⟨x, _, rfl⟩ := Option.map_eq_some_iff.mp h; exact ⟨_, rfl⟩
  · cases h

theorem class4Offer_some {s : State} {g : Grant} (h : s.class4Offer = some g) :
    ∃ c, g = .class4 c := by
  unfold State.class4Offer at h
  repeat' split at h
  all_goals first | (cases h; exact ⟨_, rfl⟩) | cases h

/-- The five ways a request comes to be chosen. -/
theorem choose_cases {s : State} {g : Grant} (h : s.choose = some g) :
    (s.reporting = true ∧ (turns8 s.port.lastJournal).findSome? s.journalOffer = some g) ∨
    (s.reporting = true ∧ (turns8 s.port.lastJournal).findSome? s.journalOffer = none ∧
      (turns4 s.port.lastBank).findSome? s.bankOffer = some g) ∨
    (s.reporting = true ∧ (turns8 s.port.lastJournal).findSome? s.journalOffer = none ∧
      (turns4 s.port.lastBank).findSome? s.bankOffer = none ∧ s.class3Offer = some g) ∨
    (s.reporting = true ∧ (turns8 s.port.lastJournal).findSome? s.journalOffer = none ∧
      (turns4 s.port.lastBank).findSome? s.bankOffer = none ∧ s.class3Offer = none ∧
      s.class4Offer = some g) ∨
    (s.engine.state = .booting ∧ s.class4Offer = some g) := by
  unfold State.choose at h
  split at h
  · rename_i hr
    simp only [Option.orElse_eq_orElse, Option.orElse_eq_or, Option.or_eq_some_iff] at h
    rcases h with h | ⟨h1, h | ⟨h2, h | ⟨h3, h⟩⟩⟩
    · exact Or.inl ⟨hr, h⟩
    · exact Or.inr (Or.inl ⟨hr, h1, h⟩)
    · exact Or.inr (Or.inr (Or.inl ⟨hr, h1, h2, h⟩))
    · exact Or.inr (Or.inr (Or.inr (Or.inl ⟨hr, h1, h2, h3, h⟩)))
  · split at h
    · rename_i hb; exact Or.inr (Or.inr (Or.inr (Or.inr ⟨hb, h⟩)))
    · cases h

theorem turns8_none {l : JournalNo} {f : JournalNo → Option Grant}
    (h : (turns8 l).findSome? f = none) (j : JournalNo) : f j = none := by
  rw [List.findSome?_eq_none_iff] at h
  apply h
  unfold turns8
  rw [List.mem_map]
  refine ⟨j - (l + 1), ?_, add_sub_cancel _ _⟩
  generalize j - (l + 1) = k
  fin_cases k <;> decide

theorem turns4_none {l : BankNo} {f : BankNo → Option Grant}
    (h : (turns4 l).findSome? f = none) (j : BankNo) : f j = none := by
  rw [List.findSome?_eq_none_iff] at h
  apply h
  unfold turns4
  rw [List.mem_map]
  refine ⟨j - (l + 1), ?_, add_sub_cancel _ _⟩
  generalize j - (l + 1) = k
  fin_cases k <;> decide

/-- In a rising list of all the numbers, what is found is found at a number, and at none below. -/
theorem findSome_least {n : Nat} {l : List (Fin n)} (hs : l.Pairwise (· ≤ ·)) (ha : ∀ k, k ∈ l)
    {f : Fin n → Option Grant} {g : Grant} (h : l.findSome? f = some g) :
    ∃ k, f k = some g ∧ ∀ m, m < k → f m = none := by
  obtain ⟨l1, k, l2, h1, h2, h3⟩ := List.findSome?_eq_some_iff.mp h
  refine ⟨k, h2, fun m hm => h3 m ?_⟩
  have := ha m
  rw [h1] at this hs
  rcases List.mem_append.mp this with h | h
  · exact h
  · exfalso
    have hp := (List.pairwise_append.mp hs).2.1
    rcases List.mem_cons.mp h with h | h
    · subst h; exact lt_irrefl _ hm
    · exact absurd ((List.pairwise_cons.mp hp).1 m h) (not_le.mpr hm)

theorem turns8_some {l : JournalNo} {f : JournalNo → Option Grant} {g : Grant}
    (h : (turns8 l).findSome? f = some g) :
    ∃ j, f j = some g ∧ ∀ k : Fin 8, k < j - (l + 1) → f (l + 1 + k) = none := by
  unfold turns8 at h
  rw [List.findSome?_map] at h
  obtain ⟨k, h1, h2⟩ := findSome_least (n := 8) (l := eight) (by decide)
    (by intro k; fin_cases k <;> decide) h
  refine ⟨l + 1 + k, h1, fun m hm => h2 m ?_⟩
  rwa [add_sub_cancel_left] at hm

theorem turns4_some {l : BankNo} {f : BankNo → Option Grant} {g : Grant}
    (h : (turns4 l).findSome? f = some g) :
    ∃ j, f j = some g ∧ ∀ k : Fin 4, k < j - (l + 1) → f (l + 1 + k) = none := by
  unfold turns4 at h
  rw [List.findSome?_map] at h
  obtain ⟨k, h1, h2⟩ := findSome_least (n := 4) (l := four) (by decide)
    (by intro k; fin_cases k <;> decide) h
  refine ⟨l + 1 + k, h1, fun m hm => h2 m ?_⟩
  rwa [add_sub_cancel_left] at hm

/-- A bank's access that is granted is among the bank's requests, offered at its address. -/
theorem frame_of_choose {s : State} {b : BankNo} {a : FrameAccess} {addr : Nat} {second : Bool}
    (h : s.choose = some (.frame b a addr second)) :
    ⟨a, .ready addr second⟩ ∈ (s.bank b).fifo := by
  rcases choose_cases h with ⟨_, hc⟩ | ⟨_, _, hc⟩ | ⟨_, _, _, hc⟩ | ⟨_, _, _, _, hc⟩ | ⟨_, hc⟩
  · obtain ⟨j, hj, _⟩ := turns8_some hc
    obtain ⟨r, _, hz⟩ := journalOffer_some hj
    cases hz
  · obtain ⟨c, hj, _⟩ := turns4_some hc
    obtain ⟨a', x, y, hf, hz⟩ := bankOffer_some hj
    cases hz
    obtain ⟨l1, l2, e, _⟩ := firstIssuable_before hf
    exact (List.mem_filter.mp (e ▸ List.mem_append_right l1 (List.mem_cons_self ..))).1
  · obtain ⟨c, hz⟩ := class3Offer_some hc; cases hz
  · obtain ⟨o, hz⟩ := class4Offer_some hc; cases hz
  · obtain ⟨o, hz⟩ := class4Offer_some hc; cases hz

end Sys2Proof.Machine
end

