-- ==== Sys2Proof/Laws/Periods.lean ====
section
/-! SUPPORT. The smallest period that makes a pass long enough, and the divider of a frame whose
ranges passed. -/

namespace Sys2Proof.Machine

/-- `n` divided by `d` and rounded up is the least `p` with `n ≤ p * d`. -/
theorem divUp_le {d : Nat} (hd : 0 < d) (n p : Nat) : (n + d - 1) / d ≤ p ↔ n ≤ p * d := by
  rw [Nat.div_le_iff_le_mul_add_pred hd]
  have : d * p = p * d := Nat.mul_comm _ _
  omega

theorem divUp_eq {d : Nat} (hd : 0 < d) (n : Nat) :
    (n + d - 1) / d = n / d + (if n % d = 0 then 0 else 1) := by
  have h1 := Nat.div_add_mod n d
  have h2 := Nat.mod_lt n hd
  split
  · rename_i h
    apply Nat.div_eq_of_lt_le
    · rw [h, Nat.add_zero] at h1; rw [Nat.add_zero, Nat.mul_comm]; omega
    · rw [h, Nat.add_zero] at h1; rw [Nat.add_zero, Nat.succ_mul, Nat.mul_comm]; omega
  · apply Nat.div_eq_of_lt_le
    · rw [Nat.succ_mul, Nat.mul_comm]; omega
    · rw [Nat.succ_mul, Nat.succ_mul, Nat.mul_comm]; omega

/-- A frame whose ranges passed, clamped or not, has a divider of at least 1. -/
theorem divider_of_rangeFrame {masked : Bool} {h : Header} {es : List (ChanNo × ChanMode × Entry)}
    {divider period : Nat} {xs : List (ChanNo × ChanSetting)} {clamped : Bool}
    (hr : rangeFrame masked h es = .ok (divider, period, xs) clamped) : 1 ≤ divider := by
  unfold rangeFrame at hr
  have key (c : Bool) (hh : inRange masked 7 1 256 h.divider = .ok divider c) : 1 ≤ divider := by
    unfold inRange at hh
    split at hh
    · cases hh; rename_i hx; exact hx.1
    · split at hh
      · cases hh; split <;> omega
      · cases hh
  cases h1 : inRange masked 7 1 256 h.divider with
  | bad i c => rw [h1] at hr; cases hr
  | ok a c =>
    have : a = divider := by
      rw [h1] at hr
      unfold Ranged.bind at hr
      dsimp only at hr
      cases h2 : inRange masked 8 2 16777215 h.period with
      | bad i c => rw [h2] at hr; cases hr
      | ok p c2 =>
        rw [h2] at hr
        dsimp only at hr
        cases h3 : rangeEntries masked p 0 es with
        | bad i c => rw [h3] at hr; cases hr
        | ok ys c3 => rw [h3] at hr; dsimp only at hr; cases hr; rfl
    subst this
    exact key c h1

end Sys2Proof.Machine
end

