-- ==== Sys2Proof/Laws/PinSources.lean ====
section
/-! SUPPORT. The pins follow the one source in force through every operation that moves it, and a gate
is judged afresh. -/

namespace Sys2Proof.Machine

/-! ### The pins follow (R59, R60, R65, R66) -/

theorem not_waiting_of_running {p : PlanState} (h : p.isRunning = true) : p ≠ .waiting := by
  rintro rfl; simp [PlanState.isRunning] at h

theorem pinsFollow_refresh (k : Bank) : k.refreshPins.PinsFollow := by
  intro hs c
  rw [seq_refresh] at hs
  have hg : k.refreshPins.wave.pins.get c = k.resolvePair c := by
    unfold Bank.refreshPins; rw [if_pos hs]; fin_cases c <;> rfl
  rw [hg, gate_refresh, seq_refresh, lastRef_refresh]
  refine ⟨?_, ?_⟩
  · show ((k.desires c).1, (k.desires c).2) = _
    unfold Bank.desires
    dsimp only
    split <;> try split
    all_goals rfl
  · have key : ∀ (p : Pin) (d : Bool) (n : Nat),
        (p.resolve d n).delay = (if d && p.wasDesired then p.wasDelay else 0) ∧
        (d = false → (p.resolve d n).drive = .off) ∧
        (d = true → (p.wasDesired = true ∧ p.wasOn = true ∨ n ≤ (p.resolve d n).delay) →
          (p.resolve d n).drive = .on) ∧
        (d = true → ¬ (p.wasDesired = true ∧ p.wasOn = true ∨ n ≤ (p.resolve d n).delay) →
          (p.resolve d n).drive = .off) := by
      intro p d n
      unfold Pin.resolve
      dsimp only
      refine ⟨rfl, fun h => by simp [h], fun h h2 => ?_, fun h h2 => ?_⟩
      · rw [if_pos]
        rw [h]; rcases h2 with ⟨a, b⟩ | h2
        · simp [a, b]
        · rw [h] at h2; simp at h2 ⊢; exact Or.inr h2
      · rw [if_neg]
        rw [h] at h2 ⊢; simp at h2 ⊢; exact h2
    rintro (_ | _) p rfl
    · exact key _ _ _
    · exact key _ _ _

/-- Whether the pins follow depends on the plan, the settings, the gate and the waveform alone. -/
theorem pinsFollow_congr {k l : Bank} (h1 : l.seq.started = k.seq.started)
    (h2 : l.seq.plan = k.seq.plan) (h3 : l.seq.settings = k.seq.settings)
    (h4 : l.gate.tripped = k.gate.tripped) (h5 : l.wave = k.wave) (h : k.PinsFollow) :
    l.PinsFollow := by
  intro hs c
  rw [h1] at hs
  rw [h2, h3, h4, h5]
  exact h hs c

theorem pinsFollow_relatch {k : Bank} {l : LatchState} (h : k.PinsFollow) : (k.relatch l).PinsFollow :=
  pinsFollow_congr (k := k) rfl rfl rfl rfl rfl h

theorem pinsFollow_relatched {b : BankNo} {s t : State} (h : Relatched b s t)
    (hp : (s.bank b).PinsFollow) : (t.bank b).PinsFollow := by
  obtain ⟨l, _, e⟩ := h; rw [e]; exact pinsFollow_relatch hp

theorem pinsFollow_refreshPins (s : State) (b : BankNo) :
    ((s.refreshPins b).bank b).PinsFollow := by
  unfold State.refreshPins; rw [bank_modBank_same]; exact pinsFollow_refresh _

theorem pinsFollow_startFrame (s : State) (b : BankNo) (f : FrameCopy) (forced : Bool) :
    ((s.startFrame b f forced).bank b).PinsFollow := pinsFollow_refreshPins _ b

theorem pinsFollow_openGate (s : State) (b : BankNo) : ((s.openGate b).bank b).PinsFollow :=
  pinsFollow_refreshPins _ b

theorem pinsFollow_tripGate (s : State) (b : BankNo) : ((s.tripGate b).bank b).PinsFollow :=
  pinsFollow_refreshPins _ b

theorem pinsFollow_enterWaiting (s : State) (b : BankNo) (f : FrameCopy) :
    ((s.enterWaiting b f).bank b).PinsFollow := pinsFollow_refreshPins _ b

theorem pinsFollow_startOwn (s : State) (b : BankNo) (f : FrameCopy) (forced : Bool) :
    ((s.startOwn b f forced).bank b).PinsFollow := by
  rw [bank_startOwn]; exact pinsFollow_startFrame _ _ _ _

theorem pinsFollow_endPlan (s : State) (b : BankNo) (plan : PlanState) (reason : StopReason) :
    ((s.endPlan b plan reason).bank b).PinsFollow := by
  unfold State.endPlan
  dsimp only
  rw [bank_emit_disarmed]
  · rw [bank_raise]; exact pinsFollow_refreshPins _ _
  · rw [bank_raise]
    unfold State.refreshPins
    rw [bank_modBank_same, seq_refresh]
    have := congrArg (fun x => x.1) (core_releaseGate ((s.discardReads b).modBank b fun k =>
      { k with seq := k.seq.ended plan reason, wave := k.wave.atZero }) b)
    dsimp only [Bank.core] at this
    rw [this, bank_modBank_same]; rfl

theorem pinsFollow_stopBank (s : State) (b : BankNo) (code : FrameState) :
    ((s.stopBank b code).bank b).PinsFollow := pinsFollow_endPlan _ _ _ _

theorem pinsFollow_haltBank (s : State) (b : BankNo) (bad : Option Selector) :
    ((s.haltBank b bad).bank b).PinsFollow := pinsFollow_endPlan _ _ _ _

theorem pinsFollow_matchCue {s : State} {b : BankNo} (hr : (s.bank b).seq.plan ≠ .waiting)
    (h : (s.bank b).PinsFollow) : ((s.matchCue b).bank b).PinsFollow :=
  pinsFollow_relatched (relatched_matchCue s b b hr) h

theorem pinsFollow_nextPass (s : State) (b : BankNo) (hr : (s.bank b).seq.plan ≠ .waiting) :
    ((s.nextPass b).bank b).PinsFollow := by
  unfold State.nextPass
  dsimp only
  refine pinsFollow_matchCue ?_ (pinsFollow_refreshPins _ _)
  unfold State.refreshPins
  rw [bank_modBank_same, seq_refresh]
  unfold State.readLink State.requestFrame
  repeat' split
  · rw [bank_modBank_same, bank_modSeq_same, bank_modBank_same]; exact hr
  all_goals (rw [bank_modBank_same]; exact hr)

/-- A cue or edge leaves the pins following, whether it sets a latch, starts a frame or is not
awaited. -/
theorem pinsFollow_offer (n : Nat) (c : StartCond) (s : State) (b : BankNo)
    (h : (s.bank b).PinsFollow) : ((offer n c s).bank b).PinsFollow := by
  induction n generalizing c s with
  | zero => exact h
  | succ n ih =>
    have cues : ∀ (t : State) (d : BankNo), (t.bank b).PinsFollow →
        ((State.startCues (offer n) t d).bank b).PinsFollow := by
      intro t d ht
      unfold State.startCues
      split
      · exact ih _ _ (ih _ _ ht)
      · exact ih _ _ ht
    have one : ∀ (t : State) (d : BankNo), (t.bank b).PinsFollow →
        ((State.takeCue (offer n) c t d).bank b).PinsFollow := by
      intro t d ht
      unfold State.takeCue
      dsimp only
      by_cases hd : b = d
      · subst hd
        repeat' split
        · exact cues _ _ (pinsFollow_startFrame _ _ _ _)
        · exact ht
        · rw [bank_modSeq_same]
          exact pinsFollow_congr (k := t.bank b) rfl rfl rfl rfl rfl ht
        · exact ht
      · repeat' split
        · exact cues _ _ (by rw [bank_startFrame_ne _ _ _ hd]; exact ht)
        · exact ht
        · rw [bank_modSeq_ne _ _ hd]; exact ht
        · exact ht
    unfold offer
    exact one _ 3 (one _ 2 (one _ 1 (one _ 0 h)))

/-! ### A gate judged afresh (R81, R82, R87, R89) -/

/-- A source of a bank is active in the model's words and in the spec's. -/
theorem sourceActive_iff {s t : State} {b : BankNo} (hl : t.lines = s.lines) :
    s.sourceActive b = true ↔ t.Sourced (s.bank b).gate := by
  unfold State.sourceActive State.Sourced State.lineTrips State.ActiveLine Line.atTripLevel
  have e : ∀ l, t.line l = s.line l := fun l => by unfold State.line; rw [hl]
  rw [Bool.or_eq_true, List.any_eq_true]
  constructor
  · rintro (h | ⟨l, _, h⟩)
    · exact Or.inl h
    · exact Or.inr ⟨l, by rw [e]; simpa using h⟩
  · rintro (h | ⟨l, h⟩)
    · exact Or.inl h
    · exact Or.inr ⟨l, by fin_cases l <;> decide, by rw [e] at h; simpa using h⟩

/-- What the judgement of one gate leaves of it. -/
theorem gate_judgeGate_eq (s : State) (b : BankNo) : ((s.judgeGate b).bank b).gate =
    (if !(s.bank b).gate.tripped then
      (if s.sourceActive b then
        { (s.bank b).gate with tripped := true, trips := satInc (s.bank b).gate.trips }
        else (s.bank b).gate)
    else if (s.bank b).gate.auto then
      (if !(s.bank b).seq.plan.isRunning && !s.sourceActive b then
        { (s.bank b).gate with tripped := false, rearmPending := false } else (s.bank b).gate)
    else if (s.bank b).gate.rearmPending && s.sourceActive b then
      { (s.bank b).gate with rearmPending := false } else (s.bank b).gate) := by
  unfold State.judgeGate
  dsimp only
  split
  · split
    · unfold State.tripGate State.refreshPins; simp
    · rfl
  · split
    · split
      · unfold State.openGate State.refreshPins; simp
      · rfl
    · split
      · simp
      · rfl

/-- A gate that the judgement trips or opens has its pins follow. -/
theorem pinsFollow_judgeGate (s : State) (b : BankNo)
    (h : ((s.judgeGate b).bank b).gate.tripped ≠ (s.bank b).gate.tripped) :
    ((s.judgeGate b).bank b).PinsFollow := by
  revert h
  unfold State.judgeGate
  dsimp only
  split
  · split
    · exact fun _ => pinsFollow_tripGate s b
    · exact fun h => absurd rfl h
  · split
    · split
      · exact fun _ => pinsFollow_openGate s b
      · exact fun h => absurd rfl h
    · split
      · exact fun h => absurd (by simp) h
      · exact fun h => absurd rfl h

/-- The judgement of a gate as `GateJudged` says it, in any state `t` that shows its result. -/
theorem gateJudged_judgeGate {s t : State} {b : BankNo} (hl : t.lines = s.lines)
    (hg : (t.bank b).gate = ((s.judgeGate b).bank b).gate)
    (hc : (s.judgeGate b).cause.getLsbD (causeBank b) = true → t.causeSet (causeBank b))
    (hp : ((s.judgeGate b).bank b).PinsFollow → (t.bank b).PinsFollow) :
    t.GateJudged b (s.bank b).gate (s.bank b).seq.plan.isRunning := by
  have hs := sourceActive_iff (b := b) hl
  have hg' := hg.trans (gate_judgeGate_eq s b)
  have no : ¬ t.Sourced (s.bank b).gate → s.sourceActive b = false :=
    fun h => by simpa using fun k => h (hs.mp k)
  constructor
  · intro ht hsrc
    rw [ht, hs.mpr hsrc] at hg'
    refine ⟨hg', hc ?_⟩
    have : s.judgeGate b = s.tripGate b := by
      unfold State.judgeGate; dsimp only; rw [ht, hs.mpr hsrc]; rfl
    rw [this]
    exact causeBit_raise (s.modGate b _) _ (by have := b.isLt; unfold causeBank; omega)
  · intro ht hsrc; rw [ht, no hsrc] at hg'; exact hg'
  · intro ht hsrc
    rw [ht, hs.mpr hsrc] at hg'
    rw [hg']
    generalize (s.bank b).gate = g
    obtain ⟨t, sw, r, m, a, n⟩ := g
    cases a <;> cases r <;> simp
  · intro ht hsrc ha hr; rw [ht, no hsrc, ha, hr] at hg'; exact hg'
  · intro ht hsrc hor
    rw [ht, no hsrc] at hg'
    rw [hg']
    rcases hor with h | h <;> simp [h]
  · intro hne
    rw [hg] at hne
    exact hp (pinsFollow_judgeGate s b hne)

/-- All four gates are judged. -/
theorem gateJudged_judgeGates {s t : State} (hl : t.lines = s.lines)
    (hg : ∀ b, (t.bank b).gate = (s.judgeGates.bank b).gate)
    (hc : ∀ n, s.judgeGates.cause.getLsbD n = true → t.cause.getLsbD n = true)
    (hp : ∀ b, (s.judgeGates.bank b).PinsFollow → (t.bank b).PinsFollow) (b : BankNo) :
    t.GateJudged b (s.bank b).gate (s.bank b).seq.plan.isRunning := by
  have nx : ∀ (u : State) (c : BankNo), c ≠ b → (u.judgeGate c).bank b = u.bank b :=
    fun u c h => (judgeGate_spec u c).2.2.2 b (Ne.symm h)
  have ln : ∀ (u : State) (c : BankNo), (u.judgeGate c).lines = u.lines :=
    fun u c => lines_of_beside (beside_judgeGate u c)
  have cm : ∀ (u : State) (c : BankNo), u.cause.getLsbD (causeBank b) = true →
      (u.judgeGate c).cause.getLsbD (causeBank b) = true :=
    fun u c h => causeBit_judgeGate u c _ h
  have fin : ∀ u : State, u.bank b = s.bank b → u.lines = s.lines →
      s.judgeGates.bank b = (u.judgeGate b).bank b →
      ((u.judgeGate b).cause.getLsbD (causeBank b) = true →
        s.judgeGates.cause.getLsbD (causeBank b) = true) →
      t.GateJudged b (s.bank b).gate (s.bank b).seq.plan.isRunning := by
    intro u h1 h2 h3 h4
    have h := gateJudged_judgeGate (s := u) (t := t) (b := b) (by rw [hl, h2])
      (by rw [hg b, h3]) (fun h => hc _ (h4 h)) (fun h => hp b (by rw [h3]; exact h))
    rw [h1] at h
    exact h
  match b, nx, fin, cm with
  | 0, nx, fin, cm =>
    refine fin s rfl rfl ?_ (fun h => cm _ _ (cm _ _ (cm _ _ h)))
    unfold State.judgeGates
    rw [nx _ 3 (by decide), nx _ 2 (by decide), nx _ 1 (by decide)]
  | 1, nx, fin, cm =>
    refine fin (s.judgeGate 0) (nx _ 0 (by decide)) (ln _ _) ?_ (fun h => cm _ _ (cm _ _ h))
    unfold State.judgeGates; rw [nx _ 3 (by decide), nx _ 2 (by decide)]
  | 2, nx, fin, cm =>
    refine fin ((s.judgeGate 0).judgeGate 1) (by rw [nx _ 1 (by decide), nx _ 0 (by decide)])
      (by rw [ln, ln]) ?_ (fun h => cm _ _ h)
    unfold State.judgeGates; rw [nx _ 3 (by decide)]
  | 3, nx, fin, cm =>
    exact fin (((s.judgeGate 0).judgeGate 1).judgeGate 2)
      (by rw [nx _ 2 (by decide), nx _ 1 (by decide), nx _ 0 (by decide)])
      (by rw [ln, ln, ln]) rfl (fun h => h)

/-- Its judgement depends on what the lines show of their levels alone. -/
theorem gateJudged_congr {s t : State} {b : BankNo} {g : Gate} {running : Bool}
    (hb : t.bank b = s.bank b) (hc : t.cause = s.cause)
    (hl : ∀ m, (t.line m).loaded = (s.line m).loaded ∧ (t.line m).high = (s.line m).high ∧
      (t.line m).cfg = (s.line m).cfg) (h : s.GateJudged b g running) :
    t.GateJudged b g running := by
  have hs : t.Sourced g ↔ s.Sourced g := by
    unfold State.Sourced State.ActiveLine
    refine or_congr Iff.rfl (exists_congr fun m => ?_)
    obtain ⟨a, b, c⟩ := hl m
    rw [a, b, c]
  obtain ⟨k1, k2, k3, k4, k5, k6⟩ := h
  constructor
  · intro a c; rw [hb]; unfold State.causeSet; rw [hc]; exact k1 a (hs.mp c)
  · intro a c; rw [hb]; exact k2 a fun z => c (hs.mpr z)
  · intro a c; rw [hb]; exact k3 a (hs.mp c)
  · intro a c; rw [hb]; exact k4 a fun z => c (hs.mpr z)
  · intro a c; rw [hb]; exact k5 a fun z => c (hs.mpr z)
  · rw [hb]; exact k6

/-- While the bank does not run and no rearm is pending, the boundary action after a judgement changes
nothing. -/
theorem released_judgeGate (s : State) (b : BankNo) (hr : (s.bank b).seq.plan.isRunning = false)
    (hp : (s.bank b).gate.rearmPending = false) :
    ((s.judgeGate b).bank b).gate.released (s.lineTrips b) = ((s.judgeGate b).bank b).gate := by
  rw [gate_judgeGate_eq, hr]
  unfold State.sourceActive
  generalize s.lineTrips b = x
  revert hp
  generalize (s.bank b).gate = g
  obtain ⟨t, sw, r, m, a, n⟩ := g
  rintro ⟨⟩
  cases t <;> cases sw <;> cases a <;> cases x <;> rfl

end Sys2Proof.Machine
end

