-- ==== Sys2Proof/Laws/Pins.lean ====
section
/-! SUPPORT. Every operation keeps what R60 and R62 say of the pins (`State.PinsOk`). -/

namespace Sys2Proof.Machine

/-- The pins of a bank. -/
def State.pinsOf (s : State) (b : BankNo) : Quad PinPair := (s.bank b).wave.pins

/-! ### Keeping the pins -/

theorem pinsOk_congr {s t : State} (h : ∀ c, t.pinsOf c = s.pinsOf c) (hs : s.PinsOk) : t.PinsOk := by
  intro c i
  have := h c
  simp only [State.pinsOf] at this
  rw [this]; exact hs c i

theorem pinsOk_of_banks {s t : State} (h : t.banks = s.banks) (hs : s.PinsOk) : t.PinsOk :=
  pinsOk_congr (fun c => by simp only [State.pinsOf, State.bank, h]) hs

/-- An update of one bank that gives it sound pins. -/
theorem pinsOk_modBank (s : State) (b : BankNo) (f : Bank → Bank) (hs : s.PinsOk)
    (hf : (f (s.bank b)).PinsOk) : (s.modBank b f).PinsOk := by
  intro c
  by_cases hc : c = b
  · subst hc; rw [bank_modBank_same]; exact hf
  · rw [bank_modBank_ne s f hc]; exact hs c

/-- An update of one bank that leaves its pins alone. -/
theorem pinsOk_modBank_rest (s : State) (b : BankNo) (f : Bank → Bank)
    (hf : (f (s.bank b)).wave.pins = (s.bank b).wave.pins) (hs : s.PinsOk) :
    (s.modBank b f).PinsOk :=
  pinsOk_modBank s b f hs (fun c => by rw [hf]; exact hs b c)

theorem pinsOk_modSeq (s : State) (b : BankNo) (f : Sequencer → Sequencer) (h : s.PinsOk) :
    (s.modSeq b f).PinsOk := pinsOk_modBank_rest s b _ rfl h
theorem pinsOk_modGate (s : State) (b : BankNo) (f : Gate → Gate) (h : s.PinsOk) :
    (s.modGate b f).PinsOk := pinsOk_modBank_rest s b _ rfl h
theorem pinsOk_modFaults (s : State) (b : BankNo) (f : FaultLogic → FaultLogic) (h : s.PinsOk) :
    (s.modFaults b f).PinsOk := pinsOk_modBank_rest s b _ rfl h
theorem pinsOk_requestFrame (s : State) (b : BankNo) (a : FrameAccess) (h : s.PinsOk) :
    (s.requestFrame b a).PinsOk := pinsOk_modBank_rest s b _ rfl h

/-! ### Pins judged (R59 to R62, R65) -/

/-- A pin judged for a tick is driven ON only where it is desired ON (R60). -/
theorem sound_resolve (p : Pin) (desired : Bool) (dead : Nat) : (p.resolve desired dead).Sound := by
  unfold Pin.Sound Pin.resolve
  cases desired <;> simp

/-- The two pins of a pair never desire ON together, whatever the source (R59, R62, R65). -/
theorem desires_apart (k : Bank) (c : ChanNo) (h : (k.wave.pins.get c).Sound) :
    ((k.desires c).1 && (k.desires c).2) = false := by
  obtain ⟨_, _, _, hrest, htrip⟩ := h
  unfold Bank.desires
  dsimp only
  split
  · exact htrip
  · split
    · unfold ChanSetting.desires
      split
      · rfl
      · cases k.wave.lastRef.get c <;> simp
    · exact hrest

theorem sound_resolvePair (k : Bank) (c : ChanNo) (h : (k.wave.pins.get c).Sound) :
    (k.resolvePair c).Sound := by
  have hd := desires_apart k c h
  obtain ⟨_, _, _, hrest, htrip⟩ := h
  exact ⟨sound_resolve _ _ _, sound_resolve _ _ _, hd, hrest, htrip⟩

theorem pinsOk_bank_refresh (k : Bank) (h : k.PinsOk) : k.refreshPins.PinsOk := by
  unfold Bank.refreshPins
  split
  · intro c
    have := sound_resolvePair k c (h c)
    fin_cases c <;> exact this
  · exact h

theorem pinsOk_refreshPins (s : State) (b : BankNo) (h : s.PinsOk) : (s.refreshPins b).PinsOk :=
  pinsOk_modBank s b _ h (pinsOk_bank_refresh _ (h b))

/-! ### Gates and faults -/

theorem pinsOk_openGate (s : State) (b : BankNo) (h : s.PinsOk) : (s.openGate b).PinsOk :=
  pinsOk_refreshPins _ b (pinsOk_modGate s b _ h)

theorem pinsOk_tripGate (s : State) (b : BankNo) (h : s.PinsOk) : (s.tripGate b).PinsOk :=
  pinsOk_refreshPins _ b (pinsOk_of_banks (banks_raise _ _) (pinsOk_modGate s b _ h))

theorem pinsOk_releaseGate (s : State) (b : BankNo) (h : s.PinsOk) : (s.releaseGate b).PinsOk := by
  unfold State.releaseGate; dsimp only; generalize hc : (_ && _ : Bool) = d
  cases d
  · exact h
  · exact pinsOk_openGate s b h

theorem pinsOk_judgeGate (s : State) (b : BankNo) (h : s.PinsOk) : (s.judgeGate b).PinsOk := by
  unfold State.judgeGate
  dsimp only
  repeat' split
  · exact pinsOk_tripGate s b h
  · exact h
  · exact pinsOk_openGate s b h
  · exact h
  · exact pinsOk_modGate s b _ h
  · exact h

theorem pinsOk_judgeGates (s : State) (h : s.PinsOk) : s.judgeGates.PinsOk :=
  pinsOk_judgeGate _ _ (pinsOk_judgeGate _ _ (pinsOk_judgeGate _ _ (pinsOk_judgeGate _ _ h)))

theorem pinsOk_markSticky (s : State) (b : BankNo) (c : FaultClass) (h : s.PinsOk) :
    (s.markSticky b c).PinsOk := pinsOk_modFaults s b _ h

theorem pinsOk_reportFault (s : State) (b : BankNo) (cls : FaultClass) (sub : Subcode)
    (sel : Selector) (field : Nat) (phase : Phase) (h : s.PinsOk) :
    (s.reportFault b cls sub sel field phase).PinsOk := by
  have h1 := pinsOk_markSticky s b cls h
  unfold State.reportFault
  dsimp only
  split
  · exact pinsOk_of_banks (banks_raise _ _) (pinsOk_modFaults _ b _ h1)
  · exact pinsOk_modFaults _ b _ h1

/-! ### Requests -/

theorem pinsOk_discardReads (s : State) (b : BankNo) (h : s.PinsOk) : (s.discardReads b).PinsOk := by
  unfold State.discardReads
  exact pinsOk_of_banks (banks_modPort _ _) (pinsOk_modBank_rest _ b _ rfl h)

theorem pinsOk_withholdWrites (s : State) (b : BankNo) (sel : Selector) (h : s.PinsOk) :
    (s.withholdWrites b sel).PinsOk := by
  unfold State.withholdWrites
  exact pinsOk_of_banks (banks_modPort _ _) (pinsOk_modBank_rest _ b _ rfl h)

theorem pinsOk_returnStaged (s : State) (b : BankNo) (h : s.PinsOk) : (s.returnStaged b).PinsOk := by
  unfold State.returnStaged
  split
  · exact pinsOk_requestFrame s b _ h
  · exact h

theorem pinsOk_retireLive (s : State) (b : BankNo) (code : FrameState) (h : s.PinsOk) :
    (s.retireLive b code).PinsOk := by
  unfold State.retireLive
  split
  · exact pinsOk_requestFrame _ b _ (pinsOk_modSeq s b _ h)
  · exact h

theorem pinsOk_readLink (s : State) (b : BankNo) (h : s.PinsOk) : (s.readLink b).PinsOk := by
  unfold State.readLink
  repeat' split
  · exact pinsOk_requestFrame _ b _ (pinsOk_modSeq s b _ h)
  · exact h
  · exact h

/-! ### The Cue Network -/

theorem pinsOk_startFrame (s : State) (b : BankNo) (f : FrameCopy) (forced : Bool) (h : s.PinsOk) :
    (s.startFrame b f forced).PinsOk :=
  pinsOk_refreshPins _ b (pinsOk_readLink _ b (pinsOk_modBank_rest _ b _ rfl
    (pinsOk_requestFrame s b _ h)))

theorem pinsOk_startCues (emit : StartCond → State → State)
    (he : ∀ c s, s.PinsOk → (emit c s).PinsOk) (s : State) (b : BankNo) (h : s.PinsOk) :
    (State.startCues emit s b).PinsOk := by
  unfold State.startCues
  split
  · exact he _ _ (he _ _ h)
  · exact he _ _ h

theorem pinsOk_takeCue (emit : StartCond → State → State)
    (he : ∀ c s, s.PinsOk → (emit c s).PinsOk) (c : StartCond) (s : State) (b : BankNo)
    (h : s.PinsOk) : (State.takeCue emit c s b).PinsOk := by
  unfold State.takeCue
  dsimp only
  repeat' split
  · exact pinsOk_startCues emit he _ b (pinsOk_startFrame s b _ _ h)
  · exact h
  · exact pinsOk_modSeq s b _ h
  · exact h

theorem pinsOk_offer (n : Nat) (c : StartCond) (s : State) (h : s.PinsOk) : (offer n c s).PinsOk := by
  induction n generalizing c s with
  | zero => exact h
  | succ n ih =>
    simp only [offer]
    exact pinsOk_takeCue _ ih _ _ _ (pinsOk_takeCue _ ih _ _ _ (pinsOk_takeCue _ ih _ _ _
      (pinsOk_takeCue _ ih _ _ _ h)))

theorem pinsOk_emit (s : State) (b : BankNo) (k : CueKind) (h : s.PinsOk) : (s.emit b k).PinsOk :=
  pinsOk_offer _ _ s h

theorem pinsOk_startOwn (s : State) (b : BankNo) (f : FrameCopy) (forced : Bool) (h : s.PinsOk) :
    (s.startOwn b f forced).PinsOk :=
  pinsOk_startCues _ (fun c s h => pinsOk_offer _ c s h) _ b (pinsOk_startFrame s b f forced h)

/-! ### The end of a plan -/

theorem pinsOk_endPlan (s : State) (b : BankNo) (plan : PlanState) (reason : StopReason)
    (h : s.PinsOk) : (s.endPlan b plan reason).PinsOk :=
  pinsOk_emit _ b _ (pinsOk_of_banks (banks_raise _ _) (pinsOk_refreshPins _ b
    (pinsOk_releaseGate _ b (pinsOk_modBank_rest _ b _ rfl (pinsOk_discardReads s b h)))))

theorem pinsOk_stopBank (s : State) (b : BankNo) (code : FrameState) (h : s.PinsOk) :
    (s.stopBank b code).PinsOk :=
  pinsOk_endPlan _ b _ _ (pinsOk_returnStaged _ b (pinsOk_retireLive s b _ h))

theorem pinsOk_haltBank (s : State) (b : BankNo) (bad : Option Selector) (h : s.PinsOk) :
    (s.haltBank b bad).PinsOk := by
  unfold State.haltBank
  dsimp only
  refine pinsOk_endPlan _ b _ _ ?_
  have h1 : ∀ t : State, t.PinsOk →
      (match (t.bank b).seq.staged with
        | some f => if bad = some f.sel then t else t.returnStaged b
        | none => t).PinsOk := by
    intro t ht
    repeat' split
    · exact ht
    · exact pinsOk_returnStaged t b ht
    · exact ht
  refine h1 _ ?_
  repeat' split
  · exact h
  · exact pinsOk_retireLive s b _ h
  · exact h

theorem pinsOk_writeFault (s : State) (b : BankNo) (sel : Selector) (field : Nat)
    (cls : FaultClass) (sub : Subcode) (h : s.PinsOk) : (s.writeFault b sel field cls sub).PinsOk := by
  unfold State.writeFault
  dsimp only
  have h1 := pinsOk_withholdWrites _ b sel (pinsOk_reportFault s b cls sub sel field .boundary h)
  split
  · exact pinsOk_haltBank _ b _ h1
  · exact h1

/-! ### Fetching -/

theorem pinsOk_fetchFrame (s : State) (b : BankNo) (role : Role) (sel : Selector) (h : s.PinsOk) :
    (s.fetchFrame b role sel).PinsOk := pinsOk_requestFrame _ b _ (pinsOk_modSeq s b _ h)

theorem pinsOk_failFetch (s : State) (b : BankNo) (role : Role) (h : s.PinsOk) :
    (s.failFetch b role).PinsOk := by
  have h1 := pinsOk_modSeq s b (fun q => { q with fetch := none }) h
  unfold State.failFetch
  dsimp only
  split
  · exact pinsOk_haltBank _ b _ h1
  · exact pinsOk_modSeq _ b _ h1

theorem pinsOk_fetchFault (s : State) (b : BankNo) (f : Fetch) (cls : FaultClass) (sub : Subcode)
    (field : Nat) (h : s.PinsOk) : (s.fetchFault b f cls sub field).PinsOk :=
  pinsOk_failFetch _ b _ (pinsOk_reportFault s b _ _ _ _ _ h)

theorem pinsOk_holdStaged (s : State) (b : BankNo) (f : FrameCopy) (h : s.PinsOk) :
    (s.holdStaged b f).PinsOk := pinsOk_modSeq s b _ h

theorem pinsOk_enterWaiting (s : State) (b : BankNo) (f : FrameCopy) (h : s.PinsOk) :
    (s.enterWaiting b f).PinsOk := pinsOk_refreshPins _ b (pinsOk_modBank_rest s b _ rfl h)

theorem pinsOk_stageFrame (s : State) (b : BankNo) (f : Fetch) (copy : FrameCopy) (h : s.PinsOk) :
    (s.stageFrame b f copy).PinsOk := by
  unfold State.stageFrame
  refine pinsOk_requestFrame _ b _ (pinsOk_modSeq _ b _ ?_)
  repeat' split
  · exact pinsOk_markSticky _ b _ (pinsOk_markSticky s b _ h)
  · exact pinsOk_markSticky s b _ h
  · exact pinsOk_markSticky s b _ h
  · exact h

theorem pinsOk_stagedIssued (s : State) (b : BankNo) (h : s.PinsOk) : (s.stagedIssued b).PinsOk := by
  unfold State.stagedIssued
  repeat' split
  · exact pinsOk_holdStaged s b _ h
  · exact pinsOk_startOwn _ b _ _ (pinsOk_holdStaged s b _ h)
  · exact pinsOk_enterWaiting _ b _ (pinsOk_holdStaged s b _ h)
  · exact h

theorem pinsOk_writeRejected (s : State) (b : BankNo) (sel : Selector) (clamped : Bool)
    (h : s.PinsOk) : (s.writeRejected b sel clamped).PinsOk := pinsOk_requestFrame s b _ h

theorem pinsOk_frameVerdict (s : State) (b : BankNo) (f : Fetch) (v : FrameVerdict) (h : s.PinsOk) :
    (s.frameVerdict b f v).PinsOk := by
  unfold State.frameVerdict
  split
  · exact pinsOk_stageFrame s b _ _ h
  · dsimp only
    refine pinsOk_fetchFault _ b f _ _ _ ?_
    repeat' split
    · exact pinsOk_writeRejected _ b _ _ (pinsOk_markSticky s b _ h)
    · exact pinsOk_writeRejected _ b _ _ h
    · exact pinsOk_markSticky s b _ h
    · exact h

theorem pinsOk_fetchEmpty (s : State) (b : BankNo) (role : Role) (h : s.PinsOk) :
    (s.fetchEmpty b role).PinsOk := by
  unfold State.fetchEmpty
  split
  · exact pinsOk_modSeq s b _ h
  · exact pinsOk_modSeq s b _ h

theorem pinsOk_judgeHeader (s : State) (b : BankNo) (f : Fetch) (hd : Header) (h : s.PinsOk) :
    (s.judgeHeader b f hd).PinsOk := by
  unfold State.judgeHeader
  split
  · exact pinsOk_fetchEmpty s b _ h
  · exact pinsOk_frameVerdict s b f _ h
  · split
    · exact pinsOk_frameVerdict s b f _ h
    · exact pinsOk_requestFrame _ b _ (pinsOk_modSeq s b _ h)

theorem pinsOk_judgeEntries (s : State) (b : BankNo) (f : Fetch) (hd : Header) (bs : List Byte)
    (h : s.PinsOk) : (s.judgeEntries b f hd bs).PinsOk := by
  unfold State.judgeEntries
  split
  · exact pinsOk_frameVerdict s b f _ h
  · exact h

theorem pinsOk_linkFault (s : State) (b : BankNo) (cls : FaultClass) (sub : Subcode)
    (h : s.PinsOk) : (s.linkFault b cls sub).PinsOk :=
  pinsOk_modSeq _ b _ (pinsOk_reportFault s b _ _ _ _ _ h)

theorem pinsOk_judgeLink (s : State) (b : BankNo) (link : Selector) (h : s.PinsOk) :
    (s.judgeLink b link).PinsOk := by
  have h1 := pinsOk_modSeq s b (fun q => q.recordLink link) h
  unfold State.judgeLink
  dsimp only
  repeat' split
  · exact h1
  · exact pinsOk_linkFault _ b _ _ h1
  · exact pinsOk_fetchFrame _ b _ _ (pinsOk_modSeq _ b _ h1)

theorem pinsOk_fetchHead (s : State) (b : BankNo) (h : s.PinsOk) : (s.fetchHead b).PinsOk := by
  unfold State.fetchHead
  dsimp only
  split
  · exact pinsOk_fetchFault s b _ _ _ _ h
  · exact pinsOk_fetchFrame s b _ _ h

/-! ### Checks -/

theorem pinsOk_accessFault (s : State) (b : BankNo) (a : FrameAccess) (cls : FaultClass)
    (sub : Subcode) (h : s.PinsOk) : (s.accessFault b a cls sub).PinsOk := by
  unfold State.accessFault
  split
  · split
    · exact pinsOk_fetchFault s b _ _ _ _ h
    · exact h
  · split
    · exact pinsOk_fetchFault s b _ _ _ _ h
    · exact h
  · split
    · exact pinsOk_linkFault s b _ _ h
    · exact h
  · exact pinsOk_writeFault s b _ _ _ _ h
  · exact pinsOk_writeFault s b _ _ _ _ h
  · exact h

theorem pinsOk_reqChecked (s : State) (b : BankNo) (r : FrameReq) (c : CheckResult)
    (h : s.PinsOk) : (s.reqChecked b r c).PinsOk := by
  unfold State.reqChecked
  split
  · exact pinsOk_modBank_rest s b _ rfl h
  · exact pinsOk_modBank_rest s b _ rfl h
  · exact pinsOk_accessFault _ b _ _ _ (pinsOk_modBank_rest s b _ rfl h)

theorem pinsOk_windowCheck (s : State) (b : BankNo) (a : FrameAccess) (index : Byte)
    (offset length : Nat) (write : Bool) (domain : Byte) (h : s.PinsOk) :
    (s.windowCheck (.bank b a) index offset length write domain).1.PinsOk := by
  unfold State.windowCheck
  repeat' split
  · exact h
  · exact h
  · exact h
  · exact pinsOk_modBank_rest _ b _ rfl h

theorem pinsOk_checkNext (s : State) (b : BankNo) (h : s.PinsOk) : (s.checkNext b).PinsOk := by
  unfold State.checkNext
  split
  · exact pinsOk_reqChecked _ b _ _ (pinsOk_windowCheck s b _ _ _ _ _ _ h)
  · exact h

theorem pinsOk_bankWaited (s : State) (b : BankNo) (a : FrameAccess) (d : Option Descriptor)
    (h : s.PinsOk) : (s.bankWaited b a d).PinsOk := by
  unfold State.bankWaited
  split
  · exact pinsOk_reqChecked s b _ _ h
  · exact pinsOk_accessFault _ b _ _ _ (pinsOk_modBank_rest s b _ rfl h)

/-! ### Passes and boundaries -/

theorem pinsOk_matchCue (s : State) (b : BankNo) (h : s.PinsOk) : (s.matchCue b).PinsOk := by
  unfold State.matchCue
  split
  · exact pinsOk_emit s b _ h
  · exact h

theorem pinsOk_advanceCounter (s : State) (b : BankNo) (count : Nat) (dir : Direction)
    (h : s.PinsOk) : (s.advanceCounter b count dir).PinsOk :=
  pinsOk_matchCue _ b (pinsOk_refreshPins _ b (pinsOk_modBank_rest s b _ rfl h))

theorem pinsOk_passEnd (s : State) (b : BankNo) (h : s.PinsOk) : (s.passEnd b).PinsOk :=
  pinsOk_releaseGate _ b (pinsOk_emit _ b _ (pinsOk_modBank_rest s b _ rfl h))

theorem pinsOk_nextPass (s : State) (b : BankNo) (h : s.PinsOk) : (s.nextPass b).PinsOk :=
  pinsOk_matchCue _ b (pinsOk_refreshPins _ b (pinsOk_readLink _ b
    (pinsOk_modBank_rest s b _ rfl h)))

theorem pinsOk_innerBoundary (s : State) (b : BankNo) (h : s.PinsOk) :
    (s.innerBoundary b).PinsOk := by
  have h1 := pinsOk_passEnd s b h
  unfold State.innerBoundary
  dsimp only
  split
  · exact pinsOk_stopBank _ b _ h1
  · exact pinsOk_nextPass _ b (pinsOk_modSeq _ b _ h1)

theorem pinsOk_late (s : State) (b : BankNo) (h : s.PinsOk) : (s.late b).PinsOk := by
  unfold State.late
  split
  · exact pinsOk_nextPass _ b (pinsOk_modSeq _ b _ (pinsOk_markSticky s b _ h))
  · exact pinsOk_haltBank _ b _ (pinsOk_retireLive _ b _ (pinsOk_reportFault s b _ _ _ _ _ h))

theorem pinsOk_takeSuccessor (s : State) (b : BankNo) (f : FrameCopy) (h : s.PinsOk) :
    (s.takeSuccessor b f).PinsOk := by
  have h1 := pinsOk_retireLive s b .spent h
  unfold State.takeSuccessor
  dsimp only
  split
  · exact pinsOk_startOwn _ b f _ h1
  · exact pinsOk_enterWaiting _ b f h1

theorem pinsOk_finalDecision (s : State) (b : BankNo) (v : Live) (h : s.PinsOk) :
    (s.finalDecision b v).PinsOk := by
  unfold State.finalDecision
  dsimp only
  split
  · exact pinsOk_takeSuccessor s b _ h
  · exact h
  · exact pinsOk_haltBank _ b _ (pinsOk_retireLive s b _ h)
  · exact pinsOk_late s b h
  · split
    · exact pinsOk_late s b h
    · split
      · exact pinsOk_nextPass _ b (pinsOk_modSeq _ b _ (pinsOk_modSeq s b _ h))
      · exact pinsOk_endPlan _ b _ _ (pinsOk_retireLive s b _ h)

theorem pinsOk_lastBoundary (s : State) (b : BankNo) (v : Live) (h : s.PinsOk) :
    (s.lastBoundary b v).PinsOk := by
  have h1 := pinsOk_passEnd s b h
  unfold State.lastBoundary
  dsimp only
  split
  · exact pinsOk_stopBank _ b _ h1
  · exact pinsOk_finalDecision _ b v h1

theorem pinsOk_cueTimeout (s : State) (b : BankNo) (f : FrameCopy) (h : s.PinsOk) :
    (s.cueTimeout b f).PinsOk := by
  have h1 := pinsOk_modSeq s b
    (fun q => { q with latch := .disarmed, awaited := none, timer := none }) h
  unfold State.cueTimeout
  dsimp only
  split
  · exact pinsOk_startOwn _ b f _ (pinsOk_markSticky _ b _ h1)
  · exact pinsOk_haltBank _ b _ (pinsOk_reportFault _ b _ _ _ _ _ h1)

end Sys2Proof.Machine
end

