-- ==== Sys2Proof/Laws/PinSteps.lean ====
section
/-! SUPPORT. The effects of whole commands on the pins: each keeps what R60 and R62 say of them. -/

namespace Sys2Proof.Machine

/-! ### The end of a step -/

theorem pinsOk_settle (n : Nat) (s : State) (h : s.PinsOk) : (settle n s).PinsOk := by
  induction n generalizing s with
  | zero => exact h
  | succ n ih =>
    unfold settle
    split
    · exact ih _ (pinsOk_checkNext s _ h)
    · split
      · exact ih _ (pinsOk_of_banks (banks_continueClose s _) h)
      · exact h

theorem pinsOk_concludeLight (before s : State) (h : s.PinsOk) : (before.concludeLight s).PinsOk :=
  pinsOk_of_banks (banks_concludeLight before s) h

theorem pinsOk_conclude (before s : State) (h : s.PinsOk) : (before.conclude s).PinsOk :=
  pinsOk_concludeLight _ _ (pinsOk_settle _ s h)

/-! ### Requests -/

theorem pinsOk_answer (s : State) (r : Result) (w : WaitFor) (h : s.PinsOk) :
    (s.answer r w).PinsOk := pinsOk_of_banks (banks_answer s r w) h

theorem pinsOk_bankStop (s : State) (now : Bool) (b : BankNo) (h : s.PinsOk) :
    (s.bankStop now b).PinsOk := by
  unfold State.bankStop
  dsimp only
  repeat' split
  · exact pinsOk_answer _ _ _ (pinsOk_stopBank s b _ h)
  · exact pinsOk_answer _ _ _ (pinsOk_modSeq s b _ h)
  · exact pinsOk_answer _ _ _ (pinsOk_stopBank s b _ h)
  · exact h

theorem pinsOk_bankLook (s : State) (b : BankNo) (h : s.PinsOk) : (s.bankLook b).PinsOk := by
  unfold State.bankLook
  repeat' split
  · exact pinsOk_answer _ _ _ (pinsOk_fetchHead s b h)
  · exact pinsOk_answer _ _ _ (pinsOk_readLink s b h)
  · exact h

theorem pinsOk_rearmManual (s : State) (b : BankNo) (h : s.PinsOk) : (s.rearmManual b).PinsOk := by
  have h1 := pinsOk_modGate s b (fun g => { g with swTrip := false }) h
  unfold State.rearmManual
  dsimp only
  repeat' split
  · exact h
  · exact pinsOk_modGate _ b _ h1
  · exact pinsOk_openGate _ b h1

theorem pinsOk_bankRearm (s : State) (b : BankNo) (h : s.PinsOk) : (s.bankRearm b).PinsOk := by
  unfold State.bankRearm
  dsimp only
  repeat' split
  · exact h
  · exact pinsOk_answer _ _ _ (pinsOk_judgeGate _ b (pinsOk_modGate s b _ h))
  · exact h
  · exact pinsOk_answer _ _ _ (pinsOk_rearmManual s b h)

theorem pinsOk_bankTrip (s : State) (b : BankNo) (h : s.PinsOk) : (s.bankTrip b).PinsOk :=
  pinsOk_answer _ _ _ (pinsOk_judgeGate _ b (pinsOk_modGate s b _ h))

theorem pinsOk_bankAck (s : State) (b : BankNo) (h : s.PinsOk) : (s.bankAck b).PinsOk :=
  pinsOk_answer _ _ _ (pinsOk_modSeq _ b _ (pinsOk_modFaults s b _ h))

/-- A level byte that passed its check has no pair with both pins ON (R62, R161). -/
theorem pairsOk_apart (levels : Byte) (h : pairsOk levels = true) (c : ChanNo) :
    (pinBit levels c false && pinBit levels c true) = false := by
  unfold pairsOk four at h
  simp only [List.all_cons, List.all_nil, Bool.and_true, Bool.and_eq_true, Bool.not_eq_true'] at h
  obtain ⟨h0, h1, h2, h3⟩ := h
  fin_cases c
  · exact h0
  · exact h1
  · exact h2
  · exact h3

/-- A record that passed its check has sound rest and trip levels. -/
theorem check_pairsOk {r : BankRecord} {auto : Bool} (h : r.check = some auto) :
    pairsOk r.rest = true ∧ pairsOk r.trip = true := by
  unfold BankRecord.check at h
  split at h
  · rename_i hc
    simp only [Bool.and_eq_true, decide_eq_true_eq] at hc
    exact ⟨hc.1.2, hc.2⟩
  · cases h

/-- Polarity, rest and trip levels of an accepted record keep a pair sound (R62 to R64). -/
theorem sound_configure (p : PinPair) (r : BankRecord) (c : ChanNo) (h : p.Sound)
    (hr : pairsOk r.rest = true) (ht : pairsOk r.trip = true) : (p.configure r c).Sound := by
  obtain ⟨h1, h2, h3, _, _⟩ := h
  exact ⟨h1, h2, h3, pairsOk_apart _ hr c, pairsOk_apart _ ht c⟩

theorem pinsOk_acceptStart (s : State) (b : BankNo) (r : BankRecord) (auto : Bool) (h : s.PinsOk)
    (hr : r.check = some auto) : (s.acceptStart b r auto).PinsOk := by
  obtain ⟨h1, h2⟩ := check_pairsOk hr
  unfold State.acceptStart
  refine pinsOk_fetchHead _ b (pinsOk_answer _ _ _ (pinsOk_refreshPins _ b (pinsOk_judgeGate _ b
    (pinsOk_modBank s b _ h fun c => ?_))))
  fin_cases c
  · exact sound_configure _ r 0 (h b 0) h1 h2
  · exact sound_configure _ r 1 (h b 1) h1 h2
  · exact sound_configure _ r 2 (h b 2) h1 h2
  · exact sound_configure _ r 3 (h b 3) h1 h2

theorem pinsOk_bankRecordArrived (s : State) (b : BankNo) (a : Option (List Byte)) (h : s.PinsOk) :
    (s.bankRecordArrived b a).PinsOk := by
  unfold State.bankRecordArrived
  split
  · exact h
  · split
    · exact h
    · split
      · exact h
      · rename_i auto hc
        split
        · exact pinsOk_acceptStart s b _ auto h hc
        · exact h

theorem pinsOk_lineRecordArrived (s : State) (l : LineNo) (a : Option (List Byte)) (h : s.PinsOk) :
    (s.lineRecordArrived l a).PinsOk := by
  unfold State.lineRecordArrived
  repeat' split
  · exact h
  · exact h
  · exact pinsOk_answer _ _ _ (pinsOk_judgeGates _ (pinsOk_of_banks (banks_requestLineStatus _ _) h))

/-! ### Time -/

theorem pinsOk_acceptEdge (s : State) (l : LineNo) (h : s.PinsOk) : (s.acceptEdge l).PinsOk := by
  unfold State.acceptEdge
  exact pinsOk_of_banks (banks_captureEdge _ _ _) (pinsOk_offer _ _ _ (pinsOk_judgeGates _
    (pinsOk_of_banks (banks_requestLineStatus _ _) h)))

theorem sound_tick (p : PinPair) (h : p.Sound) : (⟨p.primary.tick, p.partner.tick⟩ : PinPair).Sound :=
  h

theorem pinsOk_bank_tick (k : Bank) (h : k.PinsOk) : k.tick.PinsOk := by
  have hp : k.tick.wave.pins = k.wave.pins.map fun p => ⟨p.primary.tick, p.partner.tick⟩ := by
    unfold Bank.tick; dsimp only; repeat' split
    all_goals rfl
  intro c
  rw [hp]
  have hc := h c
  fin_cases c <;> exact sound_tick _ hc

/-- The same change made to every bank. -/
theorem pinsOk_map (q : Quad Bank) (f : Bank → Bank) (hf : ∀ k : Bank, k.PinsOk → (f k).PinsOk)
    (h : ∀ b, (q.get b).PinsOk) (b : BankNo) : ((q.map f).get b).PinsOk := by
  have := hf _ (h b)
  fin_cases b <;> exact this

theorem pinsOk_advanceTick (s : State) (h : s.PinsOk) : s.advanceTick.PinsOk := by
  unfold State.advanceTick
  split
  · exact h
  · exact pinsOk_map s.banks Bank.tick pinsOk_bank_tick h

theorem pinsOk_onDelay (s : State) (b : BankNo) (c : ChanNo) (partner : Bool) (h : s.PinsOk)
    (hd : (s.bank b).onDelayDone c partner = true) :
    (s.modWave b fun w => { w with pins := w.pins.set c ((w.pins.get c).turnOn partner) }).PinsOk := by
  refine pinsOk_modBank s b _ h fun i => ?_
  have hs : (((s.bank b).wave.pins.get c).turnOn partner).Sound := by
    obtain ⟨h1, h2, h3, h4, h5⟩ := h b c
    unfold Bank.onDelayDone at hd
    simp only [Bool.and_eq_true] at hd
    have hdes := hd.1.1.2
    cases partner
    · exact ⟨fun _ => hdes, h2, h3, h4, h5⟩
    · exact ⟨h1, fun _ => hdes, h3, h4, h5⟩
  by_cases hi : i = c
  · subst hi
    change (((s.bank b).wave.pins.set i _).get i).Sound
    rw [Quad.get_set_same]; exact hs
  · change (((s.bank b).wave.pins.set c _).get i).Sound
    rw [Quad.get_set_ne _ _ hi]; exact h b i

/-! ### Arrivals, responses and issues -/

theorem pinsOk_toFetch (s : State) (b : BankNo) (r : OutRead) (h : s.PinsOk) :
    (State.toFetch b r s).PinsOk := by
  unfold State.toFetch
  split
  · unfold State.fetchArrived
    split
    · exact pinsOk_modSeq s b _ h
    · exact pinsOk_fetchFault s b _ _ _ _ h
    · split
      · exact pinsOk_judgeHeader s b _ _ h
      · exact pinsOk_judgeEntries s b _ _ _ h
  · exact h

theorem pinsOk_linkArrived (s : State) (b : BankNo) (a : Option (List Byte)) (h : s.PinsOk) :
    (s.linkArrived b a).PinsOk := by
  unfold State.linkArrived
  repeat' split
  · exact pinsOk_linkFault s b _ _ h
  · exact pinsOk_judgeLink s b _ h
  · exact h

theorem pinsOk_loadDone (s : State) (x : Load) (d : Option Descriptor) (h : s.PinsOk) :
    (s.loadDone x d).PinsOk := by
  refine foldl_of (fun s r hs => ?_) _ _ h
  split
  · unfold State.waited
    split
    · exact pinsOk_bankWaited s _ _ d hs
    · exact pinsOk_of_banks (banks_journalWaited s _ d) hs
    · exact pinsOk_of_banks (banks_ringWaited s _ d) hs
  · exact hs

theorem pinsOk_requestLoad (s : State) (r : Requester) (index : Byte) (h : s.PinsOk) :
    (s.requestLoad r index).PinsOk := by
  unfold State.requestLoad
  split
  · exact pinsOk_modBank_rest s _ _ rfl h
  · exact h
  · exact h

theorem pinsOk_loadArrived (s : State) (index : Byte) (a : Option (List Byte)) (h : s.PinsOk) :
    (s.loadArrived index a).PinsOk := by
  unfold State.loadArrived
  dsimp only
  repeat' split
  · exact h
  · exact h
  · exact pinsOk_requestLoad _ _ _ h
  · exact pinsOk_loadDone _ _ _ h
  · exact pinsOk_loadDone _ _ _ h

theorem pinsOk_frameResponse (s : State) (b : BankNo) (sel : Selector) (retire : Bool)
    (next : Option FrameState) (w : OutWrite) (h : s.PinsOk) :
    (s.frameResponse b sel retire next w).PinsOk := by
  have h1 := pinsOk_modBank_rest s b (fun k => { k with halfError := false }) rfl h
  unfold State.frameResponse State.frameAnswered
  split
  · split
    · exact pinsOk_writeFault _ b _ _ _ _ h1
    · split
      · exact pinsOk_requestFrame _ b _ h1
      · exact h1
  · exact pinsOk_modBank_rest s b _ rfl h

theorem pinsOk_frameIssued (s : State) (b : BankNo) (a : FrameAccess) (h : s.PinsOk) :
    (s.frameIssued b a).PinsOk := by
  unfold State.frameIssued
  repeat' split
  · exact pinsOk_stagedIssued s b h
  · exact pinsOk_modSeq _ b _ h
  · exact h
  · exact h

theorem pinsOk_issueFrame (s : State) (b : BankNo) (a : FrameAccess) (addr : Nat) (second : Bool)
    (fate : Fate) (h : s.PinsOk) : (s.issueFrame b a addr second fate).PinsOk := by
  have h1 := pinsOk_of_banks (banks_sendFrame s b a addr second fate) h
  unfold State.issueFrame
  dsimp only
  split
  · exact pinsOk_frameIssued _ b a (pinsOk_modBank_rest _ b _ rfl h1)
  · exact pinsOk_modBank_rest _ b _ rfl h1

theorem pinsOk_issue (s : State) (fate : Fate) (g : Grant) (h : s.PinsOk) :
    (s.issue fate g).PinsOk := by
  unfold State.issue
  split
  · exact pinsOk_of_banks (banks_issueJournal s _ _ fate) h
  · exact pinsOk_issueFrame s _ _ _ _ fate h
  · exact pinsOk_of_banks (banks_issueClass3 s _ fate) h
  · exact h

/-! ### Engine Control -/

theorem pinsOk_reset : State.reset.PinsOk := by
  intro b c
  have hb : State.reset.bank b = Bank.reset := by fin_cases b <;> rfl
  have hc : Bank.reset.wave.pins.get c = ⟨Pin.reset, Pin.reset⟩ := by fin_cases c <;> rfl
  rw [hb, hc]
  simp [PinPair.Sound, Pin.Sound, Pin.reset]

theorem pinsOk_enterBooting (s : State) (h : s.PinsOk) : s.enterBooting.PinsOk := by
  have h1 : ∀ t : State, t.PinsOk → t.discardLoads.PinsOk :=
    fun t ht => pinsOk_map t.banks Bank.dropLoads (fun _ hk => hk) ht
  unfold State.enterBooting
  dsimp only
  split
  · exact h1 _ h
  · exact h1 _ h

theorem pinsOk_bootArrived (s : State) (a : Option (List Byte)) (h : s.PinsOk) :
    (s.bootArrived a).PinsOk := by
  unfold State.bootArrived
  repeat' split
  · exact h
  · exact pinsOk_of_banks (banks_announceOn _) h
  · exact h
  · exact h

theorem pinsOk_enterQuiescing (s : State) (h : s.PinsOk) : s.enterQuiescing.PinsOk := by
  unfold State.enterQuiescing
  dsimp only
  refine pinsOk_of_banks (banks_foldl _ (fun s j => ?_) _ _) (foldl_of (fun s b hs => ?_) _ _ ?_)
  · unfold State.quiesceJournal; split <;> simp
  · unfold State.quiesceBank; split
    · exact pinsOk_stopBank s b _ hs
    · exact hs
  · exact pinsOk_of_banks (banks_requestClass3 _ _) h

theorem pinsOk_writeRun (s : State) (value : Bool) (h : s.PinsOk) : (s.writeRun value).PinsOk := by
  unfold State.writeRun
  split
  · exact h
  · refine pinsOk_conclude _ _ ?_
    unfold State.runChanged
    split
    · exact pinsOk_enterBooting _ h
    · exact h
    · exact pinsOk_enterQuiescing _ h
    · exact h
    · exact h

theorem pinsOk_completeQuiesce (s : State) (fate : Fate) (h : s.PinsOk) :
    (s.completeQuiesce fate).PinsOk := by
  unfold State.completeQuiesce State.issueEngineStatus
  dsimp only
  repeat' split
  all_goals first
    | exact h
    | exact pinsOk_enterBooting _ h

theorem pinsOk_resetPin (s : State) (level : Bool) (h : s.PinsOk) : (s.resetPin level).PinsOk := by
  unfold State.resetPin
  split
  · exact h
  · exact pinsOk_reset

theorem pinsOk_offerWord (s : State) (w : Word) (h : s.PinsOk) : (s.offerWord w).PinsOk := by
  unfold State.offerWord
  repeat' split
  all_goals exact h

theorem pinsOk_writeRegister (s : State) (offset : Nat) (w : Word) (h : s.PinsOk) :
    (s.writeRegister offset w).PinsOk := by
  unfold State.writeRegister
  split
  · unfold State.writeControl; split
    · exact pinsOk_reset
    · exact pinsOk_writeRun s _ h
  · exact h
  · exact h
  · exact pinsOk_offerWord s w h
  all_goals exact h

end Sys2Proof.Machine
end

