-- ==== Sys2Proof/Laws/Reads.lean ====
section
/-! SUPPORT. The outstanding reads and writes: which operations leave them as they are, and what the
end of a plan and a write fault make of them. -/

namespace Sys2Proof.Machine

/-- The outstanding reads and writes. -/
def State.flight (s : State) : List OutRead × List OutWrite := (s.port.reads, s.port.writes)

theorem reads_of_flight {s t : State} (h : t.flight = s.flight) : t.port.reads = s.port.reads :=
  congrArg Prod.fst h

theorem writes_of_flight {s t : State} (h : t.flight = s.flight) : t.port.writes = s.port.writes :=
  congrArg Prod.snd h

/-! ### The updates by number -/

@[simp] theorem flight_modBank (s : State) (b : BankNo) (f : Bank → Bank) :
    (s.modBank b f).flight = s.flight := rfl
@[simp] theorem flight_modSeq (s : State) (b : BankNo) (f : Sequencer → Sequencer) :
    (s.modSeq b f).flight = s.flight := rfl
@[simp] theorem flight_modGate (s : State) (b : BankNo) (f : Gate → Gate) :
    (s.modGate b f).flight = s.flight := rfl
@[simp] theorem flight_modFaults (s : State) (b : BankNo) (f : FaultLogic → FaultLogic) :
    (s.modFaults b f).flight = s.flight := rfl
@[simp] theorem flight_modLine (s : State) (l : LineNo) (f : Line → Line) :
    (s.modLine l f).flight = s.flight := rfl
@[simp] theorem flight_modJournal (s : State) (j : JournalNo) (f : Journal → Journal) :
    (s.modJournal j f).flight = s.flight := rfl
@[simp] theorem flight_modSweep (s : State) (f : Sweep → Sweep) :
    (s.modSweep f).flight = s.flight := rfl
@[simp] theorem flight_modWindow (s : State) (f : WindowUnit → WindowUnit) :
    (s.modWindow f).flight = s.flight := rfl
@[simp] theorem flight_raise (s : State) (n : Nat) : (s.raise n).flight = s.flight := rfl

theorem flight_foldl {α : Type} (f : State → α → State) (h : ∀ s a, (f s a).flight = s.flight)
    (xs : List α) (s : State) : (xs.foldl f s).flight = s.flight := by
  induction xs generalizing s with
  | nil => rfl
  | cons a rest ih => rw [List.foldl_cons, ih, h]

/-! ### Requests -/

@[simp] theorem flight_requestFrame (s : State) (b : BankNo) (a : FrameAccess) :
    (s.requestFrame b a).flight = s.flight := rfl

@[simp] theorem flight_requestJournal (s : State) (j : JournalNo) (r : JournalReq) :
    (s.requestJournal j r).flight = s.flight := rfl

@[simp] theorem flight_requestStatusWord (s : State) (j : JournalNo) :
    (s.requestStatusWord j).flight = s.flight := by
  unfold State.requestStatusWord; split <;> simp

@[simp] theorem flight_requestClass3 (s : State) (c : Class3) :
    (s.requestClass3 c).flight = s.flight := by
  unfold State.requestClass3; split <;> rfl

@[simp] theorem flight_requestBankStatus (s : State) (b : BankNo) :
    (s.requestBankStatus b).flight = s.flight := by
  unfold State.requestBankStatus; split
  · exact (flight_requestClass3 _ _).trans rfl
  · rfl

@[simp] theorem flight_requestLineStatus (s : State) (l : LineNo) :
    (s.requestLineStatus l).flight = s.flight := by
  unfold State.requestLineStatus; split <;> simp

/-! ### Gates, pins and cues -/

@[simp] theorem flight_refreshPins (s : State) (b : BankNo) :
    (s.refreshPins b).flight = s.flight := rfl

@[simp] theorem flight_tripGate (s : State) (b : BankNo) : (s.tripGate b).flight = s.flight := rfl

@[simp] theorem flight_openGate (s : State) (b : BankNo) : (s.openGate b).flight = s.flight := rfl

@[simp] theorem flight_releaseGate (s : State) (b : BankNo) :
    (s.releaseGate b).flight = s.flight := by
  unfold State.releaseGate; dsimp only; generalize (_ && _ : Bool) = c
  cases c <;> simp

@[simp] theorem flight_judgeGate (s : State) (b : BankNo) : (s.judgeGate b).flight = s.flight := by
  unfold State.judgeGate; dsimp only; repeat' split
  all_goals simp

@[simp] theorem flight_judgeGates (s : State) : s.judgeGates.flight = s.flight := by
  simp [State.judgeGates]

@[simp] theorem flight_offer (n : Nat) (c : StartCond) (s : State) :
    (offer n c s).flight = s.flight := by
  simp [State.flight]

@[simp] theorem flight_emit (s : State) (b : BankNo) (k : CueKind) :
    (s.emit b k).flight = s.flight := flight_offer _ _ _

/-! ### The Plan Sequencer and Fault Logic -/

@[simp] theorem flight_reportFault (s : State) (b : BankNo) (cls : FaultClass) (sub : Subcode)
    (sel : Selector) (field : Nat) (phase : Phase) :
    (s.reportFault b cls sub sel field phase).flight = s.flight := by
  unfold State.reportFault State.markSticky; dsimp only; split <;> simp

@[simp] theorem flight_retireLive (s : State) (b : BankNo) (code : FrameState) :
    (s.retireLive b code).flight = s.flight := by
  unfold State.retireLive; split <;> simp

@[simp] theorem flight_returnStaged (s : State) (b : BankNo) :
    (s.returnStaged b).flight = s.flight := by
  unfold State.returnStaged; split <;> simp

/-- A plan that ends discards the bank's reads and touches no write (R32, R42, R43). -/
theorem flight_endPlan (s : State) (b : BankNo) (plan : PlanState) (reason : StopReason) :
    (s.endPlan b plan reason).flight = (s.port.reads.map (OutRead.discardFor b), s.port.writes) := by
  have h : (((((s.discardReads b).modBank b fun k =>
      { k with seq := k.seq.ended plan reason, wave := k.wave.atZero }).releaseGate b).refreshPins
      b).raise (causeBank b)).flight = (s.discardReads b).flight := by simp
  exact (flight_emit _ b .planEnd).trans h

/-- So does a stop. -/
theorem flight_stopBank (s : State) (b : BankNo) (code : FrameState) :
    (s.stopBank b code).flight = (s.port.reads.map (OutRead.discardFor b), s.port.writes) := by
  unfold State.stopBank
  have h : ((s.retireLive b code).returnStaged b).flight = s.flight := by simp
  rw [flight_endPlan, reads_of_flight h, writes_of_flight h]

/-- So does a halt. -/
theorem flight_haltBank (s : State) (b : BankNo) (bad : Option Selector) :
    (s.haltBank b bad).flight = (s.port.reads.map (OutRead.discardFor b), s.port.writes) := by
  unfold State.haltBank
  dsimp only
  have key : ∀ v : State, v.flight = s.flight → (v.endPlan b .halted .fault).flight =
      (s.port.reads.map (OutRead.discardFor b), s.port.writes) := fun v h => by
    rw [flight_endPlan, reads_of_flight h, writes_of_flight h]
  apply key
  repeat' split
  all_goals simp

@[simp] theorem flight_linkFault (s : State) (b : BankNo) (cls : FaultClass) (sub : Subcode) :
    (s.linkFault b cls sub).flight = s.flight := by
  simp [State.linkFault]

@[simp] theorem flight_linkArrived (s : State) (b : BankNo) (answer : Option (List Byte)) :
    (s.linkArrived b answer).flight = s.flight := by
  unfold State.linkArrived State.judgeLink State.fetchFrame; dsimp only; repeat' split
  all_goals simp

/-! ### Reads that stay -/

/-- The reads of a state that has led to another are all there, those of frames perhaps discarded. -/
def State.ReadsStay (s t : State) : Prop := t.ReadsAre s.port.reads

theorem OutRead.Kept.trans {r x y : OutRead} (h : r.Kept x) (k : x.Kept y) : r.Kept y := by
  rcases h with rfl | ⟨o, rfl⟩
  · exact k
  · rcases k with rfl | ⟨_, rfl⟩
    · exact .inr ⟨o, rfl⟩
    · exact .inr ⟨o, rfl⟩

theorem kept_discardFor (b : BankNo) (r : OutRead) : r.Kept (r.discardFor b) := by
  unfold OutRead.discardFor
  split
  · rename_i h
    simp only [Bool.or_eq_true, decide_eq_true_eq] at h
    exact .inr ⟨⟨b, by unfold OutRead.OfFrame; tauto⟩, rfl⟩
  · exact .inl rfl

theorem readsKept_trans {a b c : List OutRead} (h : List.Forall₂ OutRead.Kept a b)
    (k : List.Forall₂ OutRead.Kept b c) : List.Forall₂ OutRead.Kept a c := by
  induction h generalizing c with
  | nil => cases k; exact .nil
  | cons hr _ ih => cases k with
    | cons kr ks => exact .cons (hr.trans kr) (ih ks)

theorem State.ReadsStay.refl (s : State) : s.ReadsStay s :=
  List.forall₂_same.mpr fun _ _ => .inl rfl

theorem State.ReadsStay.trans {s t u : State} (h : s.ReadsStay t) (k : t.ReadsStay u) : s.ReadsStay u :=
  readsKept_trans h k

theorem State.ReadsStay.of_flight {s t : State} (h : t.flight = s.flight) : s.ReadsStay t := by
  unfold State.ReadsStay State.ReadsAre
  rw [reads_of_flight h]; exact State.ReadsStay.refl s

/-- The end of a plan, in flight. -/
theorem State.ReadsStay.of_ended {s t : State} {b : BankNo} {ws : List OutWrite}
    (h : t.flight = (s.port.reads.map (OutRead.discardFor b), ws)) : s.ReadsStay t := by
  have hr : t.port.reads = s.port.reads.map (OutRead.discardFor b) := congrArg Prod.fst h
  unfold State.ReadsStay State.ReadsAre
  rw [hr]
  generalize s.port.reads = rs
  induction rs with
  | nil => exact .nil
  | cons r rest ih => exact .cons (kept_discardFor b r) ih

/-- After the end of a plan the bank's reads are discarded. -/
theorem readsDiscarded_of_ended {s t : State} {b : BankNo} {ws : List OutWrite}
    (h : t.flight = (s.port.reads.map (OutRead.discardFor b), ws)) : t.ReadsDiscarded b := by
  have hr : t.port.reads = s.port.reads.map (OutRead.discardFor b) := congrArg Prod.fst h
  intro r hm ho
  rw [hr] at hm
  obtain ⟨x, _, rfl⟩ := List.mem_map.mp hm
  unfold OutRead.discardFor at ho ⊢
  split
  · rfl
  · rename_i hn
    rw [if_neg hn] at ho
    exact absurd ho (by unfold OutRead.OfFrame; simpa [not_or, and_assoc] using hn)

theorem readsDiscarded_of_flight {s t : State} {b : BankNo} (h : t.flight = s.flight)
    (hs : s.ReadsDiscarded b) : t.ReadsDiscarded b := by
  unfold State.ReadsDiscarded; rw [reads_of_flight h]; exact hs

/-- A read that is discarded stays so. -/
theorem readsDiscarded_of_stay {s t : State} {b : BankNo} (h : s.ReadsStay t)
    (hs : s.ReadsDiscarded b) : t.ReadsDiscarded b := by
  intro x hx ho
  unfold State.ReadsStay State.ReadsAre at h
  revert hs
  unfold State.ReadsDiscarded
  generalize s.port.reads = l at h
  intro hs
  generalize t.port.reads = m at h hx
  induction h with
  | nil => cases hx
  | @cons r y _ _ hk _ ih =>
    rcases List.mem_cons.mp hx with rfl | hx
    · rcases hk with rfl | ⟨_, rfl⟩
      · exact hs _ (by simp) ho
      · rfl
    · exact ih (fun r hr => hs r (List.mem_cons_of_mem _ hr)) hx

theorem State.ReadsStay.endPlan (s : State) (b : BankNo) (plan : PlanState) (reason : StopReason) :
    s.ReadsStay (s.endPlan b plan reason) := .of_ended (flight_endPlan s b plan reason)

theorem State.ReadsStay.stopBank (s : State) (b : BankNo) (code : FrameState) :
    s.ReadsStay (s.stopBank b code) := .of_ended (flight_stopBank s b code)

theorem State.ReadsStay.haltBank (s : State) (b : BankNo) (bad : Option Selector) :
    s.ReadsStay (s.haltBank b bad) := .of_ended (flight_haltBank s b bad)

theorem State.ReadsStay.failFetch (s : State) (b : BankNo) (role : Role) :
    s.ReadsStay (s.failFetch b role) := by
  unfold State.failFetch
  dsimp only
  split
  · exact State.ReadsStay.haltBank _ b none
  · exact .of_flight (by simp)

theorem State.ReadsStay.fetchFault (s : State) (b : BankNo) (f : Fetch) (cls : FaultClass) (sub : Subcode)
    (field : Nat) : s.ReadsStay (s.fetchFault b f cls sub field) :=
  (State.ReadsStay.of_flight (flight_reportFault _ _ _ _ _ _ _)).trans (State.ReadsStay.failFetch _ b f.role)

theorem State.ReadsStay.frameVerdict (s : State) (b : BankNo) (f : Fetch) (v : FrameVerdict) :
    s.ReadsStay (s.frameVerdict b f v) := by
  unfold State.frameVerdict
  dsimp only
  split
  · refine .of_flight ?_
    unfold State.stageFrame State.markSticky
    dsimp only
    repeat' split
    all_goals simp
  · refine (State.ReadsStay.of_flight ?_).trans (State.ReadsStay.fetchFault _ b f _ _ _)
    unfold State.writeRejected State.markSticky
    repeat' split
    all_goals simp

/-- A frame read that arrives. -/
theorem State.ReadsStay.fetchArrived (s : State) (b : BankNo) (f : Fetch) (r : OutRead) :
    s.ReadsStay (s.fetchArrived b f r) := by
  unfold State.fetchArrived
  split
  · exact .of_flight (by simp)
  · exact State.ReadsStay.fetchFault _ _ _ _ _ _
  · split
    · unfold State.judgeHeader
      split
      · refine .of_flight ?_
        unfold State.fetchEmpty; split <;> simp
      · exact State.ReadsStay.frameVerdict _ _ _ _
      · split
        · exact State.ReadsStay.frameVerdict _ _ _ _
        · exact .of_flight (by simp)
    · unfold State.judgeEntries
      split
      · exact State.ReadsStay.frameVerdict _ _ _ _
      · exact State.ReadsStay.refl _

/-! ### Write faults -/

theorem kept_withholdFor (b : BankNo) (sel : Selector) (w : OutWrite) :
    w.Kept (w.withholdFor b sel) := by
  unfold OutWrite.withholdFor
  split
  · rename_i c x next ho
    split
    · exact .inr ⟨c, x, next, ho, rfl⟩
    · exact .inl rfl
  · exact .inl rfl

/-- At a write fault the reads stay, and the writes but for what they held back (R107). -/
theorem flight_writeFault (s : State) (b : BankNo) (sel : Selector) (field : Nat) (cls : FaultClass)
    (sub : Subcode) : s.ReadsStay (s.writeFault b sel field cls sub) ∧
      (s.writeFault b sel field cls sub).WritesAre s.port.writes := by
  have key : ∀ u : State, u.flight = (s.port.reads, s.port.writes.map (OutWrite.withholdFor b sel)) →
      s.ReadsStay u ∧ u.WritesAre s.port.writes := by
    intro u hu
    have hr : u.port.reads = s.port.reads := congrArg Prod.fst hu
    have hw : u.port.writes = s.port.writes.map (OutWrite.withholdFor b sel) := congrArg Prod.snd hu
    unfold State.ReadsStay State.ReadsAre State.WritesAre
    rw [hr, hw]
    refine ⟨State.ReadsStay.refl s, ?_⟩
    generalize s.port.writes = ws
    induction ws with
    | nil => exact .nil
    | cons w rest ih => exact .cons (kept_withholdFor b sel w) ih
  have hm : ((s.reportFault b cls sub sel field .boundary).withholdWrites b sel).flight =
      (s.port.reads, s.port.writes.map (OutWrite.withholdFor b sel)) := by
    have h := flight_reportFault s b cls sub sel field .boundary
    have hr := reads_of_flight h
    have hw := writes_of_flight h
    show ((s.reportFault b cls sub sel field .boundary).port.reads,
      (s.reportFault b cls sub sel field .boundary).port.writes.map (OutWrite.withholdFor b sel)) = _
    rw [hr, hw]
  unfold State.writeFault
  dsimp only
  obtain ⟨k1, k2⟩ := key _ hm
  split
  · refine ⟨k1.trans (State.ReadsStay.haltBank _ b (some sel)), ?_⟩
    have hh := flight_haltBank ((s.reportFault b cls sub sel field .boundary).withholdWrites b sel) b
      (some sel)
    have hw : ∀ u v : State, u.flight = (v.port.reads.map (OutRead.discardFor b), v.port.writes) →
        u.port.writes = v.port.writes := fun u v h => congrArg Prod.snd h
    unfold State.WritesAre
    rw [hw _ _ hh]
    exact k2
  · exact ⟨k1, k2⟩

theorem State.ReadsStay.accessFault (s : State) (b : BankNo) (a : FrameAccess) (cls : FaultClass)
    (sub : Subcode) : s.ReadsStay (s.accessFault b a cls sub) := by
  unfold State.accessFault
  split
  iterate 2
    split
    · exact State.ReadsStay.fetchFault _ _ _ _ _ _
    · exact State.ReadsStay.refl _
  · split
    · exact .of_flight (by simp)
    · exact State.ReadsStay.refl _
  · exact (flight_writeFault _ _ _ _ _ _).1
  · exact (flight_writeFault _ _ _ _ _ _).1
  · exact State.ReadsStay.refl _

theorem State.ReadsStay.reqChecked (s : State) (b : BankNo) (r : FrameReq) (c : CheckResult) :
    s.ReadsStay (s.reqChecked b r c) := by
  unfold State.reqChecked
  split
  · exact .of_flight (by simp)
  · exact .of_flight (by simp)
  · exact (State.ReadsStay.of_flight (flight_modBank s b _)).trans (State.ReadsStay.accessFault _ _ _ _ _)

/-! ### The Journal Writer and the Window Unit -/

@[simp] theorem flight_answer (s : State) (r : Result) (w : WaitFor) :
    (s.answer r w).flight = s.flight := rfl

@[simp] theorem flight_answerLook (s : State) (j : JournalNo) (r : Result) :
    (s.answerLook j r).flight = s.flight := by
  unfold State.answerLook; repeat' split
  all_goals simp

@[simp] theorem flight_judgeWatermark (s : State) (j : JournalNo) :
    (s.judgeWatermark j).flight = s.flight := by
  unfold State.judgeWatermark; dsimp only; repeat' split
  all_goals simp

@[simp] theorem flight_countMissed (s : State) (j : JournalNo) (l : LineNo) :
    (s.countMissed j l).flight = s.flight := by
  simp [State.countMissed]

@[simp] theorem flight_faultJournal (s : State) (j : JournalNo) (f : JournalFault) (lost : Bool) :
    (s.faultJournal j f lost).flight = s.flight := by
  have h : ∀ u : State, (u.countHeld j).flight = u.flight := fun u =>
    flight_foldl _ (fun s l => by
      split
      · exact flight_countMissed s j l
      · rfl) _ _
  have k : ∀ u : State, u.flight = s.flight →
      (if (u.journal j).rereadInFlight then u else u.answerLook j .done : State).flight = s.flight := by
    intro u hu
    split
    · exact hu
    · rw [flight_answerLook, hu]
  exact k _ (by simp [h])

@[simp] theorem flight_judgeConsume (s : State) (j : JournalNo) (v : BitVec 16) :
    (s.judgeConsume j v).flight = s.flight := by
  unfold State.judgeConsume; split <;> simp

@[simp] theorem flight_endStep (s : State) (j : JournalNo) : (s.endStep j).flight = s.flight := by
  unfold State.endStep; dsimp only; split <;> simp

@[simp] theorem flight_recordChecked (s : State) (j : JournalNo) (p : StepPlan) (c : CheckResult) :
    (s.recordChecked j p c).flight = s.flight := by
  unfold State.recordChecked State.writeRecord; split <;> simp

@[simp] theorem flight_requestLoad (s : State) (r : Requester) (index : Byte) :
    (s.requestLoad r index).flight = s.flight := by
  unfold State.requestLoad; split <;> simp

@[simp] theorem flight_windowCheck (s : State) (r : Requester) (index : Byte) (offset length : Nat)
    (write : Bool) (domain : Byte) :
    (s.windowCheck r index offset length write domain).1.flight = s.flight := by
  unfold State.windowCheck; repeat' split
  all_goals simp

@[simp] theorem flight_checkRecord (s : State) (j : JournalNo) (p : StepPlan) :
    (s.checkRecord j p).flight = s.flight := by
  simp [State.checkRecord]

@[simp] theorem flight_missEvent (s : State) (j : JournalNo) (l : LineNo) :
    (s.missEvent j l).flight = s.flight := by
  unfold State.missEvent; split <;> simp

@[simp] theorem flight_planEvent (s : State) (j : JournalNo) (l : LineNo) :
    (s.planEvent j l).flight = s.flight := by
  unfold State.planEvent; dsimp only; repeat' split
  all_goals simp

@[simp] theorem flight_resumeStep (s : State) (j : JournalNo) (l : Option LineNo) :
    (s.resumeStep j l).flight = s.flight := by
  unfold State.resumeStep; repeat' split
  all_goals simp

/-- A consume value that arrives. -/
@[simp] theorem flight_rereadArrived (s : State) (j : JournalNo) (answer : Option (List Byte)) :
    (s.rereadArrived j answer).flight = s.flight := by
  unfold State.rereadArrived State.consumeError State.consumeArrived
  dsimp only
  repeat' split
  all_goals simp

/-- A record write that is answered. -/
@[simp] theorem flight_recordAnswered (s : State) (j : JournalNo) (error : Bool) :
    (s.recordAnswered j error).flight = s.flight := by
  unfold State.recordAnswered; dsimp only; repeat' split
  all_goals simp

@[simp] theorem flight_judgeLines (s : State) : s.judgeLines.flight = s.flight := by
  unfold State.judgeLines
  exact flight_foldl _ (fun s l => by
    unfold State.judgeArmed; repeat' split
    all_goals simp) _ _

@[simp] theorem flight_ringChecked (s : State) (j : JournalNo) (r : JournalRecord)
    (c : CheckResult) : (s.ringChecked j r c).flight = s.flight := by
  unfold State.ringChecked State.openJournal; repeat' split
  all_goals simp

/-! ### Arrivals of other reads -/

/-- An access that waited on a load. -/
theorem State.ReadsStay.waited (d : Option Descriptor) (s : State) (q : Requester) :
    s.ReadsStay (State.waited d s q) := by
  unfold State.waited
  split
  · unfold State.bankWaited
    split
    · exact State.ReadsStay.reqChecked _ _ _ _
    · exact (State.ReadsStay.of_flight (flight_modBank s _ _)).trans (State.ReadsStay.accessFault _ _ _ _ _)
  · refine .of_flight ?_
    unfold State.journalWaited; dsimp only; repeat' split
    all_goals simp
  · refine .of_flight ?_
    unfold State.ringWaited; repeat' split
    all_goals simp

/-- A descriptor load that arrives. -/
theorem State.ReadsStay.loadArrived (s : State) (n : Byte) (answer : Option (List Byte)) :
    s.ReadsStay (s.loadArrived n answer) := by
  have done : ∀ (u : State) (x : Load) (d : Option Descriptor), u.ReadsStay (u.loadDone x d) := by
    intro u x d
    unfold State.loadDone
    induction x.waiters generalizing u with
    | nil => exact State.ReadsStay.refl u
    | cons q rest ih =>
      rw [List.foldl_cons]
      refine State.ReadsStay.trans ?_ (ih _)
      split
      · exact State.ReadsStay.waited d u q
      · exact State.ReadsStay.refl u
  unfold State.loadArrived
  split
  · exact State.ReadsStay.refl s
  · dsimp only
    split
    · refine .of_flight ?_
      split <;> simp
    · split
      · exact (State.ReadsStay.of_flight (flight_modWindow s _)).trans (done _ _ _)
      · exact (State.ReadsStay.of_flight (s := s) rfl).trans (done _ _ _)

/-- A Bank Record that arrives. -/
theorem State.ReadsStay.bankRecordArrived (s : State) (b : BankNo) (answer : Option (List Byte)) :
    s.ReadsStay (s.bankRecordArrived b answer) := by
  have h : ∀ (u : State) (r : BankRecord) auto, u.ReadsStay (u.acceptStart b r auto) := by
    intro u r auto
    unfold State.acceptStart
    refine (State.ReadsStay.of_flight (t := (((u.modBank b fun k => k.accept r auto).judgeGate
      b).refreshPins b).answer .done .nothing) (by simp)).trans ?_
    unfold State.fetchHead
    dsimp only
    split
    · exact State.ReadsStay.fetchFault _ _ _ _ _ _
    · exact .of_flight (by simp [State.fetchFrame])
  unfold State.bankRecordArrived
  repeat' split
  all_goals first | exact h _ _ _ | exact .of_flight (by simp)

@[simp] theorem flight_lineRecordArrived (s : State) (l : LineNo) (answer : Option (List Byte)) :
    (s.lineRecordArrived l answer).flight = s.flight := by
  unfold State.lineRecordArrived State.loadLine; repeat' split
  all_goals simp

@[simp] theorem flight_journalRecordArrived (s : State) (j : JournalNo)
    (answer : Option (List Byte)) : (s.journalRecordArrived j answer).flight = s.flight := by
  unfold State.journalRecordArrived State.checkRing State.setPhase; dsimp only; repeat' split
  all_goals simp

@[simp] theorem flight_bootArrived (s : State) (answer : Option (List Byte)) :
    (s.bootArrived answer).flight = s.flight := by
  have hl : ∀ (u : State) l, (u.releaseLine l).flight = u.flight := fun u l => by
    unfold State.releaseLine; split <;> simp
  have ha : ∀ u : State, u.announceOn.flight = u.flight := fun u => by
    unfold State.announceOn
    rw [flight_foldl _ hl, flight_foldl _ flight_requestBankStatus, flight_requestClass3]
  unfold State.bootArrived State.enterOn State.anchorFault
  repeat' split
  all_goals first | rfl | (rw [ha]; rfl)

end Sys2Proof.Machine
end

