-- ==== Sys2Proof/Laws/Quiesce.lean ====
section
/-! SUPPORT. What ending a plan and beginning a close keep while the engine quiesces, and what a
capture edge keeps of its line. -/

namespace Sys2Proof.Machine

/-! ### Banks that no plan runs on -/

/-- The end of one bank's plan starts no other bank that is not waiting. -/
theorem inactive_endPlan (s : State) (b d : BankNo) (p : PlanState) (r : StopReason)
    (hp : p.isActive = false) (h : d = b ∨ (s.bank d).seq.plan.isActive = false) :
    ((s.endPlan b p r).bank d).seq.plan.isActive = false := by
  by_cases hd : d = b
  · subst hd; rw [seq_endPlan]; exact hp
  · have h := h.resolve_left hd
    unfold State.endPlan State.emit
    have e : ∀ t : State, t.bank d = s.bank d →
        (((t.releaseGate b).refreshPins b).raise (causeBank b)).bank d = s.bank d := by
      intro t ht
      rw [bank_raise]
      unfold State.refreshPins
      rw [bank_modBank_ne _ _ hd, other_releaseGate hd, ht]
    dsimp only
    rw [(relatched_offer _ _ _ d (by
      rw [e _ (by rw [bank_modBank_ne _ _ hd, other_discardReads hd])]
      intro hw; rw [hw] at h; simp [PlanState.isActive] at h)).plan]
    rw [e _ (by rw [bank_modBank_ne _ _ hd, other_discardReads hd])]
    exact h

/-- A bank the quiesce has reached has no plan, nor has one that had none. -/
theorem inactive_quiesceBank (s : State) (b d : BankNo)
    (h : d = b ∨ (s.bank d).seq.plan.isActive = false) :
    ((s.quiesceBank b).bank d).seq.plan.isActive = false := by
  unfold State.quiesceBank
  split
  · unfold State.stopBank
    apply inactive_endPlan _ _ _ _ _ rfl
    by_cases hd : d = b
    · exact Or.inl hd
    · right
      rw [other_returnStaged hd, other_retireLive hd]
      exact h.resolve_left hd
  · rename_i hn
    rcases h with rfl | h
    · simpa using hn
    · exact h

/-! ### Banks that a plan runs on -/

/-- A cue ends no plan. -/
theorem active_offer (n : Nat) (c : StartCond) (s : State) (b : BankNo)
    (h : (s.bank b).seq.plan.isActive = true) :
    ((offer n c s).bank b).seq.plan.isActive = true := by
  induction n generalizing c s with
  | zero => exact h
  | succ n ih =>
    have key : ∀ (c : StartCond) (s : State) (d : BankNo), (s.bank b).seq.plan.isActive = true →
        ((State.takeCue (offer n) c s d).bank b).seq.plan.isActive = true := by
      intro c s d h
      unfold State.takeCue
      dsimp only
      split
      · split
        · split
          · rename_i f _
            have hs : ((s.startFrame d f false).bank b).seq.plan.isActive = true := by
              by_cases hd : b = d
              · subst hd; rw [(startFrame_spec s b f false).2.1]; rfl
              · rw [bank_startFrame_ne _ _ _ hd]; exact h
            unfold State.startCues
            split
            · exact ih _ _ (ih _ _ hs)
            · exact ih _ _ hs
          · exact h
        · by_cases hd : b = d
          · subst hd; rw [bank_modSeq_same]; exact h
          · rw [bank_modSeq_ne _ _ hd]; exact h
      · exact h
    exact key _ _ _ (key _ _ _ (key _ _ _ (key _ _ _ h)))

/-- The bank has been stopped: what its plan's end leaves, its reads discarded (R42, R48). -/
def State.Stopped (s : State) (b : BankNo) : Prop :=
  (∃ q : Sequencer, (s.bank b).seq = q.ended .dormant .stopped) ∧ s.ReadsDiscarded b

/-- The stop of one bank leaves another stopped, or in a plan, where it was. -/
theorem stopped_quiesceBank_ne (s : State) {b d : BankNo} (hd : d ≠ b) :
    (s.Stopped d → (s.quiesceBank b).Stopped d) ∧
      ((s.bank d).seq.plan.isActive = true →
        ((s.quiesceBank b).bank d).seq.plan.isActive = true) := by
  unfold State.quiesceBank
  split
  · have e : ∃ v : State, v.bank d = s.bank d ∧ (s.stopBank b .cut).bank d
        = (offer cueDepth (.cue b .planEnd) v).bank d := by
      refine ⟨_, ?_, rfl⟩
      rw [bank_raise]
      unfold State.refreshPins
      rw [bank_modBank_ne _ _ hd, other_releaseGate hd, bank_modBank_ne _ _ hd,
        other_discardReads hd, other_returnStaged hd, other_retireLive hd]
    obtain ⟨v, hv, e⟩ := e
    refine ⟨fun h => ?_, fun h => ?_⟩
    · obtain ⟨⟨q, hq⟩, hr⟩ := h
      refine ⟨⟨q, ?_⟩, readsDiscarded_of_stay (.stopBank s b .cut) hr⟩
      rw [e, bank_offer_disarmed _ _ _ _ (by rw [hv, hq]; rfl), hv]; exact hq
    · rw [e]; exact active_offer _ _ _ _ (by rw [hv]; exact h)
  · exact ⟨id, id⟩

/-- The stop of a bank with a plan stops it. -/
theorem stopped_quiesceBank (s : State) (b : BankNo) (h : (s.bank b).seq.plan.isActive = true) :
    (s.quiesceBank b).Stopped b := by
  unfold State.quiesceBank
  rw [if_pos h]
  exact ⟨seq_stopBank s b .cut, readsDiscarded_of_ended (flight_stopBank s b .cut)⟩

/-- The quiesce stops every bank with a plan, also one that a stop before its own has started. -/
theorem stopped_quiesce (s : State) (b : BankNo) (h : (s.bank b).seq.plan.isActive = true) :
    (four.foldl State.quiesceBank s).Stopped b := by
  have key : ∀ (bs : List BankNo) (u : State),
      u.Stopped b ∨ ((u.bank b).seq.plan.isActive = true ∧ b ∈ bs) →
      (bs.foldl State.quiesceBank u).Stopped b := by
    intro bs
    induction bs with
    | nil => intro u hu; simpa using hu
    | cons c rest ih =>
      intro u hu
      rw [List.foldl_cons]
      apply ih
      by_cases hc : b = c
      · subst hc
        rcases hu with hu | ⟨hu, _⟩
        · left
          unfold State.quiesceBank
          obtain ⟨q, hq⟩ := hu.1
          rw [if_neg (by rw [hq]; exact Bool.false_ne_true)]; exact hu
        · exact .inl (stopped_quiesceBank u b hu)
      · obtain ⟨k1, k2⟩ := stopped_quiesceBank_ne u hc
        rcases hu with hu | ⟨hu, hm⟩
        · exact .inl (k1 hu)
        · exact .inr ⟨k2 hu, (List.mem_cons.mp hm).resolve_left hc⟩
  exact key four s (.inr ⟨h, by fin_cases b <;> decide⟩)

theorem journals_quiesceBank (s : State) (b : BankNo) : (s.quiesceBank b).journals = s.journals := by
  unfold State.quiesceBank
  split
  · exact journals_of_beside (by simp)
  · rfl

theorem sweep_quiesceBank (s : State) (b : BankNo) : (s.quiesceBank b).sweep = s.sweep := by
  unfold State.quiesceBank
  split
  · exact sweep_of_beside (by simp)
  · rfl

/-! ### Journals that close -/

/-- The start of a close marks its journal and touches no other. -/
theorem journal_beginClose (s : State) (j i : JournalNo) :
    (s.beginClose j).journal i =
      if i = j then { s.journal j with closing := true, lastGapDone := false }
      else s.journal i := by
  unfold State.beginClose
  have e (t : State) : t.judgeLines.journal i = t.journal i := by
    unfold State.journal; rw [(judgeLines_spec t).1.journals]
  rw [e]
  split
  · rename_i h; subst h; rw [journal_modJournal_same]
  · rename_i h; rw [journal_modJournal_ne _ _ h]

theorem banks_quiesceJournal (s : State) (j : JournalNo) :
    (s.quiesceJournal j).banks = s.banks := by
  unfold State.quiesceJournal State.beginClose
  split
  · rfl
  · exact (judgeLines_spec _).1.banks

theorem sweep_quiesceJournal (s : State) (j : JournalNo) :
    (s.quiesceJournal j).sweep = s.sweep := by
  unfold State.quiesceJournal State.beginClose
  split
  · rfl
  · exact (judgeLines_spec _).1.sweep

theorem window_quiesceJournal (s : State) (j : JournalNo) :
    (s.quiesceJournal j).window = s.window := by
  unfold State.quiesceJournal State.beginClose
  split
  · rfl
  · exact (judgeLines_spec _).1.window

/-- Lines judged afresh add class 3 requests and drop none. -/
theorem class3_judgeLines (s : State) :
    ∀ x ∈ s.port.class3, x ∈ s.judgeLines.port.class3 := by
  have one (t : State) (a : LineNo) : ∀ x ∈ t.port.class3, x ∈ (t.judgeArmed a).port.class3 := by
    intro x hx
    unfold State.judgeArmed State.requestLineStatus
    repeat' split
    all_goals first
      | exact hx
      | exact (more_requestClass3 _ _).mem x hx
  have all (l : List LineNo) (t : State) :
      ∀ x ∈ t.port.class3, x ∈ (l.foldl State.judgeArmed t).port.class3 := by
    induction l generalizing t with
    | nil => intro x hx; exact hx
    | cons a r ih => intro x hx; rw [List.foldl_cons]; exact ih _ x (one t a x hx)
  exact all eight s

theorem class3_quiesceJournal (s : State) (j : JournalNo) :
    ∀ x ∈ s.port.class3, x ∈ (s.quiesceJournal j).port.class3 := by
  intro x hx
  unfold State.quiesceJournal State.beginClose
  split
  · exact hx
  · exact class3_judgeLines _ x hx

/-! ### A capture edge -/

/-- The other lines, and what capture does not touch of this one. -/
structure LineKept (l : LineNo) (s t : State) : Prop where
  others : ∀ m, m ≠ l → t.line m = s.line m
  high : (t.line l).high = (s.line l).high
  run : (t.line l).run = (s.line l).run
  loaded : (t.line l).loaded = (s.line l).loaded
  sampleDue : (t.line l).sampleDue = (s.line l).sampleDue
  cfg : (t.line l).cfg = (s.line l).cfg

theorem LineKept.refl (l : LineNo) (s : State) : LineKept l s s :=
  ⟨fun _ _ => rfl, rfl, rfl, rfl, rfl, rfl⟩

theorem LineKept.trans {l : LineNo} {s t u : State} (h : LineKept l s t) (k : LineKept l t u) :
    LineKept l s u :=
  ⟨fun m hm => (k.others m hm).trans (h.others m hm), k.high.trans h.high, k.run.trans h.run,
    k.loaded.trans h.loaded, k.sampleDue.trans h.sampleDue, k.cfg.trans h.cfg⟩

theorem lineKept_setLine (s : State) (l : LineNo) (x : Line)
    (h : x.high = (s.line l).high ∧ x.run = (s.line l).run ∧ x.loaded = (s.line l).loaded ∧
      x.sampleDue = (s.line l).sampleDue ∧ x.cfg = (s.line l).cfg) :
    LineKept l s (s.setLine l x) :=
  ⟨fun m hm => line_setLine_ne _ _ hm, by rw [line_setLine_same]; exact h.1,
    by rw [line_setLine_same]; exact h.2.1, by rw [line_setLine_same]; exact h.2.2.1,
    by rw [line_setLine_same]; exact h.2.2.2.1,
    by rw [line_setLine_same]; exact h.2.2.2.2⟩

theorem lineKept_of_lines {l : LineNo} {s t : State} (h : t.lines = s.lines) : LineKept l s t := by
  have e (m : LineNo) : t.line m = s.line m := by unfold State.line; rw [h]
  exact ⟨fun m _ => e m, by rw [e], by rw [e], by rw [e], by rw [e], by rw [e]⟩

theorem lineKept_countMissed (s : State) (j : JournalNo) (l : LineNo) :
    LineKept l s (s.countMissed j l) := by
  unfold State.countMissed
  have h1 : LineKept l s (s.modJournal j fun x => { x with missed := x.missed + 1#32 }) :=
    lineKept_of_lines rfl
  have h2 := lineKept_setLine (s.modJournal j fun x => { x with missed := x.missed + 1#32 }) l
    { (s.modJournal j fun x => { x with missed := x.missed + 1#32 }).line l with holding := none }
    ⟨rfl, rfl, rfl, rfl, rfl⟩
  exact (h1.trans h2).trans (lineKept_of_lines (requestStatusWord_spec _ j).2.2.1)

theorem lineKept_loseEvent (s : State) (l : LineNo) : LineKept l s (s.loseEvent l) := by
  unfold State.loseEvent
  refine (lineKept_setLine s l { s.line l with
    sequence := (s.line l).sequence + 1#8, lost := true,
    overruns := satInc (s.line l).overruns } ⟨rfl, rfl, rfl, rfl, rfl⟩).trans ?_
  obtain ⟨q1, ⟨x, q2⟩, _⟩ := requestLineStatus_spec (s.setLine l { s.line l with
    sequence := (s.line l).sequence + 1#8, lost := true,
    overruns := satInc (s.line l).overruns }) l
  have q2 : ((s.modLine l fun x => { x with
      sequence := x.sequence + 1#8, lost := true,
      overruns := satInc x.overruns }).requestLineStatus l).line l = _ := q2
  exact ⟨q1, by rw [q2], by rw [q2], by rw [q2], by rw [q2], by rw [q2]⟩

/-- Capture leaves the other lines, and this line's filter, as they were. -/
theorem lineKept_captureEdge (s : State) (l : LineNo) (d : EdgeDir) :
    LineKept l s (s.captureEdge l d) := by
  have hc : ((s.line l).capture d s.now).line.high = (s.line l).high ∧
      ((s.line l).capture d s.now).line.run = (s.line l).run ∧
      ((s.line l).capture d s.now).line.loaded = (s.line l).loaded ∧
      ((s.line l).capture d s.now).line.sampleDue = (s.line l).sampleDue ∧
      ((s.line l).capture d s.now).line.cfg = (s.line l).cfg := by
    unfold Line.capture Line.stampEdge Line.widthEdge
    repeat' split
    all_goals exact ⟨rfl, rfl, rfl, rfl, rfl⟩
  have h1 := lineKept_setLine s l _ hc
  unfold State.captureEdge
  dsimp only
  split
  · split
    · exact h1
    · refine h1.trans ?_
      generalize s.setLine l ((s.line l).capture d s.now).line = u
      unfold State.putEvent
      split
      · unfold State.enterEvent
        dsimp only
        generalize Line.makeEvent _ _ _ _ _ _ = ev
        have h2 := lineKept_setLine u l { u.line l with
          sequence := (u.line l).sequence + 1#8, lost := false, holding := some ev }
          ⟨rfl, rfl, rfl, rfl, rfl⟩
        split
        · exact h2.trans (lineKept_countMissed _ _ _)
        · exact h2
      · exact lineKept_loseEvent u l
  · exact LineKept.refl l s

/-- Capture raises no cause. -/
theorem cause_captureEdge (s : State) (l : LineNo) (d : EdgeDir) :
    (s.captureEdge l d).cause = s.cause := by
  unfold State.captureEdge State.putEvent State.enterEvent
  dsimp only
  repeat' split
  all_goals first
    | rfl
    | exact (countMissed_spec _ _ _).2.2.2.2
    | (unfold State.loseEvent; rw [(requestLineStatus_spec _ _).2.2.2.1]; rfl)

end Sys2Proof.Machine
end

