-- ==== Sys2Proof/Laws/Rings.lean ====
section
/-! SUPPORT. What each operation does to the journals: which leave them alone, and that each keeps
what R134 says of an OPEN journal's ring (`State.RingsOk`). -/

namespace Sys2Proof.Machine

theorem ringsOk_of_journals {s t : State} (h : t.journals = s.journals) (hs : s.RingsOk) :
    t.RingsOk := by
  intro j; simp only [State.journal, h]; exact hs j

theorem ringsOk_of_beside {s t : State} (h : t.beside = s.beside) (hs : s.RingsOk) : t.RingsOk :=
  ringsOk_of_journals (journals_of_beside h) hs

/-- An update of one journal. -/
theorem ringsOk_modJournal (s : State) (j : JournalNo) (f : Journal → Journal) (hs : s.RingsOk)
    (hf : (f (s.journal j)).RingOk) : (s.modJournal j f).RingsOk := by
  intro i
  by_cases hi : i = j
  · subst hi; rw [journal_modJournal_same]; exact hf
  · rw [journal_modJournal_ne s f hi]; exact hs i

/-- The part of a journal that `RingOk` reads. -/
def Journal.ring (x : Journal) :=
  (x.state, x.step, x.produce, x.cached, x.capacity)

theorem ringOk_congr {x y : Journal} (h : y.ring = x.ring) (hx : x.RingOk) : y.RingOk := by
  simp only [Journal.ring, Prod.mk.injEq] at h
  obtain ⟨h1, h2, h3, h4, h5⟩ := h
  simp only [Journal.RingOk, Journal.unconsumed, h1, h2, h3, h4, h5] at hx ⊢
  exact hx

/-- An update of one journal that leaves its ring and step alone. -/
theorem ringsOk_modJournal_rest (s : State) (j : JournalNo) (f : Journal → Journal)
    (hf : (f (s.journal j)).ring = (s.journal j).ring) (hs : s.RingsOk) :
    (s.modJournal j f).RingsOk := ringsOk_modJournal s j f hs (ringOk_congr hf (hs j))

/-! ### Journals kept in their rings and steps -/

/-- Every journal has the same state, step, indices and capacity. -/
def SameRings (s t : State) : Prop := ∀ j, (t.journal j).ring = (s.journal j).ring

theorem SameRings.refl (s : State) : SameRings s s := fun _ => rfl

theorem SameRings.trans {s t u : State} (h1 : SameRings s t) (h2 : SameRings t u) : SameRings s u :=
  fun j => (h2 j).trans (h1 j)

theorem SameRings.ok {s t : State} (h : SameRings s t) (hs : s.RingsOk) : t.RingsOk :=
  fun j => ringOk_congr (h j) (hs j)

theorem sameRings_of_journals {s t : State} (h : t.journals = s.journals) : SameRings s t := by
  intro j; simp only [State.journal, h]

theorem sameRings_modJournal (s : State) (j : JournalNo) (f : Journal → Journal)
    (hf : (f (s.journal j)).ring = (s.journal j).ring) : SameRings s (s.modJournal j f) := by
  intro i
  by_cases hi : i = j
  · subst hi; rw [journal_modJournal_same]; exact hf
  · rw [journal_modJournal_ne s f hi]

theorem sameRings_foldl {α : Type} {f : State → α → State} (h : ∀ s a, SameRings s (f s a))
    (l : List α) (s : State) : SameRings s (l.foldl f s) := by
  induction l generalizing s with
  | nil => exact .refl s
  | cons a l ih => exact (h s a).trans (ih _)

theorem sameRings_requestJournal (s : State) (j : JournalNo) (r : JournalReq) :
    SameRings s (s.requestJournal j r) := sameRings_modJournal s j _ rfl

theorem sameRings_requestStatusWord (s : State) (j : JournalNo) :
    SameRings s (s.requestStatusWord j) := by
  unfold State.requestStatusWord; split
  · exact .refl s
  · exact sameRings_requestJournal s j _

theorem sameRings_requestClass3 (s : State) (c : Class3) : SameRings s (s.requestClass3 c) := by
  unfold State.requestClass3; split
  · exact .refl s
  · exact sameRings_of_journals rfl

theorem sameRings_requestBankStatus (s : State) (b : BankNo) :
    SameRings s (s.requestBankStatus b) := by
  unfold State.requestBankStatus; split
  · refine SameRings.trans (t := s.modPort fun p =>
      { p with statusAfter := p.statusAfter.set b (s.pendingWrites b) }) ?_
      (sameRings_requestClass3 _ _)
    exact sameRings_of_journals rfl
  · exact .refl s

theorem sameRings_requestLineStatus (s : State) (l : LineNo) : SameRings s (s.requestLineStatus l) := by
  unfold State.requestLineStatus; split
  · exact sameRings_requestClass3 s _
  · exact sameRings_of_journals rfl

theorem sameRings_judgeArmed (s : State) (l : LineNo) : SameRings s (s.judgeArmed l) := by
  unfold State.judgeArmed; repeat' split
  · exact .refl s
  · exact (sameRings_of_journals rfl).trans (sameRings_requestLineStatus _ _)
  · exact (sameRings_of_journals rfl).trans (sameRings_requestLineStatus _ _)

theorem sameRings_judgeLines (s : State) : SameRings s s.judgeLines :=
  sameRings_foldl sameRings_judgeArmed _ _

theorem sameRings_countMissed (s : State) (j : JournalNo) (l : LineNo) :
    SameRings s (s.countMissed j l) := by
  unfold State.countMissed
  exact ((sameRings_modJournal s j (fun x => { x with missed := x.missed + 1#32 }) rfl).trans
    (sameRings_of_journals rfl)).trans (sameRings_requestStatusWord _ _)

theorem sameRings_countHeld (s : State) (j : JournalNo) : SameRings s (s.countHeld j) := by
  refine sameRings_foldl (fun s l => ?_) _ _
  split
  · exact sameRings_countMissed s j l
  · exact .refl s

theorem sameRings_putEvent (s : State) (l : LineNo) (kind : EventKind) (value : BitVec 32)
    (saturated : Bool) : SameRings s (s.putEvent l kind value saturated) := by
  unfold State.putEvent State.enterEvent State.loseEvent
  dsimp only
  repeat' split
  · exact SameRings.trans (sameRings_of_journals rfl) (sameRings_countMissed _ _ _)
  · exact sameRings_of_journals rfl
  · exact SameRings.trans (sameRings_of_journals rfl) (sameRings_requestLineStatus _ _)

theorem sameRings_captureEdge (s : State) (l : LineNo) (d : EdgeDir) :
    SameRings s (s.captureEdge l d) := by
  unfold State.captureEdge
  dsimp only
  split
  · split
    · exact sameRings_of_journals rfl
    · exact SameRings.trans (sameRings_of_journals rfl) (sameRings_putEvent _ _ _ _ _)
  · exact .refl s

theorem sameRings_missEvent (s : State) (j : JournalNo) (l : LineNo) :
    SameRings s (s.missEvent j l) := by
  unfold State.missEvent; split
  · exact (sameRings_modJournal s j _ rfl).trans (sameRings_countMissed _ _ _)
  · exact .refl s

theorem sameRings_judgeWatermark (s : State) (j : JournalNo) : SameRings s (s.judgeWatermark j) := by
  unfold State.judgeWatermark
  dsimp only
  repeat' split
  · exact .refl s
  · exact (sameRings_modJournal s j (fun x => { x with watermarkFlag := true }) rfl).trans
      (sameRings_of_journals rfl)
  · exact sameRings_modJournal s j _ rfl

theorem sameRings_answerLook (s : State) (j : JournalNo) (r : Result) :
    SameRings s (s.answerLook j r) := by
  unfold State.answerLook; repeat' split
  all_goals exact sameRings_of_journals rfl

theorem sameRings_answerClose (s : State) (j : JournalNo) : SameRings s (s.answerClose j) := by
  unfold State.answerClose; repeat' split
  all_goals exact sameRings_of_journals rfl

theorem sameRings_requestReread (s : State) (j : JournalNo) : SameRings s (s.requestReread j) := by
  unfold State.requestReread; split
  · exact .refl s
  · exact (sameRings_modJournal s j _ rfl).trans (sameRings_requestJournal _ _ _)

theorem sameRings_requestLoad (s : State) (r : Requester) (index : Byte) :
    SameRings s (s.requestLoad r index) := by
  unfold State.requestLoad; split
  · exact sameRings_of_journals rfl
  · exact sameRings_requestJournal _ _ _
  · exact sameRings_requestJournal _ _ _

theorem sameRings_windowCheck (s : State) (r : Requester) (index : Byte) (offset length : Nat)
    (write : Bool) (domain : Byte) :
    SameRings s (s.windowCheck r index offset length write domain).1 := by
  unfold State.windowCheck; repeat' split
  · exact .refl s
  · exact sameRings_of_journals rfl
  · exact sameRings_of_journals rfl
  · exact SameRings.trans (sameRings_of_journals rfl) (sameRings_requestLoad _ _ _)

/-! ### The steps of a journal (R134 to R136) -/

theorem ringsOk_faultJournal (s : State) (j : JournalNo) (f : JournalFault) (lost : Bool)
    (h : s.RingsOk) : (s.faultJournal j f lost).RingsOk := by
  have key : ∀ t : State, t.RingsOk →
      (if (t.journal j).rereadInFlight then t else t.answerLook j .done).RingsOk := by
    intro t ht
    split
    · exact ht
    · exact (sameRings_answerLook t j _).ok ht
  unfold State.faultJournal
  dsimp only
  refine key _ ((sameRings_requestStatusWord _ _).ok (ringsOk_of_journals rfl
    ((sameRings_countHeld _ _).ok (ringsOk_modJournal s j _ h ?_))))
  exact ⟨fun ho => by simp at ho, fun _ => rfl⟩

theorem ringsOk_judgeConsume (s : State) (j : JournalNo) (v : BitVec 16) (h : s.RingsOk)
    (hi : (s.journal j).step.slots = 0) : (s.judgeConsume j v).RingsOk := by
  unfold State.judgeConsume
  split
  · rename_i hv
    refine (sameRings_judgeWatermark _ _).ok (ringsOk_modJournal s j _ h ⟨fun _ => ?_, (h j).2⟩)
    simp only [Journal.unconsumed, hi]
    omega
  · exact ringsOk_faultJournal s j _ _ h

theorem ringsOk_idle (s : State) (j : JournalNo) (h : s.RingsOk) :
    (s.modJournal j fun x => { x with step := .idle, held := none }).RingsOk := by
  refine ringsOk_modJournal s j _ h ⟨fun ho => ?_, fun _ => rfl⟩
  have := (h j).1 ho
  simp only [Journal.unconsumed, JournalStep.slots] at this ⊢
  omega

theorem ringsOk_endStep (s : State) (j : JournalNo) (h : s.RingsOk) : (s.endStep j).RingsOk := by
  have h1 := ringsOk_idle s j h
  unfold State.endStep
  dsimp only
  split
  · exact h1
  · refine (sameRings_answerLook _ _ _).ok (ringsOk_judgeConsume _ j _ h1 ?_)
    rw [journal_modJournal_same]; rfl

theorem ringsOk_recordChecked (s : State) (j : JournalNo) (p : StepPlan) (c : CheckResult)
    (h : s.RingsOk) (hp : (s.journal j).step.slots = p.slots) (ho : (s.journal j).state = .opened) :
    (s.recordChecked j p c).RingsOk := by
  unfold State.recordChecked
  split
  · refine (sameRings_requestJournal _ _ _).ok (ringsOk_modJournal s j _ h ⟨fun _ => ?_, fun hn => ?_⟩)
    · have := (h j).1 ho
      rw [hp] at this
      exact this
    · exact absurd ho hn
  · exact ringsOk_faultJournal s j _ _ h
  · exact h

theorem ringsOk_checkRecord (s : State) (j : JournalNo) (p : StepPlan) (h : s.RingsOk)
    (ho : (s.journal j).state = .opened)
    (hr : (s.journal j).unconsumed + p.slots ≤ (s.journal j).capacity) :
    (s.checkRecord j p).RingsOk := by
  have h1 : (s.modJournal j fun x => { x with step := .check p }).RingsOk :=
    ringsOk_modJournal s j _ h ⟨fun _ => hr, fun hn => absurd ho hn⟩
  unfold State.checkRecord
  dsimp only
  have hs := sameRings_windowCheck (s.modJournal j fun x => { x with step := .check p }) (.journal j)
    (s.journal j).window (s.journal j).slotOffset 16 true (s.journal j).domain
  have hj := hs j
  rw [journal_modJournal_same] at hj
  simp only [Journal.ring, Prod.mk.injEq] at hj
  refine ringsOk_recordChecked _ j p _ (hs.ok h1) ?_ ?_
  · rw [hj.2.1]; rfl
  · rw [hj.1]; exact ho

/-- What `RingOk` reads of a journal, kept by the updates between. -/
theorem ring_fields {x y : Journal} (h : y.ring = x.ring) :
    y.state = x.state ∧ y.step = x.step ∧ y.unconsumed = x.unconsumed ∧ y.capacity = x.capacity := by
  simp only [Journal.ring, Prod.mk.injEq] at h
  obtain ⟨h1, h2, h3, h4, h5⟩ := h
  exact ⟨h1, h2, by simp only [Journal.unconsumed, h3, h4], h5⟩

theorem ringsOk_planEvent (s : State) (j : JournalNo) (l : LineNo) (h : s.RingsOk)
    (ho : (s.journal j).state = .opened) : (s.planEvent j l).RingsOk := by
  have hu := (h j).1 ho
  unfold State.planEvent
  dsimp only
  split
  · exact ringsOk_endStep _ j ((sameRings_missEvent s j l).ok h)
  · rename_i h0
    have h0' : (s.journal j).capacity - (s.journal j).unconsumed ≠ 0 := h0
    split
    · exact ringsOk_checkRecord s j _ h ho (by simp only [StepPlan.slots]; omega)
    · split
      · exact ringsOk_checkRecord s j _ h ho (by simp only [StepPlan.slots]; omega)
      · rename_i h1
        have h1' : (s.journal j).capacity - (s.journal j).unconsumed ≠ 1 := h1
        exact ringsOk_checkRecord s j _ h ho (by simp only [StepPlan.slots]; omega)

theorem ringsOk_waitReread (s : State) (j : JournalNo) (l : Option LineNo) (h : s.RingsOk)
    (ho : (s.journal j).state = .opened) : (s.waitReread j l).RingsOk := by
  unfold State.waitReread
  refine (sameRings_requestReread _ _).ok (ringsOk_modJournal s j _ h ⟨fun _ => ?_, fun hn => absurd ho hn⟩)
  have := (h j).1 ho
  simp only [Journal.unconsumed, JournalStep.slots] at this ⊢
  omega

theorem ringsOk_beginStep (s : State) (j : JournalNo) (l : LineNo) (h : s.RingsOk)
    (ho : (s.journal j).state = .opened) : (s.beginStep j l).RingsOk := by
  unfold State.beginStep
  split
  · exact ringsOk_waitReread s j _ h ho
  · exact ringsOk_planEvent s j l h ho

theorem ringsOk_resumeStep (s : State) (j : JournalNo) (l : Option LineNo) (h : s.RingsOk)
    (ho : (s.journal j).state = .opened) : (s.resumeStep j l).RingsOk := by
  have hu := (h j).1 ho
  unfold State.resumeStep
  split
  · exact ringsOk_planEvent s j _ h ho
  · split
    · exact ringsOk_endStep s j h
    · rename_i h0
      have h0' : (s.journal j).capacity - (s.journal j).unconsumed ≠ 0 := h0
      exact ringsOk_checkRecord s j _ h ho (by simp only [StepPlan.slots]; omega)

/-! ### Closing and opening -/

theorem ringsOk_finishClose (s : State) (j : JournalNo) (h : s.RingsOk)
    (hi : (s.journal j).step = .idle) : (s.finishClose j).RingsOk := by
  unfold State.finishClose
  exact (sameRings_answerClose _ _).ok ((sameRings_requestStatusWord _ _).ok
    (ringsOk_modJournal s j _ h ⟨fun hc => by simp at hc, fun _ => hi⟩))

theorem ringsOk_continueClose (s : State) (j : JournalNo) (h : s.RingsOk)
    (hi : (s.journal j).step = .idle) : (s.continueClose j).RingsOk := by
  unfold State.continueClose
  dsimp only
  split
  · rename_i ho
    have hu := (h j).1 ho
    split
    · exact ringsOk_beginStep s j _ h ho
    · split
      · exact ringsOk_finishClose s j h hi
      · have h1 : (s.modJournal j fun x => { x with lastGapDone := true }).RingsOk :=
          ringsOk_modJournal_rest s j _ rfl h
        have ho1 : ((s.modJournal j fun x => { x with lastGapDone := true }).journal j).state
            = .opened := by rw [journal_modJournal_same]; exact ho
        split
        · exact ringsOk_waitReread _ j _ h1 ho1
        · rename_i h0
          have h0' : (s.journal j).capacity - (s.journal j).unconsumed ≠ 0 := h0
          refine ringsOk_checkRecord _ j _ h1 ho1 ?_
          rw [journal_modJournal_same]
          simp only [StepPlan.slots]
          change (s.journal j).unconsumed + 1 ≤ (s.journal j).capacity
          omega
  · have hs := sameRings_countHeld s j
    refine ringsOk_finishClose _ j (hs.ok h) ?_
    rw [(ring_fields (hs j)).2.1]; exact hi

theorem ringsOk_closeReady {s : State} {j : JournalNo} (h : s.closeReady j = true) :
    (s.journal j).step = .idle := by
  unfold State.closeReady at h
  simp only [Bool.and_eq_true, decide_eq_true_eq] at h
  exact h.1.2

theorem sameRings_beginClose (s : State) (j : JournalNo) : SameRings s (s.beginClose j) :=
  (sameRings_modJournal s j (fun x => { x with closing := true, lastGapDone := false }) rfl).trans
    (sameRings_judgeLines _)

theorem ringsOk_openJournal (s : State) (j : JournalNo) (r : JournalRecord) (h : s.RingsOk)
    (hi : (s.journal j).step = .idle) : (s.openJournal j r).RingsOk := by
  unfold State.openJournal
  refine ringsOk_of_journals rfl ((sameRings_judgeLines _).ok ((sameRings_requestStatusWord _ _).ok
    ((sameRings_requestJournal _ _ _).ok (ringsOk_modJournal s j _ h ⟨fun _ => ?_, fun hn => ?_⟩))))
  · simp [Journal.openWith, Journal.unconsumed, hi, JournalStep.slots]
  · simp [Journal.openWith] at hn

theorem ringsOk_ringChecked (s : State) (j : JournalNo) (r : JournalRecord) (c : CheckResult)
    (h : s.RingsOk) : (s.ringChecked j r c).RingsOk := by
  unfold State.ringChecked
  split
  · exact h
  · split
    · rename_i hc
      simp only [Bool.and_eq_true, decide_eq_true_eq] at hc
      exact ringsOk_openJournal s j r h ((h j).2 (by rw [hc.2]; simp))
    · exact h
  · exact h

/-! ### Arrivals and issues -/

theorem opened_of_step {s : State} {j : JournalNo} (h : s.RingsOk)
    (hs : (s.journal j).step ≠ .idle) : (s.journal j).state = .opened := by
  by_contra hc; exact hs ((h j).2 hc)

theorem ringsOk_consumeArrived (s : State) (j : JournalNo) (v : BitVec 16) (h : s.RingsOk) :
    (s.consumeArrived j v).RingsOk := by
  unfold State.consumeArrived
  dsimp only
  split
  · split
    · rename_i hi
      exact (sameRings_answerLook _ _ _).ok (ringsOk_judgeConsume s j v h (by rw [hi]; rfl))
    · rename_i l hl
      have h1 := (sameRings_answerLook _ j .done).ok (ringsOk_judgeConsume s j v h (by rw [hl]; rfl))
      split
      · rename_i ho; exact ringsOk_resumeStep _ j l h1 ho
      · exact h1
    · exact ringsOk_modJournal_rest s j _ rfl h
  · exact (sameRings_answerLook s j _).ok h

theorem ringsOk_consumeError (s : State) (j : JournalNo) (h : s.RingsOk) :
    (s.consumeError j).RingsOk := by
  have h1 : ((s.raise causePort).answerLook j .refusedPort).RingsOk :=
    (sameRings_answerLook _ _ _).ok (ringsOk_of_journals rfl h)
  unfold State.consumeError
  dsimp only
  split
  · exact ringsOk_endStep _ j ((sameRings_missEvent _ _ _).ok h1)
  · exact ringsOk_endStep _ j h1
  · exact h1

theorem ringsOk_rereadArrived (s : State) (j : JournalNo) (a : Option (List Byte)) (h : s.RingsOk) :
    (s.rereadArrived j a).RingsOk := by
  have h1 : (s.modJournal j fun x => { x with rereadInFlight := false }).RingsOk :=
    ringsOk_modJournal_rest s j _ rfl h
  unfold State.rereadArrived
  split
  · exact ringsOk_consumeError _ j h1
  · exact ringsOk_consumeArrived _ j _ h1

theorem ringsOk_recordAnswered (s : State) (j : JournalNo) (error : Bool) (h : s.RingsOk) :
    (s.recordAnswered j error).RingsOk := by
  unfold State.recordAnswered
  split
  · rename_i p hp
    split
    · exact ringsOk_faultJournal s j _ _ h
    · dsimp only
      refine (sameRings_requestJournal _ _ _).ok ((sameRings_judgeWatermark _ _).ok
        (ringsOk_modJournal s j _ h ⟨fun ho => ?_, fun hn => ?_⟩))
      · have hu := (h j).1 ho
        simp only [Journal.unconsumed, hp, JournalStep.slots] at hu ⊢
        have hpos : 0 < p.slots := by cases p <;> simp [StepPlan.slots]
        have : ((s.journal j).produce + 1#16 - (s.journal j).cached).toNat
            ≤ ((s.journal j).produce - (s.journal j).cached).toNat + 1 := by
          have : (s.journal j).produce + 1#16 - (s.journal j).cached
              = (s.journal j).produce - (s.journal j).cached + 1#16 := by ring
          rw [this, BitVec.toNat_add]
          exact Nat.mod_le _ _
        omega
      · exact absurd (opened_of_step h (by rw [hp]; simp)) hn
  · exact h

theorem ringsOk_recordResponse (s : State) (j : JournalNo) (w : OutWrite) (h : s.RingsOk) :
    (s.recordResponse j w).RingsOk := by
  unfold State.recordResponse
  split
  · exact ringsOk_recordAnswered _ j _ (ringsOk_modJournal_rest s j _ rfl h)
  · exact ringsOk_modJournal_rest s j _ rfl h

theorem ringsOk_produceIssued (s : State) (j : JournalNo) (h : s.RingsOk) :
    (s.produceIssued j).RingsOk := by
  unfold State.produceIssued
  split
  · rename_i l hp
    have ho := opened_of_step h (j := j) (by rw [hp]; simp)
    have hu := (h j).1 ho
    rw [hp] at hu
    exact ringsOk_checkRecord s j _ h ho (by simpa [JournalStep.slots, StepPlan.slots] using hu)
  · exact ringsOk_endStep s j h
  · exact h

theorem sameRings_recordIssued (s : State) (j : JournalNo) (p : StepPlan) :
    SameRings s (s.recordIssued j p) := by
  unfold State.recordIssued
  split
  · exact sameRings_of_journals rfl
  · exact sameRings_modJournal s j _ rfl
  · exact (sameRings_modJournal s j _ rfl).trans (sameRings_missEvent _ _ _)
  · exact sameRings_modJournal s j _ rfl

theorem ringsOk_journalWaited (s : State) (j : JournalNo) (d : Option Descriptor) (h : s.RingsOk) :
    (s.journalWaited j d).RingsOk := by
  unfold State.journalWaited
  dsimp only
  split
  · rename_i p hp
    split
    · exact ringsOk_recordChecked s j p _ h (by rw [hp]; rfl) (opened_of_step h (by rw [hp]; simp))
    · exact ringsOk_faultJournal s j _ _ h
  · exact h

theorem ringsOk_issueJournal (s : State) (j : JournalNo) (r : JournalReq) (fate : Fate)
    (h : s.RingsOk) : (s.issueJournal j r fate).RingsOk := by
  have h0 : ∀ (t : State) (r : JournalReq), t.RingsOk → (t.popJournal j r).RingsOk :=
    fun t _ ht => ringsOk_modJournal_rest t j _ rfl ht
  unfold State.issueJournal
  cases r with
  | load n => exact ringsOk_of_journals rfl (h0 s _ h)
  | reread => exact ringsOk_of_journals rfl (h0 s _ h)
  | produceWord v => exact ringsOk_produceIssued _ j (ringsOk_of_journals rfl (h0 s _ h))
  | statusWord => exact ringsOk_of_journals rfl (h0 s _ h)
  | record addr second =>
    dsimp only
    split
    · split
      · exact (sameRings_recordIssued _ _ _).ok (ringsOk_of_journals rfl (h0 s _ h))
      · exact ringsOk_of_journals rfl (ringsOk_modJournal_rest s j
          (fun x => { x with fifo := x.fifo.replace (.record addr second) (.record addr true) })
          rfl h)
    · exact ringsOk_of_journals rfl (h0 s _ h)

end Sys2Proof.Machine
end

