-- ==== Sys2Proof/Laws/RingSteps.lean ====
section
/-! SUPPORT. The effects of whole commands on the journals: each keeps what R134 says of an OPEN
journal's ring. -/

namespace Sys2Proof.Machine

/-! ### The end of a step -/

theorem ringsOk_settle (n : Nat) (s : State) (h : s.RingsOk) : (settle n s).RingsOk := by
  induction n generalizing s with
  | zero => exact h
  | succ n ih =>
    unfold settle
    split
    · exact ih _ (ringsOk_of_beside (beside_checkNext s _) h)
    · split
      · rename_i j hj
        have hr : s.closeReady j = true := by
          unfold State.journalToClose at hj
          exact (List.find?_some hj)
        exact ih _ (ringsOk_continueClose s j h (ringsOk_closeReady hr))
      · exact h

theorem sameRings_concludeLight (before s : State) : SameRings s (before.concludeLight s) := by
  have hn : ∀ t b, SameRings t (before.noteBank t b) := by
    intro t b
    unfold State.noteBank
    split
    · exact .refl t
    · exact sameRings_requestBankStatus t b
  have h1 : SameRings s (before.noteStatuses s) :=
    (((hn s 0).trans (hn _ 1)).trans (hn _ 2)).trans (hn _ 3)
  refine h1.trans ?_
  unfold State.concludeLight State.offerReply
  repeat' split
  · exact SameRings.trans (sameRings_of_journals rfl) (sameRings_requestClass3 _ _)
  · exact .refl _
  · exact .refl _
  · exact .refl _

theorem ringsOk_concludeLight (before s : State) (h : s.RingsOk) : (before.concludeLight s).RingsOk :=
  (sameRings_concludeLight before s).ok h

theorem ringsOk_conclude (before s : State) (h : s.RingsOk) : (before.conclude s).RingsOk :=
  ringsOk_concludeLight _ _ (ringsOk_settle _ s h)

/-! ### Requests -/

theorem ringsOk_answer (s : State) (r : Result) (w : WaitFor) (h : s.RingsOk) :
    (s.answer r w).RingsOk := ringsOk_of_journals rfl h

theorem journals_answer (s : State) (r : Result) (w : WaitFor) :
    (s.answer r w).journals = s.journals := rfl

theorem journals_stopNow (s : State) (b : BankNo) : (s.stopNow b).journals = s.journals := by
  unfold State.stopNow
  rw [journals_answer]; exact journals_of_beside (beside_stopBank s b _)

theorem journals_bankStop (s : State) (now : Bool) (b : BankNo) :
    (s.bankStop now b).journals = s.journals := by
  unfold State.bankStop
  dsimp only
  repeat' split
  · exact journals_stopNow s b
  · rw [journals_answer]; exact journals_of_beside (beside_modSeq s b _)
  · exact journals_stopNow s b
  · rfl

theorem journals_bankLook (s : State) (b : BankNo) : (s.bankLook b).journals = s.journals := by
  unfold State.bankLook
  repeat' split
  · rw [journals_answer]; exact journals_of_beside (beside_fetchHead s b)
  · rw [journals_answer]; exact journals_of_beside (beside_readLink s b)
  · rfl

theorem journals_bankRearm (s : State) (b : BankNo) : (s.bankRearm b).journals = s.journals := by
  unfold State.bankRearm
  dsimp only
  repeat' split
  · rfl
  · rw [journals_answer, journals_of_beside (beside_judgeGate _ b)]; rfl
  · rfl
  · rw [journals_answer]
    unfold State.rearmManual
    dsimp only
    repeat' split
    · rfl
    · rfl
    · exact journals_of_beside (beside_openGate _ b)

theorem journals_bankTrip (s : State) (b : BankNo) : (s.bankTrip b).journals = s.journals := by
  unfold State.bankTrip
  rw [journals_answer, journals_of_beside (beside_judgeGate _ b)]
  rfl

theorem journals_acceptStart (s : State) (b : BankNo) (r : BankRecord) (auto : Bool) :
    (s.acceptStart b r auto).journals = s.journals := by
  unfold State.acceptStart
  rw [journals_of_beside (beside_fetchHead _ b), journals_answer, journals_of_beside (beside_refreshPins _ b),
    journals_of_beside (beside_judgeGate _ b)]
  rfl

theorem ringsOk_bankRecordArrived (s : State) (b : BankNo) (a : Option (List Byte)) (h : s.RingsOk) :
    (s.bankRecordArrived b a).RingsOk := by
  unfold State.bankRecordArrived
  split
  · exact h
  · split
    · exact h
    · split
      · exact h
      · split
        · exact ringsOk_of_journals (journals_acceptStart s b _ _) h
        · exact h

theorem ringsOk_lineRecordArrived (s : State) (l : LineNo) (a : Option (List Byte)) (h : s.RingsOk) :
    (s.lineRecordArrived l a).RingsOk := by
  unfold State.lineRecordArrived
  repeat' split
  · exact h
  · exact h
  · refine ringsOk_answer _ _ _ (ringsOk_of_beside (beside_judgeGates _)
      (SameRings.ok (sameRings_requestLineStatus _ _) (ringsOk_of_journals rfl h)))

theorem ringsOk_journalRecordArrived (s : State) (j : JournalNo) (a : Option (List Byte))
    (h : s.RingsOk) : (s.journalRecordArrived j a).RingsOk := by
  unfold State.journalRecordArrived
  split
  · exact h
  · split
    · exact h
    · split
      · exact ringsOk_ringChecked _ j _ _ ((sameRings_windowCheck _ _ _ _ _ _ _).ok
          (ringsOk_of_journals rfl h))
      · exact h

theorem ringsOk_journalClose (s : State) (j : JournalNo) (h : s.RingsOk) :
    (s.journalClose j).RingsOk := by
  unfold State.journalClose
  split
  · exact h
  · exact (sameRings_beginClose _ j).ok (ringsOk_of_journals rfl h)

theorem ringsOk_journalLook (s : State) (j : JournalNo) (h : s.RingsOk) :
    (s.journalLook j).RingsOk := by
  unfold State.journalLook
  split
  · exact h
  · exact h
  · exact (sameRings_requestReread _ j).ok (ringsOk_of_journals rfl h)

/-! ### Time -/

theorem ringsOk_acceptEdge (s : State) (l : LineNo) (h : s.RingsOk) : (s.acceptEdge l).RingsOk := by
  unfold State.acceptEdge
  exact (sameRings_captureEdge _ _ _).ok (ringsOk_of_beside (beside_offerEdge _ _ _)
    (ringsOk_of_beside (beside_judgeGates _) ((sameRings_requestLineStatus _ _).ok
      (ringsOk_of_journals rfl h))))

theorem ringsOk_stepDue (s : State) (j : JournalNo) (l : LineNo) (h : s.RingsOk)
    (hd : s.stepDue j = some l) : (s.beginStep j l).RingsOk := by
  refine ringsOk_beginStep s j l h ?_
  unfold State.stepDue at hd
  dsimp only at hd
  split at hd
  · rename_i hc
    simp only [Bool.and_eq_true, decide_eq_true_eq] at hc
    exact hc.1.1
  · cases hd

/-! ### Arrivals, responses and issues -/

theorem beside_toFetch (s : State) (b : BankNo) (r : OutRead) :
    (State.toFetch b r s).beside = s.beside := by
  unfold State.toFetch State.fetchArrived
  repeat' split
  all_goals simp

theorem beside_linkArrived (s : State) (b : BankNo) (a : Option (List Byte)) :
    (s.linkArrived b a).beside = s.beside := by
  unfold State.linkArrived; repeat' split
  all_goals simp

theorem beside_bankWaited (s : State) (b : BankNo) (a : FrameAccess) (d : Option Descriptor) :
    (s.bankWaited b a d).beside = s.beside := by
  unfold State.bankWaited; repeat' split
  all_goals simp

theorem ringsOk_waited (s : State) (d : Option Descriptor) (r : Requester) (h : s.RingsOk) :
    (State.waited d s r).RingsOk := by
  unfold State.waited
  split
  · exact ringsOk_of_beside (beside_bankWaited s _ _ d) h
  · exact ringsOk_journalWaited s _ d h
  · unfold State.ringWaited
    repeat' split
    · exact ringsOk_ringChecked s _ _ _ h
    all_goals exact h

theorem ringsOk_loadDone (s : State) (x : Load) (d : Option Descriptor) (h : s.RingsOk) :
    (s.loadDone x d).RingsOk := by
  unfold State.loadDone
  generalize x.waiters = ws
  induction ws generalizing s with
  | nil => exact h
  | cons r rest ih =>
    rw [List.foldl_cons]
    refine ih _ ?_
    split
    · exact ringsOk_waited s d r h
    · exact h

theorem ringsOk_loadArrived (s : State) (index : Byte) (a : Option (List Byte)) (h : s.RingsOk) :
    (s.loadArrived index a).RingsOk := by
  unfold State.loadArrived
  dsimp only
  repeat' split
  · exact h
  · exact h
  · exact (sameRings_requestLoad _ _ _).ok h
  · exact ringsOk_loadDone _ _ _ h
  · exact ringsOk_loadDone _ _ _ h

theorem beside_frameResponse (s : State) (b : BankNo) (sel : Selector) (retire : Bool)
    (next : Option FrameState) (w : OutWrite) :
    (s.frameResponse b sel retire next w).beside = s.beside := by
  unfold State.frameResponse State.frameAnswered; repeat' split
  all_goals simp

theorem journals_issueFrame (s : State) (b : BankNo) (a : FrameAccess) (addr : Nat) (second : Bool)
    (fate : Fate) : (s.issueFrame b a addr second fate).journals = s.journals := by
  have h : (s.sendFrame b a addr second fate).journals = s.journals := by
    unfold State.sendFrame; dsimp only; split <;> rfl
  unfold State.issueFrame
  dsimp only
  split
  · rw [journals_of_beside (beside_frameIssued _ b a)]; exact h
  · exact h

theorem journals_requestClass3 (s : State) (c : Class3) :
    (s.requestClass3 c).journals = s.journals := by
  unfold State.requestClass3; split <;> rfl

theorem journals_issueClass3 (s : State) (c : Class3) (fate : Fate) :
    (s.issueClass3 c fate).journals = s.journals := by
  unfold State.issueClass3
  cases c with
  | reply =>
    dsimp only [State.issueReply]
    repeat' split
    · exact journals_requestClass3 _ _
    · rfl
    · rfl
  | engine => dsimp only [State.issueEngineStatus]; split <;> rfl
  | bank b => rfl
  | line l => rfl

theorem ringsOk_issue (s : State) (fate : Fate) (g : Grant) (h : s.RingsOk) :
    (s.issue fate g).RingsOk := by
  unfold State.issue
  split
  · exact ringsOk_issueJournal s _ _ fate h
  · exact ringsOk_of_journals (journals_issueFrame s _ _ _ _ fate) h
  · exact ringsOk_of_journals (journals_issueClass3 s _ fate) h
  · exact ringsOk_of_journals rfl h

/-! ### Engine Control -/

theorem ringsOk_reset : State.reset.RingsOk := by
  intro j
  have : State.reset.journal j = Journal.reset := by fin_cases j <;> rfl
  rw [this]
  simp [Journal.RingOk, Journal.reset]

theorem ringsOk_enterBooting (s : State) (h : s.RingsOk) : s.enterBooting.RingsOk := by
  have hd : ∀ t : State, SameRings t t.discardLoads := by
    intro t j
    have hg : ∀ q : Oct Journal, ((q.map Journal.dropLoads).get j).ring = (q.get j).ring := by
      intro q; unfold Oct.get; dsimp only [Oct.map]; split <;> rfl
    exact hg t.journals
  unfold State.enterBooting
  dsimp only
  split
  · exact ringsOk_of_journals rfl ((hd _).ok (ringsOk_of_journals rfl h))
  · exact ringsOk_of_journals rfl ((hd _).ok (ringsOk_of_journals rfl h))

theorem ringsOk_announceOn (s : State) : SameRings s s.announceOn := by
  unfold State.announceOn
  dsimp only
  refine ((sameRings_requestClass3 s _).trans (sameRings_foldl sameRings_requestBankStatus
    _ _)).trans (sameRings_foldl (fun s l => ?_) _ _)
  unfold State.releaseLine
  split
  · exact SameRings.trans (sameRings_of_journals rfl) (sameRings_requestClass3 _ _)
  · exact .refl s

theorem ringsOk_bootArrived (s : State) (a : Option (List Byte)) (h : s.RingsOk) :
    (s.bootArrived a).RingsOk := by
  unfold State.bootArrived
  repeat' split
  · exact h
  · exact (ringsOk_announceOn _).ok (ringsOk_of_journals rfl h)
  · exact h
  · exact h

theorem sameRings_enterQuiescing (s : State) : SameRings s s.enterQuiescing := by
  unfold State.enterQuiescing
  dsimp only
  refine SameRings.trans (t := State.modSweep _ _) ?_ (SameRings.trans
    (sameRings_foldl (fun s b => ?_) _ _) (sameRings_foldl (fun s j => ?_) _ _))
  · exact fun j => sameRings_requestClass3 { s with engine := { s.engine with state := .quiescing } } _ j
  · unfold State.quiesceBank; split
    · exact sameRings_of_journals (journals_of_beside (beside_stopBank s b _))
    · exact .refl s
  · unfold State.quiesceJournal; split
    · exact .refl s
    · exact sameRings_beginClose s j

theorem ringsOk_writeRun (s : State) (value : Bool) (h : s.RingsOk) : (s.writeRun value).RingsOk := by
  unfold State.writeRun
  split
  · exact h
  · refine ringsOk_conclude _ _ ?_
    unfold State.runChanged
    split
    · exact ringsOk_enterBooting _ h
    · exact h
    · exact (sameRings_enterQuiescing _).ok h
    · exact h
    · exact h

theorem ringsOk_completeQuiesce (s : State) (fate : Fate) (h : s.RingsOk) :
    (s.completeQuiesce fate).RingsOk := by
  have h1 : (s.issueEngineStatus .off fate).RingsOk := by
    refine ringsOk_of_journals ?_ h
    unfold State.issueEngineStatus
    dsimp only
    split <;> rfl
  unfold State.completeQuiesce
  dsimp only
  split
  · exact ringsOk_enterBooting _ h1
  · exact h1

end Sys2Proof.Machine
end

