-- ==== Sys2Proof/Laws/Windows.lean ====
section
/-! SUPPORT. What keeps the window cache as it is and the loads in flight for the same indices, and that
the checks and arrivals that change them keep R149: an index in the cache at most once, eight entries
at most, one load for an index. -/

namespace Sys2Proof.Machine

/-- What R149 speaks of: the cache, and the indices of the loads in flight. -/
def State.keys (s : State) := (s.window.cache, s.window.loads.map Load.index)

theorem windowOk_of_keys {s t : State} (h : t.keys = s.keys) (w : s.WindowOk) : t.WindowOk := by
  have h1 : t.window.cache = s.window.cache := congrArg Prod.fst h
  have h2 : t.window.loads.map Load.index = s.window.loads.map Load.index := congrArg Prod.snd h
  unfold State.WindowOk
  rw [h1, h2]; exact w

/-- An operation folded over a list. -/
theorem keys_foldl {α : Type} (f : State → α → State) (h : ∀ s a, (f s a).keys = s.keys)
    (xs : List α) (s : State) : (xs.foldl f s).keys = s.keys := by
  induction xs generalizing s with
  | nil => rfl
  | cons a rest ih => rw [List.foldl_cons, ih, h]

@[simp] theorem keys_modPort (s : State) (f : Port → Port) : (s.modPort f).keys = s.keys := rfl

@[simp] theorem keys_modSweep (s : State) (f : Sweep → Sweep) : (s.modSweep f).keys = s.keys := rfl

@[simp] theorem keys_setBank (s : State) (b : BankNo) (k : Bank) :
    (s.setBank b k).keys = s.keys := rfl

@[simp] theorem keys_modBank (s : State) (b : BankNo) (f : Bank → Bank) :
    (s.modBank b f).keys = s.keys := rfl

@[simp] theorem keys_modSeq (s : State) (b : BankNo) (f : Sequencer → Sequencer) :
    (s.modSeq b f).keys = s.keys := rfl

@[simp] theorem keys_modWave (s : State) (b : BankNo) (f : Waveform → Waveform) :
    (s.modWave b f).keys = s.keys := rfl

@[simp] theorem keys_modGate (s : State) (b : BankNo) (f : Gate → Gate) :
    (s.modGate b f).keys = s.keys := rfl

@[simp] theorem keys_modFaults (s : State) (b : BankNo) (f : FaultLogic → FaultLogic) :
    (s.modFaults b f).keys = s.keys := rfl

@[simp] theorem keys_setLine (s : State) (l : LineNo) (x : Line) :
    (s.setLine l x).keys = s.keys := rfl

@[simp] theorem keys_modLine (s : State) (l : LineNo) (f : Line → Line) :
    (s.modLine l f).keys = s.keys := rfl

@[simp] theorem keys_setJournal (s : State) (j : JournalNo) (x : Journal) :
    (s.setJournal j x).keys = s.keys := rfl

@[simp] theorem keys_modJournal (s : State) (j : JournalNo) (f : Journal → Journal) :
    (s.modJournal j f).keys = s.keys := rfl

@[simp] theorem keys_raise (s : State) (n : Nat) : (s.raise n).keys = s.keys := rfl

@[simp] theorem keys_requestClass3 (s : State) (c : Class3) :
    (s.requestClass3 c).keys = s.keys := by
  unfold State.requestClass3
  split
  · rfl
  · rfl

@[simp] theorem keys_requestBankStatus (s : State) (b : BankNo) :
    (s.requestBankStatus b).keys = s.keys := by
  unfold State.requestBankStatus; split <;> simp

@[simp] theorem keys_requestLineStatus (s : State) (l : LineNo) :
    (s.requestLineStatus l).keys = s.keys := by
  unfold State.requestLineStatus; split <;> simp

@[simp] theorem keys_requestFrame (s : State) (b : BankNo) (a : FrameAccess) :
    (s.requestFrame b a).keys = s.keys := rfl

@[simp] theorem keys_requestJournal (s : State) (j : JournalNo) (r : JournalReq) :
    (s.requestJournal j r).keys = s.keys := rfl

@[simp] theorem keys_requestStatusWord (s : State) (j : JournalNo) :
    (s.requestStatusWord j).keys = s.keys := by
  unfold State.requestStatusWord; split <;> simp

@[simp] theorem keys_refreshPins (s : State) (b : BankNo) : (s.refreshPins b).keys = s.keys := rfl

@[simp] theorem keys_tripGate (s : State) (b : BankNo) : (s.tripGate b).keys = s.keys := rfl

@[simp] theorem keys_openGate (s : State) (b : BankNo) : (s.openGate b).keys = s.keys := rfl

@[simp] theorem keys_releaseGate (s : State) (b : BankNo) : (s.releaseGate b).keys = s.keys := by
  unfold State.releaseGate; dsimp only; generalize hc : (_ && _ : Bool) = c
  cases c <;> simp

@[simp] theorem keys_judgeGate (s : State) (b : BankNo) : (s.judgeGate b).keys = s.keys := by
  unfold State.judgeGate; dsimp only; repeat' split
  all_goals simp

@[simp] theorem keys_judgeGates (s : State) : s.judgeGates.keys = s.keys := by
  simp [State.judgeGates]

@[simp] theorem keys_readLink (s : State) (b : BankNo) : (s.readLink b).keys = s.keys := by
  unfold State.readLink; repeat' split
  all_goals simp

@[simp] theorem keys_startFrame (s : State) (b : BankNo) (f : FrameCopy) (forced : Bool) :
    (s.startFrame b f forced).keys = s.keys := by
  simp [State.startFrame]

theorem keys_startCues (emit : StartCond → State → State)
    (h : ∀ c s, (emit c s).keys = s.keys) (s : State) (b : BankNo) :
    (State.startCues emit s b).keys = s.keys := by
  unfold State.startCues; split <;> simp [h]

theorem keys_takeCue (emit : StartCond → State → State) (h : ∀ c s, (emit c s).keys = s.keys)
    (c : StartCond) (s : State) (b : BankNo) : (State.takeCue emit c s b).keys = s.keys := by
  unfold State.takeCue; dsimp only; repeat' split
  all_goals simp [keys_startCues emit h]

@[simp] theorem keys_offer (n : Nat) (c : StartCond) (s : State) : (offer n c s).keys = s.keys := by
  induction n generalizing c s with
  | zero => rfl
  | succ n ih => simp [offer, keys_takeCue (offer n) ih]

@[simp] theorem keys_emit (s : State) (b : BankNo) (k : CueKind) : (s.emit b k).keys = s.keys := by
  simp [State.emit]

@[simp] theorem keys_offerEdge (s : State) (l : LineNo) (d : EdgeDir) :
    (s.offerEdge l d).keys = s.keys := by
  simp [State.offerEdge]

@[simp] theorem keys_startOwn (s : State) (b : BankNo) (f : FrameCopy) (forced : Bool) :
    (s.startOwn b f forced).keys = s.keys := by
  simp [State.startOwn, keys_startCues (offer cueDepth) (keys_offer cueDepth)]

@[simp] theorem keys_markSticky (s : State) (b : BankNo) (c : FaultClass) :
    (s.markSticky b c).keys = s.keys := rfl

@[simp] theorem keys_reportFault (s : State) (b : BankNo) (cls : FaultClass) (sub : Subcode)
    (sel : Selector) (field : Nat) (phase : Phase) :
    (s.reportFault b cls sub sel field phase).keys = s.keys := by
  unfold State.reportFault; dsimp only; split <;> simp

@[simp] theorem keys_retireLive (s : State) (b : BankNo) (code : FrameState) :
    (s.retireLive b code).keys = s.keys := by
  unfold State.retireLive; split <;> simp

@[simp] theorem keys_returnStaged (s : State) (b : BankNo) : (s.returnStaged b).keys = s.keys := by
  unfold State.returnStaged; split <;> simp

@[simp] theorem keys_dropWaiters (s : State) (b : BankNo) (p : FrameAccess → Bool) :
    (s.dropWaiters b p).keys = s.keys := by
  unfold State.dropWaiters State.keys
  simp [Function.comp_def]

@[simp] theorem keys_discardReads (s : State) (b : BankNo) : (s.discardReads b).keys = s.keys := by
  unfold State.discardReads
  simp

@[simp] theorem keys_endPlan (s : State) (b : BankNo) (plan : PlanState) (reason : StopReason) :
    (s.endPlan b plan reason).keys = s.keys := by
  simp [State.endPlan]

@[simp] theorem keys_stopBank (s : State) (b : BankNo) (code : FrameState) :
    (s.stopBank b code).keys = s.keys := by
  simp [State.stopBank]

@[simp] theorem keys_haltBank (s : State) (b : BankNo) (bad : Option Selector) :
    (s.haltBank b bad).keys = s.keys := by
  unfold State.haltBank; dsimp only; rw [keys_endPlan]; repeat' split
  all_goals simp

@[simp] theorem keys_withholdWrites (s : State) (b : BankNo) (sel : Selector) :
    (s.withholdWrites b sel).keys = s.keys := by
  unfold State.withholdWrites
  simp

@[simp] theorem keys_writeFault (s : State) (b : BankNo) (sel : Selector) (field : Nat)
    (cls : FaultClass) (sub : Subcode) : (s.writeFault b sel field cls sub).keys = s.keys := by
  unfold State.writeFault; dsimp only; split <;> simp

@[simp] theorem keys_fetchFrame (s : State) (b : BankNo) (role : Role) (sel : Selector) :
    (s.fetchFrame b role sel).keys = s.keys := rfl

@[simp] theorem keys_failFetch (s : State) (b : BankNo) (role : Role) :
    (s.failFetch b role).keys = s.keys := by
  unfold State.failFetch; dsimp only; split <;> simp

@[simp] theorem keys_fetchFault (s : State) (b : BankNo) (f : Fetch) (cls : FaultClass)
    (sub : Subcode) (field : Nat) : (s.fetchFault b f cls sub field).keys = s.keys := by
  simp [State.fetchFault]

@[simp] theorem keys_writeRejected (s : State) (b : BankNo) (sel : Selector) (clamped : Bool) :
    (s.writeRejected b sel clamped).keys = s.keys := rfl

@[simp] theorem keys_holdStaged (s : State) (b : BankNo) (f : FrameCopy) :
    (s.holdStaged b f).keys = s.keys := rfl

@[simp] theorem keys_enterWaiting (s : State) (b : BankNo) (f : FrameCopy) :
    (s.enterWaiting b f).keys = s.keys := rfl

@[simp] theorem keys_stageFrame (s : State) (b : BankNo) (f : Fetch) (copy : FrameCopy) :
    (s.stageFrame b f copy).keys = s.keys := by
  unfold State.stageFrame; dsimp only; repeat' split
  all_goals simp

@[simp] theorem keys_stagedIssued (s : State) (b : BankNo) : (s.stagedIssued b).keys = s.keys := by
  unfold State.stagedIssued; repeat' split
  all_goals simp

@[simp] theorem keys_frameIssued (s : State) (b : BankNo) (a : FrameAccess) :
    (s.frameIssued b a).keys = s.keys := by
  unfold State.frameIssued; repeat' split
  all_goals simp

@[simp] theorem keys_frameVerdict (s : State) (b : BankNo) (f : Fetch) (v : FrameVerdict) :
    (s.frameVerdict b f v).keys = s.keys := by
  unfold State.frameVerdict; dsimp only; repeat' split
  all_goals simp

@[simp] theorem keys_fetchEmpty (s : State) (b : BankNo) (role : Role) :
    (s.fetchEmpty b role).keys = s.keys := by
  unfold State.fetchEmpty; split <;> simp

@[simp] theorem keys_judgeHeader (s : State) (b : BankNo) (f : Fetch) (h : Header) :
    (s.judgeHeader b f h).keys = s.keys := by
  unfold State.judgeHeader; repeat' split
  all_goals simp

@[simp] theorem keys_judgeEntries (s : State) (b : BankNo) (f : Fetch) (h : Header)
    (bs : List Byte) : (s.judgeEntries b f h bs).keys = s.keys := by
  unfold State.judgeEntries; split <;> simp

@[simp] theorem keys_linkFault (s : State) (b : BankNo) (cls : FaultClass) (sub : Subcode) :
    (s.linkFault b cls sub).keys = s.keys := by
  simp [State.linkFault]

@[simp] theorem keys_judgeLink (s : State) (b : BankNo) (link : Selector) :
    (s.judgeLink b link).keys = s.keys := by
  unfold State.judgeLink; dsimp only; repeat' split
  all_goals simp

@[simp] theorem keys_fetchHead (s : State) (b : BankNo) : (s.fetchHead b).keys = s.keys := by
  unfold State.fetchHead; dsimp only; split <;> simp

@[simp] theorem keys_accessFault (s : State) (b : BankNo) (a : FrameAccess) (cls : FaultClass)
    (sub : Subcode) : (s.accessFault b a cls sub).keys = s.keys := by
  unfold State.accessFault; repeat' split
  all_goals simp

@[simp] theorem keys_reqChecked (s : State) (b : BankNo) (r : FrameReq) (c : CheckResult) :
    (s.reqChecked b r c).keys = s.keys := by
  unfold State.reqChecked; split <;> simp

@[simp] theorem keys_matchCue (s : State) (b : BankNo) : (s.matchCue b).keys = s.keys := by
  unfold State.matchCue; split <;> simp

@[simp] theorem keys_advanceCounter (s : State) (b : BankNo) (count : Nat) (dir : Direction) :
    (s.advanceCounter b count dir).keys = s.keys := by
  simp [State.advanceCounter]

@[simp] theorem keys_passEnd (s : State) (b : BankNo) : (s.passEnd b).keys = s.keys := by
  simp [State.passEnd]

@[simp] theorem keys_nextPass (s : State) (b : BankNo) : (s.nextPass b).keys = s.keys := by
  simp [State.nextPass]

@[simp] theorem keys_innerBoundary (s : State) (b : BankNo) :
    (s.innerBoundary b).keys = s.keys := by
  unfold State.innerBoundary; dsimp only; split <;> simp

@[simp] theorem keys_extendLive (s : State) (b : BankNo) : (s.extendLive b).keys = s.keys := rfl

@[simp] theorem keys_late (s : State) (b : BankNo) : (s.late b).keys = s.keys := by
  unfold State.late; split <;> simp

@[simp] theorem keys_takeSuccessor (s : State) (b : BankNo) (f : FrameCopy) :
    (s.takeSuccessor b f).keys = s.keys := by
  unfold State.takeSuccessor; dsimp only; split <;> simp

@[simp] theorem keys_finalDecision (s : State) (b : BankNo) (v : Live) :
    (s.finalDecision b v).keys = s.keys := by
  unfold State.finalDecision; dsimp only; repeat' split
  all_goals simp

@[simp] theorem keys_lastBoundary (s : State) (b : BankNo) (v : Live) :
    (s.lastBoundary b v).keys = s.keys := by
  unfold State.lastBoundary; dsimp only; split <;> simp

@[simp] theorem keys_cueTimeout (s : State) (b : BankNo) (f : FrameCopy) :
    (s.cueTimeout b f).keys = s.keys := by
  unfold State.cueTimeout; dsimp only; split <;> simp

@[simp] theorem keys_requestLoad (s : State) (r : Requester) (index : Byte) :
    (s.requestLoad r index).keys = s.keys := by
  unfold State.requestLoad; split <;> simp

@[simp] theorem keys_judgeArmed (s : State) (l : LineNo) : (s.judgeArmed l).keys = s.keys := by
  unfold State.judgeArmed; repeat' split
  all_goals simp

@[simp] theorem keys_judgeLines (s : State) : s.judgeLines.keys = s.keys :=
  keys_foldl _ keys_judgeArmed _ _

@[simp] theorem keys_countMissed (s : State) (j : JournalNo) (l : LineNo) :
    (s.countMissed j l).keys = s.keys := by
  simp [State.countMissed]

@[simp] theorem keys_enterEvent (s : State) (l : LineNo) (e : Event) :
    (s.enterEvent l e).keys = s.keys := by
  unfold State.enterEvent; dsimp only; split <;> simp

@[simp] theorem keys_loseEvent (s : State) (l : LineNo) : (s.loseEvent l).keys = s.keys := by
  simp [State.loseEvent]

@[simp] theorem keys_putEvent (s : State) (l : LineNo) (kind : EventKind) (value : BitVec 32)
    (saturated : Bool) : (s.putEvent l kind value saturated).keys = s.keys := by
  unfold State.putEvent; split <;> simp

@[simp] theorem keys_captureEdge (s : State) (l : LineNo) (d : EdgeDir) :
    (s.captureEdge l d).keys = s.keys := by
  unfold State.captureEdge; dsimp only; repeat' split
  all_goals simp

@[simp] theorem keys_takeSample (s : State) (l : LineNo) : (s.takeSample l).keys = s.keys := rfl

@[simp] theorem keys_acceptEdge (s : State) (l : LineNo) : (s.acceptEdge l).keys = s.keys := by
  simp [State.acceptEdge]

@[simp] theorem keys_loadLine (s : State) (l : LineNo) (cfg : LineConfig) :
    (s.loadLine l cfg).keys = s.keys := by
  simp [State.loadLine]

@[simp] theorem keys_answer (s : State) (r : Result) (w : WaitFor) :
    (s.answer r w).keys = s.keys := rfl

@[simp] theorem keys_answerLook (s : State) (j : JournalNo) (r : Result) :
    (s.answerLook j r).keys = s.keys := by
  unfold State.answerLook; repeat' split
  all_goals simp

@[simp] theorem keys_answerClose (s : State) (j : JournalNo) : (s.answerClose j).keys = s.keys := by
  unfold State.answerClose; repeat' split
  all_goals simp

@[simp] theorem keys_judgeWatermark (s : State) (j : JournalNo) :
    (s.judgeWatermark j).keys = s.keys := by
  unfold State.judgeWatermark; dsimp only; repeat' split
  all_goals simp

@[simp] theorem keys_countHeld (s : State) (j : JournalNo) : (s.countHeld j).keys = s.keys := by
  refine keys_foldl _ (fun s l => ?_) _ _
  split <;> simp

@[simp] theorem keys_faultJournal (s : State) (j : JournalNo) (f : JournalFault) (lost : Bool) :
    (s.faultJournal j f lost).keys = s.keys := by
  unfold State.faultJournal; dsimp only
  generalize hc : (State.journal _ j).rereadInFlight = c
  cases c <;> simp

@[simp] theorem keys_judgeConsume (s : State) (j : JournalNo) (v : BitVec 16) :
    (s.judgeConsume j v).keys = s.keys := by
  unfold State.judgeConsume; split <;> simp

@[simp] theorem keys_endStep (s : State) (j : JournalNo) : (s.endStep j).keys = s.keys := by
  unfold State.endStep; dsimp only; split <;> simp

@[simp] theorem keys_writeRecord (s : State) (j : JournalNo) (p : StepPlan) (addr : Nat) :
    (s.writeRecord j p addr).keys = s.keys := rfl

@[simp] theorem keys_recordChecked (s : State) (j : JournalNo) (p : StepPlan) (c : CheckResult) :
    (s.recordChecked j p c).keys = s.keys := by
  unfold State.recordChecked; split <;> simp

@[simp] theorem keys_missEvent (s : State) (j : JournalNo) (l : LineNo) :
    (s.missEvent j l).keys = s.keys := by
  unfold State.missEvent; split <;> simp

@[simp] theorem keys_requestReread (s : State) (j : JournalNo) :
    (s.requestReread j).keys = s.keys := by
  unfold State.requestReread; split <;> simp

@[simp] theorem keys_waitReread (s : State) (j : JournalNo) (l : Option LineNo) :
    (s.waitReread j l).keys = s.keys := by
  simp [State.waitReread]

@[simp] theorem keys_finishClose (s : State) (j : JournalNo) : (s.finishClose j).keys = s.keys := by
  simp [State.finishClose]

@[simp] theorem keys_beginClose (s : State) (j : JournalNo) : (s.beginClose j).keys = s.keys := by
  simp [State.beginClose]

@[simp] theorem keys_openJournal (s : State) (j : JournalNo) (r : JournalRecord) :
    (s.openJournal j r).keys = s.keys := by
  simp [State.openJournal]

@[simp] theorem keys_ringChecked (s : State) (j : JournalNo) (r : JournalRecord) (c : CheckResult) :
    (s.ringChecked j r c).keys = s.keys := by
  unfold State.ringChecked; repeat' split
  all_goals simp

@[simp] theorem keys_consumeError (s : State) (j : JournalNo) : (s.consumeError j).keys = s.keys := by
  unfold State.consumeError; dsimp only; repeat' split
  all_goals simp

@[simp] theorem keys_recordAnswered (s : State) (j : JournalNo) (error : Bool) :
    (s.recordAnswered j error).keys = s.keys := by
  unfold State.recordAnswered; dsimp only; repeat' split
  all_goals simp

@[simp] theorem keys_recordIssued (s : State) (j : JournalNo) (p : StepPlan) :
    (s.recordIssued j p).keys = s.keys := by
  unfold State.recordIssued; split <;> simp

@[simp] theorem keys_noteBank (before s : State) (b : BankNo) :
    (before.noteBank s b).keys = s.keys := by
  unfold State.noteBank; split <;> simp

@[simp] theorem keys_noteStatuses (before s : State) : (before.noteStatuses s).keys = s.keys := by
  simp [State.noteStatuses]

@[simp] theorem keys_offerReply (s : State) : s.offerReply.keys = s.keys := by
  unfold State.offerReply
  split
  · repeat' split
    · rw [keys_requestClass3]; rfl
    all_goals rfl
  · rfl

@[simp] theorem keys_concludeLight (before s : State) :
    (before.concludeLight s).keys = s.keys := by
  simp [State.concludeLight]

@[simp] theorem keys_fetchArrived (s : State) (b : BankNo) (f : Fetch) (r : OutRead) :
    (s.fetchArrived b f r).keys = s.keys := by
  unfold State.fetchArrived; repeat' split
  all_goals simp

@[simp] theorem keys_linkArrived (s : State) (b : BankNo) (a : Option (List Byte)) :
    (s.linkArrived b a).keys = s.keys := by
  unfold State.linkArrived; repeat' split
  all_goals simp

@[simp] theorem keys_bankWaited (s : State) (b : BankNo) (a : FrameAccess)
    (d : Option Descriptor) : (s.bankWaited b a d).keys = s.keys := by
  unfold State.bankWaited; repeat' split
  all_goals simp

@[simp] theorem keys_journalWaited (s : State) (j : JournalNo) (d : Option Descriptor) :
    (s.journalWaited j d).keys = s.keys := by
  unfold State.journalWaited; dsimp only; repeat' split
  all_goals simp

@[simp] theorem keys_ringWaited (s : State) (j : JournalNo) (d : Option Descriptor) :
    (s.ringWaited j d).keys = s.keys := by
  unfold State.ringWaited; repeat' split
  all_goals simp

@[simp] theorem keys_waited (d : Option Descriptor) (s : State) (r : Requester) :
    (State.waited d s r).keys = s.keys := by
  unfold State.waited; split <;> simp

@[simp] theorem keys_loadDone (s : State) (x : Load) (d : Option Descriptor) :
    (s.loadDone x d).keys = s.keys := by
  refine keys_foldl _ (fun s r => ?_) _ _
  split <;> simp

@[simp] theorem keys_setPhase (s : State) (p : ExecPhase) : (s.setPhase p).keys = s.keys := rfl

@[simp] theorem keys_readRecord (s : State) (o : ReadOwner) : (s.readRecord o).keys = s.keys := rfl

@[simp] theorem keys_bankStart (s : State) (b : BankNo) : (s.bankStart b).keys = s.keys := by
  unfold State.bankStart; split <;> simp

@[simp] theorem keys_stopNow (s : State) (b : BankNo) : (s.stopNow b).keys = s.keys := by
  simp [State.stopNow]

@[simp] theorem keys_bankStop (s : State) (now : Bool) (b : BankNo) :
    (s.bankStop now b).keys = s.keys := by
  unfold State.bankStop; dsimp only; repeat' split
  all_goals simp

@[simp] theorem keys_bankLook (s : State) (b : BankNo) : (s.bankLook b).keys = s.keys := by
  unfold State.bankLook; repeat' split
  all_goals simp

@[simp] theorem keys_rearmManual (s : State) (b : BankNo) : (s.rearmManual b).keys = s.keys := by
  unfold State.rearmManual; dsimp only; repeat' split
  all_goals simp

@[simp] theorem keys_bankRearm (s : State) (b : BankNo) : (s.bankRearm b).keys = s.keys := by
  unfold State.bankRearm; dsimp only; repeat' split
  all_goals simp

@[simp] theorem keys_bankTrip (s : State) (b : BankNo) : (s.bankTrip b).keys = s.keys := by
  simp [State.bankTrip]

@[simp] theorem keys_bankAck (s : State) (b : BankNo) : (s.bankAck b).keys = s.keys := by
  simp [State.bankAck]

@[simp] theorem keys_journalOpen (s : State) (j : JournalNo) : (s.journalOpen j).keys = s.keys := by
  unfold State.journalOpen; split <;> simp

@[simp] theorem keys_journalClose (s : State) (j : JournalNo) :
    (s.journalClose j).keys = s.keys := by
  unfold State.journalClose; split <;> simp

@[simp] theorem keys_journalLook (s : State) (j : JournalNo) : (s.journalLook j).keys = s.keys := by
  unfold State.journalLook; split <;> simp

@[simp] theorem keys_acceptStart (s : State) (b : BankNo) (r : BankRecord) (auto : Bool) :
    (s.acceptStart b r auto).keys = s.keys := by
  simp [State.acceptStart]

@[simp] theorem keys_bankRecordArrived (s : State) (b : BankNo) (a : Option (List Byte)) :
    (s.bankRecordArrived b a).keys = s.keys := by
  unfold State.bankRecordArrived; repeat' split
  all_goals simp

@[simp] theorem keys_lineRecordArrived (s : State) (l : LineNo) (a : Option (List Byte)) :
    (s.lineRecordArrived l a).keys = s.keys := by
  unfold State.lineRecordArrived; repeat' split
  all_goals simp

@[simp] theorem keys_toFetch (s : State) (b : BankNo) (r : OutRead) :
    (State.toFetch b r s).keys = s.keys := by
  unfold State.toFetch; split <;> simp

@[simp] theorem keys_frameResponse (s : State) (b : BankNo) (sel : Selector) (retire : Bool)
    (next : Option FrameState) (w : OutWrite) :
    (s.frameResponse b sel retire next w).keys = s.keys := by
  unfold State.frameResponse State.frameAnswered; repeat' split
  all_goals simp

@[simp] theorem keys_recordResponse (s : State) (j : JournalNo) (w : OutWrite) :
    (s.recordResponse j w).keys = s.keys := by
  unfold State.recordResponse; split <;> simp

@[simp] theorem keys_portError (s : State) (error : Bool) : (s.portError error).keys = s.keys := by
  unfold State.portError; split <;> simp

@[simp] theorem keys_announceOn (s : State) : s.announceOn.keys = s.keys := by
  unfold State.announceOn
  dsimp only
  rw [keys_foldl _ (fun s l => ?_), keys_foldl _ (fun s b => by simp), keys_requestClass3]
  unfold State.releaseLine
  split <;> simp

@[simp] theorem keys_quiesceBank (s : State) (b : BankNo) : (s.quiesceBank b).keys = s.keys := by
  unfold State.quiesceBank; split <;> simp

@[simp] theorem keys_quiesceJournal (s : State) (j : JournalNo) :
    (s.quiesceJournal j).keys = s.keys := by
  unfold State.quiesceJournal; split <;> simp

@[simp] theorem keys_dropRead (s : State) (place : Fin 4) : (s.dropRead place).keys = s.keys := rfl

@[simp] theorem keys_dropWrite (s : State) : s.dropWrite.keys = s.keys := rfl

/-! ### The checks -/

theorem index_of_loadFind {index : Byte} {loads : List Load} (h : loadFind index loads = none) :
    index ∉ loads.map Load.index := by
  induction loads with
  | nil => exact List.not_mem_nil
  | cons x rest ih =>
    unfold loadFind at h
    split at h
    · cases h
    · rename_i hi
      rw [List.map_cons, List.mem_cons]
      exact not_or.mpr ⟨fun e => hi e.symm, ih h⟩

/-- Striking an index from the cache. -/
theorem cache_without (index : Byte) (c : List (Byte × Descriptor)) :
    index ∉ (c.filter fun e => decide (e.1 ≠ index)).map Prod.fst := by
  intro h
  obtain ⟨e, he, hi⟩ := List.mem_map.mp h
  simpa [hi] using (List.mem_filter.mp he).2

theorem nodup_cacheTouch (index : Byte) (d : Descriptor) (c : List (Byte × Descriptor))
    (h : (c.map Prod.fst).Nodup) : ((cacheTouch index d c).map Prod.fst).Nodup := by
  unfold cacheTouch
  rw [List.map_cons, List.nodup_cons]
  exact ⟨cache_without index c, h.sublist (List.filter_sublist.map _)⟩

/-- A cache that holds an index is not longer once that entry has become the most recently used. -/
theorem length_cacheTouch (index : Byte) (d x : Descriptor) (c : List (Byte × Descriptor))
    (h : cacheFind index c = some x) : (cacheTouch index d c).length ≤ c.length := by
  have hm : ∃ e ∈ c, e.1 = index := by
    induction c with
    | nil => cases h
    | cons e rest ih =>
      obtain ⟨i, y⟩ := e
      unfold cacheFind at h
      split at h
      · rename_i hi; exact ⟨(i, y), List.mem_cons_self, hi⟩
      · obtain ⟨e, he, hi⟩ := ih h; exact ⟨e, List.mem_cons_of_mem _ he, hi⟩
  obtain ⟨e, he, hi⟩ := hm
  have hl : (c.filter fun e => decide (e.1 ≠ index)).length < c.length :=
    List.length_filter_lt_length_iff_exists.mpr ⟨e, he, by simp [hi]⟩
  unfold cacheTouch
  rw [List.length_cons]; omega

/-- A load joins those in flight for an index that has none. -/
theorem nodup_addLoad {loads : List Load} {x : Load} (h : (loads.map Load.index).Nodup)
    (hn : x.index ∉ loads.map Load.index) : ((loads ++ [x]).map Load.index).Nodup := by
  rw [List.map_append, List.nodup_append]
  refine ⟨h, by simp, fun a ha b hb => ?_⟩
  rw [List.map_singleton, List.mem_singleton] at hb
  subst hb
  rintro rfl
  exact hn ha

theorem windowOk_windowCheck (s : State) (q : Requester) (index : Byte) (offset length : Nat)
    (write : Bool) (domain : Byte) (h : s.WindowOk) :
    (s.windowCheck q index offset length write domain).1.WindowOk := by
  obtain ⟨h1, h2, h3⟩ := h
  unfold State.windowCheck
  repeat' split
  · exact ⟨h1, h2, h3⟩
  · rename_i d hd
    exact ⟨nodup_cacheTouch index d _ h1, le_trans (length_cacheTouch index d d _ hd) h2, h3⟩
  · refine ⟨h1, h2, ?_⟩
    change ((addWaiter q index s.window.loads).map Load.index).Nodup
    have e : (addWaiter q index s.window.loads).map Load.index = s.window.loads.map Load.index := by
      unfold addWaiter
      rw [List.map_map]
      refine List.map_congr_left fun x _ => ?_
      rw [Function.comp_apply]; split <;> rfl
    rw [e]; exact h3
  · rename_i hn
    exact windowOk_of_keys (keys_requestLoad _ _ _) ⟨h1, h2, nodup_addLoad h3 (index_of_loadFind hn)⟩

theorem windowOk_checkReq (s : State) (b : BankNo) (r : FrameReq) (h : s.WindowOk) :
    (s.checkReq b r).WindowOk :=
  windowOk_of_keys (keys_reqChecked _ _ _ _) (windowOk_windowCheck _ _ _ _ _ _ _ h)

theorem windowOk_checkNext (s : State) (b : BankNo) (h : s.WindowOk) : (s.checkNext b).WindowOk := by
  unfold State.checkNext; split
  · exact windowOk_checkReq _ _ _ h
  · exact h

theorem windowOk_checkRecord (s : State) (j : JournalNo) (p : StepPlan) (h : s.WindowOk) :
    (s.checkRecord j p).WindowOk :=
  windowOk_of_keys (keys_recordChecked _ _ _ _) (windowOk_windowCheck _ _ _ _ _ _ _
    (windowOk_of_keys (keys_modJournal s j _) h))

theorem windowOk_planEvent (s : State) (j : JournalNo) (l : LineNo) (h : s.WindowOk) :
    (s.planEvent j l).WindowOk := by
  unfold State.planEvent; dsimp only; repeat' split
  · exact windowOk_of_keys (by simp) h
  all_goals exact windowOk_checkRecord _ _ _ h

theorem windowOk_beginStep (s : State) (j : JournalNo) (l : LineNo) (h : s.WindowOk) :
    (s.beginStep j l).WindowOk := by
  unfold State.beginStep; split
  · exact windowOk_of_keys (by simp) h
  · exact windowOk_planEvent _ _ _ h

theorem windowOk_resumeStep (s : State) (j : JournalNo) (l : Option LineNo) (h : s.WindowOk) :
    (s.resumeStep j l).WindowOk := by
  unfold State.resumeStep; repeat' split
  · exact windowOk_planEvent _ _ _ h
  · exact windowOk_of_keys (by simp) h
  · exact windowOk_checkRecord _ _ _ h

theorem windowOk_continueClose (s : State) (j : JournalNo) (h : s.WindowOk) :
    (s.continueClose j).WindowOk := by
  unfold State.continueClose; dsimp only; repeat' split
  · exact windowOk_beginStep _ _ _ h
  · exact windowOk_of_keys (by simp) h
  · exact windowOk_of_keys (by simp) h
  · exact windowOk_checkRecord _ _ _ (windowOk_of_keys (keys_modJournal s j _) h)
  · exact windowOk_of_keys (by simp) h

theorem windowOk_consumeArrived (s : State) (j : JournalNo) (v : BitVec 16) (h : s.WindowOk) :
    (s.consumeArrived j v).WindowOk := by
  have hk : ((s.judgeConsume j v).answerLook j .done).WindowOk := windowOk_of_keys (by simp) h
  unfold State.consumeArrived; dsimp only; repeat' split
  · exact hk
  · exact windowOk_resumeStep _ _ _ hk
  · exact hk
  all_goals exact windowOk_of_keys (by simp) h

theorem windowOk_rereadArrived (s : State) (j : JournalNo) (a : Option (List Byte))
    (h : s.WindowOk) : (s.rereadArrived j a).WindowOk := by
  unfold State.rereadArrived; split
  · exact windowOk_of_keys (by simp) h
  · exact windowOk_consumeArrived _ _ _ (windowOk_of_keys (keys_modJournal s j _) h)

theorem windowOk_produceIssued (s : State) (j : JournalNo) (h : s.WindowOk) :
    (s.produceIssued j).WindowOk := by
  unfold State.produceIssued; split
  · exact windowOk_checkRecord _ _ _ h
  · exact windowOk_of_keys (by simp) h
  · exact h

theorem windowOk_settle (n : Nat) (s : State) (h : s.WindowOk) : (settle n s).WindowOk := by
  induction n generalizing s with
  | zero => exact h
  | succ n ih =>
    unfold settle; repeat' split
    · exact ih _ (windowOk_checkNext _ _ h)
    · exact ih _ (windowOk_continueClose _ _ h)
    · exact h

theorem windowOk_concludeLight (before s : State) (h : s.WindowOk) :
    (before.concludeLight s).WindowOk := windowOk_of_keys (by simp) h

theorem windowOk_conclude (before s : State) (h : s.WindowOk) : (before.conclude s).WindowOk :=
  windowOk_concludeLight _ _ (windowOk_settle _ _ h)

/-! ### Loads -/

theorem windowOk_loadArrived (s : State) (index : Byte) (a : Option (List Byte)) (h : s.WindowOk) :
    (s.loadArrived index a).WindowOk := by
  obtain ⟨h1, h2, h3⟩ := h
  have hf : ((s.window.loads.filter fun y => decide (y.index ≠ index)).map Load.index).Nodup :=
    h3.sublist (List.filter_sublist.map _)
  have hn : index ∉ (s.window.loads.filter fun y => decide (y.index ≠ index)).map Load.index := by
    intro h
    obtain ⟨x, hx, hi⟩ := List.mem_map.mp h
    simpa [hi] using (List.mem_filter.mp hx).2
  unfold State.loadArrived; dsimp only; repeat' split
  · exact ⟨h1, h2, h3⟩
  · exact ⟨h1, h2, hf⟩
  · exact windowOk_of_keys (keys_requestLoad _ _ _) ⟨h1, h2, nodup_addLoad hf hn⟩
  · exact windowOk_of_keys (keys_loadDone _ _ _) ⟨h1, h2, hf⟩
  · refine windowOk_of_keys (keys_loadDone _ _ _) ⟨?_, ?_, hf⟩
    · exact (nodup_cacheTouch index _ _ h1).sublist ((List.take_sublist _ _).map _)
    · exact List.length_take_le _ _

theorem windowOk_flushWindows (s : State) (h : s.WindowOk) : s.flushWindows.WindowOk := by
  refine ⟨List.nodup_nil, Nat.zero_le _, ?_⟩
  change ((s.window.loads.map fun x => { x with stale := true }).map Load.index).Nodup
  rw [List.map_map]
  exact h.2.2

theorem windowOk_discardLoads (s : State) : s.discardLoads.WindowOk :=
  ⟨List.nodup_nil, Nat.zero_le _, List.nodup_nil⟩

/-! ### Engine Control and the Memory Port -/

theorem windowOk_enterBooting (s : State) : s.enterBooting.WindowOk := by
  unfold State.enterBooting; dsimp only; split <;> exact windowOk_discardLoads _

theorem windowOk_bootArrived (s : State) (a : Option (List Byte)) (h : s.WindowOk) :
    (s.bootArrived a).WindowOk := by
  unfold State.bootArrived; repeat' split
  · exact h
  · exact windowOk_of_keys (keys_announceOn _) h
  · exact h
  · exact h

theorem windowOk_enterQuiescing (s : State) (h : s.WindowOk) : s.enterQuiescing.WindowOk := by
  unfold State.enterQuiescing
  refine windowOk_of_keys (keys_foldl _ keys_quiesceJournal _ _)
    (windowOk_of_keys (keys_foldl _ keys_quiesceBank _ _) ?_)
  refine windowOk_flushWindows _ (windowOk_of_keys (keys_requestClass3 _ _) h)

theorem windowOk_writeRun (s : State) (v : Bool) (h : s.WindowOk) : (s.writeRun v).WindowOk := by
  unfold State.writeRun; split
  · exact h
  · refine windowOk_conclude _ _ ?_
    unfold State.runChanged; split
    · exact windowOk_enterBooting _
    · exact h
    · exact windowOk_enterQuiescing _ h
    · exact h
    · exact h

theorem windowOk_issueJournal (s : State) (j : JournalNo) (r : JournalReq) (fate : Fate)
    (h : s.WindowOk) : (s.issueJournal j r fate).WindowOk := by
  unfold State.issueJournal; dsimp only
  split
  · exact h
  · exact h
  · exact windowOk_produceIssued _ _ h
  · exact h
  · split
    · split
      · exact windowOk_of_keys (keys_recordIssued _ _ _) h
      · exact h
    · exact h

theorem windowOk_issueFrame (s : State) (b : BankNo) (a : FrameAccess) (addr : Nat) (second : Bool)
    (fate : Fate) (h : s.WindowOk) : (s.issueFrame b a addr second fate).WindowOk := by
  have ht : (s.sendFrame b a addr second fate).WindowOk := by
    unfold State.sendFrame; dsimp only; split <;> exact h
  unfold State.issueFrame; dsimp only; split
  · exact windowOk_of_keys (keys_frameIssued _ _ _) ht
  · exact ht

theorem windowOk_issueEngineStatus (s : State) (shown : EngineState) (fate : Fate)
    (h : s.WindowOk) : (s.issueEngineStatus shown fate).WindowOk := by
  unfold State.issueEngineStatus; dsimp only; split <;> exact h

theorem windowOk_issueClass3 (s : State) (c : Class3) (fate : Fate) (h : s.WindowOk) :
    (s.issueClass3 c fate).WindowOk := by
  unfold State.issueClass3; dsimp only; split
  · unfold State.issueReply; repeat' split
    · exact windowOk_of_keys (keys_requestClass3 _ _) h
    all_goals exact h
  · exact windowOk_issueEngineStatus _ _ _ h
  · exact h
  · exact h

theorem windowOk_issue (s : State) (fate : Fate) (g : Grant) (h : s.WindowOk) :
    (s.issue fate g).WindowOk := by
  unfold State.issue; split
  · exact windowOk_issueJournal _ _ _ _ h
  · exact windowOk_issueFrame _ _ _ _ _ _ h
  · exact windowOk_issueClass3 _ _ _ h
  · exact h

theorem windowOk_completeQuiesce (s : State) (fate : Fate) (h : s.WindowOk) :
    (s.completeQuiesce fate).WindowOk := by
  unfold State.completeQuiesce; dsimp only; split
  · exact windowOk_enterBooting _
  · exact windowOk_issueEngineStatus _ _ _ h

theorem windowOk_journalRecordArrived (s : State) (j : JournalNo) (a : Option (List Byte))
    (h : s.WindowOk) : (s.journalRecordArrived j a).WindowOk := by
  unfold State.journalRecordArrived; repeat' split
  · exact h
  · exact h
  · exact h
  · exact windowOk_of_keys (keys_ringChecked _ _ _ _) (windowOk_windowCheck _ _ _ _ _ _ _ h)
  · exact h

end Sys2Proof.Machine
end

