-- ==== Sys2Proof/WellFormed.lean ====
section
/-! DEFINITION. Which commands the outside world can send. -/

namespace Sys2Proof

/-- A host write lies in the 48-bit address space of the memory port (R154). -/
def hostCellOk (c : Host.Cell) : Bool := decide (c.1 < 2 ^ 48)

/-- An access of the register window is at a 32-bit register's offset, a multiple of 4 (R176). -/
def offsetOk (offset : Nat) : Bool := offset % 4 == 0

/-- A command that can be sent. -/
def Instr.wellFormed : Instr → Bool
  | .registerWrite offset _ _ => offsetOk offset
  | .arbiterGrant host _ => host.all hostCellOk
  | .mark | .bankStart | .bankStop | .bankLook | .bankRearm | .bankTrip | .bankAck
  | .journalOpen | .journalClose | .journalLook | .lineLoad | .windowsFlush | .unknownAction
  | .run _ | .engineReset _ | .causeWrite _ | .causeEnable _ | .tickLo | .resetN _
  | .edge _ | .counterAdvance _ | .boundary _ | .finalBoundary _ | .cueTimeout _
  | .onDelayReached _ _ _ | .headerRead _ | .entryRead _ | .linkRead _ | .descriptorLoad _
  | .frameWriteResponse | .consumeReread _ | .recordWriteResponse | .bankRecordRead _
  | .lineRecordRead _ | .journalRecordRead _ | .bootHeaderRead _ | .engineStatusResponse
  | .anchorWriteResponse | .journalStep _ | .quiesceComplete _ | .sweepWrite _
  | .filterSample _ => true

end Sys2Proof
end

