-- ==== Sys2Proof/Tests/Slice0.lean ====
section
/-! SUPPORT. Tests: the well-formedness smoke test, one step of each command on a small state, and
for every statement with hypotheses a state that meets them. A name that begins `witness` shows
hypotheses (each clause at a boundary of its range), a name that begins `test` shows an outcome. -/

namespace Sys2Proof.Tests

set_option Elab.async false

open Sys2Proof.Machine

/-! ### The states the tests start from -/

/-- The engine ON, the anchor at 1000h, the table at 2000h with 16 windows; window 2 is cached: 4096
bytes at 10000h that every domain may read and write. Time 1000. -/
def on : State :=
  { State.reset with
    engine := { Engine.reset with
      state := .on, run := true, anchorLo := 0x1000#32, anchor := 0x1000#48 }
    now := 1000#48
    window := { tableAddr := 0x2000#48, tableCount := 16, loads := []
                cache := [(2#8, ⟨0x10000, 0xFFF, true, true, true, 3#8⟩)] } }

/-- The state one step later; none if the machine stops. -/
def after (s : State) : Option State :=
  match step s with
  | .next t => some t
  | _ => none

/-- The state one step later, with this command at the front of the queue. -/
def go (c : Instr) (s : State) : State := (after { s with pending := [c] }).getD s

/-- A request word. -/
def req (a t g : Nat) : Word := BitVec.ofNat 32 (a + 256 * t + 65536 * g + 16777216 * 9)

/-- One word waits. -/
def asked (w : Word) (s : State) : State := { s with sweep := { s.sweep with queue := [w] } }

/-- A request executes, its record read outstanding. -/
def reading (w : Word) (o : ReadOwner) (a : Option (List Byte)) (s : State) : State :=
  { s with
    sweep := { s.sweep with exec := some ⟨w, .record⟩ }
    port := { s.port with reads := [⟨o, false, false, false, a⟩] } }

/-- One read is outstanding. -/
def outRead (o : ReadOwner) (a : Option (List Byte)) (s : State) : State :=
  { s with port := { s.port with reads := [⟨o, false, false, false, a⟩] } }

/-- One write awaits its response. -/
def outWrite (o : WriteOwner) (error : Bool) (s : State) : State :=
  { s with port := { s.port with writes := [⟨o, true, error⟩] } }

def sel0 : Selector := ⟨2#8, 0#32⟩
def sel1 : Selector := ⟨2#8, 0x80#32⟩

/-- A live frame: RAMP, period 100, divider 1. -/
def live0 : Live :=
  { sel := sel0, countMode := .ramp, period := 100, divider := 1, repeatRemaining := 0,
    endAction := .hold, link := .null, passes := 0#32, clamped := false, stretched := false,
    extended := false, cueForced := false }

/-- A staged frame that starts at once. -/
def copy1 : FrameCopy :=
  { sel := sel1, countMode := .ramp, endAction := .stop, start := .now, waitLimit := 0,
    divider := 1, period := 100, repeats := 0, entries := [], clamped := false,
    stretched := false }

/-- A Plan Sequencer that runs `v`. -/
def runs (v : Live) : Sequencer :=
  { Sequencer.reset with plan := .running, started := true, live := some v }

/-- A Plan Sequencer that loads its head frame, the read in flight. -/
def loads (h : Option Header) : Sequencer :=
  { Sequencer.reset with
    plan := .loading, started := true, headSel := sel0, firstFrame := true
    fetch := some ⟨.head, sel0, h, none, none⟩ }

/-- Bank 0 with this Plan Sequencer. -/
def bank0 (q : Sequencer) (s : State) : State := s.modSeq 0 fun _ => q

/-- A staged frame that starts on a cue of bank 1. -/
def cued1 : FrameCopy := { copy1 with start := .cue 1 .frameStart, waitLimit := 1 }

/-- A Plan Sequencer with a staged frame that starts on `c`, its latch so. -/
def holdsFor (c : StartCond) (l : LatchState) (q : Sequencer) : Sequencer :=
  { q with tag := .valid, staged := some { cued1 with start := c }, latch := l, awaited := some c }

def holdsCued (l : LatchState) (q : Sequencer) : Sequencer := holdsFor cued1.start l q

/-- A Plan Sequencer that waits, its wait limit expiring now. -/
def waits : Sequencer :=
  { holdsCued .armed Sequencer.reset with plan := .waiting, started := true, timer := some 1000#48 }

/-- Bank 1 runs with its latch armed for this condition, and bank 2 waits for it. -/
def awaiting (c : StartCond) (s : State) : State :=
  (s.modSeq 1 fun _ => holdsFor c .armed (runs live0)).modSeq 2 fun _ => holdsFor c .armed waits

/-- The two banks meet the two clauses of a cue's or edge's effect. -/
def Awaited (c : StartCond) (s : State) : Prop :=
  ((s.bank 1).seq.latch = .armed ∧ (s.bank 1).seq.awaited = some c ∧
      (s.bank 1).seq.plan.isRunning = true) ∧
    (s.bank 2).seq.latch = .armed ∧ (s.bank 2).seq.awaited = some c ∧
      (s.bank 2).seq.plan = .waiting ∧ (s.bank 2).seq.linkRead = false ∧
      (s.bank 2).seq.staged ≠ none

/-- What the cue or edge left of the two banks: the latch set, and the frame started. -/
def taken (s : State) : LatchState × PlanState := ((s.bank 1).seq.latch, (s.bank 2).seq.plan)

/-- Bank 0 runs `v` with its counter at `n`, an advance due. -/
def counting (v : Live) (n : Nat) (d : Direction) (s : State) : State :=
  (bank0 (runs v) s).modWave 0 fun w => { w with counter := n, dir := d, advanceDue := true }

/-- Line 0 loaded: STAMP on both edges, prescale 1, divider 1, N of 1, journal 0, trip level HIGH. -/
def line0 : Line :=
  { Line.reset with
    loaded := true
    cfg := { mode := .stamp, select := .both, prescale := 1, divider := 1, count := 1,
             journal := 0, tripHigh := true } }

/-- Journal 0 OPEN in window 2, capacity 4, empty. -/
def journal0 : Journal :=
  { Journal.reset with state := .opened, window := 2#8, domain := 1#8, capacity := 4, watermark := 3 }

def event0 : Event :=
  { line := 0, journal := 0, kind := .rise, sequence := 0#8, value := 1#32, stamp := 990#48,
    saturated := false, overrun := false }

/-- Journal 0 as given, and line 0 holding an event for it. -/
def held0 (x : Journal) (s : State) : State :=
  (s.setJournal 0 x).setLine 0 { line0 with holding := some event0 }

/-- What bank 0 is. -/
def seq0 (s : State) : Sequencer := (s.bank 0).seq

/-- The executing request's result and what its reply waits for. -/
def result (s : State) : Option ExecPhase := s.sweep.exec.map (·.phase)

/-! ### Well-formedness -/

theorem test_wellFormed_registerWrite_refused :
    (Instr.registerWrite 0x06 0#32 0xF#4).wellFormed = false := by decide

theorem test_wellFormed_arbiterGrant_refused :
    (Instr.arbiterGrant [(0, 1#8), (2 ^ 48, 1#8)] .ok).wellFormed = false := by decide

theorem test_wellFormed_accepted :
    (Instr.registerWrite 0x20 0#32 0xF#4).wellFormed = true ∧
      (Instr.arbiterGrant [(2 ^ 48 - 1, 1#8)] .ok).wellFormed = true ∧
      Instr.mark.wellFormed = true := by decide

/-! ### The queue and time -/

theorem test_step_runs_the_front :
    (after { on with pending := [.tickLo, .mark] }).map (fun t => (t.pending, t.readData))
      = some ([.mark], 1000#32) := by decide +kernel

theorem test_tick_counts_in_on :
    on.pending = [] ∧ on.dueCommands = [] ∧ (after on).map (·.now) = some 1001#48 := by
  decide +kernel

theorem test_tick_holds_in_off :
    State.reset.pending = [] ∧ State.reset.dueCommands = [] ∧
      (after State.reset).map (·.now) = some 0#48 := by decide +kernel

/-- Bank 0 runs under divider 256 at this phase, line 0 samples under divider 64 at this one, and one
pin of bank 0 desires ON for this long. -/
def ticking (phase sample delay : Nat) : State :=
  ((bank0 (runs { live0 with divider := 256 }) on).modWave 0 fun w =>
    { w with
      phase
      pins := .all ⟨{ Pin.reset with desired := true, drive := .on, delay }, .reset⟩ }).setLine 0
    { line0 with phase := sample, cfg := { line0.cfg with divider := 64 } }

/-- The phases and the delay one step later. -/
def ticked (s : State) : Option ((Nat × Bool) × (Nat × Bool) × Nat) :=
  (after s).map fun t =>
    (((t.bank 0).wave.phase, (t.bank 0).wave.advanceDue),
      ((t.line 0).phase, (t.line 0).sampleDue), (t.bank 0).wave.pins.q0.primary.delay)

theorem witness_idle :
    ((ticking 254 62 1022).pending = [] ∧ (ticking 254 62 1022).dueCommands = []) ∧
      ((ticking 255 63 1023).pending = [] ∧ (ticking 255 63 1023).dueCommands = []) ∧
      (ticking 255 63 1023).resetHeld = false ∧
      (seq0 (ticking 255 63 1023)).plan.isRunning = true ∧
      (seq0 on).plan.isRunning = false ∧ ((ticking 255 63 1023).line 0).loaded = true ∧
      (on.line 0).loaded = false := by decide +kernel

theorem test_idle :
    ticked (ticking 254 62 1022) = some ((255, false), (63, false), 1023) ∧
      ticked (ticking 255 63 1023) = some ((0, true), (0, true), 1023) := by decide +kernel

/-- A word on an idle queue is taken before the tick passes. -/
theorem test_due_step_goes_first :
    (after (go (.sweepWrite (req 0 0 0)) on)).map (fun t => (t.now, result t))
      = some (1000#48, some (.replying .done)) := by decide +kernel

/-! ### The register window -/

theorem test_causeWrite :
    (go (.causeWrite 0x5#32) { on with cause := 0xF#16 }).cause = 0xA#16 := by decide +kernel

theorem test_causeEnable :
    (go (.causeEnable 0xFFFF1000#32) { on with cause := 0x1000#16 }).irq = true ∧
      (go (.causeEnable 0x0FFF#32) { on with cause := 0x1000#16 }).irq = false := by decide +kernel

theorem test_tickLo :
    (go .tickLo { on with now := 0xABCD12345678#48 }).readData = 0x12345678#32 ∧
      (go .tickLo { on with now := 0xABCD12345678#48 }).readRegister 0x20 = 0xABCD#32 := by
  decide +kernel

theorem witness_tickHi_kept : exec .mark on = .next on ∧ on.pending = [] := ⟨rfl, rfl⟩

/-- A queue of four words. -/
def full : State :=
  { on with sweep := { on.sweep with queue := [req 0 0 0, req 0 1 0, req 0 2 0, req 0 3 0] } }

/-- A queue of three words. -/
def three : State :=
  { on with sweep := { on.sweep with queue := [req 0 0 0, req 0 1 0, req 0 2 0] } }

theorem witness_sweepWrite :
    State.reset.engine.state ≠ .on ∧ on.resetHeld = false ∧
      (full.engine.state = .on ∧ full.sweep.queue.length = 4 ∧ req 0 3 0 ∈ full.sweep.queue) ∧
      (three.engine.state = .on ∧ three.sweep.queue.length = 3 ∧ req 0 2 0 ∈ three.sweep.queue ∧
        req 0 3 0 ∉ three.sweep.queue) := by decide +kernel

theorem test_sweepWrite :
    (go (.sweepWrite (req 0 3 0)) full).cause = 0x2000#16 ∧
      (go (.sweepWrite (req 0 2 0)) three) = three ∧
      (go (.sweepWrite (req 0 3 0)) three).sweep.queue = full.sweep.queue ∧
      (go (.sweepWrite (req 0 0 0)) State.reset).cause = 0x2000#16 := by decide +kernel

theorem test_registerWrite :
    (go (.registerWrite 0x0C 0xFFFF1234#32 0xF#4) on).readRegister 0x0C = 0x1234#32 ∧
      go (.registerWrite 0x0C 0xFFFF1234#32 0x7#4) on = on ∧
      go (.registerWrite 0x1C 1#32 0xF#4) on = on ∧ go (.registerWrite 0x24 1#32 0xF#4) on = on := by
  decide +kernel

theorem test_registerWrite_control :
    (go (.registerWrite 0x04 0x3#32 0xF#4) on).readRegister 0x04 = 0#32 ∧
      (go (.registerWrite 0x04 0x0#32 0xF#4) on).engine.state = .quiescing := by decide +kernel

theorem test_readRegister :
    on.readRegister 0x04 = 0x21#32 ∧ full.readRegister 0x10 = 0x104#32 ∧
      (State.reset.raise causePort).readRegister 0x14 = 0x4000#32 ∧
      on.readRegister 0x24 = 0#32 ∧ full.sweep.queue.length ≤ 4 := by decide +kernel

/-! ### Engine Control -/

/-- OFF, with the anchor registers at this address. -/
def off (a : BitVec 32) : State :=
  { State.reset with engine := { Engine.reset with anchorLo := a } }

theorem witness_run :
    ((off 0x1040#32).engine.run = false ∧ (off 0x1040#32).engine.state = .off ∧
        ((off 0x1040#32).engine.anchorHi ++ (off 0x1040#32).engine.anchorLo : Stamp).toNat % 64 = 0 ∧
        ((off 0x103F#32).engine.anchorHi ++ (off 0x103F#32).engine.anchorLo : Stamp).toNat % 64 ≠ 0) ∧
      (go (.run true) (off 0x1040#32)).engine.state = .booting ∧
      (go (.run true) (off 0x1040#32)).engine.run = true ∧
      (go (.run true) (off 0x103F#32)).engine.state = .anchorFault ∧
      (go (.run true) (off 0x103F#32)).engine.run = true ∧
      (go (.run false) on).engine.run = false ∧
      (go (.run false) on).engine.state = .quiescing := by decide +kernel

theorem test_run :
    (go (.run true) (off 0x1040#32)).engine.anchor = 0x1040#48 ∧
      (go (.run true) (off 0x103F#32)).engine.bootFault = .align ∧
      (go (.run false) (go (.run true) (off 0x1040#32))).engine.state = .off ∧
      (go (.run false) (go (.run true) (off 0x103F#32))).engine.state = .off ∧
      (go (.run true) (go (.run false) on)).engine.run = true ∧
      go (.run true) on = on := by decide +kernel

theorem test_quiesce_stops_a_running_bank :
    on.engine.run = true ∧ on.engine.state = .on ∧
      (seq0 (go (.run false) (bank0 (runs live0) on))).plan = .dormant ∧
      ((go (.run false) (held0 journal0 on)).journal 0).closing = true := by decide +kernel

theorem test_engineReset :
    (go (.engineReset true) (bank0 (runs live0) on)).banks = .all .reset ∧
      (go (.engineReset true) on).readRegister 0x08 = 0x1000#32 ∧
      (go (.engineReset true) on).readRegister 0x04 = 0#32 := by decide +kernel

theorem test_resetN :
    (go (.resetN false) on).readRegister 0x08 = 0#32 ∧
      (go (.resetN false) on).resetHeld = true ∧
      go (.causeEnable 1#32) (go (.resetN false) on) = go (.resetN false) on ∧
      (go (.resetN true) (go (.resetN false) on)).resetHeld = false := by decide +kernel

theorem witness_resetN_stores :
    exec (.arbiterGrant [(5, 1#8)] .ok) (go (.resetN false) on)
      = .next { go (.resetN false) on with memory := [(5, 1#8)] } := rfl

/-- A boot header with this table address and window count. -/
def header (table count : Nat) : List Byte :=
  bootSignature ++ leBytes 2 1 ++ leBytes 2 0 ++ leBytes 8 table ++ leBytes 2 count ++ leBytes 46 0

/-- BOOTING, the header read outstanding. -/
def booting (a : Option (List Byte)) : State :=
  outRead .boot a { off 0x1000#32 with
    engine := { (off 0x1000#32).engine with
      state := .booting, run := true, anchor := 0x1000#48, bootRead := true } }

theorem witness_boot :
    (booting none).Arriving 0 ⟨.boot, false, false, false, none⟩ ∧
      (booting none).engine.state = .booting ∧
      (parseBootHeader (header 0x2000 1)).check = .none ∧
      (parseBootHeader (header 0x2000 64)).check = .none ∧
      (parseBootHeader (header 0x2000 0)).check = .count ∧
      (parseBootHeader (header 0x2000 65)).check = .count ∧
      (parseBootHeader (header 0x2008 1)).check = .align := by
  unfold State.Arriving; decide +kernel

theorem test_bootHeader :
    (parseBootHeader (0x4A#8 :: (header 0x2008 0).tail)).check = .signature ∧
      (parseBootHeader ((header 0x2008 0).set 4 2#8)).check = .version ∧
      (parseBootHeader (header 0x2008 0)).check = .align := by decide +kernel

theorem test_boot :
    (go (.bootHeaderRead 0) (booting (some (header 0x2000 64)))).engine.state = .on ∧
      (go (.bootHeaderRead 0) (booting (some (header 0x2000 64)))).window.tableCount = 64 ∧
      (go (.bootHeaderRead 0) (booting (some (header 0x2000 65)))).engine.bootFault = .count ∧
      (go (.bootHeaderRead 0) (booting none)).cause = 0x8000#16 := by decide +kernel

/-- QUIESCING with nothing left to issue. -/
def quiesced (run : Bool) : State :=
  { on with engine := { on.engine with state := .quiescing, run } }

theorem test_quiesceComplete :
    (quiesced false).quiesceDone = true ∧ (quiesced true).quiesceDone = true ∧
      (go (.quiesceComplete .ok) (quiesced false)).engine.state = .off ∧
      (go (.quiesceComplete .ok) (quiesced true)).engine.state = .booting ∧
      (go (.quiesceComplete .ok) (quiesced false)).memory.read 0x1482 = 0xFF#8 := by decide +kernel

/-- A descriptor load that can be issued goes before the last write of a quiesce. -/
theorem test_quiesceComplete_waits_for_a_load :
    ((quiesced false).modBank 1 fun k =>
      { k with fifo := [⟨.load 3#8, .ready 0x2030 false⟩] }).quiesceDone = false := by decide +kernel

/-! ### Sweep requests -/

theorem witness_heads : (asked (req 0 0 0) on).Heads (req 0 0 0) [] := by
  unfold State.Heads; decide +kernel

theorem witness_targets :
    (action (req 1 4 0) = actBankStart ∧ 3 < (target (req 1 4 0)).toNat) ∧
      (action (req 0x10 8 0) = actJournalOpen ∧ 7 < (target (req 0x10 8 0)).toNat) ∧
      (action (req 2 4 0) = actBankStop ∧ 3 < (target (req 2 4 0)).toNat) ∧
      (action (req 0x11 8 0) = actJournalClose ∧ 7 < (target (req 0x11 8 0)).toNat) ∧
      action (req 0x77 0 0) ∉ actions ∧ action (req 0x30 0 0) = actWindowsFlush ∧
      bankNoOf (target (req 1 3 0)) = some 3 ∧ lineNoOf (target (req 0x10 7 0)) = some 7 := by
  decide +kernel

theorem test_targets_refused :
    result (go .bankStart (asked (req 1 4 0) on)) = some (.replying .refusedTarget) ∧
      result (go .journalClose (asked (req 0x11 8 0) on)) = some (.replying .refusedTarget) := by
  decide +kernel

theorem test_mark :
    result (go .mark (asked (req 0 0 0) on)) = some (.replying .done) ∧
      go .mark (asked (req 1 0 0) on) = asked (req 1 0 0) on := by decide +kernel

theorem test_unknownAction :
    result (go .unknownAction (asked (req 0x77 0 0) on)) = some (.replying .unknownAction) := by
  decide +kernel

theorem test_windowsFlush :
    (go .windowsFlush (asked (req 0x30 0 0) on)).window.cache = [] ∧
      result (go .windowsFlush (asked (req 0x30 0 0) on)) = some (.replying .done) := by
  decide +kernel

/-- A report. -/
def report0 : Report := ⟨.late, .none, sel0, 10#8, 900#48, .boundary⟩

theorem test_bankStart :
    result (go .bankStart (asked (req 1 0 0) on)) = some .record ∧
      (go .bankStart (asked (req 1 0 0) on)).port.class4 = some (.bankRecord 0) ∧
      result (go .bankStart (asked (req 1 0 0) (on.modFaults 0 fun f =>
        { f with report := some report0 }))) = some (.replying .refusedState) := by decide +kernel

theorem test_journalOpen :
    (go .journalOpen (asked (req 0x10 0 0) on)).port.class4 = some (.journalRecord 0) ∧
      result (go .journalOpen (asked (req 0x10 0 0) (on.setJournal 0 journal0)))
        = some (.replying .refusedState) := by decide +kernel

theorem test_lineLoad :
    (go .lineLoad (asked (req 0x20 7 0) on)).port.class4 = some (.lineRecord 7) := by decide +kernel

theorem witness_bankStop :
    (asked (req 2 0 1) (bank0 (runs live0) on)).Heads (req 2 0 1) [] ∧
      action (req 2 0 1) = actBankStop ∧ bankNoOf (target (req 2 0 1)) = some 0 ∧
      argument (req 2 0 1) = argNow ∧ argument (req 2 0 0) = argAtBoundary ∧
      (argument (req 2 0 2) ≠ argNow ∧ argument (req 2 0 2) ≠ argAtBoundary) ∧
      (runs live0).plan.isRunning = true ∧ Sequencer.reset.plan.isActive = false ∧
      ((loads none).plan.isActive = true ∧ (loads none).plan.isRunning = false) := by
  unfold State.Heads; decide +kernel

theorem test_bankStop :
    (seq0 (go .bankStop (asked (req 2 0 1) (bank0 (runs live0) on)))).stopReason = .stopped ∧
      (seq0 (go .bankStop (asked (req 2 0 0) (bank0 (runs live0) on)))).pendingStop = true ∧
      (seq0 (go .bankStop (asked (req 2 0 0) (bank0 (loads none) on)))).plan = .dormant ∧
      result (go .bankStop (asked (req 2 0 1) on)) = some (.replying .refusedState) ∧
      result (go .bankStop (asked (req 2 0 2) on)) = some (.replying .refusedConfig) := by
  decide +kernel

/-- PLAN_END of a stopped bank reaches the banks that await it. -/
theorem test_bankStop_sends_planEnd :
    Awaited (.cue 0 .planEnd) (awaiting (.cue 0 .planEnd) (bank0 (runs live0) on)) ∧
      taken (go .bankStop (asked (req 2 0 1) (awaiting (.cue 0 .planEnd) (bank0 (runs live0) on))))
        = (.set, .running) := by
  unfold Awaited; decide +kernel

/-- Bank 0 runs, and the link read of its live frame is in flight. -/
def linkFlies : State := outRead (.link 0) none (bank0 { runs live0 with linkRead := true } on)

/-- A stop, and a quiesce, discard the read in flight. -/
theorem test_stop_discards_the_reads :
    (seq0 linkFlies).plan.isActive = true ∧
      (go .bankStop (asked (req 2 0 1) linkFlies)).port.reads.map OutRead.discarded = [true] ∧
      (go (.run false) linkFlies).port.reads.map OutRead.discarded = [true] := by decide +kernel

/-- BANK_STOP of bank 0 in WAITING while an earlier frame's state write is held for its response. -/
def stopsBeside : State :=
  outWrite (.frameRetire 0 sel0 (some .spent)) false (asked (req 2 0 1) (bank0 waits on))

theorem test_bankStop_waits_for_its_own_writes :
    result (go .bankStop stopsBeside) = some (.answered .done (.frameWrites 0 [sel1])) ∧
      result (go (.arbiterGrant [] .ok) (go .bankStop stopsBeside))
        = some (.replying .done) := by decide +kernel

/-- LOADING with its head frame found EMPTY. -/
def unfetched (offset : Nat) : Sequencer :=
  { loads none with fetch := none, headSel := ⟨2#8, BitVec.ofNat 32 offset⟩ }

theorem witness_bankLook :
    (asked (req 3 0 0) (bank0 (unfetched 8) on)).Heads (req 3 0 0) [] ∧
      action (req 3 0 0) = actBankLook ∧ bankNoOf (target (req 3 0 0)) = some 0 ∧
      ((unfetched 8).plan = .loading ∧ (unfetched 8).fetch = none ∧
        ((unfetched 8).headSel.isNull || (unfetched 8).headSel.aligned) = true ∧
        ((unfetched 9).headSel.isNull || (unfetched 9).headSel.aligned) = false) ∧
      ((runs live0).live = some live0 ∧ (runs live0).tag = .empty ∧ (runs live0).linkRead = false) ∧
      (loads none).fetch ≠ none := by
  unfold State.Heads; decide +kernel

theorem test_bankLook :
    (seq0 (go .bankLook (asked (req 3 0 0) (bank0 (unfetched 8) on)))).fetch.isSome = true ∧
      (seq0 (go .bankLook (asked (req 3 0 0) (bank0 (unfetched 9) on)))).plan = .halted ∧
      (seq0 (go .bankLook (asked (req 3 0 0) (bank0 (runs live0) on)))).linkRead = true ∧
      seq0 (go .bankLook (asked (req 3 0 0) (bank0 (loads none) on))) = loads none := by
  decide +kernel

/-- Bank 0 with this gate, line 0 loaded with this filtered level. -/
def gated (g : Gate) (high : Bool) (q : Sequencer) : State :=
  ((bank0 q on).modGate 0 fun _ => g).setLine 0 { line0 with high }

/-- TRIPPED, line 0 selected. -/
def tripped (auto pending : Bool) : Gate :=
  { Gate.reset with tripped := true, swTrip := true, mask := 1#8, auto, rearmPending := pending }

/-- What bank 0's gate is after a BANK_REARM. -/
def rearmed (s : State) : Bool × Bool × Bool :=
  let g := ((go .bankRearm (asked (req 4 0 0) s)).bank 0).gate
  (g.tripped, g.swTrip, g.rearmPending)

theorem witness_bankRearm :
    (asked (req 4 0 0) on).Heads (req 4 0 0) [] ∧ action (req 4 0 0) = actBankRearm ∧
      bankNoOf (target (req 4 0 0)) = some 0 ∧ Gate.reset.tripped = false ∧
      (gated (tripped false false) true .reset).lineTrips 0 = true ∧
      (gated (tripped false false) false .reset).lineTrips 0 = false ∧
      (tripped false true).rearmPending = true ∧ (tripped true false).auto = true := by
  unfold State.Heads; decide +kernel

theorem test_bankRearm :
    rearmed (gated (tripped false false) true .reset) = (true, true, false) ∧
      rearmed (gated (tripped false false) false .reset) = (false, false, false) ∧
      rearmed (gated (tripped false false) false (runs live0)) = (true, false, true) ∧
      rearmed (gated (tripped false true) false (runs live0)) = (true, true, true) ∧
      rearmed (gated (tripped true false) false .reset) = (false, false, false) ∧
      rearmed (gated (tripped true false) true .reset) = (true, false, false) := by decide +kernel

theorem witness_bankTrip :
    (asked (req 5 0 0) on).Heads (req 5 0 0) [] ∧ action (req 5 0 0) = actBankTrip ∧
      bankNoOf (target (req 5 0 0)) = some 0 ∧ (tripped false true).tripped = true ∧
      Gate.reset.tripped = false := by
  unfold State.Heads; decide +kernel

theorem test_bankTrip :
    ((go .bankTrip (asked (req 5 0 0) on)).bank 0).gate.trips = 1#32 ∧
      (go .bankTrip (asked (req 5 0 0) on)).cause = 1#16 ∧
      ((go .bankTrip (asked (req 5 0 0) (gated (tripped false true) false .reset))).bank 0).gate
        = tripped false false := by decide +kernel

/-- A trip, a cancelled rearm, a reopening and a pending rearm each request a Bank Status write. -/
theorem test_gate_requests_report :
    ∀ t ∈ [go .bankTrip (asked (req 5 0 0) on),
        go .bankTrip (asked (req 5 0 0) (gated (tripped false true) false (runs live0))),
        go .bankRearm (asked (req 4 0 0) (gated (tripped false false) false .reset)),
        go .bankRearm (asked (req 4 0 0) (gated (tripped false false) false (runs live0)))],
      t.port.class3.map (·.1) = [.reply, .bank 0] := by decide +kernel

/-- HALTED with a report. -/
def halted : State :=
  (bank0 { Sequencer.reset with plan := .halted, stopReason := .fault } on).modFaults 0 fun f =>
    { f with report := some report0, further := 2#16, sticky := { f.sticky with late := true } }

theorem witness_bankAck :
    (asked (req 6 0 0) halted).Heads (req 6 0 0) [] ∧ action (req 6 0 0) = actBankAck ∧
      bankNoOf (target (req 6 0 0)) = some 0 ∧ (halted.bank 0).faults.report ≠ none ∧
      (seq0 halted).plan = .halted ∧ halted.engine.state = .on ∧
      ((on.bank 0).faults.report = none ∧ (on.bank 0).faults.further = 0#16 ∧
        (seq0 on).plan ≠ .halted) := by
  unfold State.Heads; decide +kernel

theorem test_bankAck :
    (seq0 (go .bankAck (asked (req 6 0 0) halted))).plan = .dormant ∧
      (seq0 (go .bankAck (asked (req 6 0 0) halted))).stopReason = .fault ∧
      ((go .bankAck (asked (req 6 0 0) halted)).bank 0).faults
        = { FaultLogic.reset with sticky := { Sticky.clear with late := true } } := by
  decide +kernel

theorem witness_journals :
    ((asked (req 0x11 0 0) on).Heads (req 0x11 0 0) [] ∧ action (req 0x11 0 0) = actJournalClose) ∧
      ((asked (req 0x12 0 0) on).Heads (req 0x12 0 0) [] ∧
        action (req 0x12 0 0) = actJournalLook) ∧
      lineNoOf (target (req 0x11 0 0)) = some 0 ∧ (on.journal 0).state = .closed ∧
      journal0.state = .opened := by
  unfold State.Heads; decide +kernel

/-- Journal 0 OPEN and line 0 armed for it. -/
def capturing : State := (on.setJournal 0 journal0).setLine 0 { line0 with armed := true }

theorem test_journalClose :
    ((go .journalClose (asked (req 0x11 0 0) capturing)).line 0).armed = false ∧
      result (go .journalClose (asked (req 0x11 0 0) capturing))
        = some (.answered .done (.journalWords 0)) ∧
      result (go .journalClose (asked (req 0x11 0 0) on)) = some (.replying .refusedState) := by
  decide +kernel

/-- Journal 0 FAULTED, an event held for it. -/
def faulted0 : State := held0 { journal0 with state := .faulted, fault := .bus } on

theorem witness_journalClose_ends :
    (∀ s ∈ [capturing, faulted0], (s.journal 0).state ≠ .closed ∧ (s.journal 0).step = .idle ∧
        (s.journal 0).rereadInFlight = false ∧
        (∀ i, i ≠ 0 → (s.journal i).closing = false) ∧ ∀ b, (s.bank b).toCheck = none) ∧
      ((capturing.journal 0).gap = 0#32 ∧ capturing.heldCount 0 = 0) ∧
      faulted0.heldCount 0 = 1 := by decide +kernel

theorem test_journalClose_ends :
    ((go .journalClose (asked (req 0x11 0 0) capturing)).journal 0).state = .closed ∧
      ((go .journalClose (asked (req 0x11 0 0) faulted0)).journal 0).missed = 1#32 ∧
      ((go .journalClose (asked (req 0x11 0 0) faulted0)).line 0).holding = none := by
  decide +kernel

theorem test_journalLook :
    ((go .journalLook (asked (req 0x12 0 0) capturing)).journal 0).fifo = [.reread] ∧
      result (go .journalLook (asked (req 0x12 0 0) on)) = some (.replying .refusedState) ∧
      result (go .journalLook (asked (req 0x12 0 0)
        (on.setJournal 0 { journal0 with state := .faulted }))) = some (.replying .done) := by
  decide +kernel

/-! ### Time events -/

/-- Line 0 with N of 2 and a sample due, the pin at these levels 2 ticks ago. -/
def sampling (n run : Nat) (pins : Byte) : State :=
  { on.setLine 0 { line0 with sampleDue := true, run, cfg := { line0.cfg with count := n } } with
    pinsAgo2 := pins }

theorem test_filterSample :
    ((sampling 2 0 1#8).edgeDue 0 = false ∧ ((sampling 2 0 1#8).line 0).loaded = true ∧
        ((sampling 2 0 1#8).line 0).sampleDue = true) ∧
      ((go (.filterSample 0) (sampling 2 0 1#8)).line 0).run = 1 ∧
      ((go (.filterSample 0) (sampling 2 1 0#8)).line 0).run = 0 := by decide +kernel

/-- Line 0 armed at an edge; bank 0's gate as given, selecting line 0; the holding register as
given. -/
def atEdge (g : Gate) (h : Option Event) : State :=
  let s := (sampling 1 0 1#8).modGate 0 fun _ => { g with mask := 1#8 }
  (s.setJournal 0 journal0).modLine 0 fun x => { x with armed := true, holding := h }

theorem witness_edge :
    (atEdge .reset none).edgeDue 0 = true ∧
      ((atEdge .reset none).bank 0).gate.mask.getLsbD 0 = true ∧
      (!((atEdge .reset none).line 0).high) = ((atEdge .reset none).line 0).cfg.tripHigh ∧
      ((atEdge .reset none).line 0).armed = true ∧
      ((atEdge .reset none).line 0).cfg.mode = .stamp ∧
      ((atEdge .reset none).line 0).cfg.select.takes ((atEdge .reset none).line 0).nextEdge = true ∧
      ((atEdge .reset none).line 0).prescaleCount + 1
        = ((atEdge .reset none).line 0).cfg.prescale ∧
      ((atEdge .reset none).journal 0).state ≠ .faulted ∧
      ((atEdge .reset none).bank 0).gate.tripped = false ∧
      ((atEdge (tripped false true) none).bank 0).gate.tripped = true ∧
      ((atEdge .reset (some event0)).line 0).holding ≠ none := by decide +kernel

theorem test_edge :
    ((go (.edge 0) (atEdge .reset none)).bank 0).gate.tripped = true ∧
      (((go (.edge 0) (atEdge .reset none)).line 0).holding.map (·.stamp)) = some 1000#48 ∧
      ((go (.edge 0) (atEdge .reset (some event0))).line 0).overruns = 1#16 ∧
      ((go (.edge 0) (atEdge (tripped false true) none)).bank 0).gate.rearmPending = false := by
  decide +kernel

/-- Line 0 at an edge with these items. -/
def lineAtEdge (f : Line → Line) : State := (atEdge .reset none).modLine 0 f

/-- Line 0 of this mode at a rising edge. -/
def edgeIn (f : LineConfig → LineConfig) : State := lineAtEdge fun x => { x with cfg := f x.cfg }

/-- Line 0 in WIDTH mode at an edge at this time, its width reference as given. -/
def widthAt (now : Stamp) (r : Option Stamp) : State :=
  { lineAtEdge fun x => { x with cfg := { x.cfg with mode := .width }, widthRef := r } with now }

/-- Line 0 at an edge, its journal FAULTED. -/
def edgeFaulted : State := (atEdge .reset none).modJournal 0 fun x => { x with state := .faulted }

theorem witness_edge_clauses :
    (∀ s ∈ [lineAtEdge fun x => { x with armed := false }, edgeIn fun c => { c with mode := .off },
        edgeIn fun c => { c with select := .fall }, edgeIn fun c => { c with select := .rise },
        edgeIn fun c => { c with prescale := 2 }, widthAt 5#48 none,
        widthAt 0xFFFFFFFF#48 (some 0#48), widthAt 0x100000000#48 (some 0#48), edgeFaulted,
        awaiting (.line 0 .rise) (atEdge .reset none)],
        s.resetHeld = false ∧ s.edgeDue 0 = true ∧ (s.line 0).high = false) ∧
      ((widthAt 5#48 none).line 0).armed = true ∧
      ((0xFFFFFFFF#48 - 0#48).toNat ≤ 0xFFFFFFFF ∧ 0xFFFFFFFF < (0x100000000#48 - 0#48).toNat) ∧
      ((edgeFaulted.line 0).holding = none ∧
        (edgeFaulted.journal (edgeFaulted.line 0).cfg.journal).state = .faulted) ∧
      Awaited (.line 0 .rise) (awaiting (.line 0 .rise) (atEdge .reset none)) := by
  unfold Awaited; decide +kernel

/-- The kind, value and SATURATED flag of the event line 0 holds after its edge. -/
def edgeEvent (s : State) : Option (EventKind × BitVec 32 × Bool) :=
  (((go (.edge 0) s).line 0).holding).map fun e => (e.kind, e.value, e.saturated)

theorem test_edge_events :
    edgeEvent (edgeIn fun c => { c with select := .fall }) = none ∧
      edgeEvent (widthAt 5#48 none) = none ∧
      edgeEvent (widthAt 0xFFFFFFFF#48 (some 0#48)) = some (.lowWidth, 0xFFFFFFFF#32, false) ∧
      edgeEvent (widthAt 0x100000000#48 (some 0#48)) = some (.lowWidth, 0xFFFFFFFF#32, true) ∧
      ((go (.edge 0) edgeFaulted).journal 0).missed = 1#32 ∧
      taken (go (.edge 0) (awaiting (.line 0 .rise) (atEdge .reset none)))
        = (.set, .running) := by decide +kernel

/-- TRIPPED in AUTO mode with no source active. -/
def autoDone : Gate := { tripped true false with swTrip := false }

/-- A falling edge ends the only source of an AUTO gate of bank 0. -/
def edgeEnds (q : Sequencer) : State :=
  (({ bank0 q (sampling 1 0 0#8) with pinsAgo2 := 0#8 }).modGate 0 fun _ => autoDone).modLine 0
    fun x => { x with high := true }

theorem test_edge_reopens_an_auto_gate :
    ((edgeEnds .reset).edgeDue 0 = true ∧ (edgeEnds (runs live0)).edgeDue 0 = true) ∧
      ((go (.edge 0) (edgeEnds .reset)).bank 0).gate.tripped = false ∧
      ((go (.edge 0) (edgeEnds (runs live0))).bank 0).gate.tripped = true ∧
      (go (.edge 0) (edgeEnds .reset)).port.class3.map (·.1) = [.bank 0, .line 0] ∧
      ((go (.edge 0) { edgeEnds .reset with engine := Engine.reset }).line 0).statusHeld
        = true := by decide +kernel

def triangle0 : Live := { live0 with countMode := .triangle }

theorem witness_counterAdvance :
    (counting live0 98 .up on).Advances 0 live0 99 .up ∧
      (counting triangle0 99 .up on).Advances 0 triangle0 100 .down ∧
      (counting triangle0 2 .down on).Advances 0 triangle0 1 .down := by
  unfold State.Advances State.AtAdvance; decide +kernel

theorem test_counterAdvance :
    ((go (.counterAdvance 0) (counting live0 98 .up on)).bank 0).wave.counter = 99 ∧
      ((go (.counterAdvance 0) (counting triangle0 99 .up on)).bank 0).wave.dir = .down := by
  decide +kernel

/-- Bank 0 steps to 99, channel 0 comparing with this, banks 1 and 2 awaiting its MATCH. -/
def matching (compare : Nat) : State :=
  awaiting (.cue 0 .matched) (counting live0 98 .up on) |>.modSeq 0 fun q =>
    { q with settings := .all ⟨.pwmA, true, compare, 0, 0⟩ }

theorem witness_counterAdvance_matches :
    (matching 99).Advances 0 live0 99 .up ∧ (matching 98).Advances 0 live0 99 .up ∧
      (seq0 (matching 99)).settings.q0.compare = 99 ∧
      (seq0 (matching 98)).settings.q0.compare ≠ 99 ∧
      Awaited (.cue 0 .matched) (matching 99) := by
  unfold State.Advances State.AtAdvance Awaited; decide +kernel

theorem test_counterAdvance_matches :
    taken (go (.counterAdvance 0) (matching 99)) = (.set, .running) ∧
      taken (go (.counterAdvance 0) (matching 98)) = (.armed, .waiting) := by decide +kernel

theorem witness_boundary :
    (counting { live0 with repeatRemaining := 1 } 99 .up on).AtBoundary 0
        { live0 with repeatRemaining := 1 } ∧
      (counting { triangle0 with repeatRemaining := 65535 } 1 .down on).AtBoundary 0
        { triangle0 with repeatRemaining := 65535 } := by
  unfold State.AtBoundary State.AtAdvance; decide +kernel

/-- Bank 0 at a boundary with a stop pending. -/
def stopping (v : Live) : State :=
  (counting v 99 .up on).modSeq 0 fun q => { q with pendingStop := true }

theorem test_boundary :
    (seq0 (go (.boundary 0) (counting { live0 with repeatRemaining := 1 } 99 .up on))).live
        = some { live0 with passes := 1#32 } ∧
      (seq0 (go (.boundary 0) (stopping { live0 with repeatRemaining := 1 }))).plan = .dormant := by
  decide +kernel

/-- Bank 0 at a boundary that is not final, its gate and its tag as given. -/
def innerAt (g : Gate) (f : Sequencer → Sequencer) : State :=
  ((counting { live0 with repeatRemaining := 1 } 99 .up on).modGate 0 fun _ => g).modSeq 0 f

theorem witness_boundary_clauses :
    (∀ s ∈ [innerAt (tripped false true) id, innerAt autoDone id, innerAt (tripped true false) id,
        innerAt .reset fun q => { q with linkRead := true }, stopping { live0 with
          repeatRemaining := 1 }], s.AtBoundary 0 { live0 with repeatRemaining := 1 }) ∧
      (innerAt autoDone id).lineTrips 0 = false ∧
      (seq0 (innerAt .reset fun q => { q with linkRead := true })).linkRead = true ∧
      (seq0 (stopping live0)).pendingStop = true := by
  unfold State.AtBoundary State.AtAdvance; decide +kernel

/-- Bank 0's gate after its boundary. -/
def gateAfter (s : State) : Bool := ((go (.boundary 0) s).bank 0).gate.tripped

theorem test_boundary_releases_the_gate :
    gateAfter (innerAt (tripped false true) id) = false ∧ gateAfter (innerAt autoDone id) = false ∧
      gateAfter (innerAt (tripped true false) id) = true ∧
      gateAfter (innerAt (tripped false false) id) = true := by decide +kernel

/-- BOUNDARY, MATCH of the next pass, and PLAN_END of a stop that was pending reach the other banks. -/
theorem test_boundary_sends :
    taken (go (.boundary 0) (awaiting (.cue 0 .boundary) (innerAt .reset id))) = (.set, .running) ∧
      taken (go (.boundary 0) (awaiting (.cue 0 .matched) (innerAt .reset id))) = (.set, .running) ∧
      taken (go (.boundary 0) (awaiting (.cue 0 .planEnd) (innerAt .reset fun q =>
        { q with pendingStop := true }))) = (.set, .running) := by decide +kernel

/-- The states below move bank 0 alone. -/
theorem coherent_of_bank0 {s : State} (q : Sequencer) (h : ∀ b, b ≠ 0 → (s.bank b).seq = .reset)
    (hq : seq0 s = q) (h0 : q.Coherent) : s.BanksCoherent := by
  intro b
  by_cases hb : b = 0
  · subst hb; change (seq0 s).Coherent; rw [hq]; exact h0
  · rw [h b hb]
    simp [Sequencer.Coherent, Sequencer.reset, PlanState.isRunning]

/-- Bank 0 at a final boundary with these items. -/
def finalAt (f : Sequencer → Sequencer) : State := (counting live0 99 .up on).modSeq 0 f

/-- The other forms of bank 0 that a final boundary tells apart. -/
def holdsNow (q : Sequencer) : Sequencer := { q with tag := .valid, staged := some copy1 }
def tagged (t : StagedTag) (q : Sequencer) : Sequencer :=
  { q with
    tag := t
    fetch := if t = .pending then some ⟨.successor, sel1, none, none, none⟩ else none }
def linking (q : Sequencer) : Sequencer := { q with linkRead := true }

theorem witness_finalBoundary :
    (∀ f ∈ [id, holdsNow, holdsCued .set, holdsCued .armed, tagged .rejected, tagged .pending,
        linking], (finalAt f).AtBoundary 0 live0) ∧
      (finalAt (tagged .pending)).AtBoundary 0 live0 ∧ live0.repeatRemaining = 0 ∧
      (finalAt holdsNow).resetHeld = false := by
  unfold State.AtBoundary State.AtAdvance; decide +kernel

theorem witness_finalBoundary_coherent :
    (stopping live0).BanksCoherent ∧ (finalAt id).BanksCoherent ∧
      (finalAt holdsNow).BanksCoherent ∧ (finalAt (holdsCued .set)).BanksCoherent ∧
      (finalAt (holdsCued .armed)).BanksCoherent ∧ (finalAt (tagged .rejected)).BanksCoherent ∧
      (finalAt (tagged .pending)).BanksCoherent ∧ (finalAt linking).BanksCoherent := by
  refine ⟨coherent_of_bank0 { runs live0 with pendingStop := true } ?_ ?_ ?_,
    coherent_of_bank0 (runs live0) ?_ ?_ ?_, coherent_of_bank0 (holdsNow (runs live0)) ?_ ?_ ?_,
    coherent_of_bank0 (holdsCued .set (runs live0)) ?_ ?_ ?_,
    coherent_of_bank0 (holdsCued .armed (runs live0)) ?_ ?_ ?_,
    coherent_of_bank0 (tagged .rejected (runs live0)) ?_ ?_ ?_,
    coherent_of_bank0 (tagged .pending (runs live0)) ?_ ?_ ?_,
    coherent_of_bank0 (linking (runs live0)) ?_ ?_ ?_⟩
  all_goals first
    | decide +kernel
    | simp [Sequencer.Coherent, runs, holdsNow, holdsCued, holdsFor, tagged, linking,
        Sequencer.reset, PlanState.isRunning, copy1, cued1]

theorem witness_finalBoundary_cued :
    cued1.start ≠ .now ∧ (seq0 (finalAt (holdsCued .armed))).awaited ≠ some (.cue 0 .boundary) ∧
      (∀ c, ((finalAt (holdsCued .armed)).bank c).seq.plan ≠ .waiting) ∧
      ((finalAt linking).bank 0).faults.masks.late = false ∧ live0.endAction = .hold := by
  decide +kernel

/-- A successor that awaits this bank's own boundary. -/
def ownBoundary : State := finalAt (holdsFor (.cue 0 .boundary) .armed)

theorem witness_finalBoundary_own :
    ownBoundary.AtBoundary 0 live0 ∧ (seq0 ownBoundary).pendingStop = false ∧
      (seq0 ownBoundary).latch = .armed ∧
      (seq0 ownBoundary).awaited = some (.cue 0 .boundary) := by
  unfold State.AtBoundary State.AtAdvance; decide +kernel

theorem witness_finalBoundary_own_coherent : ownBoundary.BanksCoherent := by
  refine coherent_of_bank0 (holdsFor (.cue 0 .boundary) .armed (runs live0)) ?_ ?_ ?_
  all_goals first
    | decide +kernel
    | simp [Sequencer.Coherent, runs, holdsFor, Sequencer.reset, PlanState.isRunning, copy1, cued1]

/-- The final boundary of bank 0. -/
def finished (s : State) : Sequencer := seq0 (go (.finalBoundary 0) s)

theorem test_finalBoundary :
    (finished (finalAt holdsNow)).live = some (copy1.live false) ∧
      (finished (finalAt (holdsCued .set))).live = some (cued1.live false) ∧
      (finished (finalAt (holdsCued .armed))).plan = .waiting ∧
      (finished (finalAt (holdsCued .armed))).timer = some 2024#48 ∧
      (finished (finalAt (tagged .rejected))).plan = .halted ∧
      (finished (finalAt (tagged .pending))).plan = .halted ∧
      (finished (finalAt linking)).plan = .halted ∧
      (finished (finalAt id)).plan = .starved ∧
      (finished (counting { live0 with endAction := .stop } 99 .up on)).stopReason = .ended ∧
      (finished (stopping live0)).stopReason = .stopped := by decide +kernel

theorem test_finalBoundary_writes_spent :
    (finished ownBoundary).live = some (copy1.live false) ∧
      ((go (.finalBoundary 0) (finalAt holdsNow)).bank 0).fifo.map (·.acc)
        = [.retire sel0 1000#48 1#32 0#8 (some .spent), .state sel1 .live, .link sel1] ∧
      ((go (.finalBoundary 0) (counting { live0 with endAction := .stop } 99 .up on)).bank
        0).fifo.map (·.acc) = [.retire sel0 1000#48 1#32 0#8 (some .spentEnd)] := by
  decide +kernel

/-- Banks 1 and 2 await a cue that a final boundary of bank 0 sends. -/
def finalFor (k : CueKind) (f : Sequencer → Sequencer) : State := awaiting (.cue 0 k) (finalAt f)

theorem witness_finalBoundary_sends (k : CueKind) :
    (finalFor k holdsNow).BanksCoherent ∧ (finalFor k (tagged .rejected)).BanksCoherent := by
  have all : ∀ q : Sequencer, q.Coherent →
      ∀ b, (((awaiting (.cue 0 k) (bank0 q on)).bank b).seq).Coherent := by
    intro q hq b
    fin_cases b
    · exact hq
    · change (holdsFor (.cue 0 k) .armed (runs live0)).Coherent
      simp [Sequencer.Coherent, holdsFor, runs, Sequencer.reset, PlanState.isRunning]
    · change (holdsFor (.cue 0 k) .armed waits).Coherent
      simp [Sequencer.Coherent, holdsFor, waits, holdsCued, Sequencer.reset, PlanState.isRunning]
    · change Sequencer.reset.Coherent
      simp [Sequencer.Coherent, Sequencer.reset, PlanState.isRunning]
  refine ⟨fun b => ?_, fun b => ?_⟩
  · have h := all (holdsNow (runs live0)) (by
      simp [Sequencer.Coherent, holdsNow, runs, Sequencer.reset, PlanState.isRunning, copy1]) b
    fin_cases b <;> exact h
  · have h := all (tagged .rejected (runs live0)) (by
      simp [Sequencer.Coherent, tagged, runs, Sequencer.reset, PlanState.isRunning]) b
    fin_cases b <;> exact h

theorem test_finalBoundary_sends :
    taken (go (.finalBoundary 0) (finalFor .boundary holdsNow)) = (.set, .running) ∧
      taken (go (.finalBoundary 0) (finalFor .frameStart holdsNow)) = (.set, .running) ∧
      taken (go (.finalBoundary 0) (finalFor .planEnd (tagged .rejected))) = (.set, .running) ∧
      taken (go (.finalBoundary 0) (finalFor .planEnd holdsNow)) = (.armed, .waiting) := by
  decide +kernel

/-- The LATE mask of bank 0 set. -/
def lateMasked (s : State) : State :=
  s.modFaults 0 fun f => { f with masks := { f.masks with late := true } }

theorem test_finalBoundary_late_masked :
    ((lateMasked (finalAt linking)).bank 0).faults.masks.late = true ∧
      (finished (lateMasked (finalAt linking))).live
        = some { live0 with passes := 1#32, extended := true } := by decide +kernel

/-- The link read in flight goes on, and none is requested beside it. -/
theorem test_finalBoundary_late_masked_reads :
    (finished (lateMasked (finalAt linking))).linkRead = true ∧
      ((go (.finalBoundary 0) (lateMasked (finalAt linking))).bank 0).fifo = [] ∧
      (finished (lateMasked (finalAt (tagged .pending)))).tag = .pending := by decide +kernel

/-- A stop is pending and a successor is VALID, at the boundary after this pass. -/
def stoppingValid (v : Live) : State := (stopping v).modSeq 0 holdsNow

theorem witness_boundary_stops_valid :
    (stoppingValid { live0 with repeatRemaining := 1 }).AtBoundary 0
        { live0 with repeatRemaining := 1 } ∧
      (stoppingValid live0).AtBoundary 0 live0 ∧ (seq0 (stoppingValid live0)).pendingStop = true ∧
      (seq0 (stoppingValid live0)).staged = some copy1 := by
  unfold State.AtBoundary State.AtAdvance; decide +kernel

theorem witness_finalBoundary_stops_valid : (stoppingValid live0).BanksCoherent := by
  refine coherent_of_bank0 { holdsNow (runs live0) with pendingStop := true } ?_ ?_ ?_
  all_goals first
    | decide +kernel
    | simp [Sequencer.Coherent, runs, holdsNow, Sequencer.reset, PlanState.isRunning, copy1]

theorem test_boundary_returns_the_staged :
    ((go (.boundary 0) (stoppingValid { live0 with repeatRemaining := 1 })).bank 0).fifo.map (·.acc)
        = [.retire sel0 1000#48 1#32 0#8 (some .cut), .state sel1 .ready] ∧
      ((go (.finalBoundary 0) (stoppingValid live0)).bank 0).fifo.map (·.acc)
        = [.retire sel0 1000#48 1#32 0#8 (some .spent), .state sel1 .ready] := by decide +kernel

/-- Bank 0 WAITING, the CUE_TIMEOUT mask as given. -/
def expiring (masked : Bool) : State :=
  (bank0 waits on).modFaults 0 fun f => { f with masks := { f.masks with cueTimeout := masked } }

theorem witness_cueTimeout :
    (expiring true).timeoutDue 0 = some cued1 ∧ (expiring false).timeoutDue 0 = some cued1 ∧
      ((expiring true).bank 0).faults.masks.cueTimeout = true ∧
      ((expiring false).bank 0).faults.report = none := by decide +kernel

theorem witness_cueTimeout_coherent :
    (expiring true).BanksCoherent ∧ (expiring false).BanksCoherent := by
  refine ⟨coherent_of_bank0 waits ?_ ?_ ?_, coherent_of_bank0 waits ?_ ?_ ?_⟩
  all_goals first
    | decide +kernel
    | simp [Sequencer.Coherent, waits, holdsCued, holdsFor, Sequencer.reset, PlanState.isRunning,
        cued1]

theorem test_cueTimeout :
    (seq0 (go (.cueTimeout 0) (expiring true))).live = some (cued1.live true) ∧
      (seq0 (go (.cueTimeout 0) (expiring false))).plan = .halted := by decide +kernel

/-- Bank 0 in channel 0 with dead-rise 20, its primary pin desiring ON for `n` ticks. -/
def delaying (n : Nat) : State :=
  ((bank0 { runs live0 with settings := .all ⟨.pwmA, true, 50, 20, 20⟩ } on).modWave 0 fun w =>
    { w with pins := .all ⟨{ Pin.reset with desired := true, delay := n, drive := .off }, .reset⟩ })

theorem test_onDelayReached :
    ((delaying 20).bank 0).onDelayDone 0 false = true ∧
      ((go (.onDelayReached 0 0 false) (delaying 20)).bank 0).wave.pins.q0.primary.drive = .on ∧
      go (.onDelayReached 0 0 false) (delaying 19) = delaying 19 := by decide +kernel

theorem witness_onDelayReached :
    (delaying 20).resetHeld = false ∧ (delaying 20).dueMoves = [] ∧
      (seq0 (delaying 20)).started = true ∧
      (((delaying 20).bank 0).wave.pins.get 0).primary.desired = true ∧
      (((delaying 20).bank 0).wave.pins.get 0).primary.drive ≠ .on ∧
      ((seq0 (delaying 20)).settings.get 0).deadRise ≤
        (((delaying 20).bank 0).wave.pins.get 0).primary.delay := by decide +kernel

/-- An advance due on the tick may take the desired level away: it comes first. -/
def delayingAtMatch : State := (delaying 20).modWave 0 fun w =>
  { w with counter := 49, advanceDue := true, lastRef := .all true }

theorem test_onDelayReached_waits_for_the_advance :
    go (.onDelayReached 0 0 false) delayingAtMatch = delayingAtMatch ∧
      ((go (.counterAdvance 0) delayingAtMatch).bank 0).wave.pins.q0.primary.desired = false := by
  decide +kernel

/-- Journal 0 with no free room. -/
def journalFull : Journal := { journal0 with produce := 4#16 }

theorem witness_journalStep :
    (held0 journal0 on).stepDue 0 = some 0 ∧ (held0 journalFull on).stepDue 0 = some 0 ∧
      journalFull.room = 0 ∧ journal0.room = 4 ∧ journal0.gap = 0#32 ∧
      journal0.window.toNat < on.window.tableCount ∧
      cacheFind journal0.window on.window.cache
        = some ⟨0x10000, 0xFFF, true, true, true, 3#8⟩ ∧
      judgeDescriptor ⟨0x10000, 0xFFF, true, true, true, 3#8⟩ 0 16 true 1#8 = .pass 0x10000 ∧
      judgeDescriptor ⟨0x10000, 0xFFF, true, true, true, 3#8⟩ 0xFF0 16 true 1#8 = .pass 0x10FF0 ∧
      judgeDescriptor ⟨0x10000, 0xFFF, true, true, true, 3#8⟩ 0xFF8 16 true 1#8 = .fail .limit := by
  decide +kernel

theorem test_journalStep :
    ((go (.journalStep 0) (held0 journal0 on)).journal 0).fifo = [.record 0x10000 false] ∧
      ((go (.journalStep 0) (held0 journalFull on)).journal 0).step = .reread (some 0) ∧
      ((go (.journalStep 0) (held0 { journal0 with ringOffset := 0x1000 } on)).journal 0).fault
        = .limit := by decide +kernel

/-- A pending gap, with this much free room. -/
def gapped (room : BitVec 16) : Journal := { journal0 with gap := 2#32, produce := 4#16 - room }

theorem witness_journalStep_clauses :
    (∀ x ∈ [gapped 1#16, gapped 2#16, { journal0 with window := 16#8 },
        { journal0 with window := 15#8 }, { journal0 with ringOffset := 0x1000 }],
        (held0 x on).resetHeld = false ∧ (held0 x on).stepDue 0 = some 0 ∧ x.room ≠ 0) ∧
      ((gapped 1#16).room = 1 ∧ (gapped 1#16).gap ≠ 0#32) ∧
      ((gapped 2#16).room = 2 ∧ (gapped 2#16).gap ≠ 0#32) ∧
      on.window.tableCount ≤ (16#8 : Byte).toNat ∧
      ((15#8 : Byte).toNat < on.window.tableCount ∧ cacheFind 15#8 on.window.cache = none ∧
        loadFind 15#8 on.window.loads = none) ∧
      (held0 journal0 on).heldFor 0 0 ≠ none := by decide +kernel

/-- Journal 0 after its step. -/
def stepped (x : Journal) : Journal := (go (.journalStep 0) (held0 x on)).journal 0

theorem test_journalStep_clauses :
    (stepped (gapped 1#16)).step = .write (.gapThenMiss 0) ∧
      (stepped (gapped 2#16)).step = .write (.gapThenEvent 0) ∧
      (stepped { journal0 with window := 16#8 }).fault = .index ∧
      (stepped { journal0 with window := 15#8 }).fifo = [.load 15#8] := by decide +kernel

/-! ### Arrivals -/

theorem test_discardedRead :
    go (.linkRead 0) { on with
      port := { on.port with reads := [⟨.link 0, true, false, false, none⟩] } } = on := by
  decide +kernel

/-- A frame header: kind, state, entry count, form of start, period. -/
def frame (kind state count form period : Nat) : List Byte :=
  [kind, state, count, 0, 1, form, 0, 0].map (BitVec.ofNat 8) ++ leBytes 2 0 ++ leBytes 2 1
    ++ leBytes 4 period ++ leBytes 8 0 ++ [0xFF#8] ++ leBytes 23 0

/-- A header awaited by a LOADING bank 0, or by a running one for its successor. -/
def headArrives (a : Option (List Byte)) : State := outRead (.header 0) a (bank0 (loads none) on)
def nextArrives (a : Option (List Byte)) : State :=
  outRead (.header 0) a (bank0 (tagged .pending (runs live0)) on)

theorem witness_headerRead :
    (headArrives none).Arriving 0 ⟨.header 0, false, false, false, none⟩ ∧
      (nextArrives none).Arriving 0 ⟨.header 0, false, false, false, none⟩ ∧
      (seq0 (headArrives none)).fetch = some ⟨.head, sel0, none, none, none⟩ ∧
      (seq0 (nextArrives none)).fetch = some ⟨.successor, sel1, none, none, none⟩ ∧
      (parseHeader (frame 0xA5 0 0 0 100)).state = 0#8 ∧
      ((parseHeader (frame 0xA4 1 0 0 100)).state ≠ 0#8 ∧
        (parseHeader (frame 0xA4 1 0 0 100)).kind ≠ 0xA5#8) ∧
      ((parseHeader (frame 0xA5 1 4 0 100)).check = .good .ramp .stop .now ∧
        (parseHeader (frame 0xA5 1 4 0 100)).entryCount ≠ 0#8) ∧
      (parseHeader (frame 0xA5 1 5 0 100)).check = .bad .entryCount 2 true := by
  unfold State.Arriving; decide +kernel

theorem witness_headerRead_coherent :
    (headArrives none).BanksCoherent ∧ (nextArrives none).BanksCoherent := by
  refine ⟨coherent_of_bank0 (loads none) ?_ ?_ ?_,
    coherent_of_bank0 (tagged .pending (runs live0)) ?_ ?_ ?_⟩
  all_goals first
    | decide +kernel
    | simp [Sequencer.Coherent, loads, tagged, runs, Sequencer.reset, PlanState.isRunning]

theorem test_headerRead :
    (seq0 (go (.headerRead 0) (headArrives none))).plan = .halted ∧
      (seq0 (go (.headerRead 0) (headArrives (some (frame 0xA5 0 0 0 100))))).plan = .loading ∧
      (seq0 (go (.headerRead 0) (nextArrives (some (frame 0xA4 1 0 0 100))))).tag = .rejected ∧
      ((go (.headerRead 0) (headArrives (some (frame 0xA5 1 4 0 100)))).bank 0).fifo
        = [⟨.entry sel0 4, .ready 0x10030 false⟩] := by decide +kernel

/-- A head frame that fails halts its bank: the read is outstanding no more, and PLAN_END reaches the
banks that await it. -/
theorem test_headerRead_halts :
    Awaited (.cue 0 .planEnd) (awaiting (.cue 0 .planEnd) (headArrives none)) ∧
      taken (go (.headerRead 0) (awaiting (.cue 0 .planEnd) (headArrives none)))
        = (.set, .running) ∧
      (go (.headerRead 0) (headArrives none)).port.reads = [] := by
  unfold Awaited; decide +kernel

/-- One half of a split header read arrives; `half` is what came before it. -/
def headHalf (half : Option (Bool × Option (List Byte))) (second : Bool) (a : Option (List Byte)) :
    State :=
  { bank0 { loads none with fetch := some ⟨.head, sel0, none, half, none⟩ } on with
    port := { on.port with reads := [⟨.header 0, false, true, second, a⟩] } }

/-- The two halves of a good header. -/
def half1 : List Byte := (frame 0xA5 1 4 0 100).take 16
def half2 : List Byte := (frame 0xA5 1 4 0 100).drop 16

theorem witness_headerRead_halves :
    (∀ s ∈ [headHalf none true (some half2), headHalf none false none,
        headHalf (some (true, some half2)) false (some half1),
        headHalf (some (false, none)) true (some half2)],
        s.resetHeld = false ∧ (∃ r, s.readAt 0 = some r ∧ r.discarded = false) ∧
          (seq0 s).fetch.isSome = true) ∧
      Fetch.gather ⟨.head, sel0, none, none, none⟩ ⟨.header 0, false, true, true, some half2⟩
        = none ∧
      Fetch.gather ⟨.head, sel0, none, some (true, some half2), none⟩
        ⟨.header 0, false, true, false, some half1⟩ = some (some (frame 0xA5 1 4 0 100)) ∧
      Fetch.gather ⟨.head, sel0, none, some (false, none), none⟩
        ⟨.header 0, false, true, true, some half2⟩ = some none := by
  refine ⟨?_, by decide +kernel, by decide +kernel, by decide +kernel⟩
  simp only [List.forall_mem_cons]
  refine ⟨⟨rfl, ⟨_, rfl, rfl⟩, rfl⟩, ⟨rfl, ⟨_, rfl, rfl⟩, rfl⟩, ⟨rfl, ⟨_, rfl, rfl⟩, rfl⟩,
    ⟨rfl, ⟨_, rfl, rfl⟩, rfl⟩, by simp⟩

theorem test_headerRead_halves :
    ((seq0 (go (.headerRead 0) (headHalf none true (some half2)))).fetch.bind Fetch.half)
        = some (true, some half2) ∧
      ((go (.headerRead 0) (headHalf (some (true, some half2)) false (some half1))).bank 0).fifo
        = [⟨.entry sel0 4, .ready 0x10030 false⟩] ∧
      (seq0 (go (.headerRead 0) (headHalf (some (false, none)) true (some half2)))).plan
        = .halted := by decide +kernel

/-- A frame with an entry count of 5 is written REJECTED, its retire fields first. -/
theorem test_headerRead_rejects :
    ((go (.headerRead 0) (nextArrives (some (frame 0xA5 1 5 0 100)))).bank 0).fifo
        = [⟨.retire sel1 1000#48 0#32 0#8 (some .rejected), .ready 0x100A0 false⟩] := by
  decide +kernel

theorem witness_shortFrames :
    checkEntries 0 [] [] = .ok [] ∧
      rangeFrame false (parseHeader (frame 0xA5 1 0 0 64)) [] = .ok (1, 64, []) false ∧
      rangeFrame false (parseHeader (frame 0xA5 1 0 0 63)) [] = .ok (1, 63, []) false ∧
      rangeFrame false (parseHeader (frame 0xA5 1 0 0 1)) [] = .bad 8 false ∧
      passTicks .ramp 1 64 = 64 ∧ passTicks .ramp 1 63 < 64 ∧ passTicks .triangle 1 32 = 64 ∧
      passTicks .triangle 1 31 < 64 := ⟨rfl, rfl, rfl, rfl, by decide +kernel⟩

/-- A header of this divider and period. -/
def ranged (divider period : Nat) : Header :=
  { parseHeader (frame 0xA5 1 0 0 period) with divider }

/-- One entry for channel 2 with this compare value and these dead times. -/
def entryOf (compare deadRise deadFall : Nat) : List (ChanNo × ChanMode × Entry) :=
  [(2, .pwmA, { parseEntry [2#8, 1#8, 1#8] with compare, deadRise, deadFall })]

theorem test_shortFrames_unmasked :
    rangeFrame false (ranged 0 2) [] = .bad 7 false ∧
      rangeFrame false (ranged 257 2) [] = .bad 7 false ∧
      rangeFrame false (ranged 1 1) [] = .bad 8 false ∧
      rangeFrame false (ranged 1 16777216) [] = .bad 8 false ∧
      rangeFrame false (ranged 256 16777215) [] = .ok (256, 16777215, []) false ∧
      rangeEntries false 100 0 (entryOf 101 0 0) = .bad 19 false ∧
      rangeEntries false 100 0 (entryOf 100 1024 0) = .bad 20 false ∧
      rangeEntries false 100 0 (entryOf 100 1023 1024) = .bad 21 false :=
  ⟨rfl, rfl, rfl, rfl, rfl, rfl, rfl, rfl⟩

theorem test_shortFrames_masked :
    rangeFrame true (ranged 0 1) [] = .ok (1, 2, []) true ∧
      rangeFrame true (ranged 257 16777216) [] = .ok (256, 16777215, []) true ∧
      rangeFrame true (ranged 1 100) (entryOf 101 1024 1024)
        = .ok (1, 100, [(2, ⟨.pwmA, true, 100, 1023, 1023⟩)]) true ∧
      rangeFrame true (ranged 1 100) (entryOf 100 1023 1023)
        = .ok (1, 100, [(2, ⟨.pwmA, true, 100, 1023, 1023⟩)]) false :=
  ⟨rfl, rfl, rfl, rfl⟩

/-- A channel entry: channel, PWM_A, partner enabled, compare 50, dead times 5 and 6. -/
def entry (c : Nat) : List Byte :=
  [c, 1, 1, 0].map (BitVec.ofNat 8) ++ leBytes 4 50 ++ leBytes 2 5 ++ leBytes 2 6 ++ leBytes 4 0

/-- The entries of a frame with one entry arrive, for the head frame and for a successor. -/
def headEntries (form : Nat) (bs : List Byte) : State :=
  outRead (.entry 0) (some bs) (bank0 (loads (some (parseHeader (frame 0xA5 1 1 form 100)))) on)
def nextEntries (bs : List Byte) : State :=
  outRead (.entry 0) (some bs) (bank0 { runs live0 with
    tag := .pending
    fetch := some ⟨.successor, sel1, some (parseHeader (frame 0xA5 1 1 0 100)), none, none⟩ } on)

/-- The copy those entries give. -/
def copied (sel : Selector) (start : StartCond) : FrameCopy :=
  { copy1 with sel, start, entries := [(2, ⟨.pwmA, true, 50, 5, 6⟩)] }

theorem witness_entryRead :
    (headEntries 0 (entry 2)).Arriving 0 ⟨.entry 0, false, false, false, some (entry 2)⟩ ∧
      (nextEntries (entry 2)).Arriving 0 ⟨.entry 0, false, false, false, some (entry 2)⟩ ∧
      (parseHeader (frame 0xA5 1 1 1 100)).check = .good .ramp .stop (.cue 0 .frameStart) ∧
      checkFrame .reset sel0 (parseHeader (frame 0xA5 1 1 0 100)) .ramp .stop .now
        (parseEntries 1 (entry 2)) = .staged (copied sel0 .now) ∧
      checkFrame .reset sel0 (parseHeader (frame 0xA5 1 1 1 100)) .ramp .stop (.cue 0 .frameStart)
        (parseEntries 1 (entry 2)) = .staged (copied sel0 (.cue 0 .frameStart)) := by
  unfold State.Arriving; decide +kernel

theorem witness_entryRead_coherent :
    (headEntries 0 (entry 2)).BanksCoherent ∧ (nextEntries (entry 2)).BanksCoherent := by
  refine ⟨coherent_of_bank0 (loads (some (parseHeader (frame 0xA5 1 1 0 100)))) ?_ ?_ ?_,
    coherent_of_bank0 { runs live0 with
      tag := .pending
      fetch := some ⟨.successor, sel1, some (parseHeader (frame 0xA5 1 1 0 100)), none, none⟩ }
      ?_ ?_ ?_⟩
  all_goals first
    | decide +kernel
    | simp [Sequencer.Coherent, loads, runs, Sequencer.reset, PlanState.isRunning]

theorem test_entryRead :
    ((go (.entryRead 0) (headEntries 0 (entry 2))).bank 0).fifo
        = [⟨.state sel0 .staged, .ready 0x10001 false⟩] ∧
      ((seq0 (go (.entryRead 0) (headEntries 1 (entry 2)))).fetch.bind Fetch.copy)
        = some (copied sel0 (.cue 0 .frameStart)) ∧
      (seq0 (go (.entryRead 0) (nextEntries (entry 2)))).tag = .pending ∧
      (seq0 (go (.entryRead 0) (headEntries 0 (entry 4)))).plan = .halted := by decide +kernel

/-- Bank 0 with the STAGED write of a checked copy next to be issued. -/
def staging (q : Sequencer) (role : Role) (copy : FrameCopy) : State :=
  (bank0 { q with fetch := some ⟨role, copy.sel, none, none, some copy⟩ } on).modBank 0 fun k =>
    { k with fifo := [⟨.state copy.sel .staged, .ready 0x10081 false⟩] }

theorem witness_staging :
    (∀ s ∈ [staging (tagged .pending (runs live0)) .successor copy1, staging (loads none) .head copy1,
        staging (loads none) .head cued1], s.resetHeld = false ∧
        s.choose = some (.frame 0 (.state sel1 .staged) 0x10081 false)) ∧
      copy1.start = .now ∧ cued1.start ≠ .now := by decide +kernel

theorem witness_staging_coherent :
    (staging (tagged .pending (runs live0)) .successor copy1).BanksCoherent ∧
      (staging (loads none) .head copy1).BanksCoherent ∧
      (staging (loads none) .head cued1).BanksCoherent := by
  refine ⟨coherent_of_bank0 { tagged .pending (runs live0) with
      fetch := some ⟨.successor, sel1, none, none, some copy1⟩ } ?_ ?_ ?_,
    coherent_of_bank0 { loads none with fetch := some ⟨.head, sel1, none, none, some copy1⟩ } ?_ ?_ ?_,
    coherent_of_bank0 { loads none with fetch := some ⟨.head, sel1, none, none, some cued1⟩ } ?_ ?_ ?_⟩
  all_goals first
    | decide +kernel
    | simp [Sequencer.Coherent, loads, tagged, runs, Sequencer.reset, PlanState.isRunning]

/-- Bank 0 once that write is granted. -/
def staged (s : State) : Sequencer := seq0 (go (.arbiterGrant [] .ok) s)

theorem test_staging :
    (staged (staging (tagged .pending (runs live0)) .successor copy1)).tag = .valid ∧
      (staged (staging (loads none) .head copy1)).live = some (copy1.live false) ∧
      (staged (staging (loads none) .head cued1)).plan = .waiting ∧
      (staged (staging (loads none) .head cued1)).latch = .armed := by decide +kernel

theorem witness_checkEntries :
    bankNoOf 4#8 = none ∧ bankNoOf 3#8 = some 3 ∧ (3 : ChanNo) ∈ [(3 : ChanNo)] ∧
      (3 : ChanNo) ∉ [(2 : ChanNo)] ∧ chanModeOf 6#8 = none ∧ chanModeOf 5#8 ≠ none := by
  decide +kernel

/-- A link read arrives. -/
def linkArrives (a : Option (List Byte)) : State := outRead (.link 0) a (bank0 { runs live0 with linkRead := true } on)

/-- The 8 bytes of a selector in memory. -/
def linkTo (index offset : Nat) : List Byte :=
  leBytes 1 index ++ leBytes 3 0 ++ leBytes 4 offset

theorem witness_linkRead :
    (linkArrives none).Arriving 0 ⟨.link 0, false, false, false, none⟩ ∧
      (seq0 (linkArrives none)).linkRead = true ∧ (selectorAt (linkTo 0xFF 1) 0).index = 0xFF#8 ∧
      ((selectorAt (linkTo 0xFE 1) 0).index ≠ 0xFF#8 ∧
        (selectorAt (linkTo 0xFE 1) 0).offset.toNat % 8 ≠ 0) ∧
      (selectorAt (linkTo 2 0x80) 0).offset.toNat % 8 = 0 := by
  unfold State.Arriving; decide +kernel

theorem test_linkRead :
    (seq0 (go (.linkRead 0) (linkArrives none))).tag = .rejected ∧
      (seq0 (go (.linkRead 0) (linkArrives (some (linkTo 0xFF 1))))).tag = .empty ∧
      (seq0 (go (.linkRead 0) (linkArrives (some (linkTo 2 0x81))))).tag = .rejected ∧
      (seq0 (go (.linkRead 0) (linkArrives (some (linkTo 2 0x80))))).fetch
        = some ⟨.successor, sel1, none, none, none⟩ := by decide +kernel

/-- A Journal Record of window 2, domain 3, capacity 4. -/
def journal0Record : JournalRecord := parseJournalRecord
  ([2, 3, 2, 0].map (BitVec.ofNat 8) ++ leBytes 4 0 ++ leBytes 2 3 ++ leBytes 22 0)

/-- A descriptor of window 3: 4096 bytes at 20000h. -/
def descr : List Byte := leBytes 6 0x20000 ++ [7#8, 3#8] ++ leBytes 4 0xFFF ++ leBytes 4 0

/-- A descriptor load of window 3 arrives; these wait on it. -/
def loadArrives (a : Option (List Byte)) (stale : Bool) (w : List Requester) (s : State) : State :=
  outRead (.descriptor 3#8) a
    { s with window := { s.window with loads := [⟨3#8, stale, w⟩] } }

/-- A frame of window 3 at this offset. -/
def in3 (offset : Nat) : Selector := ⟨3#8, BitVec.ofNat 32 offset⟩

/-- Bank 0 reads its link, and the read waits on the load. -/
def linkWaits (offset : Nat) (a : Option (List Byte)) (stale : Bool) : State :=
  (loadArrives a stale [.bank 0 (.link (in3 offset))] (bank0 (linking (runs live0)) on)).modBank 0
    fun k => { k with fifo := [⟨.link (in3 offset), .waiting⟩] }

/-- Journal 0 in window 3, its record's check waiting on the load. -/
def recordWaits (ring : Nat) (a : Option (List Byte)) : State :=
  loadArrives a false [.journal 0] (held0
    { journal0 with window := 3#8, ringOffset := ring, step := .check (.event 0) } on)

/-- A Journal Record of window 3. -/
def ring3 (ring : Nat) : JournalRecord :=
  { journal0Record with window := 3#8, ringOffset := ring }

/-- JOURNAL_OPEN of journal 0 executes, its ring check waiting on the load. -/
def ringWaits (ring : Nat) (a : Option (List Byte)) (s : State) : State :=
  loadArrives a false [.ring 0]
    { s with sweep := { s.sweep with exec := some ⟨req 0x10 0 0, .ringCheck 0 (ring3 ring)⟩ } }

theorem witness_descriptorLoad :
    (∀ s ∈ [loadArrives none false [] on, loadArrives (some descr) false [] on,
        linkWaits 0 (some descr) true, linkWaits 0 (some descr) false, linkWaits 0x1000 none false,
        recordWaits 0 (some descr), ringWaits 0 (some descr) on],
        s.resetHeld = false ∧ s.port.reads.length = 1 ∧
          (loadFind 3#8 s.window.loads).isSome = true) ∧
      ((linkWaits 0 none false).bank 0).fifo = [⟨.link (in3 0), .waiting⟩] ∧
      ((recordWaits 0 none).journal 0).step = .check (.event 0) ∧
      judgeDescriptor (parseDescriptor descr) (0xFE0 + 0x18) 8 false 0#8 = .pass 0x20FF8 ∧
      judgeDescriptor (parseDescriptor descr) (0xFE8 + 0x18) 8 false 0#8 = .fail .limit ∧
      judgeDescriptor (parseDescriptor descr) 0xFF0 16 true 1#8 = .pass 0x20FF0 ∧
      judgeDescriptor (parseDescriptor descr) 0x1000 16 true 1#8 = .fail .limit ∧
      judgeDescriptor (parseDescriptor descr) 0xFC0 64 true 3#8 = .pass 0x20FC0 ∧
      judgeDescriptor (parseDescriptor descr) 0xFD0 64 true 3#8 = .fail .limit := by
  decide +kernel

theorem witness_descriptorLoad_coherent (a : Option (List Byte)) (stale : Bool) :
    (linkWaits 0 a stale).BanksCoherent := by
  refine coherent_of_bank0 (linking (runs live0)) ?_ rfl ?_
  · intro b hb
    fin_cases b
    · exact absurd rfl hb
    all_goals rfl
  · simp [Sequencer.Coherent, runs, linking, Sequencer.reset, PlanState.isRunning]

/-- Bank 0's requests once the load has arrived. -/
def loaded (s : State) : Bank := (go (.descriptorLoad 0) s).bank 0

theorem test_descriptorLoad :
    (go (.descriptorLoad 0) (loadArrives (some descr) false [] on)).window.cache.map (·.1)
        = [3#8, 2#8] ∧
      (go (.descriptorLoad 0) (loadArrives none false [] on)).window.cache.map (·.1) = [2#8] ∧
      (go (.descriptorLoad 0) (linkWaits 0 (some descr) true)).window.loads
        = [⟨3#8, false, [.bank 0 (.link (in3 0))]⟩] ∧
      (loaded (linkWaits 0 (some descr) false)).fifo
        = [⟨.link (in3 0), .ready 0x20018 false⟩] := by decide +kernel

theorem test_descriptorLoad_waiters :
    (loaded (linkWaits 0x1000 (some descr) false)).seq.tag = .rejected ∧
      (loaded (linkWaits 0 none false)).faults.sticky.bus = true ∧
      ((go (.descriptorLoad 0) (recordWaits 0xFF0 (some descr))).journal 0).fifo
        = [.record 0x20FF0 false] ∧
      ((go (.descriptorLoad 0) (recordWaits 0 none)).journal 0).fault = .descriptor ∧
      result (go (.descriptorLoad 0) (ringWaits 0xFC0 (some descr) on))
        = some (.answered .done (.journalWords 0)) ∧
      result (go (.descriptorLoad 0) (ringWaits 0 none (quiesced false)))
        = some (.replying .refusedPort) := by decide +kernel

/-- Two accesses of bank 0 wait on the load: its link read and a state write. -/
def twoWait : State :=
  (loadArrives (some descr) false [.bank 0 (.link (in3 0)), .bank 0 (.state (in3 0x80) .spent)]
    (bank0 (linking (runs live0)) on)).modBank 0
    fun k => { k with fifo := [⟨.link (in3 0), .waiting⟩, ⟨.state (in3 0x80) .spent, .waiting⟩] }

theorem witness_descriptorLoad_several :
    twoWait.window.loads = [⟨3#8, false, [(FrameAccess.link (in3 0), 0x20018),
        (.state (in3 0x80) .spent, 0x20081)].map fun a => .bank 0 a.1⟩] ∧
      judgeDescriptor (parseDescriptor descr) 0x18 8 false 0#8 = .pass 0x20018 ∧
      judgeDescriptor (parseDescriptor descr) 0x81 1 true 0#8 = .pass 0x20081 ∧
      ((twoWait.bank 0).seq.domain = 0#8 ∧ twoWait.resetHeld = false) := by decide +kernel

/-- Both are offered in the order they began to wait, and the descriptor enters the cache. -/
theorem test_descriptorLoad_several :
    (loaded twoWait).fifo
        = [⟨.link (in3 0), .ready 0x20018 false⟩, ⟨.state (in3 0x80) .spent, .ready 0x20081 false⟩] ∧
      (go (.descriptorLoad 0) twoWait).window.cache.map (·.1) = [3#8, 2#8] ∧
      (go (.descriptorLoad 0) twoWait).window.loads = [] := by decide +kernel

/-- A consume re-read of journal 0, full at produce index 4, arrives; line 0 holds no event. -/
def rereads (a : Option (List Byte)) : State :=
  outRead (.reread 0) a (on.setJournal 0 { journalFull with rereadInFlight := true })

/-- The 8 bytes read: the consume index at its place. -/
def consume (n : Nat) : List Byte := leBytes 2 3 ++ leBytes 2 0 ++ leBytes 2 n ++ leBytes 2 0

theorem witness_consumeReread :
    (rereads none).Arriving 0 ⟨.reread 0, false, false, false, none⟩ ∧
      ((rereads none).journal 0).state = .opened ∧ ((rereads none).journal 0).step = .idle ∧
      (((rereads none).journal 0).produce - BitVec.ofNat 16 (fieldAt (consume 0) 4 2)).toNat = 4 ∧
      (((rereads none).journal 0).produce
        - BitVec.ofNat 16 (fieldAt (consume 65535) 4 2)).toNat = 5 := by
  unfold State.Arriving; decide +kernel

theorem test_consumeReread :
    ((go (.consumeReread 0) (rereads (some (consume 0)))).journal 0).watermarkFlag = true ∧
      ((go (.consumeReread 0) (rereads (some (consume 65535)))).journal 0).fault = .consumeRange ∧
      (go (.consumeReread 0) (rereads none)).cause = 0x4000#16 := by decide +kernel

/-- The re-read arrives while this step of journal 0, full with this gap, is in progress; line 0
holds an event. -/
def rereadsIn (x : Journal) (a : Option (List Byte)) : State :=
  outRead (.reread 0) a (held0 { x with rereadInFlight := true } on)

/-- The step waits for the value, with this gap. -/
def awaitsValue (gap : BitVec 32) : Journal := { journalFull with step := .reread (some 0), gap }

theorem witness_consumeReread_steps :
    (∀ s ∈ [rereadsIn (awaitsValue 0#32) (some (consume 0)), rereadsIn (awaitsValue 0#32) none,
        rereadsIn { journalFull with step := .write (.event 0) } (some (consume 1))],
        s.resetHeld = false ∧ s.port.reads.length = 1 ∧ (s.journal 0).state = .opened ∧
          (s.journal 0).held = none ∧ (s.line 0).holding ≠ none) ∧
      (4#16 - BitVec.ofNat 16 (fieldAt (consume 0) 4 2)).toNat = journalFull.capacity ∧
      (4#16 - BitVec.ofNat 16 (fieldAt (consume 3) 4 2)).toNat < journalFull.capacity := by
  decide +kernel

/-- Journal 0 once the re-read has arrived. -/
def reread (x : Journal) (a : Option (List Byte)) : Journal :=
  (go (.consumeReread 0) (rereadsIn x a)).journal 0

theorem test_consumeReread_steps :
    (reread (awaitsValue 0#32) (some (consume 0))).gap = 1#32 ∧
      (reread (awaitsValue 0#32) none).missed = 1#32 ∧
      (reread (awaitsValue 0#32) (some (consume 1))).step = .write (.event 0) ∧
      (reread (awaitsValue 1#32) (some (consume 1))).step = .write (.gapThenMiss 0) ∧
      (reread (awaitsValue 1#32) (some (consume 2))).step = .write (.gapThenEvent 0) ∧
      (reread { journalFull with step := .write (.event 0) } (some (consume 1))).held
        = some 1#16 := by decide +kernel

/-- The re-read before the last GAP record of a close, with two free slots to come or none. -/
def lastGap : Journal :=
  { journalFull with step := .reread none, gap := 2#32, closing := true, lastGapDone := true }

theorem witness_consumeReread_lastGap :
    (rereadsIn lastGap none).Arriving 0 ⟨.reread 0, false, false, false, none⟩ ∧
      ((rereadsIn lastGap none).journal 0).step = .reread none ∧
      ((rereadsIn lastGap none).journal 0).held = none ∧
      ((rereadsIn lastGap none).journal 0).watermarkFlag = false ∧
      journalFull.watermark = 3 := by
  unfold State.Arriving; decide +kernel

theorem test_consumeReread_lastGap :
    (reread lastGap (some (consume 2))).step = .write .gapOnly ∧
      (reread lastGap (some (consume 2))).cached = 2#16 ∧
      (reread lastGap (some (consume 2))).watermarkFlag = false ∧
      (reread { lastGap with closing := false } (some (consume 0))).step = .idle ∧
      (reread { lastGap with closing := false } (some (consume 0))).gap = 2#32 ∧
      (reread { lastGap with closing := false } (some (consume 1))).watermarkFlag = true ∧
      (go (.consumeReread 0) (rereadsIn lastGap (some (consume 1)))).cause = 0x10#16 := by
  decide +kernel

/-- A Bank Record: head offset, domain, rearm code, rest levels. -/
def bankRecord (offset domain rearm rest : Nat) : List Byte :=
  leBytes 4 2 ++ leBytes 4 offset ++ [domain, 0, 0, rearm, 0, rest, 0].map (BitVec.ofNat 8)
    ++ leBytes 49 0

/-- The Bank Record read of bank 0 arrives. -/
def starts (a : Option (List Byte)) (s : State) : State := reading (req 1 0 0) (.bankRecord 0) a s

theorem witness_bankRecordRead :
    (starts none on).Arriving 0 ⟨.bankRecord 0, false, false, false, none⟩ ∧
      (starts none on).sweep.exec = some ⟨req 1 0 0, .record⟩ ∧
      (quiesced true).engine.state ≠ .on ∧
      (parseBankRecord (bankRecord 0 4 0 0)).check = none ∧
      (parseBankRecord (bankRecord 0 3 2 0)).check = none ∧
      (parseBankRecord (bankRecord 0 3 0 3)).check = none ∧
      (parseBankRecord (bankRecord 0 3 1 1)).check = some true ∧
      (halted.bank 0).startable = false ∧ (on.bank 0).startable = true ∧
      (parseBankRecord (bankRecord 8 0 0 0)).head.aligned = true ∧
      (parseBankRecord (bankRecord 9 0 0 0)).head.aligned = false := by
  unfold State.Arriving; decide +kernel

/-- The checks of a Bank Record at the ends of their ranges. -/
theorem test_bankRecord_check :
    (parseBankRecord (bankRecord 0 4 0 0)).check = none ∧
      (parseBankRecord (bankRecord 0 0 2 0)).check = none ∧
      (parseBankRecord (bankRecord 0 0 0 0xC0)).check = none ∧
      (parseBankRecord (bankRecord 0 0 0 0x99)).check = some false := by decide +kernel

theorem test_bankRecordRead :
    (seq0 (go (.bankRecordRead 0) (starts (some (bankRecord 8 3 1 1)) on))).plan = .loading ∧
      (seq0 (go (.bankRecordRead 0) (starts (some (bankRecord 9 3 1 1)) on))).plan = .halted ∧
      result (go (.bankRecordRead 0) (starts none on)) = some (.replying .refusedPort) ∧
      result (go (.bankRecordRead 0) (starts (some (bankRecord 8 4 1 1)) on))
        = some (.replying .refusedConfig) ∧
      result (go (.bankRecordRead 0) (starts (some (bankRecord 8 3 1 1)) halted))
        = some (.replying .refusedState) ∧
      result (go (.bankRecordRead 0) (starts (some (bankRecord 8 3 1 1)) (quiesced false)))
        = some (.replying .refusedState) := by decide +kernel

theorem test_bankRecordRead_drives_the_pins :
    ((go (.bankRecordRead 0) (starts (some (bankRecord 8 3 1 1)) on)).bank
        0).wave.pins.q0.primary.desired = true ∧
      ((go (.bankRecordRead 0) (starts (some (bankRecord 8 3 1 1)) on)).bank
        0).wave.pins.q0.partner.drive = .off := by decide +kernel

/-- The gate is judged under the record's trip mask: line 0, selected, stands at its trip level. -/
theorem test_bankRecordRead_judges_the_gate :
    (((gated .reset true .reset).bank 0).gate.rearmPending = false) ∧
      ((go (.bankRecordRead 0) (starts (some ((bankRecord 8 3 1 1).set 10 1#8))
        (gated .reset true .reset))).bank 0).gate.trips = 1#32 ∧
      ((go (.bankRecordRead 0) (starts (some ((bankRecord 8 3 1 1).set 10 1#8))
        (gated .reset false .reset))).bank 0).gate.tripped = false := by decide +kernel

/-- A Line Record: WIDTH, prescale, divider, N. -/
def lineRecord (prescale divider n : Nat) : List Byte :=
  [2, 0, prescale, divider, n, 0, 1].map (BitVec.ofNat 8) ++ leBytes 9 0

/-- The Line Record read of line 0 arrives. -/
def loadsLine (a : Option (List Byte)) : State :=
  reading (req 0x20 0 0) (.lineRecord 0) a { on with pinsAgo2 := 1#8 }

theorem witness_lineRecordRead :
    (loadsLine none).Arriving 0 ⟨.lineRecord 0, false, false, false, none⟩ ∧
      (loadsLine none).sweep.exec = some ⟨req 0x20 0 0, .record⟩ ∧
      parseLineRecord (lineRecord 3 1 1) = none ∧ parseLineRecord (lineRecord 1 65 1) = none ∧
      parseLineRecord (lineRecord 1 1 9) = none ∧
      (parseLineRecord (lineRecord 8 64 8)).isSome = true := by
  unfold State.Arriving; decide +kernel

/-- The checks of a Line Record at the ends of their ranges. -/
theorem test_lineRecord_check :
    (∀ r ∈ [lineRecord 0 1 1, lineRecord 1 0 1, lineRecord 1 1 0, (lineRecord 1 1 1).set 0 3#8,
        (lineRecord 1 1 1).set 1 3#8, (lineRecord 1 1 1).set 5 8#8, (lineRecord 1 1 1).set 6 2#8],
        parseLineRecord r = none) ∧
      parseLineRecord (lineRecord 1 1 1) = some ⟨.width, .rise, 1, 1, 1, 0, true⟩ := by
  decide +kernel

theorem test_lineRecordRead :
    ((go (.lineRecordRead 0) (loadsLine (some (lineRecord 8 64 8)))).line 0).high = true ∧
      result (go (.lineRecordRead 0) (loadsLine none)) = some (.replying .refusedPort) ∧
      result (go (.lineRecordRead 0) (loadsLine (some (lineRecord 8 65 8))))
        = some (.replying .refusedConfig) := by decide +kernel

/-- The new trip level trips the gate of bank 0, which selects the line. -/
theorem test_lineRecordRead_judges_the_gates :
    ((go (.lineRecordRead 0) ((loadsLine (some (lineRecord 8 64 8))).modGate 0 fun _ =>
        { Gate.reset with mask := 1#8 })).bank 0).gate.trips = 1#32 ∧
      (go (.lineRecordRead 0) (loadsLine (some (lineRecord 8 64 8)))).port.class3.map (·.1)
        = [.reply, .line 0] := by decide +kernel

/-- A Journal Record: window, log2 of the capacity, ring offset, consume index. -/
def journalRecord (window log ring consume : Nat) : List Byte :=
  [window, 3, log, 0].map (BitVec.ofNat 8) ++ leBytes 4 ring ++ leBytes 2 3 ++ leBytes 2 0
    ++ leBytes 2 consume ++ leBytes 18 0

/-- The Journal Record read of journal 0 arrives. -/
def opens (a : Option (List Byte)) (s : State) : State :=
  reading (req 0x10 0 0) (.journalRecord 0) a s

theorem witness_journalRecordRead :
    (opens none on).Arriving 0 ⟨.journalRecord 0, false, false, false, none⟩ ∧
      (opens none on).sweep.exec = some ⟨req 0x10 0 0, .record⟩ ∧
      (parseJournalRecord (journalRecord 2 1 0 0)).ok = false ∧
      (parseJournalRecord (journalRecord 2 13 0 0)).ok = false ∧
      (parseJournalRecord (journalRecord 2 2 8 0)).ok = false ∧
      ((parseJournalRecord (journalRecord 16 2 0 0)).ok = true ∧
        on.window.tableCount ≤ (parseJournalRecord (journalRecord 16 2 0 0)).window.toNat) ∧
      ((parseJournalRecord (journalRecord 2 8 0 65535)).ok = true ∧
        cacheFind 2#8 on.window.cache = some ⟨0x10000, 0xFFF, true, true, true, 3#8⟩ ∧
        judgeDescriptor ⟨0x10000, 0xFFF, true, true, true, 3#8⟩ 0 4096 true 3#8 = .pass 0x10000) ∧
      (on.journal 0).state = .closed := by
  unfold State.Arriving; decide +kernel

/-- The checks of a Journal Record at the ends of their ranges: the watermark is 3 where not set. -/
theorem test_journalRecord_check :
    (∀ r ∈ [(journalRecord 2 2 0 0).set 1 4#8, (journalRecord 2 2 0 0).set 8 0#8,
        (journalRecord 2 2 0 0).set 8 5#8], (parseJournalRecord r).ok = false) ∧
      (∀ r ∈ [(journalRecord 2 2 0 0).set 8 4#8, (journalRecord 2 2 16 0).set 8 1#8,
        journalRecord 2 12 0 0], (parseJournalRecord r).ok = true) := by decide +kernel

theorem test_journalRecordRead :
    ((go (.journalRecordRead 0) (opens (some (journalRecord 2 8 0 65535)) on)).journal 0).produce
        = 65535#16 ∧
      result (go (.journalRecordRead 0) (opens (some (journalRecord 2 9 0 0)) on))
        = some (.replying .refusedWindow) ∧
      result (go (.journalRecordRead 0) (opens (some (journalRecord 16 2 0 0)) on))
        = some (.replying .refusedWindow) ∧
      result (go (.journalRecordRead 0) (opens none on)) = some (.replying .refusedPort) ∧
      result (go (.journalRecordRead 0) (opens (some (journalRecord 2 1 0 0)) on))
        = some (.replying .refusedConfig) := by decide +kernel

theorem witness_journalRecordRead_uncached :
    (parseJournalRecord (journalRecord 15 2 0 0)).ok = true ∧
      (parseJournalRecord (journalRecord 15 2 0 0)).window.toNat < on.window.tableCount ∧
      cacheFind (parseJournalRecord (journalRecord 15 2 0 0)).window on.window.cache = none ∧
      loadFind (parseJournalRecord (journalRecord 15 2 0 0)).window on.window.loads = none ∧
      ((parseJournalRecord (journalRecord 2 9 0 0)).ok = true ∧
        judgeDescriptor ⟨0x10000, 0xFFF, true, true, true, 3#8⟩ 0 8192 true 3#8 = .fail .limit) ∧
      ((((on.setLine 0 line0).line 0).loaded = true ∧ ((on.setLine 0 line0).line 0).armed = false) ∧
        ((on.setLine 0 line0).line 0).cfg.journal = 0) := by decide +kernel

theorem test_journalRecordRead_uncached :
    ((go (.journalRecordRead 0) (opens (some (journalRecord 15 2 0 0)) on)).journal 0).fifo
        = [.load 15#8] ∧
      ((go (.journalRecordRead 0) (opens (some (journalRecord 2 2 0 0)) (on.setLine 0 line0))).line
        0).armed = true := by decide +kernel

/-! ### Write responses -/

/-- A write to bank 0's live frame is answered. -/
def answered (o : WriteOwner) (error : Bool) : State := outWrite o error (bank0 (runs live0) on)

theorem witness_frameWriteResponse :
    (answered (.frameRetire 0 sel0 (some .spent)) false).Responding
        ⟨.frameRetire 0 sel0 (some .spent), true, false⟩ [] ∧
      (answered (.frameState 0 sel0) true).Responding ⟨.frameState 0 sel0, true, true⟩ [] ∧
      (answered (.frameState 0 sel0) false).Responding ⟨.frameState 0 sel0, true, false⟩ [] ∧
      ((answered (.frameState 0 sel0) true).bank 0).halfError = false ∧
      (seq0 (answered (.frameState 0 sel0) true)).plan.isActive = true ∧
      (seq0 (outWrite (.frameState 0 sel0) true on)).plan.isActive = false := by
  unfold State.Responding; decide +kernel

theorem test_frameWriteResponse :
    ((go .frameWriteResponse (answered (.frameRetire 0 sel0 (some .spent)) false)).bank 0).fifo
        = [⟨.state sel0 .spent, .ready 0x10001 false⟩] ∧
      (seq0 (go .frameWriteResponse (answered (.frameState 0 sel0) true))).plan = .halted ∧
      seq0 (go .frameWriteResponse (outWrite (.frameState 0 sel0) true on)) = .reset := by
  decide +kernel

/-- A write fault halts its bank, and PLAN_END reaches the banks that await it. -/
theorem test_frameWriteResponse_halts :
    taken (go .frameWriteResponse (awaiting (.cue 0 .planEnd) (answered (.frameState 0 sel0) true)))
        = (.set, .running) ∧
      (go .frameWriteResponse (answered (.frameState 0 sel0) true)).port.writes = [] := by
  decide +kernel

/-- The live frame's retire fields answered ERROR: no state write follows, the staged frame is
returned, and nothing is CUT. -/
theorem test_frameWriteResponse_retire_error :
    ((go .frameWriteResponse (outWrite (.frameRetire 0 sel0 (some .spent)) true
        (bank0 (holdsNow (runs live0)) on))).bank 0).fifo
      = [⟨.state sel1 .ready, .ready 0x10081 false⟩] := by decide +kernel

/-- A half of a split write to bank 0's live frame is answered. -/
def answeredHalf (last error first : Bool) : State :=
  (answered (.frameState 0 sel0) error).modBank 0 (fun k => { k with halfError := first }) |>.modPort
    fun p => { p with writes := [⟨.frameState 0 sel0, last, error⟩] }

theorem witness_frameWriteResponse_halves :
    (answeredHalf false true false).Responding ⟨.frameState 0 sel0, false, true⟩ [] ∧
      (answeredHalf true false true).Responding ⟨.frameState 0 sel0, true, false⟩ [] ∧
      ((answeredHalf true false true).bank 0).halfError = true := by
  unfold State.Responding; decide +kernel

theorem test_frameWriteResponse_halves :
    ((go .frameWriteResponse (answeredHalf false true false)).bank 0).halfError = true ∧
      (seq0 (go .frameWriteResponse (answeredHalf false true false))).plan = .running ∧
      (seq0 (go .frameWriteResponse (answeredHalf true false true))).plan = .halted := by
  decide +kernel

/-- A record write of journal 0 is answered. -/
def recorded (error : Bool) : State :=
  outWrite (.record 0) error (on.setJournal 0 { journal0 with step := .write (.event 0) })

theorem witness_recordWriteResponse :
    (recorded false).Responding ⟨.record 0, true, false⟩ [] ∧
      (recorded true).Responding ⟨.record 0, true, true⟩ [] ∧
      ((recorded false).journal 0).halfError = false ∧
      ((recorded false).journal 0).step = .write (.event 0) := by
  unfold State.Responding; decide +kernel

theorem test_recordWriteResponse :
    ((go .recordWriteResponse (recorded false)).journal 0).produce = 1#16 ∧
      ((go .recordWriteResponse (recorded true)).journal 0).fault = .bus := by decide +kernel

/-- A half of a split record write is answered, the error of the first half as given. -/
def recordedHalf (last error first : Bool) : State :=
  ((recorded error).modJournal 0 fun x => { x with halfError := first }).modPort fun p =>
    { p with writes := [⟨.record 0, last, error⟩] }

theorem witness_recordWriteResponse_halves :
    (recordedHalf false true false).Responding ⟨.record 0, false, true⟩ [] ∧
      (recordedHalf true false true).Responding ⟨.record 0, true, false⟩ [] ∧
      ((recordedHalf true false true).journal 0).halfError = true := by
  unfold State.Responding; decide +kernel

theorem test_recordWriteResponse_halves :
    ((go .recordWriteResponse (recordedHalf false true false)).journal 0).halfError = true ∧
      ((go .recordWriteResponse (recordedHalf true false true)).journal 0).fault = .bus ∧
      ((go .recordWriteResponse (recordedHalf true false true)).journal 0).missed = 1#32 ∧
      ((go .recordWriteResponse (recordedHalf true false false)).journal 0).produce = 1#16 := by
  decide +kernel

/-- Journal 0 with a record write of this plan next to be issued, line 0 holding an event. -/
def recording (p : StepPlan) (addr : Nat) (second : Bool) : State :=
  held0 { journal0 with step := .write p, gap := 2#32, fifo := [.record addr second] } on

/-- Journal 0 with a produce word next to be issued, a LOOK's value held for the step's end. -/
def producing (p : StepPlan) (held : Option (BitVec 16)) : State :=
  on.setJournal 0 { journal0 with
    produce := 4#16, step := .produce p, held, fifo := [.produceWord 4#16] }

theorem witness_recordWrites :
    (∀ p ∈ [StepPlan.event 0, .gapThenEvent 0, .gapThenMiss 0, .gapOnly],
      (recording p 0x10FF0 false).choose = some (.journal 0 (.record 0x10FF0 false)) ∧
        (recording p 0x10FF8 false).choose = some (.journal 0 (.record 0x10FF8 false)) ∧
        (recording p 0x10FF8 true).choose = some (.journal 0 (.record 0x10FF8 true)) ∧
        ((recording p 0x10FF0 false).journal 0).step = .write p ∧
        (producing p none).choose = some (.journal 0 (.produceWord 4#16)) ∧
        ((producing p (some 0#16)).journal 0).step = .produce p) ∧
      (0x10FF0 % 4096 + 16 ≤ 4096 ∧ 4096 < 0x10FF8 % 4096 + 16) ∧
      ((4#16 - 0#16).toNat ≤ journal0.capacity ∧ journal0.capacity < (4#16 - 65535#16).toNat) ∧
      (recording (.gapThenMiss 0) 0x10FF0 false).resetHeld = false := by decide +kernel

/-- Journal 0 once the record, or the produce word, is issued. -/
def issued (s : State) : Journal := (go (.arbiterGrant [] .ok) s).journal 0

theorem test_recordWrites :
    ((go (.arbiterGrant [] .ok) (recording (.event 0) 0x10FF0 false)).line 0).holding = none ∧
      (issued (recording (.gapThenEvent 0) 0x10FF0 false)).gap = 0#32 ∧
      (issued (recording (.gapThenMiss 0) 0x10FF0 false)).gap = 1#32 ∧
      (issued (recording .gapOnly 0x10FF8 false)).fifo = [.record 0x10FF8 true] ∧
      (issued (producing (.event 0) (some 1#16))).cached = 1#16 ∧
      (issued (producing (.event 0) (some 65535#16))).fault = .consumeRange := by decide +kernel

theorem witness_anchorResponses :
    (outWrite (.engineStatus true) true on).Responding ⟨.engineStatus true, true, true⟩ [] ∧
      (outWrite (.produceWord 7) false on).Responding ⟨.produceWord 7, true, false⟩ [] ∧
      (WriteOwner.produceWord 7).isAnchor = true ∧ (WriteOwner.engineStatus false).isAnchor = true := by
  unfold State.Responding; decide +kernel

theorem test_engineStatusResponse :
    (go .engineStatusResponse (outWrite (.engineStatus true) true on)).cause = 0x5000#16 ∧
      (go .engineStatusResponse (outWrite (.engineStatus true) false on)).cause = 0x1000#16 := by
  decide +kernel

theorem test_anchorWriteResponse :
    (go .anchorWriteResponse (outWrite (.bankStatus 3) true on)).cause = 0x4000#16 ∧
      (go .anchorWriteResponse (outWrite .reply false on)) = on := by decide +kernel

/-! ### The Memory Port -/

/-- A descriptor load of bank 1, a class 4 read, a journal's re-read, a class 3 request. -/
def loading1 : State :=
  on.modBank 1 fun k => { k with fifo := [⟨.load 3#8, .ready 0x2030 false⟩] }
def class4On : State := { on with port := { on.port with class4 := some (.lineRecord 0) } }
def rereading : State := loading1.modJournal 7 fun x => { x with fifo := [.reread] }
def status3 : State := { class4On with port := { class4On.port with class3 := [(.bank 0, false)] } }

/-- This many reads outstanding and this many writes awaiting their responses. -/
def portUsed (reads writes : Nat) (s : State) : State :=
  { s with port := { s.port with
      reads := List.replicate reads ⟨.link 0, false, false, false, none⟩
      writes := List.replicate writes ⟨.reply, true, false⟩ } }

theorem witness_arbiterGrant :
    badHostWrite [(2 ^ 48 - 1, 1#8)] = none ∧ badHostWrite [(2 ^ 48, 1#8)] = some (2 ^ 48) ∧
      (on.hostWrites [(5, 1#8)]).choose = none ∧
      (portUsed 3 8 loading1).choose = some (.frame 1 (.load 3#8) 0x2030 false) ∧
      (portUsed 4 0 loading1).choose = none ∧
      (portUsed 3 8 class4On).choose = some (.class4 (.lineRecord 0)) ∧
      rereading.choose = some (.journal 7 .reread) ∧
      (portUsed 4 7 status3).choose = some (.class3 (.bank 0)) ∧
      (portUsed 4 8 status3).choose = none ∧ (off 0#32).choose = none ∧
      (on.modJournal 7 fun x => { x with fifo := [.load 3#8] }).choose
        = some (.journal 7 (.load 3#8)) := by decide +kernel

theorem test_arbiterGrant :
    ((go (.arbiterGrant [(0x1140, 2#8)] .ok) class4On).port.reads.map (·.answer))
        = [some (2#8 :: leBytes 15 0)] ∧
      (go (.arbiterGrant [] .errorLost) loading1).port.reads
        = [⟨.descriptor 3#8, false, false, false, none⟩] ∧
      (after { on with pending := [.arbiterGrant [(2 ^ 48, 1#8)] .ok] }) = none := by
  decide +kernel

/-- Bank 0 with a link read and behind it a state write, both offered. -/
def writeBehindRead : State :=
  (bank0 (linking (runs live0)) on).modBank 0 fun k => { k with fifo :=
    [⟨.link sel0, .ready 0x10018 false⟩, ⟨.state sel1 .spent, .ready 0x10081 false⟩] }

/-- A read that finds no room holds back no write, and a failed SPENT write leaves the frame LIVE. -/
theorem test_arbiterGrant_passes_waiting_reads :
    writeBehindRead.choose = some (.frame 0 (.link sel0) 0x10018 false) ∧
      (portUsed 4 0 writeBehindRead).choose = some (.frame 0 (.state sel1 .spent) 0x10081 false) ∧
      (go (.arbiterGrant [] .errorLanded) (portUsed 4 0 writeBehindRead)).memory = [] ∧
      (go (.arbiterGrant [] .ok) (portUsed 4 0 writeBehindRead)).memory = [(0x10081, FrameState.spent.code)] := by
  decide +kernel

/-- The write of SPENT counts at its grant, also where it is answered ERROR, and its reads do not. -/
theorem test_arbiterGrant_counts_the_retired :
    (seq0 (go (.arbiterGrant [] .errorLost) (portUsed 4 0 writeBehindRead))).retired = 1#48 ∧
      (seq0 (go (.arbiterGrant [] .ok) writeBehindRead)).retired = 0#48 := by decide +kernel

/-- Class 3 with a Bank Status request, of this tick or of an earlier one. -/
def class3With (fresh : Bool) : State :=
  { on with port := { on.port with class3 := [(.bank 0, fresh)] } }

theorem test_class3_order :
    ((class3With true).requestClass3 .engine).port.class3 = [(.engine, true), (.bank 0, true)] ∧
      ((class3With false).requestClass3 .engine).port.class3
        = [(.bank 0, false), (.engine, true)] ∧
      ((class3With true).requestClass3 (.line 7)).port.class3
        = [(.bank 0, true), (.line 7, true)] ∧
      ((class3With true).requestClass3 (.bank 0)).port.class3 = [(.bank 0, true)] := by
  decide +kernel

theorem witness_class3_order (fresh : Bool) :
    (class3With fresh).port.class3.Pairwise
      (fun x y => x.2 = true → y.2 = true ∧ x.1.rank ≤ y.1.rank) := by
  simp [class3With]

/-- Bank 0's Bank Status is requested behind a READY write that waits on a load, a STAGED write is
requested after it. -/
def statusBetween (first second : List FrameReq) : State :=
  ((on.modBank 0 fun k => { k with fifo := first }).requestBankStatus 0).modBank 0 fun k =>
    { k with fifo := k.fifo ++ second }

/-- A write that waits on a load, and one that has its retire fields outstanding. -/
def waitingReady : FrameReq := ⟨.state sel0 .ready, .waiting⟩
def waitingStaged : FrameReq := ⟨.state sel1 .staged, .waiting⟩
def retiring (s : State) : State := outWrite (.frameRetire 0 sel0 (some .cut)) false s

theorem test_bankStatus_waits_for_earlier_writes :
    (statusBetween [waitingReady] []).choose = none ∧
      (statusBetween [waitingReady] [waitingStaged]).choose = none ∧
      (statusBetween [] [waitingStaged]).choose = some (.class3 (.bank 0)) ∧
      ((statusBetween [] [waitingStaged]).requestBankStatus 0).choose = none ∧
      ((retiring on).requestBankStatus 0).choose = none ∧
      (retiring (on.requestBankStatus 0)).choose = some (.class3 (.bank 0)) := by decide +kernel

theorem witness_bankStatus_order :
    (statusBetween [waitingReady] []).port.statusAfter.get 0 = [.state sel0 .ready] ∧
      (statusBetween [waitingReady] []).pendingWrites 0 = [.state sel0 .ready] ∧
      (retiring on).pendingWrites 0 = [.state sel0 .cut] := by decide +kernel

/-- A frame write that crosses a 4096-byte boundary, its first half to be issued. -/
def splitWrite (second : Bool) : State :=
  on.modBank 0 fun k =>
    { k with fifo := [⟨.retire sel0 0x010203040506#48 0#32 0#8 none, .ready 0x10FFC second⟩] }

/-- What the next grant of a state stores. -/
def storedBy (s : State) : Option (Nat × List Byte) := s.choose.bind s.stores

theorem witness_stores :
    storedBy (splitWrite false) = some (0x10FFC, [6#8, 5#8, 4#8, 3#8]) ∧
      storedBy (splitWrite true)
        = some (0x11000, [2#8, 1#8, 0#8, 0#8, 0#8, 0#8, 0#8, 0#8, 0#8, 0#8, 0#8, 0#8]) ∧
      storedBy status3 = some (0x12C0, bankStatusBytes (on.bank 0)) ∧
      (Grant.class3 (.bank 0)).lands .ok = true ∧
      (go (.arbiterGrant [] .ok) (splitWrite false)).memory
        = [(0x10FFC, 6#8), (0x10FFD, 5#8), (0x10FFE, 4#8), (0x10FFF, 3#8)] := by decide +kernel

/-- The second half of a split access stays requested behind the grant of the first. -/
theorem test_grant_leaves_the_second_half :
    4096 < 0x10FFC % 4096 + (FrameAccess.retire sel0 0#48 0#32 0#8 none).length ∧
      ((go (.arbiterGrant [] .ok) (splitWrite false)).bank 0).fifo = ((splitWrite true).bank 0).fifo ∧
      ((go (.arbiterGrant [] .ok) (splitWrite true)).bank 0).fifo = [] ∧
      ((go (.arbiterGrant [] .ok) writeBehindRead).bank 0).fifo
        = [⟨.state sel1 .spent, .ready 0x10081 false⟩] := by decide +kernel

/-- A write that is lost stores nothing. -/
theorem test_stores_lost :
    (Grant.class3 (.bank 0)).lands .errorLost = false ∧
      (go (.arbiterGrant [] .errorLost) status3).memory = [] ∧
      ((quiesced false).memory.read 0x1480 = 0#8 ∧
        (go (.quiesceComplete .errorLost) (quiesced false)).memory = []) := by decide +kernel

/-- The reply of a request is offered. -/
def replying (next : BitVec 16) : State :=
  { on with
    sweep := { on.sweep with exec := some ⟨req 0 5 0, .replying .done⟩, next }
    port := { on.port with class3 := [(.reply, false)] } }

theorem witness_reply :
    (replying 0xFFFF#16).sweep.exec = some ⟨req 0 5 0, .replying .done⟩ ∧
      (replying 0xFFFF#16).Replying (req 0 5 0) .done ∧
      (replying 0xFFFF#16).choose = some (.class3 .reply) := by
  unfold State.Replying; decide +kernel

theorem test_reply :
    ((go (.arbiterGrant [] .ok) (replying 0xFFFF#16)).memory.readBytes 0x1438 8)
        = [0xFF#8, 0xFF#8, 9#8, 0#8, 5#8, 0#8, 0#8, 0#8] ∧
      (go (.arbiterGrant [] .ok) (replying 0xFFFF#16)).sweep.next = 0#16 := by decide +kernel

/-- The Engine Status write is granted, after a reply or not. -/
def statusOf (x : Option Executing) : State :=
  { on with
    sweep := { on.sweep with exec := x }
    port := { on.port with class3 := [(.engine, false)] } }

theorem test_engineStatus_ends_the_request :
    (statusOf (some ⟨req 0 5 0, .status⟩)).choose = some (.class3 .engine) ∧
      (go (.arbiterGrant [] .ok) (statusOf (some ⟨req 0 5 0, .status⟩))).sweep.exec = none ∧
      (go (.arbiterGrant [] .ok) (statusOf (some ⟨req 0 5 0, .status⟩))).port.writes
        = [⟨.engineStatus true, true, false⟩] ∧
      result (go (.arbiterGrant [] .ok) (statusOf (some ⟨req 0x11 0 0, .closing 0⟩)))
        = some (.closing 0) ∧
      (go (.arbiterGrant [] .ok) (statusOf none)).port.writes
        = [⟨.engineStatus false, true, false⟩] := by decide +kernel

/-! ### Window checks -/

/-- A descriptor with these items. -/
def d (base limit : Nat) (present write : Bool) (ceiling : Byte) : Descriptor :=
  ⟨base, limit, present, true, write, ceiling⟩

theorem test_windowCheck :
    (on.windowCheck (.bank 0 (.link sel0)) 16#8 0 8 false 0#8).2 = .fail .index ∧
      (on.windowCheck (.bank 0 (.link sel0)) 15#8 0 8 false 0#8).2 = .waiting ∧
      (on.windowCheck (.bank 0 (.link sel0)) 2#8 0 8 false 0#8).2 = .pass 0x10000 ∧
      judgeDescriptor (d 0 7 false true 0#8) 0 8 true 0#8 = .fail .absent ∧
      judgeDescriptor (d 4 7 true true 0#8) 0 8 true 0#8 = .fail .badDescriptor ∧
      judgeDescriptor (d 0 7 true true 4#8) 0 8 true 0#8 = .fail .badDescriptor ∧
      judgeDescriptor (d 0 7 true false 0#8) 0 8 true 0#8 = .fail .rights ∧
      judgeDescriptor (d 0 6 true true 0#8) 0 8 true 0#8 = .fail .limit ∧
      judgeDescriptor (d (2 ^ 48 - 8) 15 true true 0#8) 0 9 true 0#8 = .fail .limit ∧
      judgeDescriptor (d 0 7 true true 2#8) 0 8 true 3#8 = .fail .domain ∧
      judgeDescriptor (d (2 ^ 48 - 8) 7 true true 3#8) 0 8 true 3#8 = .pass (2 ^ 48 - 8) := by
  decide +kernel

/-- Bank 0 reads its link in this window at this offset, the check still to make. -/
def checking (index : Byte) (offset : Nat) : State :=
  (bank0 (linking (runs live0)) on).modBank 0 fun k =>
    { k with fifo := [⟨.link ⟨index, BitVec.ofNat 32 offset⟩, .unchecked⟩] }

theorem witness_checkReq :
    (∀ s ∈ [checking 16#8 0, checking 2#8 0, checking 2#8 0xFE8, checking 15#8 0],
        s.bankToCheck = some 0 ∧ ((s.bank 0).toCheck).isSome = true) ∧
      on.window.tableCount ≤ (16#8 : Byte).toNat ∧ loadFind 15#8 on.window.loads = none ∧
      judgeDescriptor ⟨0x10000, 0xFFF, true, true, true, 3#8⟩ 0xFF8 8 false 0#8 = .pass 0x10FF8 ∧
      judgeDescriptor ⟨0x10000, 0xFFF, true, true, true, 3#8⟩ 0x1000 8 false 0#8
        = .fail .limit := by decide +kernel

/-- A request of bank 0 after its check. -/
def checked (index : Byte) (offset : Nat) : Bank :=
  ((checking index offset).checkReq 0 ⟨.link ⟨index, BitVec.ofNat 32 offset⟩, .unchecked⟩).bank 0

theorem test_checkReq :
    (checked 16#8 0).faults.report.map (·.sub) = some .index ∧
      (checked 2#8 0xFE0).fifo = [⟨.link ⟨2#8, 0xFE0#32⟩, .ready 0x10FF8 false⟩] ∧
      (checked 2#8 0xFE8).seq.tag = .rejected ∧
      (checked 15#8 0).fifo
        = [⟨.load 15#8, .ready 0x20F0 false⟩, ⟨.link ⟨15#8, 0#32⟩, .waiting⟩] := by decide +kernel

theorem witness_checkReq_coherent (index : Byte) (offset : Nat) :
    (checking index offset).BanksCoherent := by
  refine coherent_of_bank0 (linking (runs live0)) ?_ rfl ?_
  · intro b hb
    fin_cases b
    · exact absurd rfl hb
    all_goals rfl
  · simp [Sequencer.Coherent, runs, linking, Sequencer.reset, PlanState.isRunning]

/-! ### Frames and invariants -/

theorem witness_innerCommand :
    innerCommand .mark = true ∧ bankCommand .mark = true ∧
      (∀ j, (on.journal j).closing = false) ∧
      (after { asked (req 0 0 0) on with pending := [.mark] }).isSome = true := by decide +kernel

/-- A mark taken: a next state of a command of both kinds. -/
theorem witness_innerCommand_next : exec .mark on = .next on := rfl

theorem witness_conclude : (seq0 on).plan = .dormant ∧ (seq0 halted).plan = .halted ∧
    (seq0 on).Bare ∧ (seq0 halted).Bare := by
  unfold Sequencer.Bare; decide +kernel

/-- A pending gap whose last GAP record a close has already tried. -/
def halfDone : Journal := { journalFull with gap := 2#32, lastGapDone := true }

/-- Journal 0 closing, at this point of its close. -/
def closing (x : Journal) (s : State) : State := s.setJournal 0 { x with closing := true }

/-- Journal 0 closing, line 0 holding an event for it. -/
def closingHeld (x : Journal) : State := held0 { x with closing := true } on

theorem witness_conclude_closes :
    (∀ s ∈ [closingHeld journal0, closingHeld journalFull, closing (gapped 1#16) on,
        closing { journalFull with gap := 2#32 } on, closing journal0 on, closing halfDone on],
        s.closeReady 0 = true ∧ s.journalToClose = some 0 ∧ ∀ b, (s.bank b).toCheck = none) ∧
      ((closingHeld journal0).oldest 0 = some 0 ∧ (closing journal0 on).oldest 0 = none) ∧
      on.journalToClose = none := by decide +kernel

theorem test_conclude_closes :
    (((closingHeld journal0).continueClose 0).journal 0).step = .write (.event 0) ∧
      (((closingHeld journalFull).continueClose 0).journal 0).step = .reread (some 0) ∧
      (((closing (gapped 1#16) on).continueClose 0).journal 0).step = .write .gapOnly ∧
      (((closing { journalFull with gap := 2#32 } on).continueClose 0).journal 0).step
        = .reread none ∧
      (((closing journal0 on).continueClose 0).journal 0).state = .closed ∧
      (((closing halfDone on).continueClose 0).journal 0).state = .closed := by decide +kernel

/-- A request is answered, its reply waiting for bank 0's reads. -/
def answeredReads (k : List FrameReq) : State :=
  { on.modBank 0 fun b => { b with fifo := k } with
    sweep := { on.sweep with exec := some ⟨req 3 0 0, .answered .done (.frameReads 0)⟩ } }

theorem test_conclude_offers_the_reply :
    result (on.conclude (answeredReads [])) = some (.replying .done) ∧
      result (on.conclude (answeredReads [⟨.link sel0, .waiting⟩]))
        = some (.answered .done (.frameReads 0)) ∧
      (on.conclude (bank0 (runs live0) on)).port.class3 = [(.bank 0, true)] := by decide +kernel

/-- Every premise of the invariants' steps at once: a running bank, a held event, a port and a queue
in use, memory written. -/
def busy : State :=
  { bank0 (runs live0) (held0 journalFull on) with
    memory := [(5, 1#8), (9, 2#8)], pending := [.tickLo]
    sweep := { on.sweep with queue := [req 0 0 0] }
    port := { on.port with
      reads := [⟨.link 0, false, false, false, none⟩]
      writes := [⟨.reply, true, false⟩] } }

theorem witness_invariants :
    busy.MemoryOk ∧ busy.PortOk ∧ busy.QueueOk ∧ busy.WindowOk ∧
      (after busy).isSome = true := by
  unfold State.MemoryOk State.PortOk State.QueueOk State.WindowOk
  decide +kernel

theorem witness_invariants_pins : busy.PinsOk := by
  unfold State.PinsOk Bank.PinsOk PinPair.Sound Pin.Sound
  decide +kernel

theorem witness_invariants_rings : busy.RingsOk := by
  unfold State.RingsOk Journal.RingOk
  decide +kernel

theorem witness_invariants_banks : busy.BanksCoherent := by
  refine coherent_of_bank0 (runs live0) (by decide +kernel) (by decide +kernel) ?_
  simp [Sequencer.Coherent, runs, Sequencer.reset, PlanState.isRunning]

theorem witness_pairs :
    (delaying 0).PinsOk ∧ ((delaying 0).bank 0).seq.started = true ∧
      (ChanSetting.default.mode = .off ∧ (⟨.pwmA, true, 50, 5, 6⟩ : ChanSetting).mode ≠ .off) ∧
      (pinBit 3#8 0 false && pinBit 3#8 0 true) = true ∧
      (pinBit 0xC0#8 3 false && pinBit 0xC0#8 3 true) = true := by
  unfold State.PinsOk Bank.PinsOk PinPair.Sound Pin.Sound
  decide +kernel

/-- From reset: the word of a table row spells no command, so nothing is put in front. -/
theorem test_withFetchWord : State.reset.withFetchWord 32 0 = State.reset := by decide +kernel

end Sys2Proof.Tests
end

section
/-! SUPPORT. The range checks and the TIMING check of a frame (R5, R6, R8, steps 10 and 11 of R100):
what one check gives, what they give in a row, unmasked and masked, and how long the pass of a
stretched frame is. -/

namespace Sys2Proof.Machine

/-! ### One range check after another -/

/-- The result of later checks when the checks before them clamped (`c`) or not. -/
def Ranged.after {α : Type} (c : Bool) : Ranged α → Ranged α
  | .ok a d => .ok a (c || d)
  | .bad i d => .bad i (c || d)

@[simp] theorem Ranged.after_ok {α : Type} (c d : Bool) (a : α) :
    (Ranged.ok a d).after c = .ok a (c || d) := rfl

@[simp] theorem Ranged.after_false {α : Type} (r : Ranged α) : r.after false = r := by
  cases r <;> rfl

@[simp] theorem Ranged.bind_bad {α β : Type} (i : Nat) (c : Bool) (f : α → Ranged β) :
    (Ranged.bad i c).bind f = .bad i c := rfl

@[simp] theorem Ranged.bind_ok {α β : Type} (a : α) (c : Bool) (f : α → Ranged β) :
    (Ranged.ok a c).bind f = (f a).after c := by
  rw [Ranged.bind]
  cases f a <;> rfl

/-! ### One field against its range -/

theorem inRange_inside {masked : Bool} {lo hi v : Nat} (field : Nat) (hlo : lo ≤ v) (hhi : v ≤ hi) :
    inRange masked field lo hi v = .ok v false := if_pos ⟨hlo, hhi⟩

theorem inRange_unmasked_outside {lo hi v : Nat} (field : Nat) (hv : v < lo ∨ hi < v) :
    inRange false field lo hi v = .bad field false :=
  if_neg fun hin : lo ≤ v ∧ v ≤ hi => by omega

/-- Masked, a value is clamped to the nearest in its range. -/
theorem inRange_masked {lo hi : Nat} (field v : Nat) (hle : lo ≤ hi) :
    inRange true field lo hi v = .ok (max lo (min v hi)) (decide (v < lo ∨ hi < v)) := by
  by_cases hin : lo ≤ v ∧ v ≤ hi
  · have hout : ¬ (v < lo ∨ hi < v) := by omega
    have hv : max lo (min v hi) = v := by omega
    rw [inRange_inside field hin.1 hin.2, decide_eq_false hout, hv]
  · have hout : v < lo ∨ hi < v := by omega
    have hv : (if v < lo then lo else hi) = max lo (min v hi) := by split <;> omega
    rw [inRange, if_neg hin, if_pos rfl, decide_eq_true hout, hv]

/-! ### The entries -/

section Unmasked

variable {P : Nat} {e : Entry} (n : Nat) (c : ChanNo) (m : ChanMode)
  (rest : List (ChanNo × ChanMode × Entry))

theorem rangeEntries_compare_outside (h : P < e.compare) :
    rangeEntries false P n ((c, m, e) :: rest) = .bad (16 + 8 * n + 3) false := by
  rw [rangeEntries, inRange_unmasked_outside _ (.inr h), Ranged.bind_bad]

theorem rangeEntries_deadRise_outside (hc : e.compare ≤ P) (h : 1023 < e.deadRise) :
    rangeEntries false P n ((c, m, e) :: rest) = .bad (16 + 8 * n + 4) false := by
  rw [rangeEntries, inRange_inside _ (Nat.zero_le _) hc, inRange_unmasked_outside _ (.inr h)]
  rfl

theorem rangeEntries_deadFall_outside (hc : e.compare ≤ P) (hr : e.deadRise ≤ 1023)
    (h : 1023 < e.deadFall) :
    rangeEntries false P n ((c, m, e) :: rest) = .bad (16 + 8 * n + 5) false := by
  rw [rangeEntries, inRange_inside _ (Nat.zero_le _) hc, inRange_inside _ (Nat.zero_le _) hr,
    inRange_unmasked_outside _ (.inr h)]
  rfl

theorem rangeEntries_inside (hc : e.compare ≤ P) (hr : e.deadRise ≤ 1023)
    (hf : e.deadFall ≤ 1023) :
    rangeEntries false P n ((c, m, e) :: rest) =
      (rangeEntries false P (n + 1) rest).bind fun xs =>
        .ok ((c, ⟨m, e.partner, e.compare, e.deadRise, e.deadFall⟩) :: xs) false := by
  simp [rangeEntries, inRange_inside _ (Nat.zero_le _) hc, inRange_inside _ (Nat.zero_le _) hr,
    inRange_inside _ (Nat.zero_le _) hf]

end Unmasked

/-- The setting of an entry with each value clamped to its range under the period `P`. -/
def clampedSetting (P : Nat) (x : ChanNo × ChanMode × Entry) : ChanNo × ChanSetting :=
  (x.1, ⟨x.2.1, x.2.2.partner, min x.2.2.compare P, min x.2.2.deadRise 1023,
    min x.2.2.deadFall 1023⟩)

/-- Whether a value of an entry lies out of its range under the period `P`. -/
def entryOutside (P : Nat) (x : ChanNo × ChanMode × Entry) : Bool :=
  decide (P < x.2.2.compare ∨ 1023 < x.2.2.deadRise ∨ 1023 < x.2.2.deadFall)

theorem rangeEntries_masked (P n : Nat) (es : List (ChanNo × ChanMode × Entry)) :
    rangeEntries true P n es = .ok (es.map (clampedSetting P)) (es.any (entryOutside P)) := by
  induction es generalizing n with
  | nil => rfl
  | cons x rest ih =>
    obtain ⟨c, m, e⟩ := x
    simp [rangeEntries, inRange_masked _ _ (Nat.zero_le _), ih, clampedSetting, entryOutside,
      Bool.or_assoc]

/-! ### Divider and period, then the entries -/

theorem rangeFrame_divider_outside {h : Header} (es : List (ChanNo × ChanMode × Entry))
    (hd : h.divider = 0 ∨ 256 < h.divider) : rangeFrame false h es = .bad 7 false := by
  rw [rangeFrame, inRange_unmasked_outside 7 (hd.imp_left Nat.lt_one_iff.2), Ranged.bind_bad]

theorem rangeFrame_period_outside {h : Header} (es : List (ChanNo × ChanMode × Entry))
    (hd : 1 ≤ h.divider) (hd' : h.divider ≤ 256) (hp : h.period < 2 ∨ 16777215 < h.period) :
    rangeFrame false h es = .bad 8 false := by
  rw [rangeFrame, inRange_inside 7 hd hd', inRange_unmasked_outside 8 hp]
  rfl

theorem rangeFrame_inside {h : Header} (es : List (ChanNo × ChanMode × Entry))
    (hd : 1 ≤ h.divider) (hd' : h.divider ≤ 256) (hp : 2 ≤ h.period) (hp' : h.period ≤ 16777215) :
    rangeFrame false h es =
      (rangeEntries false h.period 0 es).bind fun xs => .ok (h.divider, h.period, xs) false := by
  simp [rangeFrame, inRange_inside _ hd hd', inRange_inside _ hp hp']

/-- Masked, no range check fails: the entries are clamped under the period already clamped. -/
theorem rangeFrame_masked (h : Header) (es : List (ChanNo × ChanMode × Entry)) :
    rangeFrame true h es =
      .ok (max 1 (min h.divider 256), max 2 (min h.period 16777215),
          es.map (clampedSetting (max 2 (min h.period 16777215))))
        (decide (h.divider < 1 ∨ 256 < h.divider) || (decide (h.period < 2 ∨ 16777215 < h.period) ||
          es.any (entryOutside (max 2 (min h.period 16777215))))) := by
  rw [rangeFrame, inRange_masked 7 _ (by decide), Ranged.bind_ok,
    inRange_masked 8 _ (by decide), Ranged.bind_ok, rangeEntries_masked, Ranged.bind_ok]
  simp only [Ranged.after_ok, Bool.or_false]

/-! ### The stretched period -/

/-- The stretched period is the least that makes a pass of 64 ticks (R6). -/
theorem stretchedPeriod_le_iff (mode : CountMode) {divider : Nat} (hd : 1 ≤ divider) (p : Nat) :
    stretchedPeriod mode divider ≤ p ↔ 64 ≤ passTicks mode divider p := by
  cases mode with
  | ramp => exact divUp_le hd 64 p
  | triangle =>
    have twice : passTicks .triangle divider p = 2 * (p * divider) := Nat.mul_assoc 2 p divider
    exact (divUp_le hd 32 p).trans (by omega)

/-! ### The check of a frame whose channels passed -/

section Frame

variable {masks : Masks} {h : Header} {entries : List Entry}
  {es : List (ChanNo × ChanMode × Entry)} (sel : Selector) (mode : CountMode) (act : EndAction)
  (start : StartCond)

theorem checkFrame_range_fault {field : Nat} {clamped : Bool}
    (he : checkEntries 0 [] entries = .ok es)
    (hr : rangeFrame masks.range h es = .bad field clamped) :
    checkFrame masks sel h mode act start entries = .bad .range .none field true clamped := by
  simp only [checkFrame, he, hr]

/-- The checked copy of a frame before any stretch. -/
def rangedCopy (h : Header) (divider period : Nat) (xs : List (ChanNo × ChanSetting))
    (clamped : Bool) : FrameCopy :=
  { sel, countMode := mode, endAction := act, start, waitLimit := h.waitLimit, divider, period,
    repeats := h.repeats, entries := xs, clamped, stretched := false }

variable {divider period : Nat} {xs : List (ChanNo × ChanSetting)} {clamped : Bool}

theorem checkFrame_ranged (he : checkEntries 0 [] entries = .ok es)
    (hr : rangeFrame masks.range h es = .ok (divider, period, xs) clamped) :
    checkFrame masks sel h mode act start entries =
      if 64 ≤ passTicks mode divider period then
        .staged (rangedCopy sel mode act start h divider period xs clamped)
      else if masks.timing then
        .staged { rangedCopy sel mode act start h divider period xs clamped with
          period := stretchedPeriod mode divider, stretched := true }
      else .bad .timing .none 8 true clamped := by
  simp only [checkFrame, he, hr, rangedCopy]

end Frame

/-! ### R6 -/

/-- Settles O35: the range checks field by field, then the three cases of the TIMING check. -/
theorem shortFramesAreStretched : Obligations.ShortFramesAreStretched := by
  intro masks sel h mode act start entries es he
  refine ⟨fun unmasked => ?_, fun P n c m e rest => ?_, ?_, ?_, ?_⟩
  case refine_1 =>
    rw [unmasked]
    refine ⟨rangeFrame_divider_outside es, rangeFrame_period_outside es, fun hd hd' hp hp' => ?_⟩
    rw [rangeFrame_inside es hd hd' hp hp']
    cases rangeEntries false h.period 0 es with
    | bad field clamped => rfl
    | ok xs clamped => simp
  case refine_2 =>
    refine ⟨rangeEntries_compare_outside n c m rest, rangeEntries_deadRise_outside n c m rest,
      rangeEntries_deadFall_outside n c m rest, fun hc hr hf => ?_⟩
    rw [rangeEntries_inside n c m rest hc hr hf]
    cases rangeEntries false P (n + 1) rest with
    | bad field clamped => rfl
    | ok xs clamped => simp
  case refine_3 =>
    rintro masked P rfl
    rw [masked, rangeFrame_masked]
    refine congrArg₂ Ranged.ok rfl ?_
    rw [Bool.eq_iff_iff]
    simp [entryOutside, or_assoc]
  case refine_4 =>
    exact fun field clamped hr => checkFrame_range_fault sel mode act start he hr
  case refine_5 =>
    intro divider period xs clamped hr
    have hd : 1 ≤ divider := divider_of_rangeFrame hr
    have least := stretchedPeriod_le_iff mode hd
    rw [checkFrame_ranged sel mode act start he hr]
    refine ⟨fun long => ?_, fun short unmasked => ?_, fun short masked => ?_⟩
    · exact ⟨_, if_pos long, rfl, rfl, rfl, rfl, rfl⟩
    · rw [if_neg (Nat.not_le.2 short), unmasked]
      rfl
    · rw [if_neg (Nat.not_le.2 short), if_pos masked]
      refine ⟨_, rfl, rfl, rfl, rfl, rfl, (least _).1 le_rfl, fun p => (least p).2, ?_⟩
      cases mode with
      | ramp => exact divUp_eq hd 64
      | triangle => exact divUp_eq hd 32

end Sys2Proof.Machine
end

section
/-! SUPPORT. R62: every command, and so every step, keeps the pins of every pair sound
(`State.PinsOk`), and sound pins are never both driven ON. The effect of each command on the pins is
in Laws/Pins and Laws/PinSteps; here each shape of a command carries it to the end of the step. -/

namespace Sys2Proof.Machine

/-! ### The shapes of a command's meaning -/

theorem pinsOk_taking {s : State} {kind : Word → Bool} {f : Word → State → State} (h : s.PinsOk)
    (hf : ∀ w t, t.PinsOk → (f w t).PinsOk) : (s.taking kind f).PinsOk :=
  taking_of h fun w _ _ => pinsOk_concludeLight _ _ (hf w _ (pinsOk_of_banks rfl h))

theorem pinsOk_takingFull {s : State} {kind : Word → Bool} {f : Word → State → State}
    (h : s.PinsOk) (hf : ∀ w t, t.PinsOk → (f w t).PinsOk) : (s.takingFull kind f).PinsOk :=
  takingFull_of h fun w _ _ => pinsOk_conclude _ _ (hf w _ (pinsOk_of_banks rfl h))

theorem pinsOk_forBank {w : Word} {s : State} {f : BankNo → State} (h : s.PinsOk)
    (hf : ∀ b, (f b).PinsOk) : (State.forBank w s f).PinsOk :=
  forBank_of (pinsOk_answer s _ _ h) hf

theorem pinsOk_forLine {w : Word} {s : State} {f : LineNo → State} (h : s.PinsOk)
    (hf : ∀ l, (f l).PinsOk) : (State.forLine w s f).PinsOk :=
  forLine_of (pinsOk_answer s _ _ h) hf

/-- A journal's request touches no bank. -/
theorem pinsOk_forJournal {w : Word} {s : State} {f : JournalNo → State} (h : s.PinsOk)
    (hf : ∀ j, (f j).banks = s.banks) : (State.forJournal w s f).PinsOk :=
  forJournal_of (pinsOk_answer s _ _ h) fun j => pinsOk_of_banks (hf j) h

theorem pinsOk_arrive {s : State} {place : Fin 4} {f : OutRead → Option (State → State)}
    (h : s.PinsOk) (hf : ∀ r g, f r = some g → ∀ t, t.PinsOk → (g t).PinsOk) :
    (s.arrive place f).PinsOk :=
  have dropped : (s.dropRead place).PinsOk := pinsOk_of_banks rfl h
  arrive_of h dropped fun r g _ hg => pinsOk_conclude _ _ (hf r g hg _ dropped)

theorem pinsOk_respond {s : State} {f : OutWrite → Option (State → State)} (h : s.PinsOk)
    (hf : ∀ w g, f w = some g → ∀ t, t.PinsOk → (g t).PinsOk) : (s.respond f).PinsOk :=
  respond_of h fun w _ g _ hg => pinsOk_conclude _ _ (hf w g hg _ (pinsOk_of_banks rfl h))

/-! ### Arrivals and responses -/

theorem pinsOk_execHeaderRead (place : Fin 4) (s : State) (h : s.PinsOk) :
    Gives State.PinsOk (execHeaderRead place s) := by
  refine gives_unlessReset h fun _ => pinsOk_arrive h fun r g hg t ht => ?_
  split at hg <;> cases hg
  exact pinsOk_toFetch t _ r ht

theorem pinsOk_execEntryRead (place : Fin 4) (s : State) (h : s.PinsOk) :
    Gives State.PinsOk (execEntryRead place s) := by
  refine gives_unlessReset h fun _ => pinsOk_arrive h fun r g hg t ht => ?_
  split at hg <;> cases hg
  exact pinsOk_toFetch t _ r ht

theorem pinsOk_execLinkRead (place : Fin 4) (s : State) (h : s.PinsOk) :
    Gives State.PinsOk (execLinkRead place s) := by
  refine gives_unlessReset h fun _ => pinsOk_arrive h fun r g hg t ht => ?_
  split at hg <;> cases hg
  exact pinsOk_linkArrived t _ _ ht

theorem pinsOk_execDescriptorLoad (place : Fin 4) (s : State) (h : s.PinsOk) :
    Gives State.PinsOk (execDescriptorLoad place s) := by
  refine gives_unlessReset h fun _ => pinsOk_arrive h fun r g hg t ht => ?_
  split at hg <;> cases hg
  exact pinsOk_loadArrived t _ _ ht

theorem pinsOk_execConsumeReread (place : Fin 4) (s : State) (h : s.PinsOk) :
    Gives State.PinsOk (execConsumeReread place s) := by
  refine gives_unlessReset h fun _ => pinsOk_arrive h fun r g hg t ht => ?_
  split at hg <;> cases hg
  exact pinsOk_of_banks (banks_rereadArrived t _ _) ht

theorem pinsOk_execBankRecordRead (place : Fin 4) (s : State) (h : s.PinsOk) :
    Gives State.PinsOk (execBankRecordRead place s) := by
  refine gives_unlessReset h fun _ => pinsOk_arrive h fun r g hg t ht => ?_
  split at hg <;> cases hg
  exact pinsOk_bankRecordArrived t _ _ ht

theorem pinsOk_execLineRecordRead (place : Fin 4) (s : State) (h : s.PinsOk) :
    Gives State.PinsOk (execLineRecordRead place s) := by
  refine gives_unlessReset h fun _ => pinsOk_arrive h fun r g hg t ht => ?_
  split at hg <;> cases hg
  exact pinsOk_lineRecordArrived t _ _ ht

theorem pinsOk_execJournalRecordRead (place : Fin 4) (s : State) (h : s.PinsOk) :
    Gives State.PinsOk (execJournalRecordRead place s) := by
  refine gives_unlessReset h fun _ => pinsOk_arrive h fun r g hg t ht => ?_
  split at hg <;> cases hg
  exact pinsOk_of_banks (banks_journalRecordArrived t _ _) ht

theorem pinsOk_execBootHeaderRead (place : Fin 4) (s : State) (h : s.PinsOk) :
    Gives State.PinsOk (execBootHeaderRead place s) := by
  refine gives_unlessReset h fun _ => pinsOk_arrive h fun r g hg t ht => ?_
  split at hg <;> cases hg
  exact pinsOk_bootArrived t _ ht

theorem pinsOk_execFrameWriteResponse (s : State) (h : s.PinsOk) :
    Gives State.PinsOk (execFrameWriteResponse s) := by
  refine gives_unlessReset h fun _ => pinsOk_respond h fun w g hg t ht => ?_
  split at hg <;> cases hg
  · exact pinsOk_frameResponse t _ _ _ _ w ht
  · exact pinsOk_frameResponse t _ _ _ _ w ht

theorem pinsOk_execRecordWriteResponse (s : State) (h : s.PinsOk) :
    Gives State.PinsOk (execRecordWriteResponse s) := by
  refine gives_unlessReset h fun _ => pinsOk_respond h fun w g hg t ht => ?_
  split at hg <;> cases hg
  exact pinsOk_of_banks (banks_recordResponse t _ w) ht

@[simp] theorem banks_portError (s : State) (error : Bool) :
    (s.portError error).banks = s.banks := by
  cases error <;> rfl

theorem pinsOk_execEngineStatusResponse (s : State) (h : s.PinsOk) :
    Gives State.PinsOk (execEngineStatusResponse s) := by
  refine gives_unlessReset h fun _ => pinsOk_respond h fun w g hg t ht => ?_
  split at hg <;> cases hg
  exact pinsOk_of_banks (by simp) ht

theorem pinsOk_execAnchorWriteResponse (s : State) (h : s.PinsOk) :
    Gives State.PinsOk (execAnchorWriteResponse s) := by
  refine gives_unlessReset h fun _ => pinsOk_respond h fun w g hg t ht => ?_
  split at hg <;> cases hg
  exact pinsOk_of_banks (banks_portError t _) ht

/-! ### Time events -/

theorem pinsOk_execEdge (l : LineNo) (s : State) (h : s.PinsOk) :
    Gives State.PinsOk (execEdge l s) := by
  refine gives_unlessReset h fun _ => ?_
  split
  · exact pinsOk_conclude _ _ (pinsOk_acceptEdge s l h)
  · exact h

theorem pinsOk_execFilterSample (l : LineNo) (s : State) (h : s.PinsOk) :
    Gives State.PinsOk (execFilterSample l s) := by
  refine gives_unlessReset h fun _ => ?_
  split
  · exact pinsOk_of_banks (banks_takeSample s l) h
  · exact h

theorem pinsOk_execCounterAdvance (b : BankNo) (s : State) (h : s.PinsOk) :
    Gives State.PinsOk (execCounterAdvance b s) := by
  refine gives_unlessReset h fun _ => ?_
  repeat' split
  · exact pinsOk_conclude _ _ (pinsOk_advanceCounter s b _ _ h)
  · exact h
  · exact h

theorem pinsOk_execBoundary (b : BankNo) (s : State) (h : s.PinsOk) :
    Gives State.PinsOk (execBoundary b s) := by
  refine gives_unlessReset h fun _ => ?_
  repeat' split
  · exact pinsOk_conclude _ _ (pinsOk_innerBoundary s b h)
  · exact h
  · exact h

theorem pinsOk_execFinalBoundary (b : BankNo) (s : State) (h : s.PinsOk) :
    Gives State.PinsOk (execFinalBoundary b s) := by
  refine gives_unlessReset h fun _ => ?_
  repeat' split
  · exact pinsOk_conclude _ _ (pinsOk_lastBoundary s b _ h)
  · exact h
  · exact h

theorem pinsOk_execCueTimeout (b : BankNo) (s : State) (h : s.PinsOk) :
    Gives State.PinsOk (execCueTimeout b s) := by
  refine gives_unlessReset h fun _ => ?_
  split
  · exact pinsOk_conclude _ _ (pinsOk_cueTimeout s b _ h)
  · exact h

/-- The one command that drives a pin ON by itself does so only where the pin is desired ON. -/
theorem pinsOk_execOnDelayReached (b : BankNo) (c : ChanNo) (partner : Bool) (s : State)
    (h : s.PinsOk) : Gives State.PinsOk (execOnDelayReached b c partner s) := by
  refine gives_unlessReset h fun _ => ?_
  split
  · rename_i due
    simp only [State.onDelayDue, Bool.and_eq_true] at due
    exact pinsOk_onDelay s b c partner h due.2
  · exact h

theorem pinsOk_execJournalStep (j : JournalNo) (s : State) (h : s.PinsOk) :
    Gives State.PinsOk (execJournalStep j s) := by
  refine gives_unlessReset h fun _ => ?_
  split
  · exact pinsOk_conclude _ _ (pinsOk_of_banks (banks_beginStep s j _) h)
  · exact h

/-! ### Requests -/

theorem pinsOk_execMark (s : State) (h : s.PinsOk) : Gives State.PinsOk (execMark s) :=
  gives_unlessReset h fun _ => pinsOk_taking h fun _ t => pinsOk_answer t _ _

theorem pinsOk_bankStart (s : State) (b : BankNo) (h : s.PinsOk) : (s.bankStart b).PinsOk := by
  unfold State.bankStart
  split
  · exact pinsOk_of_banks rfl h
  · exact pinsOk_answer s _ _ h

theorem pinsOk_execBankStart (s : State) (h : s.PinsOk) : Gives State.PinsOk (execBankStart s) :=
  gives_unlessReset h fun _ => pinsOk_taking h fun _ t ht =>
    pinsOk_forBank ht fun b => pinsOk_bankStart t b ht

theorem pinsOk_execBankStop (s : State) (h : s.PinsOk) : Gives State.PinsOk (execBankStop s) := by
  refine gives_unlessReset h fun _ => pinsOk_takingFull h fun w t ht =>
    pinsOk_forBank ht fun b => ?_
  repeat' split
  · exact pinsOk_bankStop t true b ht
  · exact pinsOk_bankStop t false b ht
  · exact pinsOk_answer t _ _ ht

theorem pinsOk_execBankLook (s : State) (h : s.PinsOk) : Gives State.PinsOk (execBankLook s) :=
  gives_unlessReset h fun _ => pinsOk_takingFull h fun _ t ht =>
    pinsOk_forBank ht fun b => pinsOk_bankLook t b ht

theorem pinsOk_execBankRearm (s : State) (h : s.PinsOk) : Gives State.PinsOk (execBankRearm s) :=
  gives_unlessReset h fun _ => pinsOk_taking h fun _ t ht =>
    pinsOk_forBank ht fun b => pinsOk_bankRearm t b ht

theorem pinsOk_execBankTrip (s : State) (h : s.PinsOk) : Gives State.PinsOk (execBankTrip s) :=
  gives_unlessReset h fun _ => pinsOk_taking h fun _ t ht =>
    pinsOk_forBank ht fun b => pinsOk_bankTrip t b ht

theorem pinsOk_execBankAck (s : State) (h : s.PinsOk) : Gives State.PinsOk (execBankAck s) :=
  gives_unlessReset h fun _ => pinsOk_taking h fun _ t ht =>
    pinsOk_forBank ht fun b => pinsOk_bankAck t b ht

@[simp] theorem banks_journalOpen (s : State) (j : JournalNo) :
    (s.journalOpen j).banks = s.banks := by
  unfold State.journalOpen
  split
  · rfl
  · exact banks_answer s _ _

theorem pinsOk_execJournalOpen (s : State) (h : s.PinsOk) :
    Gives State.PinsOk (execJournalOpen s) :=
  gives_unlessReset h fun _ => pinsOk_taking h fun _ t ht =>
    pinsOk_forJournal ht fun j => banks_journalOpen t j

theorem pinsOk_execJournalClose (s : State) (h : s.PinsOk) :
    Gives State.PinsOk (execJournalClose s) :=
  gives_unlessReset h fun _ => pinsOk_takingFull h fun _ t ht =>
    pinsOk_forJournal ht fun j => banks_journalClose t j

theorem pinsOk_execJournalLook (s : State) (h : s.PinsOk) :
    Gives State.PinsOk (execJournalLook s) :=
  gives_unlessReset h fun _ => pinsOk_taking h fun _ t ht =>
    pinsOk_forJournal ht fun j => banks_journalLook t j

theorem pinsOk_execLineLoad (s : State) (h : s.PinsOk) : Gives State.PinsOk (execLineLoad s) :=
  gives_unlessReset h fun _ => pinsOk_taking h fun _ _ ht =>
    pinsOk_forLine ht fun _ => pinsOk_of_banks rfl ht

theorem pinsOk_execWindowsFlush (s : State) (h : s.PinsOk) :
    Gives State.PinsOk (execWindowsFlush s) :=
  gives_unlessReset h fun _ => pinsOk_taking h fun _ _ ht =>
    pinsOk_answer _ _ _ (pinsOk_of_banks rfl ht)

theorem pinsOk_execUnknownAction (s : State) (h : s.PinsOk) :
    Gives State.PinsOk (execUnknownAction s) :=
  gives_unlessReset h fun _ => pinsOk_taking h fun _ t => pinsOk_answer t _ _

/-! ### The grant and Engine Control -/

/-- The host's writes touch memory alone; the request that is granted keeps the pins. -/
theorem pinsOk_execArbiterGrant (host : List Host.Cell) (fate : Fate) (s : State) (h : s.PinsOk) :
    Gives State.PinsOk (execArbiterGrant host fate s) := by
  have written : (s.hostWrites host).PinsOk := pinsOk_of_banks rfl h
  unfold execArbiterGrant
  split
  · exact fun _ hnext => nomatch hnext
  · refine gives_unlessReset written fun _ => ?_
    unfold State.grant
    split
    · exact pinsOk_conclude _ _ (pinsOk_issue _ fate _ written)
    · exact written

theorem pinsOk_execQuiesceComplete (fate : Fate) (s : State) (h : s.PinsOk) :
    Gives State.PinsOk (execQuiesceComplete fate s) := by
  refine gives_unlessReset h fun _ => ?_
  split
  · exact pinsOk_completeQuiesce s fate h
  · exact h

theorem pinsOk_execRun (value : Bool) (s : State) (h : s.PinsOk) :
    Gives State.PinsOk (execRun value s) :=
  gives_unlessReset h fun _ => pinsOk_writeRun s value h

theorem pinsOk_execEngineReset (value : Bool) (s : State) (h : s.PinsOk) :
    Gives State.PinsOk (execEngineReset value s) :=
  gives_unlessReset h fun _ => pinsOk_of_banks rfl pinsOk_reset

theorem pinsOk_execCauseWrite (data : Word) (s : State) (h : s.PinsOk) :
    Gives State.PinsOk (execCauseWrite data s) :=
  gives_unlessReset h fun _ => pinsOk_of_banks rfl h

theorem pinsOk_execCauseEnable (data : Word) (s : State) (h : s.PinsOk) :
    Gives State.PinsOk (execCauseEnable data s) :=
  gives_unlessReset h fun _ => pinsOk_of_banks rfl h

theorem pinsOk_execTickLo (s : State) (h : s.PinsOk) : Gives State.PinsOk (execTickLo s) :=
  gives_unlessReset h fun _ => pinsOk_of_banks rfl h

theorem pinsOk_execRegisterWrite (offset : Nat) (data : Word) (enables : BitVec 4) (s : State)
    (h : s.PinsOk) : Gives State.PinsOk (execRegisterWrite offset data enables s) := by
  refine gives_unlessReset h fun _ => ?_
  split
  · exact pinsOk_writeRegister s offset data h
  · exact h

theorem pinsOk_execSweepWrite (word : Word) (s : State) (h : s.PinsOk) :
    Gives State.PinsOk (execSweepWrite word s) :=
  gives_unlessReset h fun _ => pinsOk_offerWord s word h

/-! ### Every command, every step -/

theorem pinsOk_exec (c : Instr) (s : State) (h : s.PinsOk) : Gives State.PinsOk (exec c s) := by
  cases c with
  | mark => exact pinsOk_execMark s h
  | bankStart => exact pinsOk_execBankStart s h
  | bankStop => exact pinsOk_execBankStop s h
  | bankLook => exact pinsOk_execBankLook s h
  | bankRearm => exact pinsOk_execBankRearm s h
  | bankTrip => exact pinsOk_execBankTrip s h
  | bankAck => exact pinsOk_execBankAck s h
  | journalOpen => exact pinsOk_execJournalOpen s h
  | journalClose => exact pinsOk_execJournalClose s h
  | journalLook => exact pinsOk_execJournalLook s h
  | lineLoad => exact pinsOk_execLineLoad s h
  | windowsFlush => exact pinsOk_execWindowsFlush s h
  | unknownAction => exact pinsOk_execUnknownAction s h
  | run value => exact pinsOk_execRun value s h
  | engineReset value => exact pinsOk_execEngineReset value s h
  | causeWrite data => exact pinsOk_execCauseWrite data s h
  | causeEnable data => exact pinsOk_execCauseEnable data s h
  | tickLo => exact pinsOk_execTickLo s h
  | registerWrite offset data enables => exact pinsOk_execRegisterWrite offset data enables s h
  | resetN level => exact gives_next (pinsOk_resetPin s level h)
  | edge l => exact pinsOk_execEdge l s h
  | counterAdvance b => exact pinsOk_execCounterAdvance b s h
  | boundary b => exact pinsOk_execBoundary b s h
  | finalBoundary b => exact pinsOk_execFinalBoundary b s h
  | cueTimeout b => exact pinsOk_execCueTimeout b s h
  | onDelayReached b c partner => exact pinsOk_execOnDelayReached b c partner s h
  | headerRead place => exact pinsOk_execHeaderRead place s h
  | entryRead place => exact pinsOk_execEntryRead place s h
  | linkRead place => exact pinsOk_execLinkRead place s h
  | descriptorLoad place => exact pinsOk_execDescriptorLoad place s h
  | frameWriteResponse => exact pinsOk_execFrameWriteResponse s h
  | consumeReread place => exact pinsOk_execConsumeReread place s h
  | recordWriteResponse => exact pinsOk_execRecordWriteResponse s h
  | bankRecordRead place => exact pinsOk_execBankRecordRead place s h
  | lineRecordRead place => exact pinsOk_execLineRecordRead place s h
  | journalRecordRead place => exact pinsOk_execJournalRecordRead place s h
  | bootHeaderRead place => exact pinsOk_execBootHeaderRead place s h
  | engineStatusResponse => exact pinsOk_execEngineStatusResponse s h
  | anchorWriteResponse => exact pinsOk_execAnchorWriteResponse s h
  | journalStep j => exact pinsOk_execJournalStep j s h
  | arbiterGrant host fate => exact pinsOk_execArbiterGrant host fate s h
  | quiesceComplete fate => exact pinsOk_execQuiesceComplete fate s h
  | sweepWrite word => exact pinsOk_execSweepWrite word s h
  | filterSample l => exact pinsOk_execFilterSample l s h

@[simp] theorem banks_drawn (s : State) : s.drawn.banks = s.banks := by
  unfold State.drawn
  split <;> rfl

theorem pinsOk_step (s : State) (h : s.PinsOk) : Gives State.PinsOk (step s) :=
  step_of (fun _ _ hs => pinsOk_of_banks rfl hs) (fun s => pinsOk_of_banks (banks_drawn s))
    pinsOk_exec pinsOk_advanceTick s h

/-! ### Why the two pins of a pair stay apart -/

/-- Two pins driven ON would both be desired ON. -/
theorem not_shortCircuit_of_sound {p : PinPair} (h : p.Sound) : ¬ p.shortCircuit := by
  obtain ⟨primary, partner, apart, _, _⟩ := h
  rintro ⟨hprimary, hpartner⟩
  simp [primary hprimary, partner hpartner] at apart

/-- The pins of a started bank, judged afresh (R65, R67). -/
theorem pins_refresh {k : Bank} (started : k.seq.started = true) (c : ChanNo) :
    k.refreshPins.wave.pins.get c = k.resolvePair c := by
  unfold Bank.refreshPins
  rw [if_pos started]
  fin_cases c <;> rfl

/-- In OFF mode both pins desire OFF. -/
theorem desires_off {x : ChanSetting} (ref : Bool) (off : x.mode = .off) :
    x.desires ref = (false, false) := by
  rw [ChanSetting.desires, off]

/-- In every other mode the partner desires the inverse of the reference, or OFF. -/
theorem desires_driven {x : ChanSetting} (ref : Bool) (driven : x.mode ≠ .off) :
    x.desires ref = (ref, if x.partner then !ref else false) := by
  unfold ChanSetting.desires
  split
  · contradiction
  · cases x.partner <;> rfl

/-- A record with both pins of a pair ON at rest, or under a trip, fails its check (R161). -/
theorem check_eq_none_of_pair_on {r : BankRecord} {c : ChanNo}
    (both : (pinBit r.rest c false && pinBit r.rest c true) = true ∨
      (pinBit r.trip c false && pinBit r.trip c true) = true) : r.check = none := by
  cases hcheck : r.check with
  | none => rfl
  | some auto =>
    obtain ⟨hrest, htrip⟩ := check_pairsOk hcheck
    simp [pairsOk_apart _ hrest c, pairsOk_apart _ htrip c] at both

/-- A pin judged with a desired level of OFF is driven OFF, whatever it was (R60). -/
theorem resolve_drive_off (p : Pin) (dead : Nat) : (p.resolve false dead).drive = .off := rfl

/-- Settles O58: the invariant over every step, and R62's reasons for it one by one. -/
theorem pairsAreNeverBothOn : Obligations.PairsAreNeverBothOn := by
  refine ⟨fun s t h => pinsOk_step s h t, fun s h b c => not_shortCircuit_of_sound (h b c), ?_,
    fun _ ref => desires_off ref, fun _ ref => desires_driven ref,
    fun _ _ => check_eq_none_of_pair_on, fun p desired dead => ⟨sound_resolve p desired dead, ?_⟩⟩
  case refine_1 =>
    intro k c started
    rw [pins_refresh started]
    rfl
  case refine_2 =>
    rintro rfl
    exact resolve_drive_off p dead

end Sys2Proof.Machine
end

section
/-! SUPPORT. R185 and R187: TICK_LO latches the high bits of the timebase and nothing else moves
the latch, and IRQ is a set and enabled cause. The timebase and its latch are part of `State.outer`,
which Laws/Frames carries through the inner operations; here the issues and Engine Control are
followed too, and each shape of a command carries the two to the end of the step. -/

namespace Sys2Proof.Machine

/-! ### The timebase and its latch -/

/-- What TICK_LO and TICK_HI read: the timebase and the latched bits (R185). -/
def State.clock (s : State) : Stamp × BitVec 16 := (s.now, s.tickHi)

/-- The timebase and its latch are those of `s`. -/
def State.SameClock (s t : State) : Prop := t.clock = s.clock

theorem clock_of_outer {s t : State} (h : t.outer = s.outer) : t.clock = s.clock :=
  congrArg₂ Prod.mk (now_of_outer h) (tickHi_of_outer h)

theorem now_of_clock {s t : State} (h : t.clock = s.clock) : t.now = s.now := congrArg Prod.fst h

theorem tickHi_of_clock {s t : State} (h : t.clock = s.clock) : t.tickHi = s.tickHi :=
  congrArg Prod.snd h

@[simp] theorem clock_conclude (before s : State) : (before.conclude s).clock = s.clock :=
  clock_of_outer (outer_conclude before s)

/-! ### Issues -/

@[simp] theorem clock_issueJournal (s : State) (j : JournalNo) (r : JournalReq) (fate : Fate) :
    (s.issueJournal j r fate).clock = s.clock := by
  unfold State.issueJournal
  cases r with
  | load n => rfl
  | reread => rfl
  | produceWord v => exact (clock_of_outer (outer_produceIssued _ j)).trans rfl
  | statusWord => rfl
  | record addr second =>
    dsimp only
    repeat' split
    · exact (clock_of_outer (outer_recordIssued _ j _)).trans rfl
    · rfl
    · rfl

@[simp] theorem clock_sendFrame (s : State) (b : BankNo) (a : FrameAccess) (addr : Nat)
    (second : Bool) (fate : Fate) : (s.sendFrame b a addr second fate).clock = s.clock := by
  unfold State.sendFrame
  dsimp only
  split <;> rfl

@[simp] theorem clock_issueFrame (s : State) (b : BankNo) (a : FrameAccess) (addr : Nat)
    (second : Bool) (fate : Fate) : (s.issueFrame b a addr second fate).clock = s.clock := by
  have sent := clock_sendFrame s b a addr second fate
  unfold State.issueFrame
  dsimp only
  split
  · exact (clock_of_outer (outer_frameIssued _ b a)).trans sent
  · exact sent

@[simp] theorem clock_issueReply (s : State) (fate : Fate) :
    (s.issueReply fate).clock = s.clock := by
  unfold State.issueReply
  repeat' split
  · exact (clock_of_outer (outer_requestClass3 _ .engine)).trans rfl
  · rfl
  · rfl

@[simp] theorem clock_issueEngineStatus (s : State) (shown : EngineState) (fate : Fate) :
    (s.issueEngineStatus shown fate).clock = s.clock := by
  unfold State.issueEngineStatus
  dsimp only
  split <;> rfl

@[simp] theorem clock_issueClass3 (s : State) (c : Class3) (fate : Fate) :
    (s.issueClass3 c fate).clock = s.clock := by
  cases c with
  | reply => exact clock_issueReply (s.popClass3 .reply) fate
  | engine => exact clock_issueEngineStatus (s.popClass3 .engine) _ fate
  | bank b => rfl
  | line l => rfl

@[simp] theorem clock_issue (s : State) (fate : Fate) (g : Grant) :
    (s.issue fate g).clock = s.clock := by
  cases g with
  | journal j r => exact clock_issueJournal s j r fate
  | frame b a addr second => exact clock_issueFrame s b a addr second fate
  | class3 c => exact clock_issueClass3 s c fate
  | class4 o => rfl

@[simp] theorem clock_grant (s : State) (fate : Fate) : (s.grant fate).clock = s.clock := by
  unfold State.grant
  split
  · rw [clock_conclude, clock_issue]
  · rfl

/-! ### Engine Control and the register window -/

@[simp] theorem clock_enterBooting (s : State) : s.enterBooting.clock = s.clock := by
  unfold State.enterBooting
  dsimp only
  split <;> rfl

@[simp] theorem clock_bootArrived (s : State) (answer : Option (List Byte)) :
    (s.bootArrived answer).clock = s.clock := by
  unfold State.bootArrived
  repeat' split
  · rfl
  · exact (clock_of_outer (outer_announceOn _)).trans rfl
  · rfl
  · rfl

@[simp] theorem clock_enterQuiescing (s : State) : s.enterQuiescing.clock = s.clock := by
  unfold State.enterQuiescing
  dsimp only
  rw [clock_of_outer (outer_foldl _ outer_quiesceJournal _ _),
    clock_of_outer (outer_foldl _ outer_quiesceBank _ _)]
  exact (clock_of_outer (outer_requestClass3 _ .engine)).trans rfl

@[simp] theorem clock_runChanged (s : State) (value : Bool) :
    (s.runChanged value).clock = s.clock := by
  unfold State.runChanged
  split
  · exact clock_enterBooting s
  · rfl
  · exact clock_enterQuiescing s
  · rfl
  · rfl

@[simp] theorem clock_writeRun (s : State) (value : Bool) : (s.writeRun value).clock = s.clock := by
  unfold State.writeRun
  split
  · rfl
  · rw [clock_conclude, clock_runChanged]; rfl

@[simp] theorem clock_completeQuiesce (s : State) (fate : Fate) :
    (s.completeQuiesce fate).clock = s.clock := by
  have shown := clock_issueEngineStatus s .off fate
  unfold State.completeQuiesce
  dsimp only
  split
  · exact (clock_enterBooting _).trans shown
  · exact shown

@[simp] theorem clock_offerWord (s : State) (w : Word) : (s.offerWord w).clock = s.clock := by
  unfold State.offerWord
  repeat' split
  all_goals rfl

/-- Of the registers that take writes, CONTROL alone can reach the timebase, by ENGINE_RESET. -/
theorem clock_writeRegister (s : State) {offset : Nat} (w : Word) (h : offset ≠ 0x04) :
    (s.writeRegister offset w).clock = s.clock := by
  unfold State.writeRegister
  split
  · exact absurd rfl h
  · rfl
  · rfl
  · exact clock_offerWord s w
  all_goals rfl

/-! ### The shapes of a command's meaning -/

theorem sameClock_of_clock {s : State} {f : State → State} (h : (f s).clock = s.clock) :
    Gives s.SameClock (unlessReset s f) :=
  gives_unlessReset (P := s.SameClock) rfl fun _ => h

theorem sameClock_of_outer {s : State} {f : State → State} (h : (f s).outer = s.outer) :
    Gives s.SameClock (unlessReset s f) :=
  sameClock_of_clock (clock_of_outer h)

theorem sameClock_taking {s : State} {kind : Word → Bool} {f : Word → State → State}
    (hf : ∀ w t, (f w t).outer = t.outer) :
    Gives s.SameClock (unlessReset s fun s => s.taking kind f) :=
  gives_unlessReset rfl fun _ => taking_of rfl fun w _ _ =>
    (clock_of_outer ((outer_concludeLight _ _).trans (hf w (s.takeHead w)))).trans rfl

theorem sameClock_takingFull {s : State} {kind : Word → Bool} {f : Word → State → State}
    (hf : ∀ w t, (f w t).outer = t.outer) :
    Gives s.SameClock (unlessReset s fun s => s.takingFull kind f) :=
  gives_unlessReset rfl fun _ => takingFull_of rfl fun w _ _ =>
    (clock_of_outer ((outer_conclude _ _).trans (hf w (s.takeHead w)))).trans rfl

theorem sameClock_arrive {s : State} {place : Fin 4} {f : OutRead → Option (State → State)}
    (hf : ∀ r g, f r = some g → ∀ t, (g t).clock = t.clock) :
    Gives s.SameClock (unlessReset s fun s => s.arrive place f) :=
  gives_unlessReset rfl fun _ => arrive_of rfl rfl fun r g _ hg =>
    (clock_conclude _ _).trans (hf r g hg (s.dropRead place))

theorem sameClock_respond {s : State} {f : OutWrite → Option (State → State)}
    (hf : ∀ w g, f w = some g → ∀ t, (g t).outer = t.outer) :
    Gives s.SameClock (unlessReset s fun s => s.respond f) :=
  gives_unlessReset rfl fun _ => respond_of rfl fun w _ g _ hg =>
    (clock_conclude _ _).trans ((clock_of_outer (hf w g hg s.dropWrite)).trans rfl)

theorem outer_forBank {w : Word} {s : State} {f : BankNo → State}
    (hf : ∀ b, (f b).outer = s.outer) : (State.forBank w s f).outer = s.outer :=
  forBank_of (P := fun t => t.outer = s.outer) (outer_answer s _ _) hf

theorem outer_forLine {w : Word} {s : State} {f : LineNo → State}
    (hf : ∀ l, (f l).outer = s.outer) : (State.forLine w s f).outer = s.outer :=
  forLine_of (P := fun t => t.outer = s.outer) (outer_answer s _ _) hf

theorem outer_forJournal {w : Word} {s : State} {f : JournalNo → State}
    (hf : ∀ j, (f j).outer = s.outer) : (State.forJournal w s f).outer = s.outer :=
  forJournal_of (P := fun t => t.outer = s.outer) (outer_answer s _ _) hf

/-! ### Requests, time events, arrivals and responses -/

theorem sameClock_execBankStop (s : State) : Gives s.SameClock (execBankStop s) := by
  refine sameClock_takingFull fun w t => outer_forBank fun b => ?_
  repeat' split
  · exact outer_bankStop t true b
  · exact outer_bankStop t false b
  · exact outer_answer t _ _

theorem sameClock_execEdge (l : LineNo) (s : State) : Gives s.SameClock (execEdge l s) :=
  sameClock_of_outer (by split <;> simp)

theorem sameClock_execFilterSample (l : LineNo) (s : State) :
    Gives s.SameClock (execFilterSample l s) :=
  sameClock_of_outer (by split <;> simp)

theorem sameClock_execCounterAdvance (b : BankNo) (s : State) :
    Gives s.SameClock (execCounterAdvance b s) := by
  refine sameClock_of_outer ?_
  repeat' split
  all_goals simp

theorem sameClock_execBoundary (b : BankNo) (s : State) : Gives s.SameClock (execBoundary b s) := by
  refine sameClock_of_outer ?_
  repeat' split
  all_goals simp

theorem sameClock_execFinalBoundary (b : BankNo) (s : State) :
    Gives s.SameClock (execFinalBoundary b s) := by
  refine sameClock_of_outer ?_
  repeat' split
  all_goals simp

theorem sameClock_execCueTimeout (b : BankNo) (s : State) :
    Gives s.SameClock (execCueTimeout b s) :=
  sameClock_of_outer (by split <;> simp)

theorem sameClock_execOnDelayReached (b : BankNo) (c : ChanNo) (partner : Bool) (s : State) :
    Gives s.SameClock (execOnDelayReached b c partner s) :=
  sameClock_of_outer (by split <;> simp)

theorem sameClock_execJournalStep (j : JournalNo) (s : State) :
    Gives s.SameClock (execJournalStep j s) :=
  sameClock_of_outer (by split <;> simp)

theorem sameClock_execHeaderRead (place : Fin 4) (s : State) :
    Gives s.SameClock (execHeaderRead place s) := by
  refine sameClock_arrive fun r g hg t => ?_
  split at hg <;> cases hg
  exact clock_of_outer (outer_toFetch t _ r)

theorem sameClock_execEntryRead (place : Fin 4) (s : State) :
    Gives s.SameClock (execEntryRead place s) := by
  refine sameClock_arrive fun r g hg t => ?_
  split at hg <;> cases hg
  exact clock_of_outer (outer_toFetch t _ r)

theorem sameClock_execLinkRead (place : Fin 4) (s : State) :
    Gives s.SameClock (execLinkRead place s) := by
  refine sameClock_arrive fun r g hg t => ?_
  split at hg <;> cases hg
  exact clock_of_outer (outer_linkArrived t _ _)

theorem sameClock_execDescriptorLoad (place : Fin 4) (s : State) :
    Gives s.SameClock (execDescriptorLoad place s) := by
  refine sameClock_arrive fun r g hg t => ?_
  split at hg <;> cases hg
  exact clock_of_outer (outer_loadArrived t _ _)

theorem sameClock_execConsumeReread (place : Fin 4) (s : State) :
    Gives s.SameClock (execConsumeReread place s) := by
  refine sameClock_arrive fun r g hg t => ?_
  split at hg <;> cases hg
  exact clock_of_outer (outer_rereadArrived t _ _)

theorem sameClock_execBankRecordRead (place : Fin 4) (s : State) :
    Gives s.SameClock (execBankRecordRead place s) := by
  refine sameClock_arrive fun r g hg t => ?_
  split at hg <;> cases hg
  exact clock_of_outer (outer_bankRecordArrived t _ _)

theorem sameClock_execLineRecordRead (place : Fin 4) (s : State) :
    Gives s.SameClock (execLineRecordRead place s) := by
  refine sameClock_arrive fun r g hg t => ?_
  split at hg <;> cases hg
  exact clock_of_outer (outer_lineRecordArrived t _ _)

theorem sameClock_execJournalRecordRead (place : Fin 4) (s : State) :
    Gives s.SameClock (execJournalRecordRead place s) := by
  refine sameClock_arrive fun r g hg t => ?_
  split at hg <;> cases hg
  exact clock_of_outer (outer_journalRecordArrived t _ _)

theorem sameClock_execBootHeaderRead (place : Fin 4) (s : State) :
    Gives s.SameClock (execBootHeaderRead place s) := by
  refine sameClock_arrive fun r g hg t => ?_
  split at hg <;> cases hg
  exact clock_bootArrived t _

theorem sameClock_execFrameWriteResponse (s : State) :
    Gives s.SameClock (execFrameWriteResponse s) := by
  refine sameClock_respond fun w g hg t => ?_
  split at hg <;> cases hg
  · exact outer_frameResponse t _ _ _ _ w
  · exact outer_frameResponse t _ _ _ _ w

theorem sameClock_execRecordWriteResponse (s : State) :
    Gives s.SameClock (execRecordWriteResponse s) := by
  refine sameClock_respond fun w g hg t => ?_
  split at hg <;> cases hg
  exact outer_recordResponse t _ w

theorem sameClock_execEngineStatusResponse (s : State) :
    Gives s.SameClock (execEngineStatusResponse s) := by
  refine sameClock_respond fun w g hg t => ?_
  split at hg <;> cases hg
  exact (outer_raise _ _).trans (outer_portError t _)

theorem sameClock_execAnchorWriteResponse (s : State) :
    Gives s.SameClock (execAnchorWriteResponse s) := by
  refine sameClock_respond fun w g hg t => ?_
  split at hg <;> cases hg
  exact outer_portError t _

/-! ### The grant, Engine Control and the register window -/

theorem sameClock_execRegisterWrite {offset : Nat} (h : offset ≠ 0x04) (data : Word)
    (enables : BitVec 4) (s : State) :
    Gives s.SameClock (execRegisterWrite offset data enables s) := by
  refine gives_unlessReset rfl fun _ => ?_
  split
  · exact clock_writeRegister s data h
  · rfl

/-- The host's writes touch memory alone. -/
theorem sameClock_execArbiterGrant (host : List Host.Cell) (fate : Fate) (s : State) :
    Gives s.SameClock (execArbiterGrant host fate s) := by
  unfold execArbiterGrant
  split
  · exact fun _ hnext => nomatch hnext
  · exact gives_unlessReset rfl fun _ => clock_grant (s.hostWrites host) fate

theorem sameClock_execQuiesceComplete (fate : Fate) (s : State) :
    Gives s.SameClock (execQuiesceComplete fate s) := by
  refine gives_unlessReset rfl fun _ => ?_
  split
  · exact clock_completeQuiesce s fate
  · rfl

theorem sameClock_execRun (value : Bool) (s : State) : Gives s.SameClock (execRun value s) :=
  sameClock_of_clock (clock_writeRun s value)

theorem sameClock_execCauseWrite (data : Word) (s : State) :
    Gives s.SameClock (execCauseWrite data s) := sameClock_of_clock rfl

theorem sameClock_execCauseEnable (data : Word) (s : State) :
    Gives s.SameClock (execCauseEnable data s) := sameClock_of_clock rfl

theorem sameClock_execSweepWrite (word : Word) (s : State) :
    Gives s.SameClock (execSweepWrite word s) := sameClock_of_clock (clock_offerWord s word)

/-! ### Every command -/

/-- The commands that leave registers, Engine Control and time alone keep the timebase. -/
theorem sameClock_exec_inner {c : Instr} (inner : innerCommand c = true) (s : State) :
    Gives s.SameClock (exec c s) := by
  cases c with
  | mark => exact sameClock_taking fun _ t => outer_answer t _ _
  | bankStart => exact sameClock_taking fun _ t => outer_forBank (outer_bankStart t)
  | bankStop => exact sameClock_execBankStop s
  | bankLook => exact sameClock_takingFull fun _ t => outer_forBank (outer_bankLook t)
  | bankRearm => exact sameClock_taking fun _ t => outer_forBank (outer_bankRearm t)
  | bankTrip => exact sameClock_taking fun _ t => outer_forBank (outer_bankTrip t)
  | bankAck => exact sameClock_taking fun _ t => outer_forBank (outer_bankAck t)
  | journalOpen => exact sameClock_taking fun _ t => outer_forJournal (outer_journalOpen t)
  | journalClose => exact sameClock_takingFull fun _ t => outer_forJournal (outer_journalClose t)
  | journalLook => exact sameClock_taking fun _ t => outer_forJournal (outer_journalLook t)
  | lineLoad => exact sameClock_taking fun _ t => outer_forLine fun _ => outer_readRecord t _
  | windowsFlush =>
    exact sameClock_taking fun _ t => (outer_answer _ _ _).trans (outer_flushWindows t)
  | unknownAction => exact sameClock_taking fun _ t => outer_answer t _ _
  | edge l => exact sameClock_execEdge l s
  | filterSample l => exact sameClock_execFilterSample l s
  | counterAdvance b => exact sameClock_execCounterAdvance b s
  | boundary b => exact sameClock_execBoundary b s
  | finalBoundary b => exact sameClock_execFinalBoundary b s
  | cueTimeout b => exact sameClock_execCueTimeout b s
  | onDelayReached b c partner => exact sameClock_execOnDelayReached b c partner s
  | journalStep j => exact sameClock_execJournalStep j s
  | headerRead place => exact sameClock_execHeaderRead place s
  | entryRead place => exact sameClock_execEntryRead place s
  | linkRead place => exact sameClock_execLinkRead place s
  | descriptorLoad place => exact sameClock_execDescriptorLoad place s
  | consumeReread place => exact sameClock_execConsumeReread place s
  | bankRecordRead place => exact sameClock_execBankRecordRead place s
  | lineRecordRead place => exact sameClock_execLineRecordRead place s
  | journalRecordRead place => exact sameClock_execJournalRecordRead place s
  | frameWriteResponse => exact sameClock_execFrameWriteResponse s
  | recordWriteResponse => exact sameClock_execRecordWriteResponse s
  | engineStatusResponse => exact sameClock_execEngineStatusResponse s
  | anchorWriteResponse => exact sameClock_execAnchorWriteResponse s
  | sweepWrite word => exact sameClock_execSweepWrite word s
  | _ => cases inner

/-- Only the two resets, the first of them also by a write of CONTROL, and a read of TICK_LO reach
the timebase or its latch. -/
theorem sameClock_exec {c : Instr} (reset : ∀ v, c ≠ .engineReset v) (pin : ∀ v, c ≠ .resetN v)
    (control : ∀ w e, c ≠ .registerWrite 0x04 w e) (latch : c ≠ .tickLo) (s : State) :
    Gives s.SameClock (exec c s) := by
  by_cases inner : innerCommand c = true
  · exact sameClock_exec_inner inner s
  · cases c with
    | engineReset v => exact absurd rfl (reset v)
    | resetN v => exact absurd rfl (pin v)
    | tickLo => exact absurd rfl latch
    | registerWrite offset data enables =>
      have other : offset ≠ 0x04 := by rintro rfl; exact control data enables rfl
      exact sameClock_execRegisterWrite other data enables s
    | run value => exact sameClock_execRun value s
    | causeWrite data => exact sameClock_execCauseWrite data s
    | causeEnable data => exact sameClock_execCauseEnable data s
    | bootHeaderRead place => exact sameClock_execBootHeaderRead place s
    | arbiterGrant host fate => exact sameClock_execArbiterGrant host fate s
    | quiesceComplete fate => exact sameClock_execQuiesceComplete fate s
    | _ => exact absurd rfl inner

/-- A read of TICK_LO sets the latch, and not the timebase. -/
theorem now_execTickLo (s : State) : Gives (fun t => t.now = s.now) (execTickLo s) :=
  gives_unlessReset rfl fun _ => rfl

/-! ### Steps that time brings -/

theorem inner_dueLine {s : State} {l : LineNo} {c : Instr} (h : c ∈ s.dueLine l) :
    innerCommand c = true := by
  unfold State.dueLine at h
  split at h
  · rw [List.mem_singleton.mp h]; split <;> rfl
  · cases h

theorem inner_dueCounter {s : State} {b : BankNo} {c : Instr} (h : c ∈ s.dueCounter b) :
    innerCommand c = true := by
  unfold State.dueCounter at h
  repeat' split at h
  · cases h
  all_goals rw [List.mem_singleton.mp h]; rfl

theorem inner_dueTimeout {s : State} {b : BankNo} {c : Instr} (h : c ∈ s.dueTimeout b) :
    innerCommand c = true := by
  unfold State.dueTimeout at h
  split at h
  · rw [List.mem_singleton.mp h]; rfl
  · cases h

theorem inner_takeCommand (w : Word) : innerCommand (takeCommand w) = true := by
  unfold takeCommand
  repeat' split
  all_goals rfl

theorem inner_dueTake {s : State} {c : Instr} (h : c ∈ s.dueTake) : innerCommand c = true := by
  unfold State.dueTake at h
  repeat' split at h
  · rw [List.mem_singleton.mp h]; exact inner_takeCommand _
  · cases h
  · cases h

theorem inner_dueMoves {s : State} {c : Instr} (h : c ∈ s.dueMoves) : innerCommand c = true := by
  simp only [State.dueMoves, List.mem_append, List.mem_flatMap] at h
  obtain ((take | ⟨l, _, line⟩) | ⟨b, _, counter⟩) | ⟨b, _, timeout⟩ := h
  · exact inner_dueTake take
  · exact inner_dueLine line
  · exact inner_dueCounter counter
  · exact inner_dueTimeout timeout

theorem inner_duePins {s : State} {b : BankNo} {ch : ChanNo} {c : Instr} (h : c ∈ s.duePins b ch) :
    innerCommand c = true := by
  unfold State.duePins at h
  obtain primary | partner := List.mem_append.mp h
  · split at primary
    · rw [List.mem_singleton.mp primary]; rfl
    · cases primary
  · split at partner
    · rw [List.mem_singleton.mp partner]; rfl
    · cases partner

theorem inner_dueJournal {s : State} {j : JournalNo} {c : Instr} (h : c ∈ s.dueJournal j) :
    innerCommand c = true := by
  unfold State.dueJournal at h
  split at h
  · rw [List.mem_singleton.mp h]; rfl
  · cases h

/-- What time makes due is no command of the register window, of Engine Control or of the port. -/
theorem inner_dueCommands {s : State} {c : Instr} (h : c ∈ s.dueCommands) :
    innerCommand c = true := by
  unfold State.dueCommands at h
  split at h
  · cases h
  · simp only [List.mem_append, List.mem_flatMap] at h
    obtain (moves | ⟨b, _, ch, _, pins⟩) | ⟨j, _, journal⟩ := h
    · exact inner_dueMoves moves
    · exact inner_duePins pins
    · exact inner_dueJournal journal

/-- The free order picks one of those it is given. -/
theorem mem_of_pickFrom {n : Nat} {l : List Instr} {c : Instr} (h : pickFrom n l = some c) :
    c ∈ l := by
  unfold pickFrom at h
  split at h
  · cases h
  · cases h; exact List.mem_singleton_self _
  · exact List.mem_of_getElem? h

@[simp] theorem clock_drawn (s : State) : s.drawn.clock = s.clock := by
  unfold State.drawn
  split <;> rfl

@[simp] theorem tickHi_advanceTick (s : State) : s.advanceTick.tickHi = s.tickHi := by
  unfold State.advanceTick
  split <;> rfl

/-- With no command waiting, a step leaves the latch as it is. -/
theorem tickHi_idle (s : State) : Gives (fun t => t.tickHi = s.tickHi) (idle s) := by
  unfold idle
  split
  · rename_i c picked
    have inner := inner_dueCommands (mem_of_pickFrom picked)
    exact fun t ht =>
      tickHi_of_clock ((sameClock_exec_inner inner s.drawn t ht).trans (clock_drawn s))
  · exact gives_next (tickHi_advanceTick s)

/-! ### R185 -/

/-- The two halves that TICK_LO and TICK_HI read are the whole timebase. -/
theorem append_halves (x : Stamp) : x.extractLsb' 32 16 ++ x.setWidth 32 = x := by
  rw [BitVec.setWidth_eq_extractLsb' (by omega)]
  exact BitVec.extractLsb'_append_extractLsb'

theorem exec_tickLo {s : State} (released : s.resetHeld = false) :
    exec .tickLo s = .next s.readTickLo := running released

theorem exec_engineReset {s : State} (v : Bool) (released : s.resetHeld = false) :
    exec (.engineReset v) s = .next s.engineReset := running released

theorem exec_causeEnable {s : State} (data : Word) (released : s.resetHeld = false) :
    exec (.causeEnable data) s = .next (s.writeCauseEnable data) :=
  running (f := fun s => s.writeCauseEnable data) released

/-- TICK_LO and TICK_HI take no writes. -/
theorem exec_registerWrite_tick {offset : Nat} (tick : offset = 0x1C ∨ offset = 0x20) (data : Word)
    (e : BitVec 4) (s : State) : exec (.registerWrite offset data e) s = .next s := by
  have kept : s.writeRegister offset data = s := by
    obtain rfl | rfl := tick <;> rfl
  simp [exec, execRegisterWrite, unlessReset, kept]

/-- Settles O5: the read and the resets by their meanings, the frame over every command. -/
theorem tickLoLatchesTickHi : Obligations.TickLoLatchesTickHi := by
  refine ⟨fun s hr => ⟨_, exec_tickLo hr, rfl, rfl, rfl, append_halves s.now, rfl⟩,
    fun offset data e s tick => exec_registerWrite_tick tick data e s,
    fun v s hr => ⟨_, exec_engineReset v hr, rfl, rfl, rfl⟩,
    fun s => ⟨_, rfl, rfl, rfl, rfl⟩, ?frame, ?time⟩
  case frame =>
    intro c s t reset pin control ht
    by_cases latch : c = .tickLo
    · subst latch
      exact ⟨now_execTickLo s t ht, fun other => absurd rfl other⟩
    · have kept := sameClock_exec reset pin control latch s t ht
      exact ⟨now_of_clock kept, fun _ => tickHi_of_clock kept⟩
  case time =>
    intro s t waiting ht
    unfold step at ht
    rw [waiting] at ht
    exact tickHi_idle s t ht

/-! ### R187 -/

/-- The bits that are set and enabled are none just when the sixteen of them are all clear. -/
theorem irq_iff (s : State) : s.irq = true ↔
    ∃ n, n < 16 ∧ s.cause.getLsbD n = true ∧ s.causeEnable.getLsbD n = true := by
  have asserted : s.irq = true ↔ s.cause &&& s.causeEnable ≠ 0#16 := bne_iff_ne
  rw [asserted, ne_eq, BitVec.eq_of_getLsbD_eq_iff]
  simp

/-- With no cause enabled IRQ is deasserted. -/
theorem irq_of_causeEnable {s : State} (h : s.causeEnable = 0#16) : s.irq = false := by
  simp [State.irq, h]

/-- The low sixteen bits of the word are stored. -/
theorem getLsbD_writeCauseEnable (s : State) (data : Word) {n : Nat} (h : n < 16) :
    (s.writeCauseEnable data).causeEnable.getLsbD n = data.getLsbD n := by
  simp [State.writeCauseEnable, h]

/-- Settles O4: IRQ bit by bit, and the three commands by their meanings. -/
theorem irqFollowsEnabledCauses : Obligations.IrqFollowsEnabledCauses :=
  ⟨irq_iff,
    fun data s hr =>
      ⟨_, exec_causeEnable data hr, fun _ h => getLsbD_writeCauseEnable s data h, rfl⟩,
    fun v _ hr => ⟨_, exec_engineReset v hr, rfl, irq_of_causeEnable rfl⟩,
    fun _ => ⟨_, rfl, rfl, irq_of_causeEnable rfl⟩⟩

end Sys2Proof.Machine
end

section
/-! SUPPORT. What every command keeps, from what its effect keeps: a property of states that the
effects of the commands on banks keep is kept by those commands, one that the inner effects keep by
every inner command, and one that all effects keep by every command and every step. -/

namespace Sys2Proof.Machine

/-- The ends of a step and the effects of the commands on banks keep `P`. -/
structure BankEffects (P : State → Prop) : Prop where
  conclude : ∀ before s : State, P s → P (before.conclude s)
  concludeLight : ∀ before s : State, P s → P (before.concludeLight s)
  takeHead : ∀ (s : State) (w : Word), P s → P (s.takeHead w)
  dropRead : ∀ (s : State) (place : Fin 4), P s → P (s.dropRead place)
  dropWrite : ∀ s : State, P s → P s.dropWrite
  answer : ∀ (s : State) (r : Result) (w : WaitFor), P s → P (s.answer r w)
  readRecord : ∀ (s : State) (o : ReadOwner), P s → P (s.readRecord o)
  bankStop : ∀ (s : State) (now : Bool) (b : BankNo), P s → P (s.bankStop now b)
  bankLook : ∀ (s : State) (b : BankNo), P s → P (s.bankLook b)
  bankRearm : ∀ (s : State) (b : BankNo), P s → P (s.bankRearm b)
  bankTrip : ∀ (s : State) (b : BankNo), P s → P (s.bankTrip b)
  bankAck : ∀ (s : State) (b : BankNo), P s → P (s.bankAck b)
  flushWindows : ∀ s : State, P s → P s.flushWindows
  advanceCounter : ∀ (s : State) (b : BankNo) (count : Nat) (dir : Direction), P s →
    P (s.advanceCounter b count dir)
  innerBoundary : ∀ (s : State) (b : BankNo), P s → P (s.innerBoundary b)
  lastBoundary : ∀ (s : State) (b : BankNo) (v : Live), s.advanceDue b = some v → P s →
    P (s.lastBoundary b v)
  cueTimeout : ∀ (s : State) (b : BankNo) (f : FrameCopy), s.timeoutDue b = some f → P s →
    P (s.cueTimeout b f)
  modWave : ∀ (s : State) (b : BankNo) (c : ChanNo) (partner : Bool),
    (s.bank b).onDelayDone c partner = true → P s →
    P (s.modWave b fun w => { w with pins := w.pins.set c ((w.pins.get c).turnOn partner) })
  toFetch : ∀ (s : State) (b : BankNo) (r : OutRead), P s → P (State.toFetch b r s)
  linkArrived : ∀ (s : State) (b : BankNo) (a : Option (List Byte)), P s → P (s.linkArrived b a)
  bankRecordArrived : ∀ (s : State) (b : BankNo) (a : Option (List Byte)), P s →
    P (s.bankRecordArrived b a)
  frameResponse : ∀ (s : State) (b : BankNo) (sel : Selector) (retire : Bool)
    (next : Option FrameState) (w : OutWrite), P s → P (s.frameResponse b sel retire next w)
  raise : ∀ (s : State) (n : Nat), P s → P (s.raise n)
  offerWord : ∀ (s : State) (w : Word), P s → P (s.offerWord w)

/-- The effects of the other inner commands keep `P` too. -/
structure InnerEffects (P : State → Prop) : Prop extends BankEffects P where
  journalClose : ∀ (s : State) (j : JournalNo), P s → P (s.journalClose j)
  journalLook : ∀ (s : State) (j : JournalNo), P s → P (s.journalLook j)
  acceptEdge : ∀ (s : State) (l : LineNo), P s → P (s.acceptEdge l)
  takeSample : ∀ (s : State) (l : LineNo), P s → P (s.takeSample l)
  beginStep : ∀ (s : State) (j : JournalNo) (l : LineNo), s.stepDue j = some l → P s →
    P (s.beginStep j l)
  loadArrived : ∀ (s : State) (n : Byte) (a : Option (List Byte)), P s → P (s.loadArrived n a)
  rereadArrived : ∀ (s : State) (j : JournalNo) (a : Option (List Byte)), P s →
    P (s.rereadArrived j a)
  lineRecordArrived : ∀ (s : State) (l : LineNo) (a : Option (List Byte)), P s →
    P (s.lineRecordArrived l a)
  journalRecordArrived : ∀ (s : State) (j : JournalNo) (a : Option (List Byte)), P s →
    P (s.journalRecordArrived j a)
  recordResponse : ∀ (s : State) (j : JournalNo) (w : OutWrite), P s → P (s.recordResponse j w)

/-- So do the effects of the register window, of Engine Control, of the resets and of the issue. -/
structure Effects (P : State → Prop) : Prop extends InnerEffects P where
  bootArrived : ∀ (s : State) (a : Option (List Byte)), P s → P (s.bootArrived a)
  hostWrites : ∀ (s : State) (host : List Host.Cell), P s → P (s.hostWrites host)
  issue : ∀ (s : State) (fate : Fate) (g : Grant), s.choose = some g → P s → P (s.issue fate g)
  completeQuiesce : ∀ (s : State) (fate : Fate), s.quiesceDone = true → P s →
    P (s.completeQuiesce fate)
  writeRun : ∀ (s : State) (v : Bool), P s → P (s.writeRun v)
  engineReset : ∀ s : State, P s → P s.engineReset
  resetPin : ∀ (s : State) (level : Bool), P s → P (s.resetPin level)
  writeAnchorLo : ∀ (s : State) (w : Word), P s → P (s.writeAnchorLo w)
  writeAnchorHi : ∀ (s : State) (w : Word), P s → P (s.writeAnchorHi w)
  writeCause : ∀ (s : State) (w : Word), P s → P (s.writeCause w)
  writeCauseEnable : ∀ (s : State) (w : Word), P s → P (s.writeCauseEnable w)
  readTickLo : ∀ s : State, P s → P s.readTickLo

variable {P : State → Prop}

/-! ### The commands on banks -/

namespace BankEffects

variable (e : BankEffects P)
include e

theorem bankStart (s : State) (b : BankNo) (h : P s) : P (s.bankStart b) := by
  unfold State.bankStart
  split
  · exact e.readRecord s _ h
  · exact e.answer s _ _ h

theorem portError (s : State) (error : Bool) (h : P s) : P (s.portError error) := by
  unfold State.portError
  split
  · exact e.raise s _ h
  · exact h

theorem taking {s : State} {kind : Word → Bool} {f : Word → State → State} (h : P s)
    (hf : ∀ w t, P t → P (f w t)) : Gives P (unlessReset s fun s => s.taking kind f) :=
  gives_unlessReset h fun _ => taking_of h fun w _ _ =>
    e.concludeLight _ _ (hf w _ (e.takeHead s w h))

theorem takingFull {s : State} {kind : Word → Bool} {f : Word → State → State} (h : P s)
    (hf : ∀ w t, P t → P (f w t)) : Gives P (unlessReset s fun s => s.takingFull kind f) :=
  gives_unlessReset h fun _ => takingFull_of h fun w _ _ =>
    e.conclude _ _ (hf w _ (e.takeHead s w h))

theorem forBank {w : Word} {s : State} {f : BankNo → State} (h : P s) (hf : ∀ b, P (f b)) :
    P (State.forBank w s f) := forBank_of (e.answer s _ _ h) hf

theorem arrive {s : State} {place : Fin 4} {f : OutRead → Option (State → State)} (h : P s)
    (hf : ∀ r g, f r = some g → ∀ t, P t → P (g t)) :
    Gives P (unlessReset s fun s => s.arrive place f) :=
  gives_unlessReset h fun _ => arrive_of h (e.dropRead s place h) fun r g _ hg =>
    e.conclude _ _ (hf r g hg _ (e.dropRead s place h))

theorem respond {s : State} {f : OutWrite → Option (State → State)} (h : P s)
    (hf : ∀ w g, f w = some g → ∀ t, P t → P (g t)) :
    Gives P (unlessReset s fun s => s.respond f) :=
  gives_unlessReset h fun _ => respond_of h fun w _ g _ hg =>
    e.conclude _ _ (hf w g hg _ (e.dropWrite s h))

theorem execBankStop (s : State) (h : P s) : Gives P (execBankStop s) := by
  refine e.takingFull h fun w t ht => e.forBank ht fun b => ?_
  repeat' split
  · exact e.bankStop t true b ht
  · exact e.bankStop t false b ht
  · exact e.answer t _ _ ht

theorem execCounterAdvance (b : BankNo) (s : State) (h : P s) :
    Gives P (execCounterAdvance b s) := by
  refine gives_unlessReset h fun _ => ?_
  repeat' split
  · exact e.conclude _ _ (e.advanceCounter s b _ _ h)
  · exact h
  · exact h

theorem execBoundary (b : BankNo) (s : State) (h : P s) : Gives P (execBoundary b s) := by
  refine gives_unlessReset h fun _ => ?_
  repeat' split
  · exact e.conclude _ _ (e.innerBoundary s b h)
  · exact h
  · exact h

theorem execFinalBoundary (b : BankNo) (s : State) (h : P s) :
    Gives P (execFinalBoundary b s) := by
  refine gives_unlessReset h fun _ => ?_
  split
  · rename_i v due
    split
    · exact e.conclude _ _ (e.lastBoundary s b v due h)
    · exact h
  · exact h

theorem execCueTimeout (b : BankNo) (s : State) (h : P s) : Gives P (execCueTimeout b s) := by
  refine gives_unlessReset h fun _ => ?_
  split
  · rename_i f due
    exact e.conclude _ _ (e.cueTimeout s b f due h)
  · exact h

theorem execOnDelayReached (b : BankNo) (c : ChanNo) (partner : Bool) (s : State) (h : P s) :
    Gives P (execOnDelayReached b c partner s) := by
  refine gives_unlessReset h fun _ => ?_
  split
  · rename_i due
    simp only [State.onDelayDue, Bool.and_eq_true] at due
    exact e.modWave s b c partner due.2 h
  · exact h

theorem execHeaderRead (place : Fin 4) (s : State) (h : P s) :
    Gives P (execHeaderRead place s) := by
  refine e.arrive h fun r g hg t ht => ?_
  split at hg <;> cases hg
  exact e.toFetch t _ r ht

theorem execEntryRead (place : Fin 4) (s : State) (h : P s) :
    Gives P (execEntryRead place s) := by
  refine e.arrive h fun r g hg t ht => ?_
  split at hg <;> cases hg
  exact e.toFetch t _ r ht

theorem execLinkRead (place : Fin 4) (s : State) (h : P s) : Gives P (execLinkRead place s) := by
  refine e.arrive h fun r g hg t ht => ?_
  split at hg <;> cases hg
  exact e.linkArrived t _ _ ht

theorem execBankRecordRead (place : Fin 4) (s : State) (h : P s) :
    Gives P (execBankRecordRead place s) := by
  refine e.arrive h fun r g hg t ht => ?_
  split at hg <;> cases hg
  exact e.bankRecordArrived t _ _ ht

theorem execFrameWriteResponse (s : State) (h : P s) : Gives P (execFrameWriteResponse s) := by
  refine e.respond h fun w g hg t ht => ?_
  split at hg <;> cases hg
  · exact e.frameResponse t _ _ _ _ w ht
  · exact e.frameResponse t _ _ _ _ w ht

theorem execEngineStatusResponse (s : State) (h : P s) :
    Gives P (execEngineStatusResponse s) := by
  refine e.respond h fun w g hg t ht => ?_
  split at hg <;> cases hg
  exact e.raise _ _ (e.portError t _ ht)

theorem execAnchorWriteResponse (s : State) (h : P s) : Gives P (execAnchorWriteResponse s) := by
  refine e.respond h fun w g hg t ht => ?_
  split at hg <;> cases hg
  exact e.portError t _ ht

theorem execLineLoad (s : State) (h : P s) : Gives P (execLineLoad s) :=
  e.taking h fun _ t ht => forLine_of (e.answer t _ _ ht) fun _ => e.readRecord t _ ht

theorem exec {c : Instr} (hc : bankCommand c = true) (s : State) (h : P s) :
    Gives P (exec c s) := by
  cases c with
  | mark => exact e.taking h fun _ t => e.answer t _ _
  | bankStart => exact e.taking h fun _ t ht => e.forBank ht fun b => e.bankStart t b ht
  | bankStop => exact e.execBankStop s h
  | bankLook => exact e.takingFull h fun _ t ht => e.forBank ht fun b => e.bankLook t b ht
  | bankRearm => exact e.taking h fun _ t ht => e.forBank ht fun b => e.bankRearm t b ht
  | bankTrip => exact e.taking h fun _ t ht => e.forBank ht fun b => e.bankTrip t b ht
  | bankAck => exact e.taking h fun _ t ht => e.forBank ht fun b => e.bankAck t b ht
  | windowsFlush => exact e.taking h fun _ t ht => e.answer _ _ _ (e.flushWindows t ht)
  | unknownAction => exact e.taking h fun _ t => e.answer t _ _
  | lineLoad => exact e.execLineLoad s h
  | counterAdvance b => exact e.execCounterAdvance b s h
  | boundary b => exact e.execBoundary b s h
  | finalBoundary b => exact e.execFinalBoundary b s h
  | cueTimeout b => exact e.execCueTimeout b s h
  | onDelayReached b c partner => exact e.execOnDelayReached b c partner s h
  | headerRead place => exact e.execHeaderRead place s h
  | entryRead place => exact e.execEntryRead place s h
  | linkRead place => exact e.execLinkRead place s h
  | frameWriteResponse => exact e.execFrameWriteResponse s h
  | bankRecordRead place => exact e.execBankRecordRead place s h
  | engineStatusResponse => exact e.execEngineStatusResponse s h
  | anchorWriteResponse => exact e.execAnchorWriteResponse s h
  | sweepWrite word => exact gives_unlessReset (f := fun s => s.offerWord word) h fun _ => e.offerWord s word h
  | _ => cases hc

end BankEffects

/-! ### The inner commands -/

namespace InnerEffects

variable (e : InnerEffects P)
include e

theorem forJournal {w : Word} {s : State} {f : JournalNo → State} (h : P s)
    (hf : ∀ j, P (f j)) : P (State.forJournal w s f) := forJournal_of (e.answer s _ _ h) hf

theorem journalOpen (s : State) (j : JournalNo) (h : P s) : P (s.journalOpen j) := by
  unfold State.journalOpen
  split
  · exact e.readRecord s _ h
  · exact e.answer s _ _ h

theorem execEdge (l : LineNo) (s : State) (h : P s) : Gives P (execEdge l s) := by
  refine gives_unlessReset h fun _ => ?_
  split
  · exact e.conclude _ _ (e.acceptEdge s l h)
  · exact h

theorem execFilterSample (l : LineNo) (s : State) (h : P s) : Gives P (execFilterSample l s) := by
  refine gives_unlessReset h fun _ => ?_
  split
  · exact e.takeSample s l h
  · exact h

theorem execJournalStep (j : JournalNo) (s : State) (h : P s) : Gives P (execJournalStep j s) := by
  refine gives_unlessReset h fun _ => ?_
  split
  · rename_i l due
    exact e.conclude _ _ (e.beginStep s j l due h)
  · exact h

theorem execDescriptorLoad (place : Fin 4) (s : State) (h : P s) :
    Gives P (execDescriptorLoad place s) := by
  refine e.arrive h fun r g hg t ht => ?_
  split at hg <;> cases hg
  exact e.loadArrived t _ _ ht

theorem execConsumeReread (place : Fin 4) (s : State) (h : P s) :
    Gives P (execConsumeReread place s) := by
  refine e.arrive h fun r g hg t ht => ?_
  split at hg <;> cases hg
  exact e.rereadArrived t _ _ ht

theorem execLineRecordRead (place : Fin 4) (s : State) (h : P s) :
    Gives P (execLineRecordRead place s) := by
  refine e.arrive h fun r g hg t ht => ?_
  split at hg <;> cases hg
  exact e.lineRecordArrived t _ _ ht

theorem execJournalRecordRead (place : Fin 4) (s : State) (h : P s) :
    Gives P (execJournalRecordRead place s) := by
  refine e.arrive h fun r g hg t ht => ?_
  split at hg <;> cases hg
  exact e.journalRecordArrived t _ _ ht

theorem execRecordWriteResponse (s : State) (h : P s) : Gives P (execRecordWriteResponse s) := by
  refine e.respond h fun w g hg t ht => ?_
  split at hg <;> cases hg
  exact e.recordResponse t _ w ht

theorem exec {c : Instr} (hc : innerCommand c = true) (s : State) (h : P s) :
    Gives P (exec c s) := by
  by_cases onBanks : bankCommand c = true
  · exact e.toBankEffects.exec onBanks s h
  · cases c with
    | journalOpen => exact e.taking h fun _ t ht => e.forJournal ht fun j => e.journalOpen t j ht
    | journalClose =>
      exact e.takingFull h fun _ t ht => e.forJournal ht fun j => e.journalClose t j ht
    | journalLook => exact e.taking h fun _ t ht => e.forJournal ht fun j => e.journalLook t j ht
    | edge l => exact e.execEdge l s h
    | filterSample l => exact e.execFilterSample l s h
    | journalStep j => exact e.execJournalStep j s h
    | descriptorLoad place => exact e.execDescriptorLoad place s h
    | consumeReread place => exact e.execConsumeReread place s h
    | lineRecordRead place => exact e.execLineRecordRead place s h
    | journalRecordRead place => exact e.execJournalRecordRead place s h
    | recordWriteResponse => exact e.execRecordWriteResponse s h
    | run | engineReset | causeWrite | causeEnable | tickLo | registerWrite | resetN
    | bootHeaderRead | arbiterGrant | quiesceComplete => cases hc
    | _ => exact absurd rfl onBanks

end InnerEffects

/-! ### Every command, every step -/

namespace Effects

variable (e : Effects P)
include e

theorem writeRegister (s : State) (offset : Nat) (w : Word) (h : P s) :
    P (s.writeRegister offset w) := by
  unfold State.writeRegister
  split
  · unfold State.writeControl
    split
    · exact e.engineReset s h
    · exact e.writeRun s _ h
  · exact e.writeAnchorLo s w h
  · exact e.writeAnchorHi s w h
  · exact e.offerWord s w h
  · exact e.writeCause s w h
  · exact e.writeCauseEnable s w h
  · exact h

theorem execRegisterWrite (offset : Nat) (data : Word) (enables : BitVec 4) (s : State) (h : P s) :
    Gives P (execRegisterWrite offset data enables s) := by
  refine gives_unlessReset h fun _ => ?_
  split
  · exact e.writeRegister s offset data h
  · exact h

theorem execBootHeaderRead (place : Fin 4) (s : State) (h : P s) :
    Gives P (execBootHeaderRead place s) := by
  refine e.arrive h fun r g hg t ht => ?_
  split at hg <;> cases hg
  exact e.bootArrived t _ ht

theorem execArbiterGrant (host : List Host.Cell) (fate : Fate) (s : State) (h : P s) :
    Gives P (execArbiterGrant host fate s) := by
  have written : P (s.hostWrites host) := e.hostWrites s host h
  unfold Machine.execArbiterGrant
  split
  · exact fun _ hnext => nomatch hnext
  · refine gives_unlessReset written fun _ => ?_
    unfold State.grant
    split
    · rename_i g chosen
      exact e.conclude _ _ (e.issue _ fate g chosen written)
    · exact written

theorem execQuiesceComplete (fate : Fate) (s : State) (h : P s) :
    Gives P (execQuiesceComplete fate s) := by
  refine gives_unlessReset h fun _ => ?_
  split
  · rename_i done
    exact e.completeQuiesce s fate done h
  · exact h

theorem exec (c : Instr) (s : State) (h : P s) : Gives P (exec c s) := by
  by_cases inner : innerCommand c = true
  · exact e.toInnerEffects.exec inner s h
  · cases c with
    | run value => exact gives_unlessReset (f := fun s => s.writeRun value) h fun _ => e.writeRun s value h
    | engineReset value => exact gives_unlessReset h fun _ => e.engineReset s h
    | causeWrite data => exact gives_unlessReset (f := fun s => s.writeCause data) h fun _ => e.writeCause s data h
    | causeEnable data =>
      exact gives_unlessReset (f := fun s => s.writeCauseEnable data) h fun _ =>
        e.writeCauseEnable s data h
    | tickLo => exact gives_unlessReset h fun _ => e.readTickLo s h
    | registerWrite offset data enables => exact e.execRegisterWrite offset data enables s h
    | resetN level => exact gives_next (e.resetPin s level h)
    | bootHeaderRead place => exact e.execBootHeaderRead place s h
    | arbiterGrant host fate => exact e.execArbiterGrant host fate s h
    | quiesceComplete fate => exact e.execQuiesceComplete fate s h
    | _ => exact absurd rfl inner

omit e in
theorem keeps_drawn (counted : ∀ s n, P s → P { s with freeCount := n }) (s : State) (h : P s) :
    P s.drawn := by
  unfold State.drawn
  split
  · exact counted s _ h
  · exact h

/-- A step is a command, on the rest of the queue or with a free order drawn, or a tick. -/
theorem step (pending : ∀ s q, P s → P { s with pending := q })
    (counted : ∀ s n, P s → P { s with freeCount := n }) (tick : ∀ s, P s → P s.advanceTick)
    (s t : State) (h : P s) (ht : step s = .next t) : P t :=
  step_of pending (keeps_drawn counted) e.exec tick s h t ht

end Effects

end Sys2Proof.Machine
end

section
/-! SUPPORT. What every step keeps: the canonical form of memory, the limits of the Memory Port, of
the sweep queue and of the window cache, the capacity of every ring, and what a plan state fixes of
its bank. Each invariant is carried through the effects of the commands (`Effects`). -/

namespace Sys2Proof.Machine

/-! ### What depends on `State.outer` alone -/

/-- The inner effects, of which `State.outer` sees the taking of a word, the arrival of a response
and the joining of a word alone. -/
theorem innerEffects_of_outer {P : State → Prop} (same : ∀ s t : State, t.outer = s.outer → P s → P t)
    (takeHead : ∀ (s : State) (w : Word), P s → P (s.takeHead w))
    (dropRead : ∀ (s : State) (place : Fin 4), P s → P (s.dropRead place))
    (dropWrite : ∀ s : State, P s → P s.dropWrite)
    (offerWord : ∀ (s : State) (w : Word), P s → P (s.offerWord w)) : InnerEffects P where
  conclude _ s := same s _ (outer_conclude _ _)
  concludeLight _ s := same s _ (outer_concludeLight _ _)
  takeHead := takeHead
  dropRead := dropRead
  dropWrite := dropWrite
  answer s r w := same s _ (outer_answer s r w)
  readRecord s o := same s _ (outer_readRecord s o)
  bankStop s now b := same s _ (outer_bankStop s now b)
  bankLook s b := same s _ (outer_bankLook s b)
  bankRearm s b := same s _ (outer_bankRearm s b)
  bankTrip s b := same s _ (outer_bankTrip s b)
  bankAck s b := same s _ (outer_bankAck s b)
  flushWindows s := same s _ (outer_flushWindows s)
  advanceCounter s b count dir := same s _ (outer_advanceCounter s b count dir)
  innerBoundary s b := same s _ (outer_innerBoundary s b)
  lastBoundary s b v _ := same s _ (outer_lastBoundary s b v)
  cueTimeout s b f _ := same s _ (outer_cueTimeout s b f)
  modWave s b _ _ _ := same s _ (outer_modWave s b _)
  toFetch s b r := same s _ (outer_toFetch s b r)
  linkArrived s b a := same s _ (outer_linkArrived s b a)
  bankRecordArrived s b a := same s _ (outer_bankRecordArrived s b a)
  frameResponse s b sel retire next w := same s _ (outer_frameResponse s b sel retire next w)
  raise s n := same s _ (outer_raise s n)
  offerWord := offerWord
  journalClose s j := same s _ (outer_journalClose s j)
  journalLook s j := same s _ (outer_journalLook s j)
  acceptEdge s l := same s _ (outer_acceptEdge s l)
  takeSample s l := same s _ (outer_takeSample s l)
  beginStep s j l _ := same s _ (outer_beginStep s j l)
  loadArrived s n a := same s _ (outer_loadArrived s n a)
  rereadArrived s j a := same s _ (outer_rereadArrived s j a)
  lineRecordArrived s l a := same s _ (outer_lineRecordArrived s l a)
  journalRecordArrived s j a := same s _ (outer_journalRecordArrived s j a)
  recordResponse s j w := same s _ (outer_recordResponse s j w)

theorem memory_offerWord (s : State) (w : Word) : (s.offerWord w).memory = s.memory := by
  unfold State.offerWord
  repeat' split
  all_goals rfl

theorem port_offerWord (s : State) (w : Word) : (s.offerWord w).port = s.port := by
  unfold State.offerWord
  repeat' split
  all_goals rfl

theorem engine_offerWord (s : State) (w : Word) : (s.offerWord w).engine = s.engine := by
  unfold State.offerWord
  repeat' split
  all_goals rfl

/-! ### Engine Control: memory, the outstanding transactions, the sweep queue -/

/-- Memory, the number of outstanding transactions, and the sweep queue. -/
def State.stock (s : State) := (s.memory, s.port.reads.length, s.port.writes.length, s.sweep.queue)

theorem stock_of_outer {s t : State} (h : t.outer = s.outer) : t.stock = s.stock :=
  congrArg₂ Prod.mk (memory_of_outer h) <| congrArg₂ Prod.mk (reads_of_outer h) <|
    congrArg₂ Prod.mk (writes_of_outer h) (queue_of_outer h)

theorem memory_of_stock {s t : State} (h : t.stock = s.stock) : t.memory = s.memory :=
  congrArg Prod.fst h

theorem portOk_of_stock {s t : State} (h : t.stock = s.stock) (hs : s.PortOk) : t.PortOk := by
  simp only [State.stock, Prod.mk.injEq] at h
  obtain ⟨_, reads, writes, _⟩ := h
  unfold State.PortOk at hs ⊢
  rwa [reads, writes]

@[simp] theorem stock_enterBooting (s : State) : s.enterBooting.stock = s.stock := by
  unfold State.enterBooting
  dsimp only
  split <;> simp [State.stock, State.anchorFault, State.discardLoads]

@[simp] theorem stock_bootArrived (s : State) (a : Option (List Byte)) :
    (s.bootArrived a).stock = s.stock := by
  unfold State.bootArrived
  repeat' split
  · rfl
  · exact (stock_of_outer (outer_announceOn _)).trans rfl
  · rfl
  · rfl

/-- The start of a quiesce, before the banks and journals act on it: the engine quiesces, with its
Engine Status requested, the windows flushed and the sweep queue emptied (R181). -/
def State.quiesceStart (s : State) : State :=
  ((({ s with engine := { s.engine with state := .quiescing } } : State).requestClass3
    .engine).flushWindows).modSweep fun x => { x with queue := [], takeNow := false }

theorem enterQuiescing_eq (s : State) : s.enterQuiescing =
    eight.foldl State.quiesceJournal (four.foldl State.quiesceBank s.quiesceStart) := rfl

theorem outer_enterQuiescing (s : State) : s.enterQuiescing.outer = s.quiesceStart.outer := by
  rw [enterQuiescing_eq, outer_foldl _ outer_quiesceJournal, outer_foldl _ outer_quiesceBank]

theorem outer_quiesceStart (s : State) : ∃ q, s.quiesceStart.outer =
    ({ s with engine := { s.engine with state := .quiescing }, sweep := q } : State).outer ∧
      q.queue = [] ∧ q.next = s.sweep.next ∧ q.exec = s.sweep.exec := by
  refine ⟨{ s.sweep with queue := [], takeNow := false }, ?_, rfl, rfl, rfl⟩
  have requested := outer_requestClass3
    ({ s with engine := { s.engine with state := .quiescing } } : State) .engine
  simp only [State.outer, Prod.mk.injEq] at requested ⊢
  simp only [State.quiesceStart, State.modSweep, State.flushWindows, State.modWindow]
  simp_all

/-! ### The canonical form of memory -/

theorem memory_enterQuiescing (s : State) : s.enterQuiescing.memory = s.memory := by
  obtain ⟨q, started, _⟩ := outer_quiesceStart s
  exact (memory_of_outer (outer_enterQuiescing s)).trans ((memory_of_outer started).trans rfl)

theorem memory_runChanged (s : State) (v : Bool) : (s.runChanged v).memory = s.memory := by
  unfold State.runChanged
  split
  · exact memory_of_stock (stock_enterBooting s)
  · rfl
  · exact memory_enterQuiescing s
  · rfl
  · rfl

theorem memory_writeRun (s : State) (v : Bool) : (s.writeRun v).memory = s.memory := by
  unfold State.writeRun
  split
  · rfl
  · exact (memory_of_outer (outer_conclude _ _)).trans (memory_runChanged _ v)

theorem memory_resetPin (s : State) (level : Bool) : (s.resetPin level).memory = s.memory := by
  unfold State.resetPin
  split <;> rfl

theorem memory_advanceTick (s : State) : s.advanceTick.memory = s.memory := by
  unfold State.advanceTick State.shiftPins
  repeat' split
  all_goals rfl

theorem memoryOk_of_memory {s t : State} (h : t.memory = s.memory) (hs : s.MemoryOk) :
    t.MemoryOk := by
  unfold State.MemoryOk at hs ⊢
  rwa [h]

theorem memoryOk_completeQuiesce (s : State) (fate : Fate) (h : s.MemoryOk) :
    (s.completeQuiesce fate).MemoryOk := by
  have issued : (s.issueEngineStatus .off fate).MemoryOk :=
    (grown_issueEngineStatus s .off fate).memory_wf h
  unfold State.completeQuiesce
  dsimp only
  split
  · exact memoryOk_of_memory (memory_of_stock (stock_enterBooting _)) issued
  · exact issued

theorem memoryEffects : Effects State.MemoryOk where
  toInnerEffects := innerEffects_of_outer (fun _ _ h => memoryOk_of_memory (memory_of_outer h))
    (fun _ _ h => h) (fun _ _ h => h) (fun _ h => h)
    (fun s w => memoryOk_of_memory (memory_offerWord s w))
  bootArrived s a := memoryOk_of_memory (memory_of_stock (stock_bootArrived s a))
  hostWrites s host := wf_hostWrites s.memory host
  issue s fate g _ := (grown_issue s fate g).memory_wf
  completeQuiesce s fate _ := memoryOk_completeQuiesce s fate
  writeRun s v := memoryOk_of_memory (memory_writeRun s v)
  engineReset _ h := h
  resetPin s level := memoryOk_of_memory (memory_resetPin s level)
  writeAnchorLo _ _ h := h
  writeAnchorHi _ _ h := h
  writeCause _ _ h := h
  writeCauseEnable _ _ h := h
  readTickLo _ h := h

/-- Settles O56: every effect that touches memory stores bytes by `Memory.write`, which keeps the
canonical form. -/
theorem stepKeepsMemoryCanonical : Obligations.StepKeepsMemoryCanonical :=
  fun s t h ht => memoryEffects.step (fun _ _ h => h) (fun _ _ h => h)
    (fun s => memoryOk_of_memory (memory_advanceTick s)) s t h ht

/-! ### The outstanding transactions -/

theorem portOk_of_outer {s t : State} (h : t.outer = s.outer) (hs : s.PortOk) : t.PortOk :=
  portOk_of_stock (stock_of_outer h) hs

theorem portOk_dropRead (s : State) (place : Fin 4) (h : s.PortOk) : (s.dropRead place).PortOk :=
  ⟨(List.length_eraseIdx_le _ _).trans h.1, h.2⟩

theorem portOk_dropWrite (s : State) (h : s.PortOk) : s.dropWrite.PortOk :=
  ⟨h.1, (List.length_tail ▸ Nat.sub_le _ _ : _ ≤ s.port.writes.length).trans h.2⟩

theorem portOk_of_port {s t : State} (h : t.port = s.port) (hs : s.PortOk) : t.PortOk := by
  unfold State.PortOk at hs ⊢
  rwa [h]

theorem portOk_abandonBoot (s : State) (h : s.PortOk) : s.abandonBoot.PortOk :=
  ⟨(List.length_map (as := s.port.reads) OutRead.dropBoot).trans_le h.1, h.2⟩

theorem portOk_enterQuiescing (s : State) (h : s.PortOk) : s.enterQuiescing.PortOk := by
  obtain ⟨q, started, _⟩ := outer_quiesceStart s
  exact portOk_of_outer (outer_enterQuiescing s) (portOk_of_outer started h)

theorem portOk_writeRun (s : State) (v : Bool) (h : s.PortOk) : (s.writeRun v).PortOk := by
  unfold State.writeRun
  split
  · exact h
  · refine portOk_of_outer (outer_conclude _ _) ?_
    unfold State.runChanged
    split
    · exact portOk_of_stock (stock_enterBooting _) h
    · exact portOk_abandonBoot _ h
    · exact portOk_enterQuiescing _ h
    · exact h
    · exact h

theorem writeRoom_of_quiesceDone {s : State} (h : s.quiesceDone = true) :
    s.engine.state = .quiescing ∧ s.port.writes.length < Config.maxWrites := by
  simp only [State.quiesceDone, Bool.and_eq_true, decide_eq_true_eq, Port.writeRoom] at h
  exact ⟨h.1.1.1.1.1.1, h.1.1.1.2⟩

theorem portOk_completeQuiesce (s : State) (fate : Fate) (done : s.quiesceDone = true)
    (h : s.PortOk) : (s.completeQuiesce fate).PortOk := by
  have issued : (s.issueEngineStatus .off fate).PortOk := by
    have grown := grown_issueEngineStatus s .off fate
    exact ⟨grown.reads_le.trans h.1, grown.writes_le.trans (writeRoom_of_quiesceDone done).2⟩
  unfold State.completeQuiesce
  dsimp only
  split
  · exact portOk_of_stock (stock_enterBooting _) issued
  · exact issued

theorem portOk_reset : State.reset.PortOk := ⟨Nat.zero_le _, Nat.zero_le _⟩

theorem portOk_resetPin (s : State) (level : Bool) (h : s.PortOk) : (s.resetPin level).PortOk := by
  unfold State.resetPin
  split
  · exact h
  · exact portOk_reset

theorem portOk_advanceTick (s : State) (h : s.PortOk) : s.advanceTick.PortOk := by
  unfold State.advanceTick State.shiftPins
  repeat' split
  all_goals exact h

theorem portEffects : Effects State.PortOk where
  toInnerEffects := innerEffects_of_outer (fun _ _ => portOk_of_outer) (fun _ _ h => h)
    portOk_dropRead portOk_dropWrite (fun s w => portOk_of_port (port_offerWord s w))
  bootArrived s a := portOk_of_stock (stock_bootArrived s a)
  hostWrites _ _ h := h
  issue := portOk_issue
  completeQuiesce := portOk_completeQuiesce
  writeRun := portOk_writeRun
  engineReset _ _ := portOk_reset
  resetPin := portOk_resetPin
  writeAnchorLo _ _ h := h
  writeAnchorHi _ _ h := h
  writeCause _ _ h := h
  writeCauseEnable _ _ h := h
  readTickLo _ h := h

/-! ### The sweep queue -/

theorem queueOk_of_empty {s : State} (h : s.sweep.queue = []) : s.QueueOk := by
  simp [State.QueueOk, h]

theorem queueOk_of_eq {s t : State} (queue : t.sweep.queue = s.sweep.queue)
    (engine : t.engine = s.engine) (h : s.QueueOk) : t.QueueOk := by
  unfold State.QueueOk at h ⊢
  rwa [queue, engine]

theorem queueOk_of_outer {s t : State} (h : t.outer = s.outer) : s.QueueOk → t.QueueOk :=
  queueOk_of_eq (queue_of_outer h) (engine_of_outer h)

theorem queue_empty {s : State} (h : s.QueueOk) (off : s.engine.state ≠ .on) :
    s.sweep.queue = [] := by
  by_contra waiting
  exact off (h.2.2 waiting)

theorem queue_of_stock {s t : State} (h : t.stock = s.stock) : t.sweep.queue = s.sweep.queue :=
  congrArg (fun x => x.2.2.2) h

/-- Outside ON nothing waits in the queue, so what keeps the queue keeps its limits. -/
theorem queueOk_of_stock {s t : State} (h : t.stock = s.stock) (off : s.engine.state ≠ .on)
    (hs : s.QueueOk) : t.QueueOk :=
  queueOk_of_empty ((queue_of_stock h).trans (queue_empty hs off))

theorem queueOk_takeHead (s : State) (w : Word) (h : s.QueueOk) : (s.takeHead w).QueueOk := by
  obtain ⟨length, distinct, on⟩ := h
  refine ⟨(List.length_tail ▸ Nat.sub_le _ _ : _ ≤ s.sweep.queue.length).trans length,
    distinct.tail, fun waiting => on fun empty => waiting ?_⟩
  show s.sweep.queue.tail = []
  rw [empty]
  rfl

theorem queueOk_offerWord (s : State) (w : Word) (h : s.QueueOk) : (s.offerWord w).QueueOk := by
  obtain ⟨length, distinct, on⟩ := h
  unfold State.offerWord
  split
  · exact ⟨length, distinct, on⟩
  · rename_i isOn
    split
    · exact ⟨length, distinct, on⟩
    · rename_i room
      split
      · exact ⟨length, distinct, on⟩
      · rename_i fresh
        have absent : w ∉ s.sweep.queue := by simpa using fresh
        refine ⟨?_, ?_, fun _ => not_not.mp isOn⟩
        · show (s.sweep.queue ++ [w]).length ≤ Config.maxQueue
          rw [List.length_append]
          exact Nat.lt_of_not_le room
        · show (s.sweep.queue ++ [w]).Nodup
          exact List.nodup_append.mpr ⟨distinct, List.nodup_singleton w, by
            rintro x hx y hy rfl
            exact absent (List.mem_singleton.mp hy ▸ hx)⟩

theorem queueOk_bootArrived (s : State) (a : Option (List Byte)) (h : s.QueueOk) :
    (s.bootArrived a).QueueOk := by
  by_cases booting : s.engine.state = .booting
  · exact queueOk_of_stock (stock_bootArrived s a) (by simp [booting]) h
  · unfold State.bootArrived
    rwa [if_neg booting]

theorem queueOk_enterQuiescing (s : State) : s.enterQuiescing.QueueOk := by
  obtain ⟨q, started, empty, _⟩ := outer_quiesceStart s
  exact queueOk_of_empty <| (queue_of_outer (outer_enterQuiescing s)).trans
    ((queue_of_outer started).trans empty)

theorem queueOk_runChanged (s : State) (v : Bool) (h : s.QueueOk) : (s.runChanged v).QueueOk := by
  unfold State.runChanged
  split
  · rename_i off
    exact queueOk_of_stock (stock_enterBooting s) (by simp [off]) h
  · rename_i booting
    have empty := queue_empty h (by simp [booting])
    exact queueOk_of_empty empty
  · exact queueOk_enterQuiescing s
  · rename_i fault
    have empty := queue_empty h (by simp [fault])
    exact queueOk_of_empty empty
  · exact h

theorem queueOk_writeRun (s : State) (v : Bool) (h : s.QueueOk) : (s.writeRun v).QueueOk := by
  unfold State.writeRun
  split
  · exact h
  · exact queueOk_of_outer (outer_conclude _ _) (queueOk_runChanged _ v h)

theorem queueOk_completeQuiesce (s : State) (fate : Fate) (done : s.quiesceDone = true)
    (h : s.QueueOk) : (s.completeQuiesce fate).QueueOk := by
  have issued : (s.issueEngineStatus .off fate).sweep.queue = [] :=
    (grown_issueEngineStatus s .off fate).queue_eq.trans
      (queue_empty h (by simp [(writeRoom_of_quiesceDone done).1]))
  unfold State.completeQuiesce
  dsimp only
  split
  · exact queueOk_of_empty ((queue_of_stock (stock_enterBooting _)).trans issued)
  · exact queueOk_of_empty issued

theorem queueOk_resetPin (s : State) (level : Bool) (h : s.QueueOk) :
    (s.resetPin level).QueueOk := by
  unfold State.resetPin
  split
  · exact h
  · exact queueOk_of_empty rfl

theorem queueOk_advanceTick (s : State) (h : s.QueueOk) : s.advanceTick.QueueOk := by
  unfold State.advanceTick State.shiftPins
  repeat' split
  all_goals exact h

theorem queueEffects : Effects State.QueueOk where
  toInnerEffects := innerEffects_of_outer (fun _ _ => queueOk_of_outer) queueOk_takeHead
    (fun _ _ h => h) (fun _ h => h) queueOk_offerWord
  bootArrived := queueOk_bootArrived
  hostWrites _ _ h := h
  issue s fate g _ := queueOk_of_eq (grown_issue s fate g).queue_eq (grown_issue s fate g).engine_eq
  completeQuiesce := queueOk_completeQuiesce
  writeRun := queueOk_writeRun
  engineReset _ _ := queueOk_of_empty rfl
  resetPin := queueOk_resetPin
  writeAnchorLo _ _ h := h
  writeAnchorHi _ _ h := h
  writeCause _ _ h := h
  writeCauseEnable _ _ h := h
  readTickLo _ h := h

/-! ### The window cache and the loads in flight -/

theorem keys_takeHead (s : State) (w : Word) : (s.takeHead w).keys = s.keys := rfl

theorem keys_offerWord (s : State) (w : Word) : (s.offerWord w).keys = s.keys := by
  unfold State.offerWord
  repeat' split
  all_goals rfl

theorem windowOk_reset : State.reset.WindowOk :=
  ⟨List.nodup_nil, Nat.zero_le _, List.nodup_nil⟩

theorem windowOk_resetPin (s : State) (level : Bool) (h : s.WindowOk) :
    (s.resetPin level).WindowOk := by
  unfold State.resetPin
  split
  · exact h
  · exact windowOk_reset

theorem windowOk_advanceTick (s : State) (h : s.WindowOk) : s.advanceTick.WindowOk := by
  unfold State.advanceTick State.shiftPins
  repeat' split
  all_goals exact h

theorem windowEffects : Effects State.WindowOk where
  conclude := windowOk_conclude
  concludeLight := windowOk_concludeLight
  takeHead _ _ h := h
  dropRead _ _ h := h
  dropWrite _ h := h
  answer s r w := windowOk_of_keys (keys_answer s r w)
  readRecord s o := windowOk_of_keys (keys_readRecord s o)
  bankStop s now b := windowOk_of_keys (keys_bankStop s now b)
  bankLook s b := windowOk_of_keys (keys_bankLook s b)
  bankRearm s b := windowOk_of_keys (keys_bankRearm s b)
  bankTrip s b := windowOk_of_keys (keys_bankTrip s b)
  bankAck s b := windowOk_of_keys (keys_bankAck s b)
  flushWindows := windowOk_flushWindows
  advanceCounter s b count dir := windowOk_of_keys (keys_advanceCounter s b count dir)
  innerBoundary s b := windowOk_of_keys (keys_innerBoundary s b)
  lastBoundary s b v _ := windowOk_of_keys (keys_lastBoundary s b v)
  cueTimeout s b f _ := windowOk_of_keys (keys_cueTimeout s b f)
  modWave s b _ _ _ := windowOk_of_keys (keys_modWave s b _)
  toFetch s b r := windowOk_of_keys (keys_toFetch s b r)
  linkArrived s b a := windowOk_of_keys (keys_linkArrived s b a)
  bankRecordArrived s b a := windowOk_of_keys (keys_bankRecordArrived s b a)
  frameResponse s b sel retire next w := windowOk_of_keys (keys_frameResponse s b sel retire next w)
  raise s n := windowOk_of_keys (keys_raise s n)
  offerWord s w := windowOk_of_keys (keys_offerWord s w)
  journalClose s j := windowOk_of_keys (keys_journalClose s j)
  journalLook s j := windowOk_of_keys (keys_journalLook s j)
  acceptEdge s l := windowOk_of_keys (keys_acceptEdge s l)
  takeSample s l := windowOk_of_keys (keys_takeSample s l)
  beginStep s j l _ := windowOk_beginStep s j l
  loadArrived := windowOk_loadArrived
  rereadArrived := windowOk_rereadArrived
  lineRecordArrived s l a := windowOk_of_keys (keys_lineRecordArrived s l a)
  journalRecordArrived := windowOk_journalRecordArrived
  recordResponse s j w := windowOk_of_keys (keys_recordResponse s j w)
  bootArrived := windowOk_bootArrived
  hostWrites _ _ h := h
  issue s fate g _ := windowOk_issue s fate g
  completeQuiesce s fate _ := windowOk_completeQuiesce s fate
  writeRun := windowOk_writeRun
  engineReset _ _ := windowOk_reset
  resetPin := windowOk_resetPin
  writeAnchorLo _ _ h := h
  writeAnchorHi _ _ h := h
  writeCause _ _ h := h
  writeCauseEnable _ _ h := h
  readTickLo _ h := h

/-- Settles O57: each of the three limits is kept by every effect, hence by every step. -/
theorem stepKeepsPortAndQueueBounds : Obligations.StepKeepsPortAndQueueBounds :=
  ⟨fun s t => portEffects.step (fun _ _ h => h) (fun _ _ h => h) portOk_advanceTick s t,
    fun s t => queueEffects.step (fun _ _ h => h) (fun _ _ h => h) queueOk_advanceTick s t,
    fun s t => windowEffects.step (fun _ _ h => h) (fun _ _ h => h) windowOk_advanceTick s t⟩

/-! ### The rings of the journals -/

theorem ringsOk_resetPin (s : State) (level : Bool) (h : s.RingsOk) : (s.resetPin level).RingsOk := by
  unfold State.resetPin
  split
  · exact h
  · exact ringsOk_reset

theorem journals_offerWord (s : State) (w : Word) : (s.offerWord w).journals = s.journals := by
  unfold State.offerWord
  repeat' split
  all_goals rfl

theorem journals_bankAck (s : State) (b : BankNo) : (s.bankAck b).journals = s.journals := by
  unfold State.bankAck State.answer
  simp

theorem ringsOk_advanceTick (s : State) (h : s.RingsOk) : s.advanceTick.RingsOk := by
  unfold State.advanceTick State.shiftPins
  repeat' split
  all_goals exact h

theorem ringEffects : Effects State.RingsOk where
  conclude := ringsOk_conclude
  concludeLight := ringsOk_concludeLight
  takeHead _ _ h := h
  dropRead _ _ h := h
  dropWrite _ h := h
  answer := ringsOk_answer
  readRecord _ _ h := h
  bankStop s now b := ringsOk_of_journals (journals_bankStop s now b)
  bankLook s b := ringsOk_of_journals (journals_bankLook s b)
  bankRearm s b := ringsOk_of_journals (journals_bankRearm s b)
  bankTrip s b := ringsOk_of_journals (journals_bankTrip s b)
  bankAck s b := ringsOk_of_journals (journals_bankAck s b)
  flushWindows _ h := h
  advanceCounter s b count dir := ringsOk_of_beside (beside_advanceCounter s b count dir)
  innerBoundary s b := ringsOk_of_beside (beside_innerBoundary s b)
  lastBoundary s b v _ := ringsOk_of_beside (beside_lastBoundary s b v)
  cueTimeout s b f _ := ringsOk_of_beside (beside_cueTimeout s b f)
  modWave s b _ _ _ := ringsOk_of_beside (beside_modWave s b _)
  toFetch s b r := ringsOk_of_beside (beside_toFetch s b r)
  linkArrived s b a := ringsOk_of_beside (beside_linkArrived s b a)
  bankRecordArrived := ringsOk_bankRecordArrived
  frameResponse s b sel retire next w :=
    ringsOk_of_beside (beside_frameResponse s b sel retire next w)
  raise _ _ h := h
  offerWord s w := ringsOk_of_journals (journals_offerWord s w)
  journalClose := ringsOk_journalClose
  journalLook := ringsOk_journalLook
  acceptEdge := ringsOk_acceptEdge
  takeSample _ _ := ringsOk_of_journals rfl
  beginStep s j l due h := ringsOk_stepDue s j l h due
  loadArrived := ringsOk_loadArrived
  rereadArrived := ringsOk_rereadArrived
  lineRecordArrived := ringsOk_lineRecordArrived
  journalRecordArrived := ringsOk_journalRecordArrived
  recordResponse := ringsOk_recordResponse
  bootArrived := ringsOk_bootArrived
  hostWrites _ _ h := h
  issue s fate g _ := ringsOk_issue s fate g
  completeQuiesce s fate _ := ringsOk_completeQuiesce s fate
  writeRun := ringsOk_writeRun
  engineReset _ _ := ringsOk_reset
  resetPin := ringsOk_resetPin
  writeAnchorLo _ _ h := h
  writeAnchorHi _ _ h := h
  writeCause _ _ h := h
  writeCauseEnable _ _ h := h
  readTickLo _ h := h

/-- Settles O59: the slots a step still takes are part of the invariant (`Journal.RingOk`), and every
effect keeps it. -/
theorem stepKeepsRingsWithinCapacity : Obligations.StepKeepsRingsWithinCapacity :=
  fun s t => ringEffects.step (fun _ _ h => h) (fun _ _ h => h) ringsOk_advanceTick s t

/-! ### The banks -/

theorem coherent_advanceTick (s : State) (h : s.BanksCoherent) : s.advanceTick.BanksCoherent :=
  coherent_congr (seqOf_advanceTick s) h

theorem bankEffects : Effects State.BanksCoherent where
  conclude := coherent_conclude
  concludeLight := coherent_concludeLight
  takeHead _ _ h := h
  dropRead _ _ h := h
  dropWrite _ h := h
  answer s r w := coherent_of_banks (banks_answer s r w)
  readRecord _ _ h := h
  bankStop := coherent_bankStop
  bankLook := coherent_bankLook
  bankRearm := coherent_bankRearm
  bankTrip := coherent_bankTrip
  bankAck := coherent_bankAck
  flushWindows _ h := h
  advanceCounter := coherent_advanceCounter
  innerBoundary := coherent_innerBoundary
  lastBoundary s b v due h := coherent_lastBoundary s b v h due
  cueTimeout s b f due h := coherent_cueTimeout_of s b f h due
  modWave s b _ _ _ := coherent_congr fun d => seqOf_modWave s b d _
  toFetch := coherent_toFetch
  linkArrived := coherent_linkArrived
  bankRecordArrived := coherent_bankRecordArrived
  frameResponse := coherent_frameResponse
  raise _ _ h := h
  offerWord := coherent_offerWord
  journalClose s j := coherent_of_banks (banks_journalClose s j)
  journalLook s j := coherent_of_banks (banks_journalLook s j)
  acceptEdge := coherent_acceptEdge
  takeSample s l := coherent_of_banks (banks_takeSample s l)
  beginStep s j l _ := coherent_of_banks (banks_beginStep s j l)
  loadArrived := coherent_loadArrived
  rereadArrived s j a := coherent_of_banks (banks_rereadArrived s j a)
  lineRecordArrived := coherent_lineRecordArrived
  journalRecordArrived s j a := coherent_of_banks (banks_journalRecordArrived s j a)
  recordResponse s j w := coherent_of_banks (banks_recordResponse s j w)
  bootArrived := coherent_bootArrived
  hostWrites _ _ h := h
  issue s fate g _ := coherent_issue s fate g
  completeQuiesce s fate _ := coherent_completeQuiesce s fate
  writeRun := coherent_writeRun
  engineReset s _ := coherent_engineReset s
  resetPin := coherent_resetPin
  writeAnchorLo _ _ h := h
  writeAnchorHi _ _ h := h
  writeCause _ _ h := h
  writeCauseEnable _ _ h := h
  readTickLo _ h := h

/-- Settles O60: what a plan state fixes (`Sequencer.Coherent`) is kept by every effect. -/
theorem stepKeepsBanksCoherent : Obligations.StepKeepsBanksCoherent :=
  fun s t => bankEffects.step (fun _ _ h => h) (fun _ _ h => h) coherent_advanceTick s t

/-! ### Right after reset -/

/-- Settles O55. -/
theorem invariantsHoldAtReset : Obligations.InvariantsHoldAtReset :=
  ⟨rfl, portOk_reset, queueOk_of_empty rfl, pinsOk_reset, ringsOk_reset, coherent_reset,
    windowOk_reset⟩

end Sys2Proof.Machine
end

section
/-! SUPPORT. What commands leave as it was: the world outside the part and Engine Control under the
inner commands, lines and journals under the commands on banks; and what a command can answer. -/

namespace Sys2Proof.Machine

/-! ### The world (R156, R177, R184) -/

theorem worldKept_of_outer {s t u : State} (h : u.outer = t.outer) (k : WorldKept s t) :
    WorldKept s u := by
  have pinsNow : u.pinsNow = t.pinsNow := by simp_all [State.outer]
  have pinsAgo1 : u.pinsAgo1 = t.pinsAgo1 := by simp_all [State.outer]
  have pinsAgo2 : u.pinsAgo2 = t.pinsAgo2 := by simp_all [State.outer]
  have pinScript : u.pinScript = t.pinScript := by simp_all [State.outer]
  have freeCount : u.freeCount = t.freeCount := by simp_all [State.outer]
  exact {
    memory := fun a => (memory_of_outer h ▸ k.memory a)
    pending := (pending_of_outer h).trans k.pending
    resetHeld := (resetHeld_of_outer h).trans k.resetHeld
    engine := (engine_of_outer h).trans k.engine
    now := (now_of_outer h).trans k.now
    tickHi := (tickHi_of_outer h).trans k.tickHi
    causeEnable := (causeEnable_of_outer h).trans k.causeEnable
    readData := (readData_of_outer h).trans k.readData
    pinsNow := pinsNow.trans k.pinsNow
    pinsAgo1 := pinsAgo1.trans k.pinsAgo1
    pinsAgo2 := pinsAgo2.trans k.pinsAgo2
    pinScript := pinScript.trans k.pinScript
    freeCount := freeCount.trans k.freeCount }

theorem WorldKept.refl (s : State) : WorldKept s s where
  memory _ := rfl
  pending := rfl
  resetHeld := rfl
  engine := rfl
  now := rfl
  tickHi := rfl
  causeEnable := rfl
  readData := rfl
  pinsNow := rfl
  pinsAgo1 := rfl
  pinsAgo2 := rfl
  pinScript := rfl
  freeCount := rfl

/-- A change of the requests and of the Memory Port leaves the world as it was. -/
theorem WorldKept.sweepPort {s t : State} (k : WorldKept s t) (q : Sweep) (p : Port)
    (cause : BitVec 16) : WorldKept s { t with sweep := q, port := p, cause := cause } where
  memory := k.memory
  pending := k.pending
  resetHeld := k.resetHeld
  engine := k.engine
  now := k.now
  tickHi := k.tickHi
  causeEnable := k.causeEnable
  readData := k.readData
  pinsNow := k.pinsNow
  pinsAgo1 := k.pinsAgo1
  pinsAgo2 := k.pinsAgo2
  pinScript := k.pinScript
  freeCount := k.freeCount

theorem worldKept_offerWord {s t : State} (w : Word) (k : WorldKept s t) :
    WorldKept s (t.offerWord w) := by
  unfold State.offerWord
  repeat' split
  · exact k.sweepPort t.sweep t.port _
  · exact k.sweepPort t.sweep t.port _
  · exact k
  · exact k.sweepPort _ t.port t.cause

theorem worldEffects (s : State) : InnerEffects (WorldKept s) :=
  innerEffects_of_outer (fun _ _ => worldKept_of_outer)
    (fun t _ k => k.sweepPort _ t.port t.cause) (fun t _ k => k.sweepPort t.sweep _ t.cause)
    (fun t k => k.sweepPort t.sweep _ t.cause) (fun _ w => worldKept_offerWord w)

/-- Settles O51: the inner effects touch nothing of `State.outer` but the queue and the transactions. -/
theorem innerCommandsKeepTheWorld : Obligations.InnerCommandsKeepTheWorld :=
  fun _ s t inner ht => (worldEffects s).exec inner s (.refl s) t ht

/-! ### Lines and journals -/

/-- The lines and the journals. -/
def State.capture (s : State) := (s.lines, s.journals)

theorem capture_of_beside {s t : State} (h : t.beside = s.beside) : t.capture = s.capture :=
  congrArg₂ Prod.mk (lines_of_beside h) (journals_of_beside h)

theorem capture_answer (s : State) (r : Result) (w : WaitFor) :
    (s.answer r w).capture = s.capture := rfl

theorem capture_stopNow (s : State) (b : BankNo) : (s.stopNow b).capture = s.capture :=
  (capture_answer _ _ _).trans (capture_of_beside (beside_stopBank s b .cut))

theorem capture_bankStop (s : State) (now : Bool) (b : BankNo) :
    (s.bankStop now b).capture = s.capture := by
  unfold State.bankStop
  dsimp only
  repeat' split
  · exact capture_stopNow s b
  · exact (capture_answer _ _ _).trans (capture_of_beside (beside_modSeq s b _))
  · exact capture_stopNow s b
  · rfl

theorem capture_bankLook (s : State) (b : BankNo) : (s.bankLook b).capture = s.capture := by
  unfold State.bankLook
  repeat' split
  · exact (capture_answer _ _ _).trans (capture_of_beside (beside_fetchHead s b))
  · exact (capture_answer _ _ _).trans (capture_of_beside (beside_readLink s b))
  · rfl

theorem capture_rearmManual (s : State) (b : BankNo) : (s.rearmManual b).capture = s.capture := by
  unfold State.rearmManual
  dsimp only
  repeat' split
  · rfl
  · rfl
  · exact (capture_of_beside (beside_openGate _ b)).trans rfl

theorem capture_bankRearm (s : State) (b : BankNo) : (s.bankRearm b).capture = s.capture := by
  unfold State.bankRearm
  dsimp only
  repeat' split
  · rfl
  · refine (capture_answer _ _ _).trans ?_
    exact (capture_of_beside (beside_judgeGate _ b)).trans rfl
  · rfl
  · exact (capture_answer _ _ _).trans (capture_rearmManual s b)

theorem capture_bankTrip (s : State) (b : BankNo) : (s.bankTrip b).capture = s.capture :=
  (capture_answer _ _ _).trans ((capture_of_beside (beside_judgeGate _ b)).trans rfl)

theorem capture_acceptStart (s : State) (b : BankNo) (r : BankRecord) (auto : Bool) :
    (s.acceptStart b r auto).capture = s.capture := by
  unfold State.acceptStart
  refine (capture_of_beside (beside_fetchHead _ b)).trans ?_
  refine (capture_answer _ _ _).trans ?_
  refine (capture_of_beside (beside_refreshPins _ b)).trans ?_
  exact (capture_of_beside (beside_judgeGate _ b)).trans rfl

theorem capture_bankRecordArrived (s : State) (b : BankNo) (a : Option (List Byte)) :
    (s.bankRecordArrived b a).capture = s.capture := by
  unfold State.bankRecordArrived
  repeat' split
  · rfl
  · rfl
  · rfl
  · rfl
  · exact capture_acceptStart s b _ _
  · rfl

theorem capture_offerWord (s : State) (w : Word) : (s.offerWord w).capture = s.capture := by
  unfold State.offerWord
  repeat' split
  all_goals rfl

theorem capture_conclude (before s : State) (noClose : ∀ j, (s.journal j).closing = false) :
    (before.conclude s).capture = s.capture :=
  have ends := ends_conclude before s noClose
  congrArg₂ Prod.mk ends.1 ends.2

theorem closing_of_capture {s t : State} (h : t.capture = s.capture) (j : JournalNo) :
    (t.journal j).closing = (s.journal j).closing := by
  have same : t.journals = s.journals := congrArg Prod.snd h
  simp [State.journal, same]

/-- While no journal closes, the effects of the commands on banks keep lines and journals. -/
theorem captureEffects {s : State} (noClose : ∀ j, (s.journal j).closing = false) :
    BankEffects fun t => t.capture = s.capture where
  conclude _ t h := (capture_conclude _ t fun j => (closing_of_capture h j).trans (noClose j)).trans h
  concludeLight before t h :=
    (congrArg₂ Prod.mk (ends_concludeLight before t).1 (ends_concludeLight before t).2).trans h
  takeHead _ _ h := h
  dropRead _ _ h := h
  dropWrite _ h := h
  answer _ _ _ h := h
  readRecord _ _ h := h
  bankStop t now b h := (capture_bankStop t now b).trans h
  bankLook t b h := (capture_bankLook t b).trans h
  bankRearm t b h := (capture_bankRearm t b).trans h
  bankTrip t b h := (capture_bankTrip t b).trans h
  bankAck _ _ h := h
  flushWindows _ h := h
  advanceCounter t b count dir h := (capture_of_beside (beside_advanceCounter t b count dir)).trans h
  innerBoundary t b h := (capture_of_beside (beside_innerBoundary t b)).trans h
  lastBoundary t b v _ h := (capture_of_beside (beside_lastBoundary t b v)).trans h
  cueTimeout t b f _ h := (capture_of_beside (beside_cueTimeout t b f)).trans h
  modWave t b _ _ _ h := (capture_of_beside (beside_modWave t b _)).trans h
  toFetch t b r h := (capture_of_beside (beside_toFetch t b r)).trans h
  linkArrived t b a h := (capture_of_beside (beside_linkArrived t b a)).trans h
  bankRecordArrived t b a h := (capture_bankRecordArrived t b a).trans h
  frameResponse t b sel retire next w h :=
    (capture_of_beside (beside_frameResponse t b sel retire next w)).trans h
  raise _ _ h := h
  offerWord t w h := (capture_offerWord t w).trans h

/-- Settles O52: what these commands do is the work of banks, and a step's end moves lines and
journals only for a close. -/
theorem bankCommandsKeepLinesAndJournals : Obligations.BankCommandsKeepLinesAndJournals :=
  fun _ s t bank noClose ht =>
    Prod.mk.injEq _ _ _ _ ▸ (captureEffects noClose).exec bank s rfl t ht

/-! ### Faults and refusals -/

theorem exec_arbiterGrant_bad {host : List Host.Cell} {fate : Fate} {s : State}
    (outside : ∃ x ∈ host, 2 ^ 48 ≤ x.1) :
    ∃ a, exec (.arbiterGrant host fate) s = .fault (.hostAddress a) := by
  obtain ⟨a, bad, _⟩ := badHostWrite_some outside
  refine ⟨a, ?_⟩
  show execArbiterGrant host fate s = _
  unfold execArbiterGrant
  rw [bad]

theorem exec_arbiterGrant_ok {host : List Host.Cell} {fate : Fate} {s : State}
    (inside : ∀ x ∈ host, x.1 < 2 ^ 48) : ∃ t, exec (.arbiterGrant host fate) s = .next t := by
  refine ⟨if (s.hostWrites host).resetHeld then s.hostWrites host
    else (s.hostWrites host).grant fate, ?_⟩
  show execArbiterGrant host fate s = _
  unfold execArbiterGrant
  rw [badHostWrite_none inside]
  rfl

/-- Settles O54: every command but the grant answers a state outright, and the grant faults on a host
write outside the address space only. -/
theorem nothingElseStops : Obligations.NothingElseStops := by
  intro c s
  cases c with
  | arbiterGrant host fate =>
    by_cases outside : ∃ x ∈ host, 2 ^ 48 ≤ x.1
    · obtain ⟨a, stops⟩ := exec_arbiterGrant_bad (fate := fate) (s := s) outside
      exact .inr ⟨host, fate, a, rfl, outside, stops⟩
    · refine .inl (exec_arbiterGrant_ok fun x hx => ?_)
      exact Nat.lt_of_not_le fun above => outside ⟨x, hx, above⟩
  | _ => exact .inl ⟨_, rfl⟩

end Sys2Proof.Machine
end

section
/-! SUPPORT. The register window: what each register reads, what a write at each offset does, the
cause bits, and the word written to SWEEP. -/

namespace Sys2Proof.Machine

/-- Settles O1. -/
theorem stepRunsTheFrontCommand : Obligations.StepRunsTheFrontCommand := by
  intro c rest s front
  unfold step
  rw [front]

/-! ### Cause bits (R186) -/

theorem getLsbD_one_shiftLeft (n m : Nat) :
    (1#16 <<< n).getLsbD m = (decide (m < 16) && decide (m = n)) := by
  rw [BitVec.getLsbD_shiftLeft, BitVec.getLsbD_one]
  by_cases inside : m < 16 <;> by_cases below : m < n <;> simp [inside, below] <;> omega

theorem causeBit_raise_ne (s : State) {n m : Nat} (h : m ≠ n) :
    (s.raise n).cause.getLsbD m = s.cause.getLsbD m := by
  show (s.cause ||| (1#16 <<< n)).getLsbD m = _
  rw [BitVec.getLsbD_or, getLsbD_one_shiftLeft, decide_eq_false h, Bool.and_false, Bool.or_false]

theorem getLsbD_writeCause (s : State) (data : Word) {n : Nat} (h : n < 16) :
    (s.writeCause data).cause.getLsbD n = (s.cause.getLsbD n && !data.getLsbD n) := by
  simp [State.writeCause, h]

theorem exec_causeWrite {s : State} (data : Word) (released : s.resetHeld = false) :
    exec (.causeWrite data) s = .next (s.writeCause data) :=
  running (f := fun s => s.writeCause data) released

/-- Settles O3. -/
theorem causeWriteClearsOnes : Obligations.CauseWriteClearsOnes :=
  fun data s released =>
    ⟨_, exec_causeWrite data released, fun _ => getLsbD_writeCause s data, rfl⟩

/-- The causes of an Anchor Block write's response: PORT_ERROR, and that of an error alone. -/
theorem causeBit_portError (s : State) (error : Bool) :
    (error = true → (s.portError error).causeSet causePort) ∧
      ∀ n, n ≠ causePort ∨ error = false →
        (s.portError error).cause.getLsbD n = s.cause.getLsbD n := by
  cases error with
  | false => exact ⟨nofun, fun _ _ => rfl⟩
  | true =>
    refine ⟨fun _ => causeBit_raise s causePort (by decide), fun n other => ?_⟩
    exact causeBit_raise_ne s (other.resolve_right nofun)

theorem portError_eq (s : State) (error : Bool) :
    s.portError error = { s with cause := (s.portError error).cause } := by
  cases error <;> rfl

theorem exec_engineStatusResponse {s : State} {error last : Bool} {rest : List OutWrite}
    (h : s.Responding ⟨.engineStatus true, last, error⟩ rest) :
    exec .engineStatusResponse s =
      .next (s.conclude ((s.dropWrite.portError error).raise causeReply)) :=
  responds (g := fun s => (s.portError error).raise causeReply) h.1 h.2 rfl

theorem exec_anchorWriteResponse {s : State} {owner : WriteOwner} {error last : Bool}
    {rest : List OutWrite} (anchor : owner.isAnchor = true)
    (h : s.Responding ⟨owner, last, error⟩ rest) :
    exec .anchorWriteResponse s = .next (s.conclude (s.dropWrite.portError error)) :=
  responds (g := fun s => s.portError error) h.1 h.2 (if_pos anchor)

/-- Settles O45: the two responses drop the oldest write and set their causes. -/
theorem anchorResponsesSetCauses : Obligations.AnchorResponsesSetCauses := by
  intro error last rest s
  constructor
  · intro responding
    obtain ⟨onError, others⟩ := causeBit_portError s.dropWrite error
    refine ⟨_, exec_engineStatusResponse responding, causeBit_raise _ _ (by decide),
      fun failed => causeBit_mono _ _ _ (onError failed), ?_, fun n notReply notPort => ?_⟩
    · rw [portError_eq, dropWrite_eq responding.2]
      rfl
    · exact (causeBit_raise_ne _ notReply).trans (others n notPort)
  · intro owner anchor responding
    obtain ⟨onError, others⟩ := causeBit_portError s.dropWrite error
    refine ⟨_, exec_anchorWriteResponse anchor responding, onError, ?_, others⟩
    rw [portError_eq, dropWrite_eq responding.2]

/-! ### The word written to SWEEP (R167) -/

theorem exec_sweepWrite {s : State} (w : Word) (released : s.resetHeld = false) :
    exec (.sweepWrite w) s = .next (s.offerWord w) :=
  running (f := fun s => s.offerWord w) released

theorem offerWord_off {s : State} (w : Word) (h : s.engine.state ≠ .on) :
    s.offerWord w = s.raise causeDropped := by
  simp [State.offerWord, h]

theorem offerWord_full {s : State} (w : Word) (h : s.engine.state = .on)
    (full : Config.maxQueue ≤ s.sweep.queue.length) : s.offerWord w = s.raise causeDropped := by
  simp [State.offerWord, h, full]

theorem offerWord_merged {s : State} {w : Word} (h : s.engine.state = .on)
    (room : s.sweep.queue.length < Config.maxQueue) (waiting : w ∈ s.sweep.queue) :
    s.offerWord w = s := by
  simp [State.offerWord, h, Nat.not_le.mpr room, waiting]

theorem offerWord_joins {s : State} {w : Word} (h : s.engine.state = .on)
    (room : s.sweep.queue.length < Config.maxQueue) (fresh : w ∉ s.sweep.queue) :
    s.offerWord w = s.modSweep fun x => x.join w := by
  simp [State.offerWord, h, Nat.not_le.mpr room, fresh]

/-- Settles O6: one row of the table after the other. -/
theorem sweepWriteJudgesTheWord : Obligations.SweepWriteJudgesTheWord := by
  intro w s released
  refine ⟨_, exec_sweepWrite w released, fun off => ?_, fun on full => ?_, offerWord_merged,
    fun on room fresh => ?_, queueOk_offerWord s w⟩
  · rw [offerWord_off w off]
    exact ⟨causeBit_raise s _ (by decide), rfl⟩
  · rw [offerWord_full w on full.ge]
    exact ⟨causeBit_raise s _ (by decide), rfl⟩
  · rw [offerWord_joins on room fresh]
    exact ⟨rfl, rfl, rfl, rfl⟩

/-! ### What the registers read (R176) -/

/-- Only the nine registers read other than 0. -/
theorem readRegister_past (s : State) {offset : Nat} (h : 0x24 ≤ offset) :
    s.readRegister offset = 0#32 := by
  unfold State.readRegister
  split
  case h_10 => rfl
  all_goals exact absurd h (by decide)

theorem getLsbD_flag (b : Bool) (k n : Nat) (h : k < 32) :
    (if b = true then 1#32 <<< k else 0#32).getLsbD n = (decide (n = k) && b) := by
  cases b with
  | false => simp
  | true =>
    rw [if_pos rfl, BitVec.getLsbD_shiftLeft, BitVec.getLsbD_one]
    by_cases at_ : n = k
    · rw [at_, Nat.sub_self]
      simp [h]
    · by_cases below : n < k
      · simp [at_, below]
      · simp [at_, show n - k ≠ 0 by omega]

theorem getLsbD_field (x : Byte) (k n : Nat) :
    (x.setWidth 32 <<< k).getLsbD n = (decide (n < 32) && (decide (k ≤ n) && x.getLsbD (n - k))) := by
  rw [BitVec.getLsbD_shiftLeft, BitVec.getLsbD_setWidth]
  by_cases inside : n < 32
  · rcases Nat.lt_or_ge n k with below | above
    · rw [decide_eq_true below, decide_eq_false (Nat.not_le.mpr below)]
      simp
    · rw [decide_eq_false (Nat.not_lt.mpr above), decide_eq_true above,
        decide_eq_true (show n - k < 32 by omega)]
      simp
  · simp [inside]

theorem getLsbD_controlWord (e : Engine) (n : Nat) : (controlWord e).getLsbD n =
    (decide (n = 0) && e.run ||
      decide (n < 32) && (decide (4 ≤ n) && e.state.code.getLsbD (n - 4)) ||
      decide (n < 32) && (decide (8 ≤ n) && e.bootFault.code.getLsbD (n - 8))) := by
  have run : (if e.run = true then 1#32 else 0#32).getLsbD n = (decide (n = 0) && e.run) :=
    getLsbD_flag e.run 0 n (by decide)
  unfold controlWord
  rw [BitVec.getLsbD_or, BitVec.getLsbD_or, getLsbD_field, getLsbD_field, run]

theorem code_engineState_high (e : EngineState) {n : Nat} (h : 3 ≤ n) :
    e.code.getLsbD n = false := by
  have small : e.code.toNat < 2 ^ 3 := by cases e <;> decide
  exact Nat.testBit_lt_two_pow (small.trans_le (Nat.pow_le_pow_right (by decide) h))

theorem code_bootFault_high (e : BootFault) {n : Nat} (h : 3 ≤ n) : e.code.getLsbD n = false := by
  have small : e.code.toNat < 2 ^ 3 := by cases e <;> decide
  exact Nat.testBit_lt_two_pow (small.trans_le (Nat.pow_le_pow_right (by decide) h))

/-- The three fields of CONTROL, and 0 in every other bit. -/
theorem controlWord_fields (e : Engine) : (controlWord e).getLsbD 0 = e.run ∧
    (controlWord e).extractLsb' 4 3 = e.state.code.setWidth 3 ∧
    (controlWord e).extractLsb' 8 3 = e.bootFault.code.setWidth 3 ∧
    ∀ n, n ∉ [0, 4, 5, 6, 8, 9, 10] → (controlWord e).getLsbD n = false := by
  refine ⟨by rw [getLsbD_controlWord]; simp, ?_, ?_, fun n other => ?_⟩
  · ext i hi
    rw [BitVec.getElem_extractLsb', getLsbD_controlWord]
    simp [BitVec.getLsbD_eq_getElem (show i < 8 by omega), show 4 + i < 32 by omega, show ¬ 8 ≤ 4 + i by omega]
  · ext i hi
    rw [BitVec.getElem_extractLsb', getLsbD_controlWord,
      code_engineState_high _ (show 3 ≤ 8 + i - 4 by omega)]
    simp [BitVec.getLsbD_eq_getElem (show i < 8 by omega), show 8 + i < 32 by omega]
  · simp only [List.mem_cons, List.not_mem_nil, or_false, not_or] at other
    rw [getLsbD_controlWord]
    have state : (decide (4 ≤ n) && e.state.code.getLsbD (n - 4)) = false := by
      by_cases h : 7 ≤ n
      · rw [code_engineState_high _ (by omega), Bool.and_false]
      · rw [decide_eq_false (by omega), Bool.false_and]
    have fault : (decide (8 ≤ n) && e.bootFault.code.getLsbD (n - 8)) = false := by
      by_cases h : 11 ≤ n
      · rw [code_bootFault_high _ (by omega), Bool.and_false]
      · rw [decide_eq_false (by omega), Bool.false_and]
    rw [state, fault, decide_eq_false other.1]
    simp

theorem busy_iff (x : Sweep) : x.busy = true ↔ x.exec ≠ none ∨ x.queue ≠ [] := by
  simp [Sweep.busy, Option.isSome_iff_ne_none]

theorem getLsbD_sweepWord (x : Sweep) (n : Nat) : (sweepWord x).getLsbD n =
    (decide (n < 32) && x.queue.length.testBit n || decide (n = 8) && x.busy) := by
  unfold sweepWord
  rw [BitVec.getLsbD_or, BitVec.getLsbD_ofNat]
  exact congrArg _ (getLsbD_flag x.busy 8 n (by decide))

/-- The fields of SWEEP: how many words wait, and whether the Sweep Unit is busy. -/
theorem sweepWord_fields (x : Sweep) (length : x.queue.length ≤ 4) :
    ((sweepWord x).extractLsb' 0 3).toNat = x.queue.length ∧
    ((sweepWord x).getLsbD 8 = true ↔ x.exec ≠ none ∨ x.queue ≠ []) ∧
    ∀ n, n ∉ [0, 1, 2, 8] → (sweepWord x).getLsbD n = false := by
  have high : ∀ n, 3 ≤ n → x.queue.length.testBit n = false := fun n hn =>
    Nat.testBit_lt_two_pow ((show x.queue.length < 2 ^ 3 by omega).trans_le
      (Nat.pow_le_pow_right (by decide) hn))
  refine ⟨Nat.eq_of_testBit_eq fun n => ?_, ?_, fun n other => ?_⟩
  · by_cases h : n < 3
    · show ((sweepWord x).extractLsb' 0 3).getLsbD n = _
      rw [BitVec.getLsbD_extractLsb', getLsbD_sweepWord]
      simp [h, show n < 32 by omega, show n ≠ 8 by omega]
    · rw [high n (by omega)]
      exact BitVec.getLsbD_of_ge _ _ (by omega)
  · rw [getLsbD_sweepWord, high 8 (by decide), ← busy_iff]
    simp
  · simp only [List.mem_cons, List.not_mem_nil, or_false, not_or] at other
    rw [getLsbD_sweepWord, high n (by omega)]
    simp [other.2.2.2]

theorem halves_setWidth (x : BitVec 16) :
    (x.setWidth 32).extractLsb' 0 16 = x ∧ (x.setWidth 32).extractLsb' 16 16 = 0#16 := by
  constructor
  · ext i hi
    simp [BitVec.getLsbD_eq_getElem hi]
    omega
  · ext i hi
    simp

/-- The codes of the engine states and of the boot faults, as the fields of CONTROL show them. -/
theorem code_engineState (e : EngineState) : e.code.setWidth 3 = (match e with
    | .off => 0#3 | .booting => 1#3 | .on => 2#3 | .quiescing => 3#3 | .anchorFault => 4#3) := by
  cases e <;> rfl

theorem code_bootFault (e : BootFault) : e.code.setWidth 3 = (match e with
    | .none => 0#3 | .signature => 1#3 | .version => 2#3 | .align => 3#3 | .count => 4#3
    | .port => 5#3) := by
  cases e <;> rfl

/-! ### A write at an offset (R176) -/

theorem exec_registerWrite_partial {s : State} {offset : Nat} {data : Word} {e : BitVec 4}
    (released : s.resetHeld = false) (h : e ≠ BitVec.allOnes 4) :
    exec (.registerWrite offset data e) s = .next s := by
  simp only [exec, execRegisterWrite]
  rw [running released, if_neg h]

theorem exec_registerWrite_full {s : State} (offset : Nat) (data : Word)
    (released : s.resetHeld = false) :
    exec (.registerWrite offset data (BitVec.allOnes 4)) s = .next (s.writeRegister offset data) := by
  exact (running (f := fun s => if BitVec.allOnes 4 = BitVec.allOnes 4 then
    s.writeRegister offset data else s) released).trans (congrArg _ (if_pos rfl))

theorem writeRegister_other (s : State) {offset : Nat} (data : Word) (h04 : offset ≠ 0x04)
    (h08 : offset ≠ 0x08) (h0C : offset ≠ 0x0C) (h10 : offset ≠ 0x10) (h14 : offset ≠ 0x14)
    (h18 : offset ≠ 0x18) : s.writeRegister offset data = s := by
  unfold State.writeRegister
  split
  case h_7 => rfl
  all_goals contradiction

theorem exec_run {s : State} (v : Bool) (released : s.resetHeld = false) :
    exec (.run v) s = .next (s.writeRun v) :=
  running (f := fun s => s.writeRun v) released

/-- CONTROL is the command of its ENGINE_RESET bit. -/
theorem exec_registerWrite_control {s : State} (data : Word) (released : s.resetHeld = false) :
    exec (.registerWrite 0x04 data (BitVec.allOnes 4)) s =
      (if data.getLsbD 1 then exec (.engineReset (data.getLsbD 0)) s
        else exec (.run (data.getLsbD 0)) s) := by
  rw [exec_registerWrite_full 0x04 data released, exec_run _ released, exec_engineReset _ released]
  show Host.Outcome.next (s.writeControl data) = _
  unfold State.writeControl
  split <;> rfl

/-- Settles O7: the reads by their fields, the writes by the command of each offset. -/
theorem registerWriteActsByOffset : Obligations.RegisterWriteActsByOffset := by
  refine ⟨fun s => ?_, fun data s released => ?_⟩
  · obtain ⟨run, state, fault, others⟩ := controlWord_fields s.engine
    refine ⟨rfl, ⟨run, state.trans (code_engineState _), fault.trans (code_bootFault _), others⟩,
      rfl, halves_setWidth _, sweepWord_fields s.sweep, halves_setWidth _, halves_setWidth _, ?_,
      halves_setWidth _, fun offset past => readRegister_past s past⟩
    show s.now.setWidth 32 = s.now.extractLsb' 0 32
    ext i hi
    simp
  · refine ⟨fun offset e h => exec_registerWrite_partial released h,
      fun offset h04 h08 h0C h10 h14 h18 => ?_,
      ⟨_, exec_registerWrite_full 0x08 data released, rfl, rfl⟩,
      ⟨_, exec_registerWrite_full 0x0C data released, rfl, rfl⟩, ?_, ?_, ?_,
      exec_registerWrite_control data released⟩
    · rw [exec_registerWrite_full offset data released,
        writeRegister_other s data h04 h08 h0C h10 h14 h18]
    · rw [exec_registerWrite_full 0x10 data released, exec_sweepWrite data released]
      rfl
    · rw [exec_registerWrite_full 0x14 data released, exec_causeWrite data released]
      rfl
    · rw [exec_registerWrite_full 0x18 data released, exec_causeEnable data released]
      rfl

/-! ### Reset -/

theorem readRegister_reset {offset : Nat} (h : offset ≠ 0) :
    State.reset.readRegister offset = 0#32 := by
  unfold State.readRegister
  split
  case h_1 => exact absurd rfl h
  all_goals rfl

theorem bank_reset (b : BankNo) : State.reset.bank b = .reset := Quad.get_all _ b

theorem line_reset (l : LineNo) : State.reset.line l = .reset := Oct.get_all _ l

theorem journal_reset (j : JournalNo) : State.reset.journal j = .reset := Oct.get_all _ j

/-- Settles O8. -/
theorem registersAtReset : Obligations.RegistersAtReset := by
  refine ⟨rfl, fun _ => readRegister_reset, irq_of_causeEnable rfl, rfl, rfl, fun b => ?_, fun l => ?_,
    fun j => ?_, fun b c => ?_⟩
  · rw [bank_reset]
    exact ⟨rfl, rfl⟩
  · rw [line_reset]
    rfl
  · rw [journal_reset]
    rfl
  · rw [bank_reset, show (Bank.reset.wave.pins.get c) = ⟨.reset, .reset⟩ from Quad.get_all _ c]
    exact ⟨rfl, rfl⟩

end Sys2Proof.Machine
end

section
/-! SUPPORT. Engine Control and time: what RUN does in each engine state, the entry to QUIESCING and
its end, the boot, the two resets, and a tick. -/

namespace Sys2Proof.Machine

/-! ### Numbers of banks, lines and journals -/

theorem mem_four (b : Fin 4) : b ∈ four := by fin_cases b <;> decide

theorem mem_eight (l : Fin 8) : l ∈ eight := by fin_cases l <;> decide

/-! ### RUN (R178) -/

theorem exec_run_same (s : State) : exec (.run s.engine.run) s = .next s := by
  show unlessReset s (fun s' => s'.writeRun s.engine.run) = _
  simp [unlessReset, State.writeRun]

/-- RUN takes this value. -/
def State.setRun (s : State) (v : Bool) : State :=
  { s with engine := { s.engine with run := v } }

/-- A RUN that changes acts on the engine, and the step then ends. -/
theorem exec_run_change {s : State} {v : Bool} (released : s.resetHeld = false)
    (change : s.engine.run ≠ v) :
    exec (.run v) s = .next (s.conclude ((s.setRun v).runChanged v)) := by
  rw [exec_run v released, State.writeRun, if_neg change]
  rfl

/-- Entry to BOOTING up to the judging of the anchor: it is copied, and the loads are dropped. -/
def State.bootEntry (s : State) : State :=
  ({ s with engine := { s.engine with
      state := .booting, anchor := s.engine.anchorWritten, bootFault := .none,
      bootRead := false } } : State).discardLoads

theorem enterBooting_eq (s : State) : s.enterBooting =
    if s.engine.anchorWritten.toNat % 64 ≠ 0 then s.bootEntry.anchorFault .align
    else { s.bootEntry with
      engine := { s.bootEntry.engine with bootRead := true }
      port := { s.bootEntry.port with class4 := some .boot } } := rfl

theorem enterBooting_aligned {s : State} (h : s.engine.anchorWritten.toNat % 64 = 0) :
    s.enterBooting.engine = { s.engine with
      state := .booting, anchor := s.engine.anchorWritten, bootFault := .none, bootRead := true } ∧
    s.enterBooting.port.class4 = some .boot ∧ s.enterBooting.cause = s.cause := by
  rw [enterBooting_eq, if_neg (not_not.mpr h)]
  exact ⟨rfl, rfl, rfl⟩

theorem enterBooting_misaligned {s : State} (h : s.engine.anchorWritten.toNat % 64 ≠ 0) :
    s.enterBooting.engine = { s.engine with
      state := .anchorFault, anchor := s.engine.anchorWritten, bootFault := .align,
      bootRead := false } ∧ s.enterBooting.causeSet causeAnchor := by
  rw [enterBooting_eq, if_pos h]
  exact ⟨rfl, causeBit_raise _ _ (by decide)⟩

/-- What entry to BOOTING does whatever the anchor. -/
theorem enterBooting_always (s : State) : s.enterBooting.window.cache = [] ∧
    s.enterBooting.window.loads = [] ∧ s.enterBooting.now = s.now ∧
    s.enterBooting.memory = s.memory ∧ s.enterBooting.engine.run = s.engine.run ∧
    s.enterBooting.engine.anchor = s.engine.anchorWritten ∧
    s.enterBooting.port.writes = s.port.writes ∧ s.enterBooting.lines = s.lines := by
  rw [enterBooting_eq]
  split <;> exact ⟨rfl, rfl, rfl, rfl, rfl, rfl, rfl, rfl⟩

theorem runChanged_off {s : State} (h : s.engine.state = .off) :
    s.runChanged true = s.enterBooting := by
  unfold State.runChanged
  rw [h]

theorem runChanged_booting {s : State} (h : s.engine.state = .booting) :
    s.runChanged false = s.abandonBoot := by
  unfold State.runChanged
  rw [h]

theorem runChanged_on {s : State} (h : s.engine.state = .on) :
    s.runChanged false = s.enterQuiescing := by
  unfold State.runChanged
  rw [h]

theorem runChanged_anchorFault {s : State} (h : s.engine.state = .anchorFault) :
    s.runChanged false = { s with engine := { s.engine with state := .off } } := by
  unfold State.runChanged
  rw [h]

theorem runChanged_quiescing {s : State} (v : Bool) (h : s.engine.state = .quiescing) :
    s.runChanged v = s := by
  unfold State.runChanged
  rw [h]

theorem discarded_dropBoot {r x : OutRead} (h : x = r.dropBoot) (boot : x.owner = .boot) :
    x.discarded = true := by
  subst h
  unfold OutRead.dropBoot at boot ⊢
  split at boot
  · rw [if_pos ‹_›]
  · contradiction

/-- Settles O9: one engine state after the other. -/
theorem runActsByEngineState : Obligations.RunActsByEngineState := by
  intro s released
  refine ⟨exec_run_same s, fun run off => ?_, fun run booting => ?_, fun run fault => ?_,
    fun v change quiescing => ?_⟩
  · have runs := exec_run_change (v := true) released (by simp [run])
    rw [runChanged_off (s := s.setRun true) off] at runs
    refine ⟨_, runs, ?_⟩
    obtain ⟨cache, loads, now, memory, ran, anchor, _⟩ := enterBooting_always (s.setRun true)
    refine ⟨ran, anchor, cache, loads, now, memory, fun aligned => ?_, fun misaligned => ?_⟩
    · obtain ⟨engine, class4, cause⟩ := enterBooting_aligned (s := s.setRun true) aligned
      exact ⟨congrArg Engine.state engine, congrArg Engine.bootFault engine, class4, cause⟩
    · obtain ⟨engine, cause⟩ := enterBooting_misaligned (s := s.setRun true) misaligned
      exact ⟨congrArg Engine.state engine, congrArg Engine.bootFault engine, cause⟩
  · have runs := exec_run_change (v := false) released (by simp [run])
    rw [runChanged_booting (s := s.setRun false) booting] at runs
    refine ⟨_, runs, rfl, rfl, rfl, rfl, fun r hr boot => ?_⟩
    obtain ⟨x, _, dropped⟩ := List.mem_map.mp hr
    exact discarded_dropBoot dropped.symm boot
  · have runs := exec_run_change (v := false) released (by simp [run])
    rw [runChanged_anchorFault (s := s.setRun false) fault] at runs
    exact ⟨_, runs, rfl⟩
  · have runs := exec_run_change released change
    rw [runChanged_quiescing (s := s.setRun v) v quiescing] at runs
    exact ⟨_, runs, rfl⟩

/-! ### Entry to QUIESCING (R48, R144, R181) -/

/-- The Window Unit and the Memory Port. -/
def State.ports (s : State) := (s.window, s.port)

theorem ports_releaseGate (s : State) (b : BankNo) : (s.releaseGate b).ports = s.ports := by
  unfold State.releaseGate
  dsimp only
  repeat' split
  all_goals rfl

theorem ports_offer (n : Nat) (c : StartCond) (s : State) : (offer n c s).ports = s.ports :=
  congrArg₂ Prod.mk (window_offer n c s) (port_offer n c s)

/-- The end of a plan touches the Window Unit and the port as its discarding of reads does. -/
theorem ports_endPlan (s : State) (b : BankNo) (plan : PlanState) (reason : StopReason) :
    (s.endPlan b plan reason).ports = (s.discardReads b).ports :=
  (ports_offer _ _ _).trans (ports_releaseGate _ b)

theorem ports_retireLive (s : State) (b : BankNo) (code : FrameState) :
    (s.retireLive b code).ports = s.ports := by
  unfold State.retireLive
  split <;> rfl

theorem ports_returnStaged (s : State) (b : BankNo) : (s.returnStaged b).ports = s.ports := by
  unfold State.returnStaged
  split <;> rfl

theorem ports_discardReads {s t : State} (h : t.ports = s.ports) (b : BankNo) :
    (t.discardReads b).ports = (s.discardReads b).ports := by
  obtain ⟨window, port⟩ := Prod.mk.inj h
  simp [State.ports, State.discardReads, State.dropWaiters, window, port]

theorem ports_stopBank (s : State) (b : BankNo) (code : FrameState) :
    (s.stopBank b code).ports = (s.discardReads b).ports :=
  (ports_endPlan _ _ _ _).trans <| ports_discardReads
    ((ports_returnStaged _ b).trans (ports_retireLive s b code)) b

theorem class3_quiesceBank (s : State) (b : BankNo) :
    (s.quiesceBank b).port.class3 = s.port.class3 := by
  unfold State.quiesceBank
  split
  · exact congrArg (fun x => x.2.class3) (ports_stopBank s b .cut)
  · rfl

/-- The loads in flight are all stale. -/
def State.Stale (s : State) : Prop := ∀ x ∈ s.window.loads, x.stale = true

theorem stale_quiesceBank (s : State) (b : BankNo) (h : s.Stale) : (s.quiesceBank b).Stale := by
  unfold State.quiesceBank
  split
  · have loads : (s.stopBank b .cut).window.loads = (s.discardReads b).window.loads :=
      congrArg (fun x => x.1.loads) (ports_stopBank s b .cut)
    intro x hx
    rw [loads] at hx
    obtain ⟨y, hy, rfl⟩ := List.mem_map.mp hx
    exact h y hy
  · exact h

theorem stale_quiesceStart (s : State) : s.quiesceStart.Stale := by
  intro x hx
  obtain ⟨y, _, rfl⟩ := List.mem_map.mp hx
  rfl

theorem inactive_quiesceBanks (s : State) (b : BankNo) :
    ((four.foldl State.quiesceBank s).bank b).seq.plan.isActive = false := by
  have reached : ∀ (cs : List BankNo) (t : State),
      b ∈ cs ∨ (t.bank b).seq.plan.isActive = false →
        ((cs.foldl State.quiesceBank t).bank b).seq.plan.isActive = false := by
    intro cs
    induction cs with
    | nil => exact fun t h => h.resolve_left List.not_mem_nil
    | cons c rest ih =>
      intro t h
      refine ih _ ?_
      rcases h with member | inactive
      · rcases List.mem_cons.mp member with rfl | later
        · exact .inr (inactive_quiesceBank t b b (.inl rfl))
        · exact .inl later
      · exact .inr (inactive_quiesceBank t c b (.inr inactive))
  exact reached four s (.inl (mem_four b))

theorem flight_beginClose (s : State) (j : JournalNo) : (s.beginClose j).flight = s.flight :=
  (flight_judgeLines _).trans (flight_modJournal s j _)

theorem flight_quiesceJournal (s : State) (j : JournalNo) :
    (s.quiesceJournal j).flight = s.flight := by
  unfold State.quiesceJournal
  split
  · rfl
  · exact flight_beginClose s j

/-- A journal the quiesce has reached is CLOSED or closing, and stays so. -/
theorem closing_quiesceJournal (s : State) (i j : JournalNo)
    (h : i = j ∨ (s.journal i).state = .closed ∨ (s.journal i).closing = true) :
    ((s.quiesceJournal j).journal i).state = .closed ∨
      ((s.quiesceJournal j).journal i).closing = true := by
  unfold State.quiesceJournal
  split
  · rename_i done
    refine h.elim (fun same => ?_) id
    subst same
    simpa using done
  · rw [journal_beginClose]
    split
    · exact .inr rfl
    · rename_i other
      exact h.resolve_left other

theorem closing_quiesceJournals (s : State) (i : JournalNo) :
    ((eight.foldl State.quiesceJournal s).journal i).state = .closed ∨
      ((eight.foldl State.quiesceJournal s).journal i).closing = true := by
  have reached : ∀ (js : List JournalNo) (t : State),
      i ∈ js ∨ (t.journal i).state = .closed ∨ (t.journal i).closing = true →
        ((js.foldl State.quiesceJournal t).journal i).state = .closed ∨
          ((js.foldl State.quiesceJournal t).journal i).closing = true := by
    intro js
    induction js with
    | nil => exact fun t h => h.resolve_left List.not_mem_nil
    | cons j rest ih =>
      intro t h
      refine ih _ ?_
      rcases h with member | done
      · rcases List.mem_cons.mp member with rfl | later
        · exact .inr (closing_quiesceJournal t i i (.inl rfl))
        · exact .inl later
      · exact .inr (closing_quiesceJournal t i j (.inr done))
  exact reached eight s (.inl (mem_eight i))

/-- A part of the state that a step keeps is kept by a fold of that step. -/
theorem foldl_same {α β : Type} {part : State → β} {f : State → α → State}
    (h : ∀ s a, part (f s a) = part s) (xs : List α) (s : State) :
    part (xs.foldl f s) = part s := by
  induction xs generalizing s with
  | nil => rfl
  | cons x rest ih => exact (ih _).trans (h s x)

theorem cache_of_keys {s t : State} (h : t.keys = s.keys) : t.window.cache = s.window.cache :=
  congrArg Prod.fst h

/-- A part of the state that the closing of journals keeps is, after entry to QUIESCING, what it is
after the banks. -/
theorem enterQuiescing_same {β : Type} {part : State → β}
    (h : ∀ t j, part (State.quiesceJournal t j) = part t) (s : State) :
    part s.enterQuiescing = part (four.foldl State.quiesceBank s.quiesceStart) := by
  rw [enterQuiescing_eq]
  exact foldl_same h eight _

section
variable (s : State)

theorem banks_enterQuiescing :
    s.enterQuiescing.banks = (four.foldl State.quiesceBank s.quiesceStart).banks :=
  enterQuiescing_same banks_quiesceJournal s

theorem sweep_quiesceStart :
    s.quiesceStart.sweep = { s.sweep with queue := [], takeNow := false } := by
  unfold State.quiesceStart State.flushWindows State.modWindow State.modSweep
  rw [requestClass3_eq]

theorem banks_quiesceStart : s.quiesceStart.banks = s.banks := by
  unfold State.quiesceStart State.flushWindows State.modWindow State.modSweep
  rw [requestClass3_eq]

theorem sweep_enterQuiescing :
    s.enterQuiescing.sweep = { s.sweep with queue := [], takeNow := false } := by
  rw [enterQuiescing_same (part := State.sweep) sweep_quiesceJournal s,
    foldl_same (part := State.sweep) sweep_quiesceBank four, sweep_quiesceStart]

theorem window_enterQuiescing :
    s.enterQuiescing.window = (four.foldl State.quiesceBank s.quiesceStart).window :=
  enterQuiescing_same window_quiesceJournal s

theorem cache_enterQuiescing : s.enterQuiescing.window.cache = [] := by
  have keys : s.enterQuiescing.keys = s.quiesceStart.keys :=
    (enterQuiescing_same keys_quiesceJournal s).trans (keys_foldl _ keys_quiesceBank four _)
  exact (cache_of_keys keys).trans rfl

theorem stale_enterQuiescing : s.enterQuiescing.Stale := by
  have banks : (four.foldl State.quiesceBank s.quiesceStart).Stale :=
    foldl_of (P := State.Stale) stale_quiesceBank four _ (stale_quiesceStart s)
  unfold State.Stale
  rw [window_enterQuiescing]
  exact banks

theorem requested_enterQuiescing : ∃ x ∈ s.enterQuiescing.port.class3, x.1 = .engine := by
  have started : ∃ x ∈ s.quiesceStart.port.class3, x.1 = .engine :=
    requested_requestClass3 _ .engine
  have afterBanks : (four.foldl State.quiesceBank s.quiesceStart).port.class3 =
      s.quiesceStart.port.class3 := foldl_same (part := fun t => t.port.class3) class3_quiesceBank four _
  rw [← afterBanks] at started
  rw [enterQuiescing_eq]
  exact foldl_of (P := fun t => ∃ x ∈ t.port.class3, x.1 = .engine)
    (fun t j ⟨x, hx, engine⟩ => ⟨x, class3_quiesceJournal t j x hx, engine⟩) eight _ started

theorem ended_enterQuiescing {b : BankNo} (active : (s.bank b).seq.plan.isActive = true) :
    s.enterQuiescing.Ended b .dormant .stopped := by
  have stopped := stopped_quiesce s.quiesceStart b (by
    rw [State.bank, banks_quiesceStart]
    exact active)
  obtain ⟨⟨q, ended⟩, discarded⟩ := stopped
  have same : s.enterQuiescing.bank b = (four.foldl State.quiesceBank s.quiesceStart).bank b := by
    rw [State.bank, State.bank, banks_enterQuiescing]
  have flight : s.enterQuiescing.flight = (four.foldl State.quiesceBank s.quiesceStart).flight :=
    enterQuiescing_same flight_quiesceJournal s
  refine ⟨?_, ?_, ?_, readsDiscarded_of_flight flight discarded⟩
  · rw [same, ended]
    rfl
  · rw [same, ended]
    rfl
  · rw [same, ended]
    exact ⟨rfl, rfl, rfl, rfl, rfl, rfl, rfl, rfl, rfl⟩

end

/-- Settles O10: the queue and the windows at the start, then the banks, then the journals. -/
theorem runQuiescesFromOn : Obligations.RunQuiescesFromOn := by
  intro s released run on
  have runs := exec_run_change (v := false) released (by simp [run])
  rw [runChanged_on (s := s.setRun false) on] at runs
  obtain ⟨q, started, _⟩ := outer_quiesceStart (s.setRun false)
  have outer := (outer_enterQuiescing (s.setRun false)).trans started
  have engine := engine_of_outer outer
  have sweep := sweep_enterQuiescing (s.setRun false)
  refine ⟨_, runs, congrArg Engine.state engine, congrArg Engine.run engine,
    congrArg Sweep.queue sweep, (congrArg Sweep.exec sweep).trans rfl,
    (congrArg Sweep.next sweep).trans rfl,
    cache_enterQuiescing _, stale_enterQuiescing _, requested_enterQuiescing _, fun b => ?_,
    fun b active => ended_enterQuiescing (s.setRun false) active, fun j => ?_,
    memory_enterQuiescing _, (now_of_outer outer).trans rfl⟩
  · rw [State.bank, banks_enterQuiescing]
    exact inactive_quiesceBanks _ b
  · rw [enterQuiescing_eq]
    exact closing_quiesceJournals _ j

/-! ### The resets (R182, R183) -/

theorem controlWord_reset (lo : Word) (hi : BitVec 16) :
    controlWord { Engine.reset with anchorLo := lo, anchorHi := hi } = 0#32 := by
  simp [controlWord, Engine.reset, EngineState.code, BootFault.code]

/-- Settles O11. -/
theorem engineResetClearsTheBlock : Obligations.EngineResetClearsTheBlock :=
  fun v _ released => ⟨_, exec_engineReset v released, rfl, rfl, rfl, rfl, rfl, rfl, rfl, rfl, rfl,
    rfl, irq_of_causeEnable rfl, rfl, controlWord_reset _ _, rfl, rfl, released⟩

/-- While RESET_N is low a step that needs the part does not occur. -/
theorem held {s : State} {f : State → State} (h : s.resetHeld = true) :
    unlessReset s f = .next s := by
  simp [unlessReset, h]

theorem exec_held {c : Instr} {s : State} (low : s.resetHeld = true) (pin : ∀ v, c ≠ .resetN v)
    (grant : ∀ host fate, c ≠ .arbiterGrant host fate) : exec c s = .next s := by
  cases c with
  | resetN v => exact absurd rfl (pin v)
  | arbiterGrant host fate => exact absurd rfl (grant host fate)
  | _ => exact congrArg Host.Outcome.next (if_pos low)

theorem exec_arbiterGrant_held {host : List Host.Cell} {fate : Fate} {s t : State}
    (low : s.resetHeld = true) (h : exec (.arbiterGrant host fate) s = .next t) :
    t = s.hostWrites host := by
  change execArbiterGrant host fate s = _ at h
  unfold execArbiterGrant at h
  split at h
  · cases h
  · rw [held (by exact low)] at h
    exact (Host.Outcome.next.inj h).symm

/-- Settles O12: the low pin by its meaning; held low, `unlessReset` lets nothing through. -/
theorem resetNHoldsPowerOnValues : Obligations.ResetNHoldsPowerOnValues := by
  refine ⟨fun s => ⟨_, rfl, rfl, rfl, rfl, rfl, rfl, rfl, rfl, rfl, rfl, rfl, rfl, rfl,
      irq_of_causeEnable rfl, fun n => rfl, rfl, rfl⟩,
    fun c s => exec_held, fun host fate s t low h => ?_, fun s => ⟨_, rfl, rfl⟩,
    fun v s t h => ?_⟩
  · rw [exec_arbiterGrant_held low h]
    rfl
  · obtain rfl : s.resetPin false = t := Host.Outcome.next.inj h
    exact ⟨_, rfl, rfl, held rfl, rfl⟩

/-! ### The boot (R179, R180) -/

theorem bootArrived_error {s : State} (booting : s.engine.state = .booting) :
    s.bootArrived none = s.anchorFault .port := by
  simp [State.bootArrived, booting]

theorem bootArrived_fault {s : State} {bs : List Byte} (booting : s.engine.state = .booting)
    (bad : (parseBootHeader bs).check ≠ .none) :
    s.bootArrived (some bs) = s.anchorFault (parseBootHeader bs).check := by
  simp [State.bootArrived, booting, bad]

theorem bootArrived_on {s : State} {bs : List Byte} (booting : s.engine.state = .booting)
    (good : (parseBootHeader bs).check = .none) :
    s.bootArrived (some bs) = s.enterOn (parseBootHeader bs) := by
  simp [State.bootArrived, booting, good]

theorem causeSet_anchorFault (s : State) (f : BootFault) : (s.anchorFault f).causeSet causeAnchor :=
  causeBit_raise _ _ (by decide)

/-- Entry to ON touches the engine, the table's geometry, the requests and the lines alone. -/
theorem enterOn_spec (s : State) (h : BootHeader) : ∃ (c : List (Class3 × Bool))
    (a : Quad (List FrameAccess)) (x : Oct Line), s.enterOn h = { s with
      engine := { s.engine with state := .on, bootRead := false }
      window := { s.window with tableAddr := BitVec.ofNat 48 h.table, tableCount := h.count }
      port := { s.port with class3 := c, statusAfter := a }, lines := x } ∧
    (∃ y ∈ c, y.1 = .engine) ∧ ∀ b, ∃ y ∈ c, y.1 = .bank b := by
  obtain ⟨t, x, more, announced, engine, banks⟩ := announceOn_spec
    ({ s with
      engine := { s.engine with state := .on, bootRead := false }
      window := { s.window with
        tableAddr := BitVec.ofNat 48 h.table, tableCount := h.count } } : State)
  refine ⟨t.port.class3, t.port.statusAfter, x, ?_, engine, banks rfl⟩
  unfold State.enterOn
  rw [announced, more.eq]

theorem exec_bootHeaderRead {place : Fin 4} {r : OutRead} {s : State} (h : s.Arriving place r)
    (boot : r.owner = .boot) : exec (.bootHeaderRead place) s =
      .next (s.conclude ((s.dropRead place).bootArrived r.answer)) := by
  obtain ⟨released, at_, live⟩ := h
  exact arrives (g := fun s => s.bootArrived r.answer) released at_ live (by rw [boot])

/-- The first check of a boot header that fails. -/
theorem bootHeader_check (h : BootHeader) :
    (h.signature ≠ bootSignature → h.check = .signature) ∧
    (h.signature = bootSignature →
      (h.version ≠ 1 → h.check = .version) ∧
      (h.version = 1 → h.table % 16 ≠ 0 → h.check = .align) ∧
      (h.version = 1 → h.table % 16 = 0 → h.count < 1 ∨ 64 < h.count → h.check = .count) ∧
      (h.version = 1 → h.table % 16 = 0 → 1 ≤ h.count → h.count ≤ 64 → h.check = .none)) := by
  refine ⟨fun bad => ?_, fun signature => ⟨fun bad => ?_, fun version bad => ?_,
    fun version table bad => ?_, fun version table low high => ?_⟩⟩
  · simp [BootHeader.check, bad]
  · simp [BootHeader.check, signature, bad]
  · simp [BootHeader.check, signature, version, bad]
  · have count : h.count = 0 ∨ 64 < h.count := by omega
    simp [BootHeader.check, signature, version, table, count]
  · have count : ¬ (h.count = 0 ∨ 64 < h.count) := by omega
    simp [BootHeader.check, signature, version, table, count]

/-- Settles O13. -/
theorem bootHeaderDecidesTheBoot : Obligations.BootHeaderDecidesTheBoot := by
  refine ⟨fun place r s arriving boot booting => ⟨_, exec_bootHeaderRead arriving boot, ?_⟩,
    bootHeader_check⟩
  have dropped : (s.dropRead place).engine.state = .booting := booting
  cases answer : r.answer with
  | none =>
    rw [bootArrived_error dropped]
    exact ⟨rfl, rfl, rfl, rfl, rfl, rfl, fun _ => ⟨rfl, rfl, causeSet_anchorFault _ _⟩, nofun, nofun⟩
  | some bs =>
    by_cases good : (parseBootHeader bs).check = .none
    · rw [bootArrived_on dropped good]
      obtain ⟨c, a, x, entered, engine, banks⟩ := enterOn_spec (s.dropRead place) (parseBootHeader bs)
      rw [entered]
      refine ⟨rfl, rfl, rfl, rfl, rfl, rfl, nofun, fun _ same bad => ?_, fun _ same _ => ?_⟩
      · cases same
        exact absurd good bad
      · cases same
        exact ⟨rfl, rfl, rfl, rfl, engine, banks⟩
    · rw [bootArrived_fault dropped good]
      refine ⟨rfl, rfl, rfl, rfl, rfl, rfl, nofun, fun _ same _ => ?_, fun _ same fine => ?_⟩
      · cases same
        exact ⟨rfl, rfl, causeSet_anchorFault _ _⟩
      · cases same
        exact absurd fine good

/-! ### The end of a quiesce (R164, R181) -/

theorem length_engineStatusBytes (e : EngineState) (next : BitVec 16) :
    (engineStatusBytes e next).length = 16 := by
  simp [engineStatusBytes, length_leBytes]

theorem getElem_byteAt {bs : List Byte} {n : Nat} (h : n < bs.length) : bs[n] = byteAt bs n := by
  simp [byteAt, h]

/-- With no request executing the Engine Status write follows no reply. -/
theorem issueEngineStatus_quiet {s : State} (idle : s.sweep.exec = none) (shown : EngineState)
    (fate : Fate) : s.issueEngineStatus shown fate =
      s.issueAnchor (.engineStatus false) offEngineStatus (engineStatusBytes shown s.sweep.next)
        fate := by
  simp [State.issueEngineStatus, State.awaitsStatus, idle]

theorem exec_quiesceComplete {s : State} (fate : Fate) (released : s.resetHeld = false)
    (done : s.quiesceDone = true) :
    exec (.quiesceComplete fate) s = .next (s.completeQuiesce fate) := by
  simp only [exec, execQuiesceComplete]
  rw [running released, if_pos done]

theorem idle_of_quiesceDone {s : State} (h : s.quiesceDone = true) : s.sweep.exec = none := by
  simp only [State.quiesceDone, Bool.and_eq_true] at h
  exact Option.isNone_iff_eq_none.mp h.1.1.1.1.1.2

/-- The engine enters OFF. -/
def State.turnOff (s : State) : State := { s with engine := { s.engine with state := .off } }

theorem completeQuiesce_eq (s : State) (fate : Fate) : s.completeQuiesce fate =
    if (s.issueEngineStatus .off fate).engine.run
    then (s.issueEngineStatus .off fate).turnOff.enterBooting
    else (s.issueEngineStatus .off fate).turnOff := rfl

/-- The end of a quiesce leaves what the Engine Status write leaves, but for the engine and, where it
boots again, its loads. -/
theorem completeQuiesce_spec (s : State) (fate : Fate) :
    (s.engine.run = false → (s.completeQuiesce fate).engine.state = .off) ∧
    (s.engine.run = true → (s.completeQuiesce fate).engine.state = .booting ∨
      (s.completeQuiesce fate).engine.state = .anchorFault) ∧
    (s.completeQuiesce fate).port.writes = (s.issueEngineStatus .off fate).port.writes ∧
    (s.completeQuiesce fate).memory = (s.issueEngineStatus .off fate).memory ∧
    (s.completeQuiesce fate).now = (s.issueEngineStatus .off fate).now ∧
    (s.completeQuiesce fate).lines = (s.issueEngineStatus .off fate).lines ∧
    ∀ b, (s.completeQuiesce fate).seqOf b = (s.issueEngineStatus .off fate).seqOf b := by
  have engine : (s.issueEngineStatus .off fate).engine = s.engine :=
    (grown_issueEngineStatus s .off fate).engine_eq
  rw [completeQuiesce_eq, engine]
  generalize s.issueEngineStatus .off fate = u
  cases s.engine.run with
  | false => exact ⟨fun _ => rfl, nofun, rfl, rfl, rfl, rfl, fun _ => rfl⟩
  | true =>
    rw [if_pos rfl]
    obtain ⟨_, _, now, memory, _, _, writes, lines⟩ := enterBooting_always u.turnOff
    refine ⟨nofun, fun _ => ?_, writes, memory, now, lines, seqOf_enterBooting _⟩
    by_cases aligned : u.turnOff.engine.anchorWritten.toNat % 64 = 0
    · exact .inl (congrArg Engine.state (enterBooting_aligned aligned).1)
    · exact .inr (congrArg Engine.state (enterBooting_misaligned aligned).1)

/-- Settles O14. -/
theorem quiesceEndsInOffOrBooting : Obligations.QuiesceEndsInOffOrBooting := by
  intro fate s released done
  obtain ⟨off, booting, writes, memory, now, lines, seq⟩ := completeQuiesce_spec s fate
  rw [issueEngineStatus_quiet (idle_of_quiesceDone done)] at writes memory now lines seq
  have length := length_engineStatusBytes .off s.sweep.next
  refine ⟨_, exec_quiesceComplete fate released done, off, booting, writes, fun ok n hn => ?_,
    fun a outside => ?_, now, lines, seq⟩
  · rw [memory, ok]
    refine (read_writeBytes _ _ _ n (by omega) (by omega)).trans ?_
    exact getElem_byteAt (by omega)
  · rw [memory]
    cases fate with
    | ok =>
      refine read_writeBytes_outside _ _ _ a fun n hn => ?_
      exact outside.resolve_left (by simp) n (by omega)
    | errorLanded => rfl
    | errorLost => rfl

/-! ### A tick (R50, R60, R117, R184) -/

theorem step_idle {s : State} (front : s.pending = []) (quiet : s.dueCommands = []) :
    step s = .next s.advanceTick := by
  unfold step idle
  rw [front]
  simp [State.pick, quiet, pickFrom]

/-- Nothing due: no counter stands at its advance and no sample is due. -/
theorem quiet_spec {s : State} (released : s.resetHeld = false) (quiet : s.dueCommands = []) :
    (∀ b, s.advanceDue b = none) ∧
      ∀ l, (s.line l).loaded = true → (s.line l).sampleDue = false := by
  simp only [State.dueCommands, released, Bool.false_eq_true, if_false, State.dueMoves,
    List.append_eq_nil_iff, List.flatMap_eq_nil_iff] at quiet
  obtain ⟨⟨⟨⟨⟨_, lines⟩, counters⟩, _⟩, _⟩, _⟩ := quiet
  refine ⟨fun b => ?_, fun l loaded => ?_⟩
  · have none_ := counters b (mem_four b)
    unfold State.dueCounter at none_
    split at none_
    · assumption
    · split at none_ <;> cases none_
  · have none_ := lines l (mem_eight l)
    by_contra due
    simp [State.dueLine, loaded, due] at none_

theorem advanceTick_reset {s : State} (h : s.resetHeld = true) : s.advanceTick = s.shiftPins := by
  simp [State.advanceTick, h]

theorem bank_advanceTick {s : State} (h : s.resetHeld = false) (b : BankNo) :
    s.advanceTick.bank b = (s.bank b).tick := by
  simp [State.advanceTick, h, State.bank, Quad.get_map]

theorem line_advanceTick {s : State} (h : s.resetHeld = false) (l : LineNo) :
    s.advanceTick.line l = (s.line l).tick := by
  simp [State.advanceTick, h, State.line, Oct.get_map]

theorem delayInc_eq (n : Nat) : delayInc n = min (n + 1) 1023 := by
  unfold delayInc
  split <;> omega

theorem pins_tick (k : Bank) (c : ChanNo) (partner : Bool) :
    (k.tick.wave.pins.get c).pin partner = ((k.wave.pins.get c).pin partner).tick := by
  have pins : k.tick.wave.pins = k.wave.pins.map fun p => ⟨p.primary.tick, p.partner.tick⟩ := by
    unfold Bank.tick
    dsimp only
    repeat' split
    all_goals rfl
  rw [pins, Quad.get_map]
  cases partner <;> rfl

/-- A tick leaves the counter, and moves the phase of a running bank alone. -/
theorem wave_tick (k : Bank) : k.tick.wave.counter = k.wave.counter ∧
    k.tick.wave.dir = k.wave.dir ∧ k.tick.wave.lastRef = k.wave.lastRef ∧
    (∀ v, k.seq.plan.isRunning = true → k.seq.live = some v →
      k.tick.wave.phase = (if k.wave.phase + 1 < v.divider then k.wave.phase + 1 else 0) ∧
      (k.wave.advanceDue = false →
        (k.tick.wave.advanceDue = true ↔ v.divider ≤ k.wave.phase + 1))) ∧
    (k.seq.plan.isRunning = false → k.tick.wave.phase = k.wave.phase ∧
      k.tick.wave.advanceDue = k.wave.advanceDue) := by
  cases live : k.seq.live with
  | none => simp [Bank.tick, live]
  | some v =>
    cases running : k.seq.plan.isRunning with
    | false => simp [Bank.tick, live, running]
    | true =>
      by_cases within : k.wave.phase + 1 < v.divider
      · simp [Bank.tick, live, running, within]
        exact fun notDue => ⟨fun due => absurd due (by simp [notDue]), fun late => by omega⟩
      · simp [Bank.tick, live, running, within]
        omega

theorem line_tick {x : Line} (loaded : x.loaded = true) (fresh : x.sampleDue = false) :
    x.tick = { x with
      phase := if x.phase + 1 < x.cfg.divider then x.phase + 1 else 0
      sampleDue := decide (x.cfg.divider ≤ x.phase + 1) } := by
  unfold Line.tick
  rw [if_pos loaded]
  by_cases within : x.phase + 1 < x.cfg.divider
  · rw [if_pos within, if_pos within, decide_eq_false (by omega), ← fresh]
  · rw [if_neg within, if_neg within, decide_eq_true (by omega)]

theorem line_tick_unloaded {x : Line} (unloaded : x.loaded = false) : x.tick = x := by
  simp [Line.tick, unloaded]

/-- What a tick leaves alone, in reset or out of it. -/
theorem advanceTick_keeps (s : State) :
    s.advanceTick.memory = s.memory ∧ s.advanceTick.engine = s.engine ∧
    s.advanceTick.cause = s.cause ∧ s.advanceTick.causeEnable = s.causeEnable ∧
    s.advanceTick.tickHi = s.tickHi ∧ s.advanceTick.sweep = s.sweep ∧
    s.advanceTick.journals = s.journals ∧ s.advanceTick.window = s.window ∧
    s.advanceTick.port.reads = s.port.reads ∧ s.advanceTick.port.writes = s.port.writes ∧
    s.advanceTick.pinsAgo2 = s.pinsAgo1 ∧ s.advanceTick.pinsAgo1 = s.pinsNow := by
  unfold State.advanceTick
  split <;> exact ⟨rfl, rfl, rfl, rfl, rfl, rfl, rfl, rfl, rfl, rfl, rfl, rfl⟩

theorem now_advanceTick (s : State) : s.advanceTick.now =
    if s.resetHeld = false ∧ (s.engine.state = .on ∨ s.engine.state = .quiescing)
      then s.now + 1#48 else s.now := by
  cases released : s.resetHeld with
  | true => simp [advanceTick_reset released, State.shiftPins]
  | false => simp [State.advanceTick, released, State.tickNow, State.reporting]

/-- The pins over a tick: level and drive kept, the ON-delay counted. -/
theorem pins_advanceTick (s : State) (b : BankNo) (c : ChanNo) (partner : Bool) :
    ((s.advanceTick.bank b).wave.pins.get c).pin partner =
      if s.resetHeld then ((s.bank b).wave.pins.get c).pin partner
      else (((s.bank b).wave.pins.get c).pin partner).tick := by
  cases released : s.resetHeld with
  | true => rw [advanceTick_reset released]; rfl
  | false => rw [bank_advanceTick released, pins_tick]; rfl

/-- Settles O2. -/
theorem idleStepLetsATickPass : Obligations.IdleStepLetsATickPass := by
  intro s front quiet
  obtain ⟨memory, engine, cause, enable, hi, sweep, journals, window, reads, writes, ago2, ago1⟩ :=
    advanceTick_keeps s
  refine ⟨_, step_idle front quiet, now_advanceTick s, fun a => by rw [memory], engine, cause, enable,
    hi, sweep, journals, window, reads, writes, seqOf_advanceTick s, ago2, ago1,
    fun released b => ?_, fun released l => ?_, fun b c partner => ?_⟩
  · obtain ⟨counter, dir, lastRef, running, still⟩ := wave_tick (s.bank b)
    rw [bank_advanceTick released]
    refine ⟨counter, dir, lastRef, fun v runs live => ?_, still⟩
    obtain ⟨phase, due⟩ := running v runs live
    refine ⟨phase, due ?_⟩
    have none_ := (quiet_spec released quiet).1 b
    by_contra isDue
    simp [State.advanceDue, runs, live, isDue] at none_
  · rw [line_advanceTick released]
    exact ⟨fun loaded => line_tick loaded ((quiet_spec released quiet).2 l loaded),
      line_tick_unloaded⟩
  · rw [pins_advanceTick]
    cases released : s.resetHeld with
    | true => exact ⟨rfl, rfl, nofun⟩
    | false =>
      refine ⟨rfl, rfl, fun _ => ?_⟩
      rw [← delayInc_eq]
      rfl

end Sys2Proof.Machine
end

section
/-! SUPPORT. Time events of one part alone: a filter sample, a pin's ON-delay, the passes of the
counter; and the read that is dropped on its arrival. -/

namespace Sys2Proof.Machine

/-! ### Filter samples (R117) -/

/-- Settles O24. -/
theorem filterSampleCountsTheRun : Obligations.FilterSampleCountsTheRun :=
  fun l s released loaded due noEdge =>
    ⟨_, exec_filterSample released loaded due noEdge, line_modLine_same s l _,
      fun _ other => line_modLine_ne s _ other, ⟨rfl, rfl, rfl, rfl, rfl⟩,
      worldKept_of_outer (outer_takeSample s l) (.refl s)⟩

/-! ### The ON-delay (R60) -/

theorem pin_turnOn_same (p : PinPair) (partner : Bool) :
    (p.turnOn partner).pin partner = { p.pin partner with drive := .on } := by
  cases partner <;> rfl

theorem pin_turnOn_other (p : PinPair) (partner : Bool) :
    (p.turnOn partner).pin (!partner) = p.pin (!partner) := by
  cases partner <;> rfl

theorem onDelayDue_of {s : State} {b : BankNo} {c : ChanNo} {partner : Bool}
    (quiet : s.dueMoves = []) (done : (s.bank b).onDelayDone c partner = true) :
    s.onDelayDue b c partner = true := by
  simp [State.onDelayDue, quiet, done]

/-- Settles O31: the drive of the one pin is set, and nothing else. -/
theorem onDelayDrivesThePinOn : Obligations.OnDelayDrivesThePinOn := by
  intro b c partner s released quiet started desired off reached
  have done : (s.bank b).onDelayDone c partner = true := by
    cases partner <;> simp_all [Bank.onDelayDone, ChanSetting.deadTime]
  refine ⟨_, exec_onDelayReached released (onDelayDue_of quiet done), rfl,
    fun d other => bank_modWave_ne s _ other, ?_, ?_, ?_, ?_⟩
  · rw [bank_modWave_same]
  · intro d other
    rw [bank_modWave_same]
    exact Quad.get_set_ne _ _ other
  · rw [bank_modWave_same]
    dsimp only
    rw [Quad.get_set_same]
    exact pin_turnOn_other _ partner
  · rw [bank_modWave_same]
    dsimp only
    rw [Quad.get_set_same]
    exact pin_turnOn_same _ partner

/-! ### The passes of the counter (R50) -/

section
variable {P : Nat}

theorem countsFrom_succ {mode : CountMode} {n count : Nat} {dir : Direction}
    (h : countsFrom mode P n = some (count, dir)) :
    countsFrom mode P (n + 1) = nextCount mode P count dir := by
  rw [countsFrom, h]
  rfl

theorem countsFrom_ramp {n : Nat} (h : n < P) : countsFrom .ramp P n = some (n, .up) := by
  induction n with
  | zero => rfl
  | succ n ih => rw [countsFrom_succ (ih (by omega)), nextCount, if_pos h]

theorem countsFrom_rise {n : Nat} (h : n < P) : countsFrom .triangle P n = some (n, .up) := by
  induction n with
  | zero => rfl
  | succ n ih => rw [countsFrom_succ (ih (by omega)), nextCount, if_pos h]

theorem countsFrom_fall (hP : 2 ≤ P) {n : Nat} (h : n < P) :
    countsFrom .triangle P (P + n) = some (P - n, .down) := by
  induction n with
  | zero =>
    obtain ⟨m, rfl⟩ : ∃ m, P = m + 1 := ⟨P - 1, by omega⟩
    rw [Nat.add_zero, countsFrom_succ (countsFrom_rise (Nat.lt_succ_self m)), nextCount,
      if_neg (Nat.lt_irrefl _)]
    rfl
  | succ n ih =>
    rw [← Nat.add_assoc, countsFrom_succ (ih (by omega)), nextCount, if_pos (by omega), Nat.sub_sub]

end

/-- Settles O27: the values of a pass by induction on the advances, its end by the last of them. -/
theorem passHasItsLength : Obligations.PassHasItsLength := by
  intro P hP
  refine ⟨fun n => countsFrom_ramp, ?_, fun n => countsFrom_rise, fun n => countsFrom_fall hP, ?_⟩
  · obtain ⟨m, rfl⟩ : ∃ m, P = m + 1 := ⟨P - 1, by omega⟩
    rw [countsFrom_succ (countsFrom_ramp (Nat.lt_succ_self m)), nextCount,
      if_neg (Nat.lt_irrefl _)]
  · have last := countsFrom_succ (countsFrom_fall hP (n := P - 1) (by omega))
    rw [show P + (P - 1) + 1 = 2 * P by omega] at last
    rw [last, nextCount, if_neg (by omega)]

/-! ### A discarded read (R109) -/

/-- The command of the arrival of a read, by its owner. -/
def ReadOwner.arrival (place : Fin 4) : ReadOwner → Instr
  | .header _ => .headerRead place
  | .entry _ => .entryRead place
  | .link _ => .linkRead place
  | .descriptor _ => .descriptorLoad place
  | .reread _ => .consumeReread place
  | .bankRecord _ => .bankRecordRead place
  | .lineRecord _ => .lineRecordRead place
  | .journalRecord _ => .journalRecordRead place
  | .boot => .bootHeaderRead place

theorem arrival_mem (place : Fin 4) (o : ReadOwner) :
    o.arrival place ∈ [Instr.headerRead place, .entryRead place, .linkRead place,
      .descriptorLoad place, .consumeReread place, .bankRecordRead place, .lineRecordRead place,
      .journalRecordRead place, .bootHeaderRead place] := by
  cases o <;> simp [ReadOwner.arrival]

/-- Settles O33: whichever command the owner of the read calls for, a discarded one is dropped. -/
theorem discardedReadIsDropped : Obligations.DiscardedReadIsDropped := by
  intro place r s released here discarded
  refine ⟨r.owner.arrival place, arrival_mem place r.owner, ?_⟩
  obtain ⟨owner, _, split, second, answer⟩ := r
  cases owner with
  | header b => exact arrives_discarded (g := State.toFetch b _) released here discarded rfl
  | entry b => exact arrives_discarded (g := State.toFetch b _) released here discarded rfl
  | link b => exact arrives_discarded (g := fun s => s.linkArrived b _) released here discarded rfl
  | descriptor n =>
    exact arrives_discarded (g := fun s => s.loadArrived n _) released here discarded rfl
  | reread j =>
    exact arrives_discarded (g := fun s => s.rereadArrived j _) released here discarded rfl
  | bankRecord b =>
    exact arrives_discarded (g := fun s => s.bankRecordArrived b _) released here discarded rfl
  | lineRecord l =>
    exact arrives_discarded (g := fun s => s.lineRecordArrived l _) released here discarded rfl
  | journalRecord j =>
    exact arrives_discarded (g := fun s => s.journalRecordArrived j _) released here discarded rfl
  | boot => exact arrives_discarded (g := fun s => s.bootArrived _) released here discarded rfl

end Sys2Proof.Machine
end

section
/-! SUPPORT. The sweep requests: what each command does with the head of the queue, and the
obligations about the requests that need no bank, journal or gate (R168 to R172). -/

namespace Sys2Proof.Machine

/-! ### The command of a request at the head of the queue -/

/-- The command of a request, action by action. -/
theorem takeCommand_cases {w : Word} {P : Instr → Prop}
    (mark : action w = actMark → P .mark)
    (bankStart : action w = actBankStart → P .bankStart)
    (bankStop : action w = actBankStop → P .bankStop)
    (bankLook : action w = actBankLook → P .bankLook)
    (bankRearm : action w = actBankRearm → P .bankRearm)
    (bankTrip : action w = actBankTrip → P .bankTrip)
    (bankAck : action w = actBankAck → P .bankAck)
    (journalOpen : action w = actJournalOpen → P .journalOpen)
    (journalClose : action w = actJournalClose → P .journalClose)
    (journalLook : action w = actJournalLook → P .journalLook)
    (lineLoad : action w = actLineLoad → P .lineLoad)
    (windowsFlush : action w = actWindowsFlush → P .windowsFlush)
    (unknownAction : action w ∉ actions → P .unknownAction) : P (takeCommand w) := by
  by_cases known : action w ∈ actions
  · simp only [actions, List.mem_cons, List.not_mem_nil, or_false] at known
    unfold takeCommand
    obtain ha | ha | ha | ha | ha | ha | ha | ha | ha | ha | ha | ha := known
    · rw [ha]; exact mark ha
    · rw [ha]; exact bankStart ha
    · rw [ha]; exact bankStop ha
    · rw [ha]; exact bankLook ha
    · rw [ha]; exact bankRearm ha
    · rw [ha]; exact bankTrip ha
    · rw [ha]; exact bankAck ha
    · rw [ha]; exact journalOpen ha
    · rw [ha]; exact journalClose ha
    · rw [ha]; exact journalLook ha
    · rw [ha]; exact lineLoad ha
    · rw [ha]; exact windowsFlush ha
  · have unknown : takeCommand w = .unknownAction := by
      simp only [actions, List.mem_cons, List.not_mem_nil, or_false, not_or] at known
      simp only [takeCommand, known, if_false]
    exact unknown ▸ unknownAction known

section
variable {w : Word} {rest : List Word} {s : State} (h : s.Heads w rest)
include h

theorem Heads.taking {kind : Word → Bool} (f : Word → State → State) (hk : kind w = true) :
    unlessReset s (fun s => s.taking kind f) = .next (s.concludeLight (f w (s.takeHead w))) := by
  obtain ⟨released, idle, queue⟩ := h
  exact taking_head released (takeable_head idle queue) hk

theorem Heads.takingFull {kind : Word → Bool} (f : Word → State → State) (hk : kind w = true) :
    unlessReset s (fun s => s.takingFull kind f) = .next (s.conclude (f w (s.takeHead w))) := by
  obtain ⟨released, idle, queue⟩ := h
  exact takingFull_head released (takeable_head idle queue) hk

theorem exec_mark (ha : action w = actMark) : exec .mark s =
    .next (s.concludeLight ((s.takeHead w).answer .done .nothing)) :=
  Heads.taking h _ (decide_eq_true ha)

theorem exec_bankStart (ha : action w = actBankStart) : exec .bankStart s =
    .next (s.concludeLight (State.forBank w (s.takeHead w) (s.takeHead w).bankStart)) :=
  Heads.taking h (fun w s => State.forBank w s s.bankStart) (decide_eq_true ha)

theorem exec_bankStop (ha : action w = actBankStop) : exec .bankStop s =
    .next (s.conclude (State.forBank w (s.takeHead w) fun b =>
      if argument w = argNow then (s.takeHead w).bankStop true b
      else if argument w = argAtBoundary then (s.takeHead w).bankStop false b
      else (s.takeHead w).answer .refusedConfig .nothing)) :=
  Heads.takingFull h (fun w s => State.forBank w s fun b =>
      if argument w = argNow then s.bankStop true b
      else if argument w = argAtBoundary then s.bankStop false b
      else s.answer .refusedConfig .nothing) (decide_eq_true ha)

theorem exec_bankLook (ha : action w = actBankLook) : exec .bankLook s =
    .next (s.conclude (State.forBank w (s.takeHead w) (s.takeHead w).bankLook)) :=
  Heads.takingFull h (fun w s => State.forBank w s s.bankLook) (decide_eq_true ha)

theorem exec_bankRearm (ha : action w = actBankRearm) : exec .bankRearm s =
    .next (s.concludeLight (State.forBank w (s.takeHead w) (s.takeHead w).bankRearm)) :=
  Heads.taking h (fun w s => State.forBank w s s.bankRearm) (decide_eq_true ha)

theorem exec_bankTrip (ha : action w = actBankTrip) : exec .bankTrip s =
    .next (s.concludeLight (State.forBank w (s.takeHead w) (s.takeHead w).bankTrip)) :=
  Heads.taking h (fun w s => State.forBank w s s.bankTrip) (decide_eq_true ha)

theorem exec_bankAck (ha : action w = actBankAck) : exec .bankAck s =
    .next (s.concludeLight (State.forBank w (s.takeHead w) (s.takeHead w).bankAck)) :=
  Heads.taking h (fun w s => State.forBank w s s.bankAck) (decide_eq_true ha)

theorem exec_journalOpen (ha : action w = actJournalOpen) : exec .journalOpen s =
    .next (s.concludeLight (State.forJournal w (s.takeHead w) (s.takeHead w).journalOpen)) :=
  Heads.taking h (fun w s => State.forJournal w s s.journalOpen) (decide_eq_true ha)

theorem exec_journalClose (ha : action w = actJournalClose) : exec .journalClose s =
    .next (s.conclude (State.forJournal w (s.takeHead w) (s.takeHead w).journalClose)) :=
  Heads.takingFull h (fun w s => State.forJournal w s s.journalClose) (decide_eq_true ha)

theorem exec_journalLook (ha : action w = actJournalLook) : exec .journalLook s =
    .next (s.concludeLight (State.forJournal w (s.takeHead w) (s.takeHead w).journalLook)) :=
  Heads.taking h (fun w s => State.forJournal w s s.journalLook) (decide_eq_true ha)

theorem exec_lineLoad (ha : action w = actLineLoad) : exec .lineLoad s =
    .next (s.concludeLight (State.forLine w (s.takeHead w) fun l =>
      (s.takeHead w).readRecord (.lineRecord l))) :=
  Heads.taking h (fun w s => State.forLine w s fun l => s.readRecord (.lineRecord l))
    (decide_eq_true ha)

theorem exec_windowsFlush (ha : action w = actWindowsFlush) : exec .windowsFlush s =
    .next (s.concludeLight ((s.takeHead w).flushWindows.answer .done .nothing)) :=
  Heads.taking h (fun _ s => s.flushWindows.answer .done .nothing) (decide_eq_true ha)

theorem exec_unknownAction (ha : action w ∉ actions) : exec .unknownAction s =
    .next (s.concludeLight ((s.takeHead w).answer .unknownAction .nothing)) :=
  Heads.taking h (fun _ s => s.answer .unknownAction .nothing) (by simpa using ha)

/-! ### What every request keeps -/

theorem queue_takeHead : (s.takeHead w).sweep.queue = rest := by
  obtain ⟨-, -, queue⟩ := h
  simp [State.takeHead, State.modSweep, queue]

/-- Whatever a request does, outside its blocks its command has only taken the head. -/
theorem outer_takeCommand :
    Answers (takeCommand w) s fun t => t.outer = (s.takeHead w).outer := by
  have light : ∀ {c : Instr} {t : State}, exec c s = .next (s.concludeLight t) →
      t.outer = (s.takeHead w).outer → Answers c s fun t => t.outer = (s.takeHead w).outer :=
    fun he ho => ⟨_, he, (outer_concludeLight s _).trans ho⟩
  have full : ∀ {c : Instr} {t : State}, exec c s = .next (s.conclude t) →
      t.outer = (s.takeHead w).outer → Answers c s fun t => t.outer = (s.takeHead w).outer :=
    fun he ho => ⟨_, he, (outer_conclude s _).trans ho⟩
  refine takeCommand_cases (P := fun c => Answers c s fun t => t.outer = (s.takeHead w).outer)
    (mark := fun ha => light (exec_mark h ha) (outer_answer _ _ _))
    (bankStart := fun ha => light (exec_bankStart h ha) (outer_forBank (outer_bankStart _)))
    (bankStop := fun ha => full (exec_bankStop h ha) (outer_forBank fun b => ?_))
    (bankLook := fun ha => full (exec_bankLook h ha) (outer_forBank (outer_bankLook _)))
    (bankRearm := fun ha => light (exec_bankRearm h ha) (outer_forBank (outer_bankRearm _)))
    (bankTrip := fun ha => light (exec_bankTrip h ha) (outer_forBank (outer_bankTrip _)))
    (bankAck := fun ha => light (exec_bankAck h ha) (outer_forBank (outer_bankAck _)))
    (journalOpen := fun ha => light (exec_journalOpen h ha)
      (outer_forJournal (outer_journalOpen _)))
    (journalClose := fun ha => full (exec_journalClose h ha)
      (outer_forJournal (outer_journalClose _)))
    (journalLook := fun ha => light (exec_journalLook h ha)
      (outer_forJournal (outer_journalLook _)))
    (lineLoad := fun ha => light (exec_lineLoad h ha)
      (outer_forLine fun _ => outer_readRecord _ _))
    (windowsFlush := fun ha => light (exec_windowsFlush h ha)
      ((outer_answer _ _ _).trans (outer_flushWindows _)))
    (unknownAction := fun ha => light (exec_unknownAction h ha) (outer_answer _ _ _))
  repeat' split
  · exact outer_bankStop _ true b
  · exact outer_bankStop _ false b
  · exact outer_answer _ _ _

end

/-! ### Answers that touch no block -/

/-- The parts of the state that hold the blocks a request acts on. -/
def State.blocks (s : State) := (s.banks, s.lines, s.journals, s.window, s.cause)

theorem blocksKept_of_blocks {s t : State} (h : t.blocks = s.blocks) : BlocksKept s t where
  banks := congrArg Prod.fst h
  lines := congrArg (fun x => x.2.1) h
  journals := congrArg (fun x => x.2.2.1) h
  window := congrArg (fun x => x.2.2.2.1) h
  cause := congrArg (fun x => x.2.2.2.2) h

theorem blocks_concludeLight (before s : State) :
    (before.concludeLight s).blocks = s.blocks := by
  obtain ⟨q, c, d, e, -⟩ := concludeLight_eq before s
  rw [e]; rfl

theorem bank_concludeLight (before s : State) (b : BankNo) :
    (before.concludeLight s).bank b = s.bank b :=
  congrArg (fun x => x.1.get b) (blocks_concludeLight before s)

theorem line_concludeLight (before s : State) (l : LineNo) :
    (before.concludeLight s).line l = s.line l :=
  congrArg (fun x => x.2.1.get l) (blocks_concludeLight before s)

theorem journal_concludeLight (before s : State) (j : JournalNo) :
    (before.concludeLight s).journal j = s.journal j :=
  congrArg (fun x => x.2.2.1.get j) (blocks_concludeLight before s)

theorem class4_concludeLight (before s : State) :
    (before.concludeLight s).port.class4 = s.port.class4 := by
  obtain ⟨q, c, d, e, -⟩ := concludeLight_eq before s
  rw [e]

theorem answered_takeHead (s : State) (w : Word) (r : Result) (x : WaitFor) :
    ((s.takeHead w).answer r x).Answered w r x := exec_answer takeHead_exec

theorem blocks_answer (s : State) (w : Word) (r : Result) (x : WaitFor) :
    ((s.takeHead w).answer r x).blocks = s.blocks := rfl

/-- An answer that waits for nothing is offered as a reply on the same tick (R172). -/
theorem replying_concludeLight {before s : State} {w : Word} {r : Result}
    (h : s.Answered w r .nothing) : (before.concludeLight s).Replying w r :=
  (reply_concludeLight h).1 rfl

theorem replying_answer (s : State) (w : Word) (r : Result) :
    (s.concludeLight ((s.takeHead w).answer r .nothing)).Replying w r ∧
      BlocksKept s (s.concludeLight ((s.takeHead w).answer r .nothing)) :=
  ⟨replying_concludeLight (answered_takeHead s w r _),
    blocksKept_of_blocks (blocks_concludeLight s _)⟩

theorem forBank_none {w : Word} {s : State} {f : BankNo → State} (h : 3 < (target w).toNat) :
    State.forBank w s f = s.answer .refusedTarget .nothing := by
  unfold State.forBank bankNoOf; rw [dif_neg (by omega)]

theorem forJournal_none {w : Word} {s : State} {f : JournalNo → State}
    (h : 7 < (target w).toNat) :
    State.forJournal w s f = s.answer .refusedTarget .nothing := by
  unfold State.forJournal lineNoOf; rw [dif_neg (by omega)]

theorem forLine_none {w : Word} {s : State} {f : LineNo → State} (h : 7 < (target w).toNat) :
    State.forLine w s f = s.answer .refusedTarget .nothing := by
  unfold State.forLine lineNoOf; rw [dif_neg (by omega)]

section
variable {w : Word} {rest : List Word} {s : State} (h : s.Heads w rest)
include h

theorem refusesTarget_light
    (bad : (action w ∈ [actBankStart, actBankRearm, actBankTrip, actBankAck] ∧
        3 < (target w).toNat) ∨
      (action w ∈ [actJournalOpen, actJournalLook, actLineLoad] ∧ 7 < (target w).toNat)) :
    exec (takeCommand w) s =
      .next (s.concludeLight ((s.takeHead w).answer .refusedTarget .nothing)) := by
  simp only [List.mem_cons, List.not_mem_nil, or_false] at bad
  unfold takeCommand
  obtain ⟨ha | ha | ha | ha, high⟩ | ⟨ha | ha | ha, high⟩ := bad
  · rw [ha]; exact (exec_bankStart h ha).trans (by rw [forBank_none high])
  · rw [ha]; exact (exec_bankRearm h ha).trans (by rw [forBank_none high])
  · rw [ha]; exact (exec_bankTrip h ha).trans (by rw [forBank_none high])
  · rw [ha]; exact (exec_bankAck h ha).trans (by rw [forBank_none high])
  · rw [ha]; exact (exec_journalOpen h ha).trans (by rw [forJournal_none high])
  · rw [ha]; exact (exec_journalLook h ha).trans (by rw [forJournal_none high])
  · rw [ha]; exact (exec_lineLoad h ha).trans (by rw [forLine_none high])

theorem refusesTarget_full
    (bad : (action w ∈ [actBankStop, actBankLook] ∧ 3 < (target w).toNat) ∨
      (action w = actJournalClose ∧ 7 < (target w).toNat)) :
    exec (takeCommand w) s =
      .next (s.conclude ((s.takeHead w).answer .refusedTarget .nothing)) := by
  simp only [List.mem_cons, List.not_mem_nil, or_false] at bad
  unfold takeCommand
  obtain ⟨ha | ha, high⟩ | ⟨ha, high⟩ := bad
  · rw [ha]; exact (exec_bankStop h ha).trans (by rw [forBank_none high])
  · rw [ha]; exact (exec_bankLook h ha).trans (by rw [forBank_none high])
  · rw [ha]; exact (exec_journalClose h ha).trans (by rw [forJournal_none high])

end

/-- Settles O15: outside the blocks the command has only taken the head; a target too high is refused
before any block is asked. -/
theorem takingRemovesTheHead : Obligations.TakingRemovesTheHead := by
  intro w rest s h
  refine ⟨?_, fun bad => ⟨_, refusesTarget_light h bad, replying_answer s w _⟩,
    fun bad => ⟨_, refusesTarget_full h bad, answered_takeHead s w _ _, blocksKept_of_blocks rfl⟩⟩
  obtain ⟨t, ht, ho⟩ := outer_takeCommand h
  have queue : t.sweep.queue = (s.takeHead w).sweep.queue :=
    congrArg (fun x => x.2.2.2.2.2.2.2.2.1) ho
  have next : t.sweep.next = (s.takeHead w).sweep.next :=
    congrArg (fun x => x.2.2.2.2.2.2.2.2.2.1) ho
  have exec : t.sweep.exec.isSome = (s.takeHead w).sweep.exec.isSome :=
    congrArg (fun x => x.2.2.2.2.2.2.2.2.2.2.1) ho
  exact ⟨t, ht, queue.trans (queue_takeHead h), next, exec,
    worldKept_of_outer ho ((WorldKept.refl s).sweepPort _ _ _)⟩

/-- Settles O16. -/
theorem fenceFlushAndUnknownAction : Obligations.FenceFlushAndUnknownAction := by
  intro w rest s h
  refine ⟨fun ha => ⟨_, exec_mark h ha, replying_answer s w _⟩,
    fun ha => ⟨_, exec_unknownAction h ha, replying_answer s w _⟩,
    fun ha => ⟨_, exec_windowsFlush h ha, replying_concludeLight (exec_answer takeHead_exec), ?_⟩⟩
  obtain ⟨q, c, d, e, -⟩ :=
    concludeLight_eq s ((s.takeHead w).flushWindows.answer .done .nothing)
  rw [e]
  exact ⟨rfl, rfl, rfl, rfl, rfl, rfl, rfl, rfl⟩

/-! ### The requests that read a record -/

/-- A record read is requested and nothing else; no bank has changed, no answer is due. -/
theorem concludeLight_readRecord (s : State) (w : Word) (o : ReadOwner) :
    s.concludeLight ((s.takeHead w).readRecord o) = (s.takeHead w).readRecord o := by
  rw [concludeLight_unanswered fun _ _ _ => ?_]
  · exact noteStatuses_of_banks rfl
  · show some (_ : Executing) ≠ _
    simp

theorem readRecord_spec (s : State) (w : Word) (o : ReadOwner) :
    BlocksKept s (s.concludeLight ((s.takeHead w).readRecord o)) ∧
      (s.concludeLight ((s.takeHead w).readRecord o)).port.class4 = some o ∧
      (s.concludeLight ((s.takeHead w).readRecord o)).sweep.exec = some ⟨w, .record⟩ := by
  rw [concludeLight_readRecord]
  exact ⟨blocksKept_of_blocks rfl, rfl, rfl⟩

theorem refusedState_spec (s : State) (w : Word) (r : Result) :
    BlocksKept s (s.concludeLight ((s.takeHead w).answer r .nothing)) ∧
      (s.concludeLight ((s.takeHead w).answer r .nothing)).Replying w r ∧
      (s.concludeLight ((s.takeHead w).answer r .nothing)).port.class4 = s.port.class4 := by
  obtain ⟨reply, kept⟩ := replying_answer s w r
  exact ⟨kept, reply, class4_concludeLight s _⟩

theorem startable_iff (k : Bank) :
    k.startable = true ↔ k.seq.plan = .dormant ∧ k.faults.report = none := by
  simp [Bank.startable]

theorem bankStart_startable {s : State} {b : BankNo} (h : (s.bank b).startable = true) :
    s.bankStart b = s.readRecord (.bankRecord b) := if_pos h

theorem bankStart_refused {s : State} {b : BankNo} (h : ¬ (s.bank b).startable = true) :
    s.bankStart b = s.answer .refusedState .nothing := if_neg h

/-- Settles O17. -/
theorem recordReadsAreRequested : Obligations.RecordReadsAreRequested := by
  intro w rest s h
  refine ⟨fun b ha hb => ?_, fun j ha hj => ?_, fun l ha hl => ?_⟩
  · refine ⟨_, exec_bankStart h ha, ?_⟩
    rw [forBank_some hb]
    by_cases may : ((s.takeHead w).bank b).startable = true
    · rw [bankStart_startable may]
      obtain ⟨kept, read, phase⟩ := readRecord_spec s w (.bankRecord b)
      obtain ⟨dormant, empty⟩ := (startable_iff _).1 may
      refine ⟨kept, fun _ _ => ⟨read, phase⟩, fun h => ?_⟩
      exact absurd h (not_or.2 ⟨not_not.2 dormant, not_not.2 empty⟩)
    · rw [bankStart_refused may]
      obtain ⟨kept, reply, read⟩ := refusedState_spec s w .refusedState
      exact ⟨kept, fun dormant empty => absurd ((startable_iff _).2 ⟨dormant, empty⟩) may,
        fun _ => ⟨reply, read⟩⟩
  · refine ⟨_, exec_journalOpen h ha, ?_⟩
    rw [forJournal_some hj]
    by_cases closed : (s.journal j).state = .closed
    · rw [show (s.takeHead w).journalOpen j = _ from if_pos closed]
      obtain ⟨kept, read, phase⟩ := readRecord_spec s w (.journalRecord j)
      exact ⟨kept, fun _ => ⟨read, phase⟩, fun h => absurd closed h⟩
    · rw [show (s.takeHead w).journalOpen j = _ from if_neg closed]
      obtain ⟨kept, reply, read⟩ := refusedState_spec s w .refusedState
      exact ⟨kept, fun h => absurd h closed, fun _ => ⟨reply, read⟩⟩
  · refine ⟨_, exec_lineLoad h ha, ?_⟩
    rw [forLine_some hl]
    exact readRecord_spec s w _

end Sys2Proof.Machine
end

section
/-! SUPPORT. The requests for one bank's gate and report slot: BANK_REARM, BANK_TRIP and BANK_ACK
(R44, R84 to R86, R110). -/

namespace Sys2Proof.Machine

/-! ### The end of a request that has moved one bank -/

/-- A bank that Bank Status no longer shows as it was has its status requested (R47, R94, R112). -/
theorem bankReported_concludeLight {s t : State} {b : BankNo}
    (engine : t.engine = s.engine) (h : sameStatus (s.bank b) (t.bank b) = false) :
    s.BankReported (s.concludeLight t) b := by
  intro reporting
  refine status_concludeLight ?_ h
  unfold State.reporting
  rw [engine]
  obtain h | h := reporting <;> rw [h] <;> rfl

theorem bankReported_of_outer {s t : State} {w : Word} {b : BankNo}
    (outer : t.outer = (s.takeHead w).outer) (h : sameStatus (s.bank b) (t.bank b) = false) :
    s.BankReported (s.concludeLight t) b :=
  bankReported_concludeLight ((engine_of_outer outer).trans rfl) h

theorem sameStatus_of_tripped {k l : Bank} (h : l.gate.tripped ≠ k.gate.tripped) :
    sameStatus k l = false := by
  simp [sameStatus, Ne.symm h]

theorem sameStatus_of_rearmPending {k l : Bank} (h : l.gate.rearmPending ≠ k.gate.rearmPending) :
    sameStatus k l = false := by
  simp [sameStatus, Ne.symm h]

theorem sameStatus_of_plan {k l : Bank} (h : l.seq.plan ≠ k.seq.plan) :
    sameStatus k l = false := by
  simp [sameStatus, Ne.symm h]

theorem sameStatus_of_report {k l : Bank} (h : l.faults.report ≠ k.faults.report) :
    sameStatus k l = false := by
  simp [sameStatus, Ne.symm h]

theorem capture_concludeLight (before s : State) :
    (before.concludeLight s).capture = s.capture := by
  obtain ⟨lines, journals⟩ := ends_concludeLight before s
  exact Prod.ext lines journals

theorem cause_concludeLight (before s : State) : (before.concludeLight s).cause = s.cause :=
  congrArg (fun x => x.2.2.2.2) (blocks_concludeLight before s)

theorem lines_of_capture {s t : State} (h : t.capture = s.capture) : t.lines = s.lines :=
  congrArg Prod.fst h

theorem journals_of_capture {s t : State} (h : t.capture = s.capture) : t.journals = s.journals :=
  congrArg Prod.snd h

@[simp] theorem bank_answer (s : State) (r : Result) (x : WaitFor) (b : BankNo) :
    (s.answer r x).bank b = s.bank b := rfl

@[simp] theorem bank_takeHead (s : State) (w : Word) (b : BankNo) :
    (s.takeHead w).bank b = s.bank b := rfl

/-! ### A gate that reopens without a trip -/

/-- A TRIPPED gate, judged afresh, sets no cause (R82). -/
theorem cause_judgeGate_tripped {s : State} {b : BankNo} (h : (s.bank b).gate.tripped = true) :
    (s.judgeGate b).cause = s.cause := by
  unfold State.judgeGate
  dsimp only
  rw [if_neg (by simp [h])]
  repeat' split
  all_goals rfl

/-- A TRIPPED gate in AUTO mode, judged afresh: it opens where the bank has no boundaries to come and
no source is active (R89). -/
theorem judgeGate_auto {s : State} {b : BankNo} (tripped : (s.bank b).gate.tripped = true)
    (auto : (s.bank b).gate.auto = true) : s.judgeGate b =
      if !(s.bank b).seq.plan.isRunning && !s.sourceActive b then s.openGate b else s := by
  unfold State.judgeGate
  dsimp only
  rw [if_neg (by simp [tripped]), if_pos auto]

/-- The software source of a gate is written. -/
def State.setSwTrip (s : State) (b : BankNo) (v : Bool) : State :=
  s.modGate b fun g => { g with swTrip := v }

theorem gate_setSwTrip (s : State) (b : BankNo) (v : Bool) :
    ((s.setSwTrip b v).bank b).gate = { (s.bank b).gate with swTrip := v } := by
  unfold State.setSwTrip; rw [bank_modGate_same]

theorem seq_setSwTrip (s : State) (b : BankNo) (v : Bool) :
    ((s.setSwTrip b v).bank b).seq = (s.bank b).seq := by
  unfold State.setSwTrip; rw [bank_modGate_same]

theorem other_setSwTrip (s : State) (b : BankNo) (v : Bool) {c : BankNo} (h : c ≠ b) :
    (s.setSwTrip b v).bank c = s.bank c := bank_modGate_ne _ _ h

theorem sourceActive_setSwTrip (s : State) (b : BankNo) (v : Bool) :
    (s.setSwTrip b v).sourceActive b = (v || s.lineTrips b) := by
  have lines : (s.setSwTrip b v).lineTrips b = s.lineTrips b :=
    lineTrips_of rfl (by rw [gate_setSwTrip])
  unfold State.sourceActive
  rw [lines, gate_setSwTrip]

/-! ### BANK_REARM (R85, R86) -/

theorem bankRearm_open {s : State} {b : BankNo} (h : (s.bank b).gate.tripped = false) :
    s.bankRearm b = s.answer .done .nothing := by
  unfold State.bankRearm; simp [h]

section
variable {s : State} {b : BankNo} (tripped : (s.bank b).gate.tripped = true)
include tripped

theorem bankRearm_auto (auto : (s.bank b).gate.auto = true) :
    s.bankRearm b = ((s.setSwTrip b false).judgeGate b).answer .done .nothing := by
  unfold State.bankRearm State.setSwTrip; simp [tripped, auto]

theorem bankRearm_active (manual : (s.bank b).gate.auto = false) (active : s.lineTrips b = true) :
    s.bankRearm b = s.answer .refusedTripActive .nothing := by
  unfold State.bankRearm; simp [tripped, manual, active]

theorem bankRearm_manual (manual : (s.bank b).gate.auto = false)
    (quiet : s.lineTrips b = false) :
    s.bankRearm b = (s.rearmManual b).answer .done .nothing := by
  unfold State.bankRearm; simp [tripped, manual, quiet]

end

theorem rearmManual_pending {s : State} {b : BankNo}
    (h : (s.bank b).gate.rearmPending = true) : s.rearmManual b = s := by
  unfold State.rearmManual; rw [if_pos h]

theorem rearmManual_fresh {s : State} {b : BankNo} (h : (s.bank b).gate.rearmPending = false) :
    s.rearmManual b = if (s.bank b).seq.plan.isRunning
      then (s.setSwTrip b false).modGate b fun g => { g with rearmPending := true }
      else (s.setSwTrip b false).openGate b := by
  unfold State.rearmManual
  rw [if_neg (by simp [h])]
  dsimp only
  rw [show ((s.modGate b fun g => { g with swTrip := false }).bank b).seq = (s.bank b).seq
    from seq_setSwTrip s b false]
  rfl

/-- What a rearm leaves of the state: only the gate and the pins of its bank have moved. -/
structure State.GateMoved (s t : State) (b : BankNo) : Prop where
  cause : t.cause = s.cause
  others : OtherBanksKept s t b
  seq : (t.bank b).seq = (s.bank b).seq
  pins : (t.bank b).gate.tripped ≠ (s.bank b).gate.tripped → (t.bank b).PinsFollow

theorem State.GateMoved.refl (s : State) (b : BankNo) : s.GateMoved s b :=
  ⟨rfl, fun _ _ => rfl, rfl, fun h => absurd rfl h⟩

theorem gateMoved_setSwTrip (s : State) (b : BankNo) (v : Bool) :
    s.GateMoved (s.setSwTrip b v) b where
  cause := rfl
  others := fun _ => other_setSwTrip s b v
  seq := seq_setSwTrip s b v
  pins := fun h => absurd (by rw [gate_setSwTrip]) h

theorem State.GateMoved.openGate {s t : State} {b : BankNo} (h : s.GateMoved t b) :
    s.GateMoved (t.openGate b) b := by
  obtain ⟨-, seq, others⟩ := openGate_spec t b
  exact ⟨h.cause, fun c hc => (others c hc).trans (h.others c hc), seq.trans h.seq,
    fun _ => pinsFollow_openGate t b⟩

theorem State.GateMoved.rearmPending {s t : State} {b : BankNo} (h : s.GateMoved t b) :
    s.GateMoved (t.modGate b fun g => { g with rearmPending := true }) b where
  cause := h.cause
  others := fun c hc => (bank_modGate_ne _ _ hc).trans (h.others c hc)
  seq := by rw [bank_modGate_same]; exact h.seq
  pins := by
    intro changed
    rw [bank_modGate_same] at changed ⊢
    exact pinsFollow_congr rfl rfl rfl rfl rfl (h.pins changed)

theorem judgeGate_rearm {s : State} {b : BankNo} (tripped : (s.bank b).gate.tripped = true)
    (auto : (s.bank b).gate.auto = true) : (s.setSwTrip b false).judgeGate b =
      if !(s.bank b).seq.plan.isRunning && !s.lineTrips b then (s.setSwTrip b false).openGate b
      else s.setSwTrip b false := by
  rw [judgeGate_auto (by rw [gate_setSwTrip]; exact tripped) (by rw [gate_setSwTrip]; exact auto),
    sourceActive_setSwTrip, seq_setSwTrip, Bool.false_or]

theorem gateMoved_bankRearm (s : State) (b : BankNo) : s.GateMoved (s.bankRearm b) b := by
  have kept : ∀ r, s.GateMoved (s.answer r .nothing) b := fun _ => ⟨rfl, fun _ _ => rfl, rfl,
    fun h => absurd rfl h⟩
  have done : ∀ {t : State}, s.GateMoved t b → s.GateMoved (t.answer .done .nothing) b :=
    fun h => ⟨h.cause, h.others, h.seq, h.pins⟩
  cases tripped : (s.bank b).gate.tripped with
  | false => rw [bankRearm_open tripped]; exact kept _
  | true =>
    cases auto : (s.bank b).gate.auto with
    | true =>
      rw [bankRearm_auto tripped auto, judgeGate_rearm tripped auto]
      refine done ?_
      split
      · exact (gateMoved_setSwTrip s b false).openGate
      · exact gateMoved_setSwTrip s b false
    | false =>
      cases active : s.lineTrips b with
      | true => rw [bankRearm_active tripped auto active]; exact kept _
      | false =>
        rw [bankRearm_manual tripped auto active]
        refine done ?_
        cases pending : (s.bank b).gate.rearmPending with
        | true => rw [rearmManual_pending pending]; exact .refl s b
        | false =>
          rw [rearmManual_fresh pending]
          split
          · exact (gateMoved_setSwTrip s b false).rearmPending
          · exact (gateMoved_setSwTrip s b false).openGate

theorem gate_rearmManual {s : State} {b : BankNo} (h : (s.bank b).gate.rearmPending = false) :
    ((s.rearmManual b).bank b).gate = if (s.bank b).seq.plan.isRunning
      then { (s.bank b).gate with swTrip := false, rearmPending := true }
      else { (s.bank b).gate with swTrip := false, tripped := false, rearmPending := false } := by
  rw [rearmManual_fresh h]
  split
  · rw [bank_modGate_same, gate_setSwTrip]
  · rw [(openGate_spec _ b).1, gate_setSwTrip]

theorem gate_rearmAuto {s : State} {b : BankNo} (tripped : (s.bank b).gate.tripped = true)
    (auto : (s.bank b).gate.auto = true) : (((s.setSwTrip b false).judgeGate b).bank b).gate =
      if (s.bank b).seq.plan.isRunning || s.lineTrips b
      then { (s.bank b).gate with swTrip := false }
      else { (s.bank b).gate with swTrip := false, tripped := false, rearmPending := false } := by
  rw [judgeGate_rearm tripped auto]
  cases (s.bank b).seq.plan.isRunning <;> cases s.lineTrips b
  · exact (openGate_spec _ b).1.trans (by rw [gate_setSwTrip]; rfl)
  all_goals exact gate_setSwTrip s b false

/-! ### BANK_TRIP (R84) -/

theorem bankTrip_eq (s : State) (b : BankNo) :
    s.bankTrip b = ((s.setSwTrip b true).judgeGate b).answer .done .nothing := rfl

theorem judgeGate_trip (s : State) (b : BankNo) :
    (((s.setSwTrip b true).judgeGate b).bank b).gate =
        { (s.bank b).gate with swTrip := true }.held ∧
      ((s.bank b).gate.tripped = false →
        ((s.setSwTrip b true).judgeGate b).causeSet (causeBank b)) := by
  have h := judgeGate_active (s.setSwTrip b true) b (by rw [sourceActive_setSwTrip]; rfl)
  rwa [gate_setSwTrip] at h

/-! ### The obligations -/

section
variable {w : Word} {rest : List Word} {s : State} {b : BankNo}

theorem bankRearm_answers (h : s.Heads w rest) (ha : action w = actBankRearm)
    (hb : bankNoOf (target w) = some b) : exec .bankRearm s =
      .next (s.concludeLight ((s.takeHead w).bankRearm b)) := by
  rw [exec_bankRearm h ha, forBank_some hb]

theorem bankTrip_answers (h : s.Heads w rest) (ha : action w = actBankTrip)
    (hb : bankNoOf (target w) = some b) : exec .bankTrip s =
      .next (s.concludeLight ((s.takeHead w).bankTrip b)) := by
  rw [exec_bankTrip h ha, forBank_some hb]

theorem bankAck_answers (h : s.Heads w rest) (ha : action w = actBankAck)
    (hb : bankNoOf (target w) = some b) : exec .bankAck s =
      .next (s.concludeLight ((s.takeHead w).bankAck b)) := by
  rw [exec_bankAck h ha, forBank_some hb]

end

/-- The request's own effect gives an answer that waits for nothing: it is offered. -/
theorem replying_of_eq {before s t : State} {w : Word} {r : Result}
    (exec : s.sweep.exec = some ⟨w, .record⟩) (h : t = s.answer r .nothing) :
    (before.concludeLight t).Replying w r := by
  rw [h]; exact replying_concludeLight (exec_answer exec)

theorem exec_judgeGate (s : State) (w : Word) (b : BankNo) (v : Bool) :
    (((s.takeHead w).setSwTrip b v).judgeGate b).sweep.exec = some ⟨w, .record⟩ := by
  rw [sweep_of_beside (beside_judgeGate _ b)]; rfl

theorem exec_rearmManual (s : State) (w : Word) (b : BankNo) :
    ((s.takeHead w).rearmManual b).sweep.exec = some ⟨w, .record⟩ := by
  unfold State.rearmManual
  split
  · rfl
  · dsimp only; split <;> rfl

theorem bankRearm_spec {w : Word} {rest : List Word} {s : State} {b : BankNo}
    (h : s.Heads w rest) (ha : action w = actBankRearm) (hb : bankNoOf (target w) = some b) :
    Answers .bankRearm s fun t =>
      t.capture = s.capture ∧ t.cause = s.cause ∧ OtherBanksKept s t b ∧
      (t.bank b).seq = (s.bank b).seq ∧
      ((t.bank b).gate.tripped ≠ (s.bank b).gate.tripped → (t.bank b).PinsFollow) ∧
      ((t.bank b).gate.tripped ≠ (s.bank b).gate.tripped ∨
        (t.bank b).gate.rearmPending ≠ (s.bank b).gate.rearmPending → s.BankReported t b) ∧
      t = s.concludeLight ((s.takeHead w).bankRearm b) := by
  have moved := gateMoved_bankRearm (s.takeHead w) b
  refine ⟨_, bankRearm_answers h ha hb, ?_, ?_, ?_, ?_, ?_, ?_, rfl⟩
  · exact (capture_concludeLight s _).trans (capture_bankRearm (s.takeHead w) b)
  · exact (cause_concludeLight s _).trans moved.cause
  · exact fun c hc => (bank_concludeLight s _ c).trans (moved.others c hc)
  · rw [bank_concludeLight]; exact moved.seq
  · rw [bank_concludeLight]; exact moved.pins
  · rw [bank_concludeLight]
    intro changed
    refine bankReported_of_outer (outer_bankRearm (s.takeHead w) b) ?_
    obtain changed | changed := changed
    · exact sameStatus_of_tripped changed
    · exact sameStatus_of_rearmPending changed

theorem bankTrip_spec {w : Word} {rest : List Word} {s : State} {b : BankNo}
    (h : s.Heads w rest) (ha : action w = actBankTrip) (hb : bankNoOf (target w) = some b) :
    Answers .bankTrip s fun t =>
      t.Replying w .done ∧ t.lines = s.lines ∧ t.journals = s.journals ∧ OtherBanksKept s t b ∧
      (t.bank b).seq = (s.bank b).seq ∧
      (t.bank b).gate = { (s.bank b).gate with swTrip := true }.held ∧
      ((s.bank b).gate.tripped = false → t.causeSet (causeBank b) ∧ (t.bank b).PinsFollow) ∧
      ((s.bank b).gate.tripped = true → t.cause = s.cause) ∧
      (sameStatus (s.bank b) (t.bank b) = false → s.BankReported t b) := by
  obtain ⟨core, -, -, others⟩ := judgeGate_spec ((s.takeHead w).setSwTrip b true) b
  obtain ⟨gate, cause⟩ := judgeGate_trip (s.takeHead w) b
  have captured := (capture_concludeLight s _).trans (capture_bankTrip (s.takeHead w) b)
  refine ⟨_, bankTrip_answers h ha hb, ?_, lines_of_capture captured, journals_of_capture captured,
    ?_, ?_, ?_, fun opened => ⟨?_, ?_⟩, fun tripped => ?_, fun changed => ?_⟩
  · exact replying_of_eq (exec_judgeGate s w b true) (bankTrip_eq _ b)
  · exact fun c hc => (bank_concludeLight s _ c).trans
      ((others c hc).trans (other_setSwTrip _ b true hc))
  · rw [bank_concludeLight]
    exact (congrArg Prod.fst core).trans (seq_setSwTrip _ b true)
  · rw [bank_concludeLight]; exact gate
  · unfold State.causeSet
    rw [cause_concludeLight]; exact cause opened
  · rw [bank_concludeLight]
    refine pinsFollow_judgeGate ((s.takeHead w).setSwTrip b true) b ?_
    rw [gate, gate_setSwTrip]
    simp [Gate.held, opened]
  · have low := gate_setSwTrip (s.takeHead w) b true
    exact (cause_concludeLight s _).trans
      (cause_judgeGate_tripped (s := (s.takeHead w).setSwTrip b true) (by rw [low]; exact tripped))
  · rw [bank_concludeLight] at changed
    exact bankReported_of_outer (outer_bankTrip (s.takeHead w) b) changed

/-- Settles O20: each row by the equation of its branch; what only moves the gate of one bank is
shown for all rows at once. -/
theorem gateRequestsByGateState : Obligations.GateRequestsByGateState := by
  refine ⟨fun w rest s b h ha hb => ?_, fun w rest s b h ha hb => ?_⟩
  · obtain ⟨t, ht, captured, cause, others, seq, pins, reported, rfl⟩ := bankRearm_spec h ha hb
    refine ⟨_, ht, lines_of_capture captured, journals_of_capture captured, cause, others, seq,
      fun opened => ?_, fun tripped manual active => ?_, fun tripped manual quiet pending => ?_,
      fun tripped manual quiet fresh => ⟨?_, ?_⟩, fun tripped auto => ⟨?_, ?_⟩, pins, reported⟩
    · have e := bankRearm_open (s := s.takeHead w) opened
      exact ⟨replying_of_eq takeHead_exec e, by rw [banks_concludeLight, e]; rfl⟩
    · have e := bankRearm_active (s := s.takeHead w) tripped manual active
      exact ⟨replying_of_eq takeHead_exec e, by rw [banks_concludeLight, e]; rfl⟩
    · have e := bankRearm_manual (s := s.takeHead w) tripped manual quiet
      rw [rearmManual_pending (s := s.takeHead w) pending] at e
      exact ⟨replying_of_eq takeHead_exec e, by rw [banks_concludeLight, e]; rfl⟩
    · exact replying_of_eq (exec_rearmManual s w b)
        (bankRearm_manual (s := s.takeHead w) tripped manual quiet)
    · rw [bank_concludeLight, bankRearm_manual (s := s.takeHead w) tripped manual quiet]
      exact gate_rearmManual (s := s.takeHead w) fresh
    · exact replying_of_eq (exec_judgeGate s w b false)
        (bankRearm_auto (s := s.takeHead w) tripped auto)
    · rw [bank_concludeLight, bankRearm_auto (s := s.takeHead w) tripped auto]
      exact gate_rearmAuto (s := s.takeHead w) tripped auto
  · obtain ⟨t, ht, reply, lines, journals, others, seq, gate, opened, tripped, reported⟩ :=
      bankTrip_spec h ha hb
    refine ⟨t, ht, reply, lines, journals, others, seq, fun low => ?_, fun high pending manual => ?_,
      fun high => ⟨tripped high, ?_⟩⟩
    · refine ⟨?_, (opened low).1, (opened low).2, reported (sameStatus_of_tripped ?_)⟩
      · rw [gate]; simp [Gate.held, low]
      · rw [gate]; simp [Gate.held, low]
    · refine reported (sameStatus_of_rearmPending ?_)
      rw [gate]; simp [Gate.held, high, pending, manual]
    · rw [gate]; simp [Gate.held, high]

/-! ### BANK_ACK (R44, R110) -/

/-- A bank whose report is acknowledged. -/
def Bank.acked (k : Bank) : Bank :=
  { k with
    faults := { k.faults with report := none, further := 0#16 }
    seq := { k.seq with plan := if k.seq.plan = .halted then .dormant else k.seq.plan } }

theorem bank_bankAck_same (s : State) (b : BankNo) :
    (s.bankAck b).bank b = (s.bank b).acked := by
  simp [State.bankAck, Bank.acked, FaultLogic.acknowledge]

theorem bank_bankAck_other (s : State) {b c : BankNo} (h : c ≠ b) :
    (s.bankAck b).bank c = s.bank c := by
  unfold State.bankAck
  rw [bank_answer, bank_modSeq_ne _ _ h, bank_modFaults_ne _ _ h]

theorem Quad.ext_get {α : Type} {q r : Quad α} (h : ∀ i, q.get i = r.get i) : q = r :=
  match q, r with
  | ⟨_, _, _, _⟩, ⟨_, _, _, _⟩ => by
    congr
    · exact h 0
    · exact h 1
    · exact h 2
    · exact h 3

theorem acked_eq {k : Bank} (report : k.faults.report = none) (further : k.faults.further = 0#16)
    (plan : k.seq.plan ≠ .halted) : k.acked = k := by
  unfold Bank.acked; rw [if_neg plan, ← report, ← further]

/-- Settles O21. -/
theorem bankAckClearsTheReport : Obligations.BankAckClearsTheReport := by
  intro w rest s b h ha hb
  have same : (s.concludeLight ((s.takeHead w).bankAck b)).bank b = (s.bank b).acked := by
    rw [bank_concludeLight, bank_bankAck_same]; rfl
  have blocks := blocks_concludeLight s ((s.takeHead w).bankAck b)
  have other : OtherBanksKept s (s.concludeLight ((s.takeHead w).bankAck b)) b := fun c hc => by
    rw [bank_concludeLight, bank_bankAck_other _ hc]; rfl
  refine ⟨_, bankAck_answers h ha hb, replying_concludeLight (exec_answer takeHead_exec), other,
    congrArg (fun x => x.2.1) blocks, congrArg (fun x => x.2.2.1) blocks,
    congrArg (fun x => x.2.2.2.2) blocks, same, fun changed => ?_, fun report further plan => ?_⟩
  · refine bankReported_concludeLight rfl ?_
    rw [bank_bankAck_same, bank_takeHead]
    obtain report | halted := changed
    · exact sameStatus_of_report (Ne.symm report)
    · refine sameStatus_of_plan ?_
      simp [Bank.acked, halted]
  · refine Quad.ext_get fun c => ?_
    obtain rfl | hc := eq_or_ne c b
    · exact same.trans (acked_eq report further plan)
    · exact other c hc

end Sys2Proof.Machine
end

section
/-! SUPPORT. The words of the statements about banks, from the operations that bring them about: a
frame that starts, a cue that is heard, a plan that ends, a fault that is reported (R35, R42, R43, R68,
R102 to R105). -/

namespace Sys2Proof.Machine

/-! ### A frame that starts -/

/-- A start is that of a bank that stood as `s` but for its pins, gate and faults. -/
theorem frameStarts_startFrame {s u t : State} {b : BankNo} {f : FrameCopy} {forced : Bool}
    (bank : t.bank b = (u.startFrame b f forced).bank b)
    (firstFrame : (u.bank b).seq.firstFrame = (s.bank b).seq.firstFrame)
    (settings : (u.bank b).seq.settings = (s.bank b).seq.settings)
    (linkRead : (u.bank b).seq.linkRead = false) :
    s.FrameStarts t b f forced (u.bank b).fifo := by
  obtain ⟨live, plan, tag, latch, counter, merged, -⟩ := startFrame_spec u b f forced
  obtain ⟨staged, timer, requests⟩ := startFrame_rest u b f forced
  constructor <;> rw [bank]
  · exact plan
  · exact live
  · exact tag
  · exact staged
  · exact latch
  · exact timer
  · exact counter
  · rw [merged, Sequencer.merged, firstFrame, settings]
  · exact pinsFollow_startFrame u b f forced
  · exact requests linkRead

/-! ### A cue that is heard -/

theorem cueReaches_of_heard {s t : State} {b c : BankNo} {k : CueKind} (h : Heard s t b k c) :
    s.CueReaches t (.cue b k) c := by
  intro armed awaits
  obtain ⟨running, waiting⟩ := h armed awaits
  refine ⟨fun runs => running (not_waiting_of_running runs), fun f waits noLink staged => ?_⟩
  obtain ⟨u, seq, fifo, bank⟩ := waiting f waits staged
  rw [← fifo]
  exact frameStarts_startFrame bank (by rw [seq]) (by rw [seq]) (by rw [seq]; exact noLink)

theorem cueSent_of_heard {s t : State} {b : BankNo} {k : CueKind}
    (h : ∀ c, c ≠ b → Heard s t b k c) : s.CueSent t b k :=
  fun c hc => cueReaches_of_heard (h c hc)

theorem cueSent_congr {s t u : State} {b : BankNo} {k : CueKind} (h : s.CueSent t b k)
    (banks : ∀ c, c ≠ b → u.bank c = t.bank c) : s.CueSent u b k := by
  intro c hc armed awaits
  obtain ⟨running, waiting⟩ := h c hc armed awaits
  rw [banks c hc]
  refine ⟨running, fun f waits noLink staged => ?_⟩
  obtain ⟨plan, live, tag, staged, latch, timer, counter, settings, pins, requests⟩ :=
    waiting f waits noLink staged
  constructor <;> rw [banks c hc] <;> assumption

/-! ### A state that differs in one bank -/

/-- Lines, time, the gate of `b` and every bank but `b` are as before. -/
structure State.BankMoved (s u : State) (b : BankNo) : Prop where
  others : ∀ c, c ≠ b → u.bank c = s.bank c
  lines : u.lines = s.lines
  now : u.now = s.now
  gate : (u.bank b).gate = (s.bank b).gate

namespace State.BankMoved

variable {s u : State} {b : BankNo}

theorem refl (s : State) (b : BankNo) : s.BankMoved s b := ⟨fun _ _ => rfl, rfl, rfl, rfl⟩

theorem of_banks (banks : u.banks = s.banks) (lines : u.lines = s.lines) (now : u.now = s.now) :
    s.BankMoved u b := by
  have bank : ∀ c, u.bank c = s.bank c := fun c => congrArg (fun x => x.get c) banks
  exact ⟨fun c _ => bank c, lines, now, by rw [bank]⟩

variable (h : s.BankMoved u b)
include h

theorem modBank {f : Bank → Bank} (gate : ∀ k, (f k).gate = k.gate) :
    s.BankMoved (u.modBank b f) b :=
  ⟨fun c hc => (bank_modBank_ne u f hc).trans (h.others c hc), h.lines, h.now, by
    rw [bank_modBank_same, gate, h.gate]⟩

theorem modSeq (f : Sequencer → Sequencer) : s.BankMoved (u.modSeq b f) b :=
  h.modBank fun _ => rfl

theorem requestFrame (a : FrameAccess) : s.BankMoved (u.requestFrame b a) b :=
  h.modBank fun _ => rfl

theorem markSticky (c : FaultClass) : s.BankMoved (u.markSticky b c) b :=
  h.modBank (f := fun k => { k with faults := { k.faults with sticky := k.faults.sticky.mark c } })
    fun _ => rfl

theorem reportFault (cls : FaultClass) (sub : Subcode) (sel : Selector) (field : Nat)
    (phase : Phase) : s.BankMoved (u.reportFault b cls sub sel field phase) b := by
  refine ⟨fun c hc => (other_reportFault hc u _ _ _ _ _).trans (h.others c hc), ?_, ?_, ?_⟩
  · exact (lines_of_beside (beside_reportFault u b _ _ _ _ _)).trans h.lines
  · exact (now_of_outer (outer_of_beside (beside_reportFault u b _ _ _ _ _))).trans h.now
  · rw [bank_reportFault]; exact h.gate

theorem retireLive (code : FrameState) : s.BankMoved (u.retireLive b code) b := by
  refine ⟨fun c hc => (other_retireLive hc u code).trans (h.others c hc), ?_, ?_, ?_⟩
  · exact (lines_retireLive u b code).trans h.lines
  · exact (now_of_outer (outer_of_beside (beside_retireLive u b code))).trans h.now
  · rw [gate_retireLive]; exact h.gate

theorem returnStaged : s.BankMoved (u.returnStaged b) b := by
  refine ⟨fun c hc => (other_returnStaged hc u).trans (h.others c hc), ?_, ?_, ?_⟩
  · exact (lines_returnStaged u b).trans h.lines
  · exact (now_of_outer (outer_of_beside (beside_returnStaged u b))).trans h.now
  · rw [gate_returnStaged]; exact h.gate

theorem trips : u.lineTrips b = s.lineTrips b := lineTrips_of h.lines (by rw [h.gate])

theorem unheard {c : BankNo} (hc : c ≠ b) (k : CueKind) : Unheard s u b k c :=
  (Unheard.refl s b k c).congr (h.others c hc)

end State.BankMoved

/-! ### A plan that ends -/

theorem bare_ended (q : Sequencer) (plan : PlanState) (reason : StopReason) :
    (q.ended plan reason).Bare := ⟨rfl, rfl, rfl, rfl, rfl, rfl, rfl, rfl, rfl⟩

/-- The end of a plan after the boundary action has been taken or not, with PLAN_END unheard. -/
theorem planEnds_endPlan {s u : State} {b : BankNo} (plan : PlanState) (reason : StopReason)
    (gate : (u.bank b).gate.released (u.lineTrips b) = s.releasedGate b)
    (unheard : ∀ c, c ≠ b → Unheard s u b .planEnd c) :
    s.PlanEnds (u.endPlan b plan reason) b plan reason where
  ended := by
    have seq := seq_endPlan u b plan reason
    refine ⟨by rw [seq]; rfl, by rw [seq]; rfl, by rw [seq]; exact bare_ended _ _ _, ?_⟩
    exact readsDiscarded_of_ended (flight_endPlan u b plan reason)
  counter := counter_endPlan u b plan reason
  cause := causeBit_endPlan u b plan reason
  gate := (gate_endPlan u b plan reason).trans gate
  pins := pinsFollow_endPlan u b plan reason
  sent := cueSent_of_heard fun c hc => (unheard c hc).endPlan plan reason hc

theorem State.BankMoved.planEnds_endPlan {s u : State} {b : BankNo} (h : s.BankMoved u b)
    (plan : PlanState) (reason : StopReason) :
    s.PlanEnds (u.endPlan b plan reason) b plan reason :=
  Machine.planEnds_endPlan plan reason (by rw [h.gate, h.trips]; rfl) fun _ hc => h.unheard hc _

theorem State.BankMoved.planEnds_stopBank {s u : State} {b : BankNo} (h : s.BankMoved u b)
    (code : FrameState) : s.PlanEnds (u.stopBank b code) b .dormant .stopped :=
  (h.retireLive code).returnStaged.planEnds_endPlan _ _

/-- The state in which a halt ends the plan: its own bank's frames are written off. -/
theorem State.BankMoved.haltBank {s u : State} {b : BankNo} (h : s.BankMoved u b)
    (bad : Option Selector) :
    ∃ v, s.BankMoved v b ∧ u.haltBank b bad = v.endPlan b .halted .fault := by
  unfold State.haltBank
  dsimp only
  refine ⟨_, ?_, rfl⟩
  repeat' split
  · exact h
  · exact h.retireLive _
  · exact h
  · exact h.returnStaged
  · exact (h.retireLive _).returnStaged
  · exact h.returnStaged
  · exact h
  · exact h.retireLive _
  · exact h

theorem State.BankMoved.planEnds_haltBank {s u : State} {b : BankNo} (h : s.BankMoved u b)
    (bad : Option Selector) : s.PlanEnds (u.haltBank b bad) b .halted .fault := by
  obtain ⟨v, moved, e⟩ := h.haltBank bad
  rw [e]; exact moved.planEnds_endPlan _ _

/-- What is said of an end depends on banks, causes and outstanding reads alone. -/
theorem planEnds_congr {s t u : State} {b : BankNo} {plan : PlanState} {reason : StopReason}
    (h : s.PlanEnds t b plan reason) (banks : u.banks = t.banks) (cause : u.cause = t.cause)
    (reads : u.port.reads = t.port.reads) : s.PlanEnds u b plan reason := by
  have bank : ∀ c, u.bank c = t.bank c := fun c => congrArg (fun x => x.get c) banks
  obtain ⟨⟨hp, hr, hb, hd⟩, counter, set, gate, pins, sent⟩ := h
  refine ⟨⟨?_, ?_, ?_, ?_⟩, ?_, ?_, ?_, ?_, cueSent_congr sent fun c _ => bank c⟩
  · rw [bank]; exact hp
  · rw [bank]; exact hr
  · rw [bank]; exact hb
  · unfold State.ReadsDiscarded; rw [reads]; exact hd
  · rw [bank]; exact counter
  · unfold State.causeSet; rw [cause]; exact set
  · rw [bank]; exact gate
  · rw [bank]; exact pins

/-! ### A fault that is reported -/

/-- What of the fault logic no sticky flag shows. -/
def FaultLogic.slot (f : FaultLogic) := (f.masks, f.report, f.further)

/-- A report over the fault logic of `s`, which `u` has but for its sticky flags. -/
theorem reports_reportFault {s u t : State} {b : BankNo} {cls : FaultClass} {sub : Subcode}
    {sel : Selector} {field : Nat} {phase : Phase}
    (faults : (t.bank b).faults = ((u.reportFault b cls sub sel field phase).bank b).faults)
    (cause : (u.reportFault b cls sub sel field phase).causeSet (causeBank b) →
      t.causeSet (causeBank b))
    (same : (u.bank b).faults.slot = (s.bank b).faults.slot)
    (now : u.now = s.now) :
    s.Reports t b (u.bank b).faults.sticky cls sub sel field phase := by
  have report : (u.bank b).faults.report = (s.bank b).faults.report :=
    congrArg (fun x => x.2.1) same
  have further : (u.bank b).faults.further = (s.bank b).faults.further :=
    congrArg (fun x => x.2.2) same
  have masks : (u.bank b).faults.masks = (s.bank b).faults.masks := congrArg Prod.fst same
  rw [bank_reportFault] at faults
  dsimp only at faults
  constructor
  · rw [faults]; exact masks
  · rw [faults]
  · intro empty
    have none : (u.bank b).faults.report = none := report.trans empty
    refine ⟨?_, ?_, cause (causeBit_reportFault u b cls sub sel field phase none)⟩
    · rw [faults]; dsimp only; rw [none, now]; rfl
    · rw [faults]; dsimp only; rw [none, ← further]; rfl
  · intro full
    obtain ⟨r, hr⟩ := Option.ne_none_iff_exists'.1 (report ▸ full)
    refine ⟨?_, ?_⟩
    · rw [faults]; dsimp only; rw [← report, hr]; rfl
    · rw [faults]; dsimp only; rw [hr, further]; rfl

theorem reports_congr {s t u : State} {b : BankNo} {flags : Sticky} {cls : FaultClass}
    {sub : Subcode} {sel : Selector} {field : Nat} {phase : Phase}
    (h : s.Reports t b flags cls sub sel field phase)
    (faults : (u.bank b).faults = (t.bank b).faults)
    (cause : t.causeSet (causeBank b) → u.causeSet (causeBank b)) :
    s.Reports u b flags cls sub sel field phase := by
  obtain ⟨masks, sticky, first, more⟩ := h
  constructor <;> rw [faults]
  · exact masks
  · exact sticky
  · exact fun empty => ⟨(first empty).1, (first empty).2.1, cause (first empty).2.2⟩
  · exact more

theorem faults_failFetch (s : State) (b : BankNo) (role : Role) :
    ((s.failFetch b role).bank b).faults = (s.bank b).faults := (failFetch_spec s b role).1

theorem cause_failFetch {s : State} {b : BankNo} {role : Role}
    (h : s.causeSet (causeBank b)) : (s.failFetch b role).causeSet (causeBank b) := by
  cases role with
  | head => exact causeBit_haltBank _ _ _
  | successor => exact h

/-- A fault of a fetch is reported. -/
theorem reports_fetchFault {s u : State} {b : BankNo} {f : Fetch} (cls : FaultClass)
    (sub : Subcode) (field : Nat)
    (same : (u.bank b).faults.slot = (s.bank b).faults.slot)
    (now : u.now = s.now) :
    s.Reports (u.fetchFault b f cls sub field) b (u.bank b).faults.sticky cls sub f.sel field
      f.role.phase :=
  reports_reportFault (faults_failFetch _ b f.role) cause_failFetch same now

/-- A fault of the fetch of a head frame ends the plan. -/
theorem State.BankMoved.planEnds_fetchFault {s u : State} {b : BankNo} (h : s.BankMoved u b)
    {f : Fetch} (head : f.role = .head) (cls : FaultClass) (sub : Subcode) (field : Nat) :
    s.PlanEnds (u.fetchFault b f cls sub field) b .halted .fault := by
  unfold State.fetchFault
  rw [(failFetch_spec _ b f.role).2.1 head]
  exact ((h.reportFault cls sub f.sel field f.role.phase).modSeq _).planEnds_haltBank none

end Sys2Proof.Machine
end

section
/-! SUPPORT. BANK_STOP and BANK_LOOK by the plan state of their bank (R40, R42, R45). -/

namespace Sys2Proof.Machine

theorem bankMoved_takeHead (s : State) (w : Word) (b : BankNo) : s.BankMoved (s.takeHead w) b :=
  .of_banks rfl rfl rfl

theorem planEnds_answer {s t : State} {b : BankNo} {plan : PlanState} {reason : StopReason}
    (h : s.PlanEnds t b plan reason) (r : Result) (x : WaitFor) :
    s.PlanEnds (t.answer r x) b plan reason := planEnds_congr h rfl rfl rfl

theorem reports_answer {s t : State} {b : BankNo} {flags : Sticky} {cls : FaultClass}
    {sub : Subcode} {sel : Selector} {field : Nat} {phase : Phase}
    (h : s.Reports t b flags cls sub sel field phase) (r : Result) (x : WaitFor) :
    s.Reports (t.answer r x) b flags cls sub sel field phase := reports_congr h rfl id

/-- A request that does what touches nothing beside the banks stands answered. -/
theorem answered_of_beside {s t : State} {w : Word} (h : t.beside = (s.takeHead w).beside)
    (r : Result) (x : WaitFor) : (t.answer r x).Answered w r x := by
  refine exec_answer (p := .record) ?_
  rw [sweep_of_beside h]; rfl

/-! ### BANK_STOP -/

section
variable {w : Word} {rest : List Word} {s : State} {b : BankNo}

theorem bankStop_answers (h : s.Heads w rest) (ha : action w = actBankStop)
    (hb : bankNoOf (target w) = some b) : exec .bankStop s =
      .next (s.conclude (if argument w = argNow then (s.takeHead w).bankStop true b
        else if argument w = argAtBoundary then (s.takeHead w).bankStop false b
        else (s.takeHead w).answer .refusedConfig .nothing)) := by
  rw [exec_bankStop h ha, forBank_some hb]

theorem bankLook_answers (h : s.Heads w rest) (ha : action w = actBankLook)
    (hb : bankNoOf (target w) = some b) : exec .bankLook s =
      .next (s.conclude ((s.takeHead w).bankLook b)) := by
  rw [exec_bankLook h ha, forBank_some hb]

end

theorem isActive_of_isRunning {p : PlanState} (h : p.isRunning = true) : p.isActive = true := by
  cases p <;> first | rfl | cases h

theorem bankStop_inactive {s : State} {b : BankNo} (now : Bool)
    (h : (s.bank b).seq.plan.isActive = false) :
    s.bankStop now b = s.answer .refusedState .nothing := by
  have still : ¬ (s.bank b).seq.plan.isRunning = true := fun runs => by
    rw [isActive_of_isRunning runs] at h; cases h
  unfold State.bankStop
  dsimp only
  rw [if_neg still, if_neg (by simp [h])]

theorem bankStop_atBoundary {s : State} {b : BankNo} (h : (s.bank b).seq.plan.isRunning = true) :
    s.bankStop false b =
      (s.modSeq b fun q => { q with pendingStop := true }).answer .done .nothing := by
  unfold State.bankStop
  dsimp only
  rw [if_pos h, if_neg (by decide)]

theorem bankStop_now {s : State} {b : BankNo} {now : Bool}
    (active : (s.bank b).seq.plan.isActive = true)
    (h : now = true ∨ (s.bank b).seq.plan.isRunning = false) :
    s.bankStop now b = s.stopNow b := by
  unfold State.bankStop
  dsimp only
  obtain rfl | still := h
  · simp only [active, if_true, ite_self]
  · rw [if_neg (by simp [still]), if_pos active]

/-- A stop that takes effect at once (R42). -/
theorem stopNow_spec (s : State) (w : Word) (b : BankNo) :
    ((s.takeHead w).stopNow b).Answered w .done (.frameWrites b (s.bank b).seq.heldSels) ∧
      s.PlanEnds ((s.takeHead w).stopNow b) b .dormant .stopped ∧
      (((s.takeHead w).stopNow b).bank b).faults = (s.bank b).faults ∧
      (((s.takeHead w).stopNow b).bank b).fifo = ((s.bank b).fifo.filter fun r => !r.acc.fetches)
        ++ ((s.bank b).seq.live.map fun v => v.retireReq s.now v.passes .cut).toList
        ++ ((s.bank b).seq.staged.map fun f =>
          (⟨.state f.sel .ready, .unchecked⟩ : FrameReq)).toList := by
  unfold State.stopNow
  refine ⟨answered_of_beside (beside_stopBank _ b .cut) _ _,
    planEnds_answer ((bankMoved_takeHead s w b).planEnds_stopBank .cut) _ _, ?_, ?_⟩
  · rw [bank_answer]; exact faults_stopBank (s.takeHead w) b .cut
  · rw [bank_answer]; exact fifo_ended (s.takeHead w) b .cut .dormant .stopped

/-- Settles O18: one equation for each of the four outcomes of a BANK_STOP. -/
theorem bankStopByPlanState : Obligations.BankStopByPlanState := by
  intro w rest s b h ha hb
  have branch : ∀ now : Bool, argument w = (if now then argNow else argAtBoundary) →
      (if argument w = argNow then (s.takeHead w).bankStop true b
        else if argument w = argAtBoundary then (s.takeHead w).bankStop false b
        else (s.takeHead w).answer .refusedConfig .nothing) = (s.takeHead w).bankStop now b := by
    intro now arg
    cases now <;> rw [arg] <;> rfl
  refine ⟨_, bankStop_answers h ha hb, fun noNow noBoundary => ?_, fun known => ?_⟩
  · rw [if_neg noNow, if_neg noBoundary]
    exact ⟨answered_takeHead s w _ _, rfl⟩
  · refine ⟨fun inactive => ?_, fun atBoundary runs => ?_, fun active when => ?_⟩
    · obtain ⟨now, arg⟩ : ∃ now : Bool, argument w = (if now then argNow else argAtBoundary) :=
        known.elim (fun e => ⟨true, e⟩) fun e => ⟨false, e⟩
      rw [branch now arg, bankStop_inactive (s := s.takeHead w) now inactive]
      exact ⟨answered_takeHead s w _ _, rfl⟩
    · rw [branch false atBoundary, bankStop_atBoundary (s := s.takeHead w) runs]
      refine ⟨exec_answer (p := .record) rfl, fun c hc => ?_, ?_⟩
      · rw [bank_answer]; exact bank_modSeq_ne (s.takeHead w) _ hc
      · rw [bank_answer]; exact bank_modSeq_same (s.takeHead w) b _
    · obtain ⟨now, arg, when⟩ : ∃ now : Bool, argument w = (if now then argNow else argAtBoundary) ∧
          (now = true ∨ (s.bank b).seq.plan.isRunning = false) := by
        obtain e | still := when
        · exact ⟨true, e, .inl rfl⟩
        · exact known.elim (fun e => ⟨true, e, .inl rfl⟩) fun e => ⟨false, e, .inr still⟩
      rw [branch now arg, bankStop_now (s := s.takeHead w) active when]
      exact stopNow_spec s w b

/-! ### BANK_LOOK -/

theorem mayReadHead_iff (q : Sequencer) :
    q.mayReadHead = true ↔ q.plan = .loading ∧ q.fetch = none := by
  simp [Sequencer.mayReadHead]

theorem mayReadLink_iff (q : Sequencer) :
    q.mayReadLink = true ↔ q.plan.isRunning = true ∧ q.tag = .empty ∧ q.linkRead = false := by
  simp [Sequencer.mayReadLink, and_assoc]

theorem fetchHead_reads {s : State} {b : BankNo}
    (h : ((s.bank b).seq.headSel.isNull || (s.bank b).seq.headSel.aligned) = true) :
    s.fetchHead b = s.fetchFrame b .head (s.bank b).seq.headSel := by
  unfold State.fetchHead
  dsimp only
  refine if_neg ?_
  cases hn : (s.bank b).seq.headSel.isNull <;> simp_all

theorem fetchHead_faults {s : State} {b : BankNo}
    (h : ((s.bank b).seq.headSel.isNull || (s.bank b).seq.headSel.aligned) = false) :
    s.fetchHead b = s.fetchFault b ⟨.head, (s.bank b).seq.headSel, none, none, none⟩ .format
      .align 0 := by
  unfold State.fetchHead
  dsimp only
  exact if_pos (by simpa using h)

theorem bank_fetchFrame (s : State) (b : BankNo) (role : Role) (sel : Selector) :
    (s.fetchFrame b role sel).bank b = { s.bank b with
      seq := { (s.bank b).seq with fetch := some ⟨role, sel, none, none, none⟩ }
      fifo := (s.bank b).fifo ++ [⟨.header sel, .unchecked⟩] } := by
  unfold State.fetchFrame State.requestFrame
  rw [bank_modBank_same, bank_modSeq_same]

theorem readLink_may {s : State} {b : BankNo} {v : Live} (live : (s.bank b).seq.live = some v)
    (may : (s.bank b).seq.mayReadLink = true) : s.readLink b =
      (s.modSeq b fun q => { q with linkRead := true }).requestFrame b (.link v.sel) := by
  unfold State.readLink
  rw [live]
  exact if_pos may

theorem bankLook_head {s : State} {b : BankNo} (h : (s.bank b).seq.mayReadHead = true) :
    s.bankLook b = (s.fetchHead b).answer .done (.frameReads b) := if_pos h

theorem bankLook_link {s : State} {b : BankNo} (head : (s.bank b).seq.mayReadHead = false)
    (link : (s.bank b).seq.mayReadLink = true) :
    s.bankLook b = (s.readLink b).answer .done (.frameReads b) := by
  unfold State.bankLook
  rw [if_neg (by simp [head]), if_pos link]

theorem bankLook_nothing {s : State} {b : BankNo} (head : (s.bank b).seq.mayReadHead = false)
    (link : (s.bank b).seq.mayReadLink = false) : s.bankLook b = s.answer .done .nothing := by
  unfold State.bankLook
  rw [if_neg (by simp [head]), if_neg (by simp [link])]

/-- Where BANK_LOOK finds nothing to read. -/
theorem look_idle {q : Sequencer} (h : q.plan = .dormant ∨ q.plan = .waiting ∨ q.plan = .halted ∨
    (q.plan = .loading ∧ q.fetch ≠ none) ∨
    (q.plan.isRunning = true ∧ (q.tag ≠ .empty ∨ q.linkRead = true))) :
    q.mayReadHead = false ∧ q.mayReadLink = false := by
  constructor <;> rw [Bool.eq_false_iff]
  · rw [Ne, mayReadHead_iff]
    rintro ⟨loading, noFetch⟩
    rw [loading] at h
    simp [noFetch, PlanState.isRunning] at h
  · rw [Ne, mayReadLink_iff]
    rintro ⟨runs, empty, noLink⟩
    revert h runs
    cases q.plan <;> simp [PlanState.isRunning, empty, noLink]

/-- Settles O19: the three rows of R45. -/
theorem bankLookReadsAgain : Obligations.BankLookReadsAgain := by
  intro w rest s b h ha hb
  refine ⟨_, bankLook_answers h ha hb, fun loading noFetch => ?_, fun v runs live empty noLink => ?_,
    fun idle => ?_⟩
  · rw [bankLook_head (s := s.takeHead w) ((mayReadHead_iff _).2 ⟨loading, noFetch⟩)]
    refine ⟨answered_of_beside (beside_fetchHead (s.takeHead w) b) _ _, fun good => ?_, fun bad => ?_⟩
    · rw [fetchHead_reads (s := s.takeHead w) good, bank_answer, bank_fetchFrame]
      exact ⟨rfl, rfl⟩
    · rw [fetchHead_faults (s := s.takeHead w) bad]
      exact ⟨planEnds_answer ((bankMoved_takeHead s w b).planEnds_fetchFault rfl .format .align 0) _ _,
        reports_answer (reports_fetchFault (s := s) (u := s.takeHead w) .format .align 0 rfl rfl) _ _⟩
  · have may := (mayReadLink_iff (s.bank b).seq).2 ⟨runs, empty, noLink⟩
    have head : (s.bank b).seq.mayReadHead = false := by
      rw [Bool.eq_false_iff, Ne, mayReadHead_iff]
      rintro ⟨loading, -⟩
      rw [loading] at runs; cases runs
    rw [bankLook_link (s := s.takeHead w) head may, readLink_may (s := s.takeHead w) live may]
    refine ⟨answered_of_beside rfl _ _, ?_, ?_⟩
    all_goals
      unfold State.requestFrame
      rw [bank_answer, bank_modBank_same, bank_modSeq_same, bank_takeHead]
  · obtain ⟨head, link⟩ := look_idle idle
    rw [bankLook_nothing (s := s.takeHead w) head link]
    exact ⟨answered_takeHead s w _ _, rfl⟩

end Sys2Proof.Machine
end

section
/-! SUPPORT. JOURNAL_CLOSE and JOURNAL_LOOK, and the end of a close (R139, R142, R143). -/

namespace Sys2Proof.Machine

/-! ### The end of a close -/

/-- With no event held there is none to count. -/
theorem countHeld_of_none {s : State} {j : JournalNo} (h : ∀ l, s.heldFor j l = none) :
    s.countHeld j = s := by
  unfold State.countHeld
  induction eight with
  | nil => rfl
  | cons l rest ih => rw [List.foldl_cons, if_neg (by simp [h l]), ih]

/-- Where a close has no event and no last GAP record to take, it counts the events still held, if
the journal is not OPEN, and ends. -/
theorem continueClose_ends {s : State} {j : JournalNo}
    (h : (s.journal j).state = .opened → s.oldest j = none ∧
      ((s.journal j).gap = 0#32 ∨ (s.journal j).lastGapDone = true)) :
    s.continueClose j = (s.countHeld j).finishClose j := by
  unfold State.continueClose
  dsimp only
  split
  · rename_i opened
    obtain ⟨noEvent, noGap⟩ := h opened
    rw [noEvent, countHeld_of_none (oldest_none.1 noEvent)]
    exact if_pos (by simpa using noGap)
  · rfl

theorem journalCloses_finishClose (s : State) (j : JournalNo) :
    s.JournalCloses ((s.countHeld j).finishClose j) j := by
  obtain ⟨-, ⟨q, m, counted, -⟩, -⟩ := countHeld_spec s j
  obtain ⟨missed, held, sweep, -⟩ := countHeld_missed s j
  obtain ⟨⟨p, closed, word⟩, lines, -, answer⟩ := finishClose_spec (s.countHeld j) j
  constructor
  · rw [closed]
  · rw [closed]
  · rw [closed, counted]
  · rw [closed, counted]
  · rw [closed]; exact missed
  · intro l
    rw [heldFor_of_holding (s := s.countHeld j) (congrArg (fun x => (x.get l).holding) lines)]
    exact held l
  · rw [closed]; exact word
  · intro w hw; exact answer w (by rw [sweep]; exact hw)

theorem journal_finishClose_ne (s : State) {i j : JournalNo} (h : i ≠ j) :
    ((s.countHeld j).finishClose j).journal i = s.journal i := by
  rw [(finishClose_spec _ j).2.2.1 i h, (countHeld_spec s j).1 i h]

theorem armed_finishClose (s : State) (j : JournalNo) (l : LineNo) :
    (((s.countHeld j).finishClose j).line l).armed = (s.line l).armed :=
  (congrArg (fun x => (x.get l).armed) (finishClose_spec (s.countHeld j) j).2.1).trans
    ((countHeld_missed s j).2.2.2 l)

/-! ### JOURNAL_CLOSE -/

section
variable {w : Word} {rest : List Word} {s : State} {j : JournalNo}

theorem journalClose_answers (h : s.Heads w rest) (ha : action w = actJournalClose)
    (hj : lineNoOf (target w) = some j) : exec .journalClose s =
      .next (s.conclude ((s.takeHead w).journalClose j)) := by
  rw [exec_journalClose h ha, forJournal_some hj]

theorem journalLook_answers (h : s.Heads w rest) (ha : action w = actJournalLook)
    (hj : lineNoOf (target w) = some j) : exec .journalLook s =
      .next (s.concludeLight ((s.takeHead w).journalLook j)) := by
  rw [exec_journalLook h ha, forJournal_some hj]

end

theorem journalClose_closed {s : State} {j : JournalNo} (h : (s.journal j).state = .closed) :
    s.journalClose j = s.answer .refusedState .nothing := if_pos h

/-- A JOURNAL_CLOSE that is taken begins the close. -/
def State.closeBegun (s : State) (w : Word) (j : JournalNo) : State :=
  ((s.takeHead w).setPhase (.closing j)).beginClose j

theorem journalClose_begins {s : State} {w : Word} {j : JournalNo}
    (h : (s.journal j).state ≠ .closed) :
    (s.takeHead w).journalClose j = s.closeBegun w j := if_neg h

theorem beginClose_rearmed (s : State) (j : JournalNo) : Rearmed
    (s.modJournal j fun x => { x with closing := true, lastGapDone := false }) (s.beginClose j) :=
  (judgeLines_spec _).1

/-- No line that names a closing journal is armed. -/
theorem armed_beginClose (s : State) (j : JournalNo) {l : LineNo}
    (h : (s.line l).cfg.journal = j) : ((s.beginClose j).line l).armed = false := by
  unfold State.beginClose
  rw [(judgeLines_spec _).2 l]
  unfold State.mayArm Journal.capturing
  rw [line_modJournal, h, journal_modJournal_same]
  simp

section
variable (s : State) (w : Word) (j : JournalNo)

theorem exec_closeBegun : (s.closeBegun w j).sweep.exec = some ⟨w, .closing j⟩ :=
  congrArg Sweep.exec (beginClose_rearmed _ j).sweep

theorem journal_closeBegun : (s.closeBegun w j).journal j =
    { s.journal j with closing := true, lastGapDone := false } := by
  unfold State.closeBegun
  rw [journal_beginClose, if_pos rfl]
  rfl

theorem journal_closeBegun_ne {i : JournalNo} (h : i ≠ j) :
    (s.closeBegun w j).journal i = s.journal i := by
  unfold State.closeBegun
  rw [journal_beginClose, if_neg h]
  rfl

theorem holding_closeBegun (l : LineNo) :
    ((s.closeBegun w j).line l).holding = (s.line l).holding :=
  (beginClose_rearmed _ j).holding l

theorem heldFor_closeBegun (i : JournalNo) (l : LineNo) :
    (s.closeBegun w j).heldFor i l = s.heldFor i l :=
  heldFor_of_holding (holding_closeBegun s w j l)

theorem heldCount_closeBegun : (s.closeBegun w j).heldCount j = s.heldCount j := by
  unfold State.heldCount
  rw [List.filter_congr fun l _ => by rw [heldFor_closeBegun]]

theorem banks_closeBegun : (s.closeBegun w j).banks = s.banks :=
  (beginClose_rearmed _ j).banks

end

theorem closeReady_of_not_closing {s : State} {j : JournalNo}
    (h : (s.journal j).closing = false) : ¬ s.closeReady j = true := by
  simp [State.closeReady, h]

theorem not_satisfied_of_word {s : State} {j : JournalNo}
    (h : .statusWord ∈ (s.journal j).fifo) : s.satisfied (.journalWords j) = false := by
  have pending : s.wordsPending j = true := List.any_eq_true.2 ⟨_, h, rfl⟩
  simp [State.satisfied, pending]

/-- A close that has nothing to wait for ends on the tick of its request. -/
theorem settle_closeBegun {s : State} {w : Word} {j : JournalNo}
    (noStep : (s.journal j).step = .idle) (noReread : (s.journal j).rereadInFlight = false)
    (noWork : (s.journal j).state = .opened → (s.journal j).gap = 0#32 ∧ s.heldCount j = 0)
    (alone : ∀ i, i ≠ j → (s.journal i).closing = false)
    (noCheck : ∀ b, (s.bank b).toCheck = none) :
    settle settleRounds (s.closeBegun w j) =
      ((s.closeBegun w j).countHeld j).finishClose j := by
  have ends : ((s.closeBegun w j).journal j).state = .opened →
      (s.closeBegun w j).oldest j = none ∧ (((s.closeBegun w j).journal j).gap = 0#32 ∨
        ((s.closeBegun w j).journal j).lastGapDone = true) := by
    rw [journal_closeBegun]
    intro opened
    obtain ⟨noGap, noHeld⟩ := noWork opened
    refine ⟨oldest_none.2 fun l => ?_, .inl noGap⟩
    rw [heldFor_closeBegun]
    exact heldCount_eq_zero.1 noHeld l
  have noCheckOf : ∀ {t : State}, t.banks = s.banks → ∀ b, (t.bank b).toCheck = none :=
    fun banks b => (congrArg (fun x => (x.get b).toCheck) banks).trans (noCheck b)
  have first : (s.closeBegun w j).journalToClose = some j := by
    have ready : (s.closeBegun w j).closeReady j = true := by
      unfold State.closeReady
      rw [journal_closeBegun]
      simp [noStep, noReread]
    have others : ∀ i, (s.closeBegun w j).closeReady i = true → i = j := by
      intro i hi
      by_contra other
      refine closeReady_of_not_closing ?_ hi
      rw [journal_closeBegun_ne s w j other, alone i other]
    obtain ⟨i, hi⟩ := Option.isSome_iff_exists.1
      (List.find?_isSome.2 ⟨j, mem_eight j, ready⟩)
    rw [State.journalToClose, hi, others i (List.find?_some hi)]
  have none : (((s.closeBegun w j).countHeld j).finishClose j).journalToClose = none := by
    refine List.find?_eq_none.2 fun i _ => closeReady_of_not_closing ?_
    by_cases hi : i = j
    · subst hi
      exact (journalCloses_finishClose (s.closeBegun w i) i).closing
    · rw [journal_finishClose_ne _ hi, journal_closeBegun_ne s w j hi, alone i hi]
  unfold settleRounds
  rw [settle_close (noCheckOf (banks_closeBegun s w j)) first, continueClose_ends ends,
    settle_done (noCheckOf ?_) none]
  rw [banks_finishClose, banks_countHeld, banks_closeBegun]

/-- Settles O22: the close begins; with nothing to wait for it ends in the first round of `settle`. -/
theorem journalCloseBeginsTheClose : Obligations.JournalCloseBeginsTheClose := by
  refine ⟨fun w rest s j h ha hj => ?_, fun w rest s j h ha hj open' noStep noReread noWork alone
    noCheck => ?_⟩
  · refine ⟨_, journalClose_answers h ha hj, ?_⟩
    by_cases closed : (s.journal j).state = .closed
    · rw [journalClose_closed (s := s.takeHead w) closed]
      exact ⟨rfl, rfl, rfl, fun _ => ⟨answered_takeHead s w _ _, rfl, rfl⟩,
        fun open' => absurd closed open'⟩
    · rw [journalClose_begins closed]
      have rearmed := beginClose_rearmed ((s.takeHead w).setPhase (.closing j)) j
      refine ⟨rearmed.banks, rearmed.window, rearmed.cause, fun h => absurd h closed,
        fun _ => ⟨exec_closeBegun s w j, ?_, ?_, ?_, fun l named => armed_beginClose _ j named,
          holding_closeBegun s w j, fun i => journal_closeBegun_ne s w j⟩⟩
      all_goals rw [journal_closeBegun]
  · refine ⟨_, (journalClose_answers h ha hj).trans (by rw [journalClose_begins open']), ?_⟩
    unfold State.conclude
    rw [settle_closeBegun noStep noReread noWork alone noCheck]
    obtain ⟨closed, closing, fault, -, missed, held, word, answer⟩ :=
      journalCloses_finishClose (s.closeBegun w j) j
    have lines := (ends_concludeLight s (((s.closeBegun w j).countHeld j).finishClose j)).1
    rw [journal_closeBegun] at fault missed
    rw [heldCount_closeBegun] at missed
    simp only [journal_concludeLight, line_concludeLight]
    refine ⟨closed, closing, fault, missed, heldCount_eq_zero.2 fun l => ?_, word, fun l named => ?_,
      ?_⟩
    · exact (heldFor_of_holding (by rw [line_concludeLight])).trans (held l)
    · rw [armed_finishClose]
      exact armed_beginClose _ j named
    · refine (reply_concludeLight (answer w (exec_closeBegun s w j))).2 (not_satisfied_of_word ?_)
      rw [journal_concludeLight]; exact word

/-! ### JOURNAL_LOOK -/

/-- A step's end leaves a request that is not answered as it stands. -/
theorem exec_concludeLight_unanswered {before s : State} {w : Word} {p : ExecPhase}
    (h : s.sweep.exec = some ⟨w, p⟩) (hp : ∀ r x, p ≠ .answered r x) :
    (before.concludeLight s).sweep.exec = some ⟨w, p⟩ := by
  rw [concludeLight_unanswered, (more_noteStatuses before s).eq]
  · exact h
  · intro v r x hx
    rw [h] at hx
    injection hx with hx
    injection hx with _ hx
    exact hp r x hx

theorem journalLook_closed {s : State} {j : JournalNo} (h : (s.journal j).state = .closed) :
    s.journalLook j = s.answer .refusedState .nothing := by
  unfold State.journalLook; rw [h]

theorem journalLook_faulted {s : State} {j : JournalNo} (h : (s.journal j).state = .faulted) :
    s.journalLook j = s.answer .done .nothing := by
  unfold State.journalLook; rw [h]

theorem journalLook_opened {s : State} {j : JournalNo} (h : (s.journal j).state = .opened) :
    s.journalLook j = (s.setPhase (.look j)).requestReread j := by
  unfold State.journalLook; rw [h]

/-- A re-read is requested unless one is in flight, and nothing else is touched. -/
theorem requestReread_spec (s : State) (j : JournalNo) :
    (s.requestReread j).journal j =
        (if (s.journal j).rereadInFlight then s.journal j
        else { s.journal j with
          rereadInFlight := true, fifo := (s.journal j).fifo ++ [.reread] }) ∧
      (∀ i, i ≠ j → (s.requestReread j).journal i = s.journal i) ∧
      (s.requestReread j).lines = s.lines ∧ (s.requestReread j).window = s.window ∧
      (s.requestReread j).cause = s.cause ∧ (s.requestReread j).sweep = s.sweep := by
  unfold State.requestReread State.requestJournal
  split
  · exact ⟨rfl, fun _ _ => rfl, rfl, rfl, rfl, rfl⟩
  · refine ⟨?_, fun i hi => ?_, rfl, rfl, rfl, rfl⟩
    · rw [journal_modJournal_same, journal_modJournal_same]
    · rw [journal_modJournal_ne _ _ hi, journal_modJournal_ne _ _ hi]

/-- Settles O23. -/
theorem journalLookRereads : Obligations.JournalLookRereads := by
  intro w rest s j h ha hj
  refine ⟨_, journalLook_answers h ha hj, ?_⟩
  cases state : (s.journal j).state with
  | closed =>
    rw [journalLook_closed (s := s.takeHead w) state]
    obtain ⟨reply, ⟨banks, lines, journals, window, cause⟩⟩ := replying_answer s w .refusedState
    exact ⟨banks, lines, window, cause, fun _ => ⟨reply, journals⟩, nofun, nofun⟩
  | faulted =>
    rw [journalLook_faulted (s := s.takeHead w) state]
    obtain ⟨reply, ⟨banks, lines, journals, window, cause⟩⟩ := replying_answer s w .done
    exact ⟨banks, lines, window, cause, nofun, fun _ => ⟨reply, journals⟩, nofun⟩
  | opened =>
    rw [journalLook_opened (s := s.takeHead w) state]
    obtain ⟨same, others, lines, window, cause, sweep⟩ :=
      requestReread_spec ((s.takeHead w).setPhase (.look j)) j
    have blocks := blocks_concludeLight s (((s.takeHead w).setPhase (.look j)).requestReread j)
    refine ⟨(banks_concludeLight s _).trans (banks_requestReread _ j),
      (congrArg (fun x => x.2.1) blocks).trans lines,
      (congrArg (fun x => x.2.2.2.1) blocks).trans window,
      (cause_concludeLight s _).trans cause, nofun, nofun, fun _ => ⟨?_, fun i hi => ?_, ?_⟩⟩
    · exact exec_concludeLight_unanswered (by rw [sweep]; rfl) nofun
    · rw [journal_concludeLight, others i hi]; rfl
    · rw [journal_concludeLight, same]; rfl

end Sys2Proof.Machine
end

section
/-! SUPPORT. The window check of a journal's record, a journal's step, and the end of a step (R134 to
R136, R140, R142, R147, R150). -/

namespace Sys2Proof.Machine

/-! ### The window check -/

section
variable {s : State} {q : Requester} {index : Byte} (offset length : Nat) (write : Bool)
  (domain : Byte)

theorem windowCheck_outside (h : s.window.tableCount ≤ index.toNat) :
    s.windowCheck q index offset length write domain = (s, .fail .index) := if_pos h

variable (inside : index.toNat < s.window.tableCount)
include inside

theorem windowCheck_cached {d : Descriptor} (hit : cacheFind index s.window.cache = some d) :
    s.windowCheck q index offset length write domain =
      (s.modWindow fun w => { w with cache := cacheTouch index d w.cache },
        judgeDescriptor d offset length write domain) := by
  unfold State.windowCheck
  rw [if_neg (by omega), hit]

theorem windowCheck_joins {x : Load} (miss : cacheFind index s.window.cache = none)
    (loading : loadFind index s.window.loads = some x) :
    s.windowCheck q index offset length write domain =
      (s.modWindow fun w => { w with loads := addWaiter q index w.loads }, .waiting) := by
  unfold State.windowCheck
  rw [if_neg (by omega), miss, loading]

theorem windowCheck_loads (miss : cacheFind index s.window.cache = none)
    (noLoad : loadFind index s.window.loads = none) :
    s.windowCheck q index offset length write domain =
      ((s.modWindow fun w => { w with loads := w.loads ++ [⟨index, false, [q]⟩] }).requestLoad q
        index, .waiting) := by
  unfold State.windowCheck
  rw [if_neg (by omega), miss, noLoad]

end

theorem loadFind_mem {index : Byte} {loads : List Load} {x : Load}
    (h : loadFind index loads = some x) : x ∈ loads ∧ x.index = index := by
  induction loads with
  | nil => cases h
  | cons y rest ih =>
    unfold loadFind at h
    split at h
    · rename_i same
      cases h
      exact ⟨List.mem_cons_self, same⟩
    · exact (ih h).imp_left (List.mem_cons_of_mem _)

/-- The load an access has joined has it among its waiters. -/
theorem waiter_addWaiter {q : Requester} {index : Byte} {loads : List Load} {x : Load}
    (h : loadFind index loads = some x) :
    ∃ y ∈ addWaiter q index loads, y.index = index ∧ q ∈ y.waiters := by
  obtain ⟨member, same⟩ := loadFind_mem h
  refine ⟨{ x with waiters := x.waiters ++ [q] }, ?_, same, by simp⟩
  exact List.mem_map.2 ⟨x, member, if_pos same⟩

/-! ### The window check of a record -/

theorem heldFor_of_lines {s t : State} (h : t.lines = s.lines) (j : JournalNo) (l : LineNo) :
    t.heldFor j l = s.heldFor j l :=
  heldFor_of_holding (congrArg (fun x => (x.get l).holding) h)

theorem heldCount_of_lines {s t : State} (h : t.lines = s.lines) (j : JournalNo) :
    t.heldCount j = s.heldCount j := by
  unfold State.heldCount
  rw [List.filter_congr fun l _ => by rw [heldFor_of_lines h]]

/-- A journal that becomes FAULTED from a state whose lines, produce index and missed total are those
of `s`. -/
theorem journalFaults_faultJournal {s v : State} {j : JournalNo} (code : JournalFault) (lost : Bool)
    (lines : v.lines = s.lines) (produce : (v.journal j).produce = (s.journal j).produce)
    (missed : (v.journal j).missed = (s.journal j).missed) :
    s.JournalFaults (v.faultJournal j code lost) j code (if lost then 1 else 0) := by
  obtain ⟨-, ⟨q, m, same, word⟩, cause, held⟩ := faultJournal_spec v j code lost
  constructor
  · rw [same]
  · rw [same]
  · rw [same]
  · rw [same]
  · rw [same]; exact produce
  · exact cause
  · rw [same]; exact word
  · intro l hl
    exact held l (by rwa [heldFor_of_lines lines])
  · rw [missed_faultJournal, missed, heldCount_of_lines lines]

/-- The step of a journal stands at its window check. -/
def State.atCheck (s : State) (j : JournalNo) (p : StepPlan) : State :=
  s.modJournal j fun x => { x with step := .check p }

theorem journal_atCheck (s : State) (j : JournalNo) (p : StepPlan) :
    (s.atCheck j p).journal j = { s.journal j with step := .check p } :=
  journal_modJournal_same _ _ _

theorem checkRecord_of {s : State} {j : JournalNo} {p : StepPlan} {t : State} {c : CheckResult}
    (h : (s.atCheck j p).windowCheck (.journal j) (s.journal j).window (s.journal j).slotOffset 16
      true (s.journal j).domain = (t, c)) : s.checkRecord j p = t.recordChecked j p c := by
  show State.recordChecked ((s.atCheck j p).windowCheck _ _ _ _ _ _).1 j p
    ((s.atCheck j p).windowCheck _ _ _ _ _ _).2 = _
  rw [h]

theorem writeRecord_spec (s : State) (j : JournalNo) (p : StepPlan) (addr : Nat) :
    (s.writeRecord j p addr).lines = s.lines ∧ ((s.writeRecord j p addr).journal j).step = .write p ∧
      ((s.writeRecord j p addr).journal j).fifo = (s.journal j).fifo ++ [.record addr false] := by
  unfold State.writeRecord State.requestJournal
  rw [journal_modJournal_same, journal_modJournal_same]
  exact ⟨rfl, rfl, rfl⟩

/-- The window check of a record, made in a state that is `s` but for what the step has set in its
journal. -/
theorem recordChecked_checkRecord {s u : State} {j : JournalNo} (p : StepPlan)
    (lines : u.lines = s.lines) (window : u.window = s.window)
    (produce : (u.journal j).produce = (s.journal j).produce)
    (missed : (u.journal j).missed = (s.journal j).missed) :
    s.RecordChecked (u.checkRecord j p) j (u.journal j) p := by
  have faults : ∀ (v : State) (code : JournalFault), v.lines = u.lines →
      v.journals = (u.atCheck j p).journals → s.JournalFaults (v.faultJournal j code false) j code 0 := by
    intro v code hl hj
    have journal : v.journal j = { u.journal j with step := .check p } :=
      (congrArg (fun x => x.get j) hj).trans (journal_atCheck u j p)
    exact journalFaults_faultJournal code false (hl.trans lines) (by rw [journal]; exact produce)
      (by rw [journal]; exact missed)
  refine ⟨fun outside => ?_, fun d inside hit => ⟨fun addr pass => ?_, fun sub fail => ?_⟩,
    fun inside miss => ?_⟩ <;> rw [← window] at *
  · rw [checkRecord_of (windowCheck_outside (s := u.atCheck j p) _ _ _ _ outside)]
    exact faults _ _ rfl rfl
  · rw [checkRecord_of (windowCheck_cached (s := u.atCheck j p) _ _ _ _ inside hit),
      show judgeDescriptor d (u.journal j).slotOffset 16 true (u.journal j).domain = _ from pass]
    obtain ⟨hl, step, fifo⟩ := writeRecord_spec ((u.atCheck j p).modWindow fun w =>
      { w with cache := cacheTouch (u.journal j).window d w.cache }) j p addr
    refine ⟨hl.trans lines, step, fifo.trans ?_⟩
    rw [journal_modWindow, journal_atCheck]
  · rw [checkRecord_of (windowCheck_cached (s := u.atCheck j p) _ _ _ _ inside hit),
      show judgeDescriptor d (u.journal j).slotOffset 16 true (u.journal j).domain = _ from fail]
    exact faults _ _ rfl rfl
  · cases loading : loadFind (u.journal j).window u.window.loads with
    | some x =>
      rw [checkRecord_of (windowCheck_joins (s := u.atCheck j p) _ _ _ _ inside miss loading)]
      refine ⟨lines, ?_, waiter_addWaiter loading, nofun⟩
      exact congrArg Journal.step (journal_atCheck u j p)
    | none =>
      rw [checkRecord_of (windowCheck_loads (s := u.atCheck j p) _ _ _ _ inside miss loading)]
      have journal : (((u.atCheck j p).modWindow fun w => { w with loads := w.loads ++
          [⟨(u.journal j).window, false, [.journal j]⟩] }).requestLoad (.journal j)
          (u.journal j).window).journal j = { u.journal j with
            step := .check p, fifo := (u.journal j).fifo ++ [.load (u.journal j).window] } := by
        unfold State.requestLoad State.requestJournal
        rw [journal_modJournal_same, journal_modWindow, journal_atCheck]
      exact ⟨lines, congrArg Journal.step journal,
        ⟨⟨(u.journal j).window, false, [.journal j]⟩,
          List.mem_append_right _ (List.mem_singleton_self _), rfl, List.mem_singleton_self _⟩,
        fun _ => congrArg Journal.fifo journal⟩

/-! ### A step begins -/

theorem planEvent_eq {s : State} {j : JournalNo} (l : LineNo) (h : (s.journal j).room ≠ 0) :
    s.planEvent j l = s.checkRecord j ((s.journal j).planFor l) := by
  unfold State.planEvent Journal.planFor
  dsimp only
  rw [if_neg h]
  repeat' split
  all_goals rfl

/-- A step that waits for a re-read. -/
theorem waitReread_spec (s : State) (j : JournalNo) (l : Option LineNo) :
    (s.waitReread j l).lines = s.lines ∧ ((s.waitReread j l).journal j).step = .reread l ∧
      ((s.waitReread j l).journal j).rereadInFlight = true ∧
      ((s.waitReread j l).journal j).lastGapDone = (s.journal j).lastGapDone ∧
      ((s.journal j).rereadInFlight = false →
        ((s.waitReread j l).journal j).fifo = (s.journal j).fifo ++ [.reread]) ∧
      ∀ i, i ≠ j → (s.waitReread j l).journal i = s.journal i := by
  obtain ⟨same, others, lines, -⟩ :=
    requestReread_spec (s.modJournal j fun x => { x with step := .reread l }) j
  unfold State.waitReread
  rw [same, journal_modJournal_same]
  dsimp only
  refine ⟨lines, ?_, ?_, ?_, fun h => ?_, fun i hi => ?_⟩
  · split <;> rfl
  · split
    · assumption
    · rfl
  · split <;> rfl
  · rw [h]; rfl
  · rw [others i hi, journal_modJournal_ne _ _ hi]

theorem journal_beginStep_ne (s : State) {i j : JournalNo} (l : LineNo) (h : i ≠ j) :
    (s.beginStep j l).journal i = s.journal i := by
  unfold State.beginStep
  split
  · exact (waitReread_spec s j _).2.2.2.2.2 i h
  · rename_i room
    rw [planEvent_eq l room, journal_checkRecord_ne _ h]

/-- Settles O32. -/
theorem journalStepBegins : Obligations.JournalStepBegins := by
  intro j l s released due
  refine ⟨_, exec_journalStep released due, banks_beginStep s j l,
    fun i hi => journal_beginStep_ne s l hi, fun full => ?_, fun room => ?_⟩
  · obtain ⟨lines, step, reread, -, fifo, -⟩ := waitReread_spec s j (some l)
    rw [show s.beginStep j l = _ from if_pos full]
    exact ⟨lines, step, reread, fifo⟩
  · rw [show s.beginStep j l = _ from if_neg room, planEvent_eq l room]
    exact recordChecked_checkRecord _ rfl rfl rfl rfl

/-! ### An answer stands while checks are made and closes go on -/

section
variable {w : Word} {r : Result} {x : WaitFor}

theorem answered_of_sweep {s t : State} (h : t.sweep = s.sweep) (a : s.Answered w r x) :
    t.Answered w r x := (congrArg Sweep.exec h).trans a

section
variable {s : State} (a : s.Answered w r x) (j : JournalNo)
include a

theorem answered_answerLook (y : Result) : (s.answerLook j y).Answered w r x := by
  have e : s.sweep.exec = some ⟨w, .answered r x⟩ := a
  unfold State.answerLook
  rw [e]
  dsimp only
  rw [if_neg (by simp)]
  exact a

theorem answered_answerClose : (s.answerClose j).Answered w r x := by
  have e : s.sweep.exec = some ⟨w, .answered r x⟩ := a
  unfold State.answerClose
  rw [e]
  dsimp only
  rw [if_neg (by simp)]
  exact a

theorem answered_countHeld : (s.countHeld j).Answered w r x :=
  answered_of_sweep (countHeld_missed s j).2.2.1 a

theorem answered_faultJournal (code : JournalFault) (lost : Bool) :
    (s.faultJournal j code lost).Answered w r x := by
  unfold State.faultJournal
  dsimp only
  generalize begun : (s.modJournal j fun x => { x with
      state := .faulted, fault := code, gap := 0#32, step := .idle, held := none,
      missed := if lost then x.missed + 1#32 else x.missed }) = u
  have ofU : u.Answered w r x := begun ▸ a
  have counted : ((u.countHeld j).raise (causeJournal j)).Answered w r x := answered_countHeld ofU j
  have words := answered_of_sweep (requestStatusWord_spec _ j).2.2.2.2 counted
  split
  · exact words
  · exact answered_answerLook words j .done

theorem answered_checkRecord (p : StepPlan) : (s.checkRecord j p).Answered w r x := by
  have checked : ∀ index offset length write domain, ((s.atCheck j p).windowCheck (.journal j) index
      offset length write domain).1.Answered w r x := by
    intro index offset length write domain
    unfold State.windowCheck
    repeat' split
    all_goals exact a
  unfold State.checkRecord State.recordChecked
  dsimp only
  split
  · exact checked _ _ _ _ _
  · exact answered_faultJournal (checked _ _ _ _ _) j _ _
  · exact checked _ _ _ _ _

theorem answered_requestReread : (s.requestReread j).Answered w r x :=
  answered_of_sweep (requestReread_spec s j).2.2.2.2.2 a

theorem answered_waitReread (l : Option LineNo) : (s.waitReread j l).Answered w r x :=
  answered_requestReread (s := s.modJournal j _) a j

theorem answered_beginStep (l : LineNo) : (s.beginStep j l).Answered w r x := by
  unfold State.beginStep
  split
  · exact answered_waitReread a j _
  · rename_i room
    rw [planEvent_eq l room]
    exact answered_checkRecord a j _

theorem answered_finishClose : (s.finishClose j).Answered w r x := by
  unfold State.finishClose
  refine answered_answerClose (answered_of_sweep (requestStatusWord_spec _ j).2.2.2.2 ?_) j
  exact a

theorem answered_continueClose : (s.continueClose j).Answered w r x := by
  unfold State.continueClose
  dsimp only
  repeat' split
  · exact answered_beginStep a j _
  · exact answered_finishClose a j
  · exact answered_waitReread (s := s.modJournal j _) a j none
  · exact answered_checkRecord (s := s.modJournal j _) a j .gapOnly
  · exact answered_finishClose (answered_countHeld a j) j

theorem answered_settle (n : Nat) : (settle n s).Answered w r x := by
  induction n generalizing s with
  | zero => exact a
  | succ n ih =>
    unfold settle
    split
    · exact ih (answered_of_sweep (sweep_of_beside (beside_checkNext s _)) a)
    · split
      · exact ih (answered_continueClose a _)
      · exact a

end
end

/-! ### The end of a step -/

theorem sameStatus_iff (k l : Bank) : sameStatus k l = true ↔
    k.seq.plan = l.seq.plan ∧ k.seq.stopReason = l.seq.stopReason ∧ k.seq.liveSel = l.seq.liveSel ∧
      k.seq.tag = l.seq.tag ∧ k.seq.retired = l.seq.retired ∧ k.gate.tripped = l.gate.tripped ∧
      k.gate.rearmPending = l.gate.rearmPending ∧ k.gate.trips = l.gate.trips ∧
      k.faults.sticky = l.faults.sticky ∧ k.faults.report = l.faults.report ∧
      k.faults.further = l.faults.further := by
  simp [sameStatus, and_assoc]

theorem statusesAsked_concludeLight (before s : State) :
    before.StatusesAsked (before.concludeLight s) := by
  intro b changed reporting
  have differs : sameStatus (before.bank b) (s.bank b) = false := by
    rw [Bool.eq_false_iff, Ne, sameStatus_iff]
    rintro ⟨h1, h2, h3, h4, h5, h6, h7, h8, h9, h10, h11⟩
    rw [bank_concludeLight] at changed
    simp [h1, h2, h3, h4, h5, h6, h7, h8, h9, h10, h11] at changed
  refine status_concludeLight ?_ differs
  have engine := engine_of_outer (outer_concludeLight before s)
  unfold State.reporting
  rw [← engine]
  obtain h | h := reporting <;> rw [h] <;> rfl

theorem continueClose_event {s : State} {j : JournalNo} {l : LineNo}
    (opened : (s.journal j).state = .opened) (event : s.oldest j = some l) :
    s.continueClose j = s.beginStep j l := by
  unfold State.continueClose
  dsimp only
  rw [if_pos opened, event]

/-- The last GAP record of a close is taken once (R142 step 3). -/
def State.markLastGap (s : State) (j : JournalNo) : State :=
  s.modJournal j fun x => { x with lastGapDone := true }

theorem continueClose_gap {s : State} {j : JournalNo} (opened : (s.journal j).state = .opened)
    (noEvent : s.oldest j = none) (gap : (s.journal j).gap ≠ 0#32)
    (fresh : (s.journal j).lastGapDone = false) : s.continueClose j =
      if (s.journal j).room = 0 then (s.markLastGap j).waitReread j none
      else (s.markLastGap j).checkRecord j .gapOnly := by
  unfold State.continueClose
  dsimp only
  rw [if_pos opened, noEvent]
  dsimp only
  rw [if_neg (by simp [gap, fresh])]
  rfl

theorem closeGoesOn_continueClose (s : State) (j : JournalNo) :
    s.CloseGoesOn (s.continueClose j) j where
  event := by
    intro l opened event
    rw [continueClose_event opened event]
    refine ⟨fun full => ?_, fun room => ?_⟩
    · obtain ⟨lines, step, reread, -⟩ := waitReread_spec s j (some l)
      rw [show s.beginStep j l = _ from if_pos full]
      exact ⟨lines, step, reread⟩
    · rw [show s.beginStep j l = _ from if_neg room, planEvent_eq l room]
      exact recordChecked_checkRecord _ rfl rfl rfl rfl
  gap := by
    intro opened noEvent gap fresh
    have marked : (s.markLastGap j).journal j = { s.journal j with lastGapDone := true } :=
      journal_modJournal_same _ _ _
    rw [continueClose_gap opened noEvent gap fresh]
    refine ⟨fun full => ?_, fun room x hx => ?_⟩
    · obtain ⟨lines, step, reread, done, -⟩ := waitReread_spec (s.markLastGap j) j none
      rw [if_pos full]
      exact ⟨lines, step, reread, done.trans (by rw [marked])⟩
    · rw [if_neg room, hx, ← marked]
      exact recordChecked_checkRecord _ rfl rfl (by rw [marked]) (by rw [marked])
  ends := fun h => continueClose_ends h ▸ journalCloses_finishClose s j

theorem window_concludeLight (before s : State) :
    (before.concludeLight s).window = s.window :=
  congrArg (fun x => x.2.2.2.1) (blocks_concludeLight before s)

/-- Settles O53. -/
theorem concludeKeepsEndedBanks : Obligations.ConcludeKeepsEndedBanks := by
  rintro before s u rfl
  have keeps : ∀ {v : State}, v.outer = s.outer → WorldKept s v ∧ v.sweep.queue = s.sweep.queue :=
    fun h => ⟨worldKept_of_outer h (.refl s), queue_of_outer h⟩
  obtain ⟨lines, journals⟩ := ends_concludeLight before (settle settleRounds s)
  refine ⟨(keeps (outer_conclude before s)).1, (keeps (outer_conclude before s)).2,
    fun b still bare => ?_, ⟨banks_concludeLight before _, lines, journals,
      window_concludeLight before _⟩, fun n b r first check => settle_check first check,
    fun n j noCheck first => settle_close noCheck first,
    fun n noCheck noClose => settle_done noCheck noClose,
    fun j _ => closeGoesOn_continueClose s j, statusesAsked_concludeLight before _,
    fun w r wait answered => reply_concludeLight (answered_settle answered settleRounds), ?_⟩
  · obtain ⟨-, -, -, fetch, linkRead, -, latch, -, -⟩ := bare
    exact idle_conclude before s b ⟨still, fetch, linkRead, latch⟩
  · rintro v rfl
    obtain ⟨linesLight, journalsLight⟩ := ends_concludeLight before s
    exact ⟨⟨banks_concludeLight before s, linesLight, journalsLight, window_concludeLight before s,
      keeps (outer_concludeLight before s)⟩, statusesAsked_concludeLight before s,
      fun w r wait answered => reply_concludeLight answered⟩

end Sys2Proof.Machine
end

section
/-! SUPPORT. The time events of a bank: a wait limit that expires, an advance of the counter, and a
boundary that is not final (R33, R41, R50, R58, R77, R78). -/

namespace Sys2Proof.Machine

/-! ### Starts and ends with their cues -/

/-- A start by a step of its own bank reaches the other banks (R58, R68). -/
theorem startSent_startOwn {s u : State} {b : BankNo} (f : FrameCopy) (forced : Bool)
    (unheard : ∀ c, c ≠ b → ∀ k, k = .frameStart ∨ k = .matched → Unheard s u b k c) :
    s.StartSent (u.startOwn b f forced) b :=
  ⟨cueSent_of_heard fun c hc => ((Unheard.startOwn f forced (unheard c hc) hc).1),
    fun compare => cueSent_of_heard fun c hc =>
      (Unheard.startOwn f forced (unheard c hc) hc).2 compare⟩

/-- The end of a plan in a state that differs from `u` in the one bank. -/
theorem planEnds_of_moved {s u v : State} {b : BankNo} (moved : u.BankMoved v b) (plan : PlanState)
    (reason : StopReason) (gate : (u.bank b).gate.released (u.lineTrips b) = s.releasedGate b)
    (unheard : ∀ c, c ≠ b → Unheard s u b .planEnd c) :
    s.PlanEnds (v.endPlan b plan reason) b plan reason :=
  planEnds_endPlan plan reason (by rw [moved.gate, moved.trips]; exact gate)
    fun c hc => (unheard c hc).congr (moved.others c hc)

/-- The requests of a bank that halts with no frame at fault. -/
theorem fifo_haltBank (s : State) (b : BankNo) :
    ((s.haltBank b none).bank b).fifo = ((s.bank b).fifo.filter fun r => !r.acc.fetches)
      ++ ((s.bank b).seq.live.map fun v => v.retireReq s.now v.passes .cut).toList
      ++ ((s.bank b).seq.staged.map fun f =>
        (⟨.state f.sel .ready, .unchecked⟩ : FrameReq)).toList := by
  rw [haltBank_none]; exact fifo_ended s b .cut .halted .fault

/-! ### A wait limit that expires -/

/-- A latch that awaits nothing more. -/
def State.disarm (s : State) (b : BankNo) : State :=
  s.modSeq b fun q => { q with latch := .disarmed, awaited := none, timer := none }

theorem bank_disarm (s : State) (b : BankNo) : (s.disarm b).bank b = { s.bank b with
    seq := { (s.bank b).seq with latch := .disarmed, awaited := none, timer := none } } :=
  bank_modSeq_same _ _ _

theorem cueTimeout_masked {s : State} {b : BankNo} (f : FrameCopy)
    (h : (s.bank b).faults.masks.cueTimeout = true) :
    s.cueTimeout b f = ((s.disarm b).markSticky b .cueTimeout).startOwn b f true := by
  unfold State.cueTimeout
  exact if_pos (by rw [bank_modSeq_same]; exact h)

theorem cueTimeout_unmasked {s : State} {b : BankNo} (f : FrameCopy)
    (h : (s.bank b).faults.masks.cueTimeout = false) :
    s.cueTimeout b f =
      ((s.disarm b).reportFault b .cueTimeout .none f.sel 6 .wait).haltBank b none := by
  unfold State.cueTimeout
  exact if_neg (by rw [bank_modSeq_same]; simp [h])

theorem linkRead_of_waiting {q : Sequencer} (coherent : q.Coherent) (h : q.plan = .waiting) :
    q.linkRead = false := by
  obtain ⟨-, -, -, -, -, -, -, -, link, -⟩ := coherent
  rw [Bool.eq_false_iff]
  intro reads
  have runs := (link reads).1
  rw [h] at runs
  cases runs

/-- Settles O30. -/
theorem cueTimeoutStartsOrHalts : Obligations.CueTimeoutStartsOrHalts := by
  intro b f s released coherent due
  obtain ⟨waiting, staged⟩ := timeoutDue_staged due
  have moved : s.BankMoved (s.disarm b) b := (State.BankMoved.refl s b).modSeq _
  have same : ((s.disarm b).bank b).faults = (s.bank b).faults := by rw [bank_disarm]
  refine ⟨_, exec_cueTimeout released due, ?_⟩
  cases masked : (s.bank b).faults.masks.cueTimeout with
  | true =>
    rw [cueTimeout_masked f masked]
    have marked := moved.markSticky .cueTimeout
    have bank : (((s.disarm b).markSticky b .cueTimeout).bank b) = { (s.disarm b).bank b with
        faults := { (s.bank b).faults with
          sticky := (s.bank b).faults.sticky.mark .cueTimeout } } := by
      rw [core_markSticky, same]
    obtain ⟨-, -, -, -, -, -, faults⟩ :=
      startFrame_spec ((s.disarm b).markSticky b .cueTimeout) b f true
    rw [bank] at faults
    have own := bank_startOwn ((s.disarm b).markSticky b .cueTimeout) b f true
    refine ⟨?_, fun _ => ⟨?_, startSent_startOwn f true fun c hc k _ => marked.unheard hc k, ?_⟩, nofun⟩
    · rw [own, faults]; rfl
    · have starts := frameStarts_startFrame (s := s) own (by rw [bank, bank_disarm])
        (by rw [bank, bank_disarm])
        (by rw [bank, bank_disarm]
            exact show (s.bank b).seq.linkRead = false from linkRead_of_waiting (coherent b) waiting)
      rwa [bank, bank_disarm] at starts
    · rw [own, faults]
  | false =>
    rw [cueTimeout_unmasked f masked]
    have reports : s.Reports (((s.disarm b).reportFault b .cueTimeout .none f.sel 6 .wait).haltBank b
        none) b (s.bank b).faults.sticky .cueTimeout .none f.sel 6 .wait := by
      have r := reports_reportFault (s := s) (u := s.disarm b) (cls := .cueTimeout) (sub := .none)
        (sel := f.sel) (field := 6) (phase := .wait) (faults_haltBank _ b none)
        (fun _ => causeBit_haltBank _ b none) (by rw [same]) moved.now
      rwa [same] at r
    refine ⟨by rw [reports.sticky]; rfl, nofun, fun _ =>
      ⟨(moved.reportFault _ _ _ _ _).planEnds_haltBank none, reports, ?_⟩⟩
    rw [fifo_haltBank, bank_reportFault, bank_disarm]
    exact List.mem_append_right _ (by rw [staged]; exact List.mem_singleton_self _)

/-! ### The counter advances -/

/-- The bank whose counter has advanced, before its cue. -/
def State.counted (s : State) (b : BankNo) (count : Nat) (dir : Direction) : State :=
  (s.modBank b fun k => k.takeCount count dir).refreshPins b

theorem bank_counted (s : State) (b : BankNo) (count : Nat) (dir : Direction) :
    (s.counted b count dir).bank b = ((s.bank b).takeCount count dir).refreshPins := by
  unfold State.counted State.refreshPins
  rw [bank_modBank_same, bank_modBank_same]

theorem other_counted (s : State) {b c : BankNo} (count : Nat) (dir : Direction) (h : c ≠ b) :
    (s.counted b count dir).bank c = s.bank c := by
  unfold State.counted State.refreshPins
  rw [bank_modBank_ne _ _ h, bank_modBank_ne _ _ h]

theorem seq_counted (s : State) (b c : BankNo) (count : Nat) (dir : Direction) :
    ((s.counted b count dir).bank c).seq = (s.bank c).seq ∧
      ((s.counted b count dir).bank c).fifo = (s.bank c).fifo := by
  obtain rfl | hc := eq_or_ne c b
  · rw [bank_counted, seq_refresh, fifo_refresh]
    exact ⟨rfl, rfl⟩
  · rw [other_counted s count dir hc]
    exact ⟨rfl, rfl⟩

theorem matches0_counted (s : State) (b : BankNo) (count : Nat) (dir : Direction) :
    ((s.counted b count dir).bank b).matches0 =
      decide (count = (s.bank b).seq.settings.q0.compare) := by
  unfold Bank.matches0
  rw [bank_counted, counter_refresh, seq_refresh]
  rfl

theorem advanceCounter_eq (s : State) (b : BankNo) (count : Nat) (dir : Direction) :
    s.advanceCounter b count dir = (s.counted b count dir).matchCue b := rfl

/-- Settles O26: MATCH can do no more to the bank itself than set its latch. -/
theorem counterAdvanceTakesTheNextValue : Obligations.CounterAdvanceTakesTheNextValue := by
  rintro b v count dir s ⟨⟨released, due⟩, next⟩
  obtain ⟨runs, live, -⟩ := advanceDue_live due
  refine ⟨_, exec_counterAdvance released due next, ?_⟩
  obtain ⟨t, ht⟩ : ∃ t, t = (s.counted b count dir).matchCue b := ⟨_, rfl⟩
  rw [advanceCounter_eq, ← ht]
  have still : ((s.counted b count dir).bank b).seq.plan ≠ .waiting := by
    rw [(seq_counted s b b count dir).1]; exact running_ne_waiting runs
  obtain ⟨l, -, bank⟩ := relatched_matchCue (s.counted b count dir) b b still
  rw [← ht] at bank
  have seq : (t.bank b).seq = { (s.bank b).seq with latch := l } := by
    rw [bank]; unfold Bank.relatch; dsimp only; rw [(seq_counted s b b count dir).1]
  have wave : (t.bank b).wave = (((s.bank b).takeCount count dir).refreshPins).wave := by
    rw [bank, ← bank_counted]; rfl
  have beside : t.beside = s.beside := ht ▸ beside_matchCue (s.counted b count dir) b
  refine ⟨?_, ?_, ?_, ?_, by rw [seq]; exact live, by rw [seq],
    ht ▸ pinsFollow_matchCue still (pinsFollow_refreshPins _ b), lines_of_beside beside,
    journals_of_beside beside, fun equal c => ?_, fun differs => ?_⟩
  · rw [wave, counter_refresh]; rfl
  · rw [wave, dir_refresh]; rfl
  · rw [wave, advanceDue_refresh]; rfl
  · rw [wave, lastRef_refresh]; rfl
  · have emitted : t = (s.counted b count dir).emit b .matched :=
      ht.trans (if_pos (by rw [matches0_counted]; exact decide_eq_true equal))
    rw [emitted]
    have unheard : Unheard s (s.counted b count dir) b .matched c :=
      fun _ _ => seq_counted s b c count dir
    exact cueReaches_of_heard (unheard.heard 3)
  · have quiet : t = s.counted b count dir :=
      ht.trans (if_neg (by rw [matches0_counted]; simp [differs]))
    rw [quiet]
    exact ⟨fun c hc => other_counted s count dir hc, (seq_counted s b b count dir).1⟩

/-! ### The link of the live frame -/

theorem bank_readLink {s : State} {b : BankNo} {v : Live} (live : (s.bank b).seq.live = some v) :
    (s.readLink b).bank b = { s.bank b with
      seq := { (s.bank b).seq with
        linkRead := (s.bank b).seq.mayReadLink || (s.bank b).seq.linkRead }
      fifo := (s.bank b).fifo ++
        if (s.bank b).seq.mayReadLink then [⟨.link v.sel, .unchecked⟩] else [] } := by
  cases may : (s.bank b).seq.mayReadLink with
  | true =>
    rw [readLink_may live may]
    unfold State.requestFrame
    rw [bank_modBank_same, bank_modSeq_same]
    rfl
  | false =>
    have none : s.readLink b = s := by
      unfold State.readLink; rw [live]; exact if_neg (by simp [may])
    rw [none, if_neg (by decide), List.append_nil, Bool.false_or]

/-! ### A further pass -/

/-- The bank at the start of a further pass, before its MATCH cue. -/
def State.passBegun (s : State) (b : BankNo) : State :=
  ((s.modBank b fun k => k.takeCount 0 .up).readLink b).refreshPins b

theorem nextPass_eq (s : State) (b : BankNo) : s.nextPass b = (s.passBegun b).matchCue b := rfl

theorem core_passBegun {s : State} {b : BankNo} {v : Live}
    (live : (s.bank b).seq.live = some v) : ((s.passBegun b).bank b).core =
      ({ (s.bank b).seq with
          linkRead := (s.bank b).seq.mayReadLink || (s.bank b).seq.linkRead },
        (s.bank b).faults,
        (s.bank b).fifo ++
          (if (s.bank b).seq.mayReadLink then [⟨.link v.sel, .unchecked⟩] else []),
        0, .up, false, references (s.bank b).seq.settings (s.bank b).wave.lastRef 0) := by
  have taken : (s.modBank b fun k => k.takeCount 0 .up).bank b = (s.bank b).takeCount 0 .up :=
    bank_modBank_same _ _ _
  unfold State.passBegun
  rw [core_refreshPins, bank_readLink (v := v) (by rw [taken]; exact live), taken]
  rfl

/-- A running bank in its further pass. -/
theorem nextPass_bank {s : State} {b : BankNo} {v : Live}
    (runs : (s.bank b).seq.plan.isRunning = true) (live : (s.bank b).seq.live = some v) :
    (∃ l, ((s.nextPass b).bank b).seq = { (s.bank b).seq with
      linkRead := (s.bank b).seq.mayReadLink || (s.bank b).seq.linkRead, latch := l }) ∧
    ((s.nextPass b).bank b).faults = (s.bank b).faults ∧
    ((s.nextPass b).bank b).fifo = (s.bank b).fifo ++
      (if (s.bank b).seq.mayReadLink then [⟨.link v.sel, .unchecked⟩] else []) ∧
    ((s.nextPass b).bank b).wave.counter = 0 ∧ ((s.nextPass b).bank b).wave.dir = .up ∧
    ((s.nextPass b).bank b).wave.advanceDue = false ∧
    ((s.nextPass b).bank b).wave.lastRef =
      references (s.bank b).seq.settings (s.bank b).wave.lastRef 0 := by
  have core := core_passBegun (b := b) live
  have seq : ((s.passBegun b).bank b).seq = _ := congrArg Prod.fst core
  obtain ⟨l, -, bank⟩ := relatched_matchCue (s.passBegun b) b b
    (by rw [seq]; exact running_ne_waiting runs)
  rw [nextPass_eq, bank]
  refine ⟨⟨l, ?_⟩, congrArg (fun x => x.2.1) core, congrArg (fun x => x.2.2.1) core,
    congrArg (fun x => x.2.2.2.1) core, congrArg (fun x => x.2.2.2.2.1) core,
    congrArg (fun x => x.2.2.2.2.2.1) core, congrArg (fun x => x.2.2.2.2.2.2) core⟩
  unfold Bank.relatch
  dsimp only
  rw [seq]

/-- The MATCH cue of a pass whose channel 0 compares with 0 is heard. -/
theorem heard_nextPass {s u : State} {b c : BankNo} {v : Live}
    (live : (u.bank b).seq.live = some v) (compare : (u.bank b).seq.settings.q0.compare = 0)
    (hc : c ≠ b) (unheard : Unheard s u b .matched c) :
    Heard s (u.nextPass b) b .matched c := by
  have core := core_passBegun (b := b) live
  have seq : ((u.passBegun b).bank b).seq = _ := congrArg Prod.fst core
  have counter : ((u.passBegun b).bank b).wave.counter = 0 :=
    congrArg (fun x => x.2.2.2.1) core
  have matched : ((u.passBegun b).bank b).matches0 = true := by
    unfold Bank.matches0
    rw [counter, seq]
    exact decide_eq_true compare.symm
  rw [nextPass_eq, show (u.passBegun b).matchCue b = _ from if_pos matched]
  refine Unheard.heard 3 (unheard.congr ?_)
  unfold State.passBegun
  rw [bank_refreshPins_ne _ hc, bank_readLink_ne _ hc, bank_modBank_ne _ _ hc]

/-! ### A boundary that is not final -/

theorem lines_passEnd (s : State) (b : BankNo) : (s.passEnd b).lines = s.lines :=
  lines_of_beside (beside_passEnd s b)

theorem now_passEnd (s : State) (b : BankNo) : (s.passEnd b).now = s.now :=
  now_of_outer (outer_of_beside (beside_passEnd s b))

/-- After the end of a pass: the sequencer, faults and requests of the bank. -/
theorem passEnd_spec {s : State} {b : BankNo} {v : Live}
    (runs : (s.bank b).seq.plan.isRunning = true) (live : (s.bank b).seq.live = some v) :
    ∃ l, (s.bank b).seq.latch.mayBecome l ∧
      ((s.passEnd b).bank b).seq =
        { (s.bank b).seq with live := some { v with passes := satInc v.passes }, latch := l } ∧
      ((s.passEnd b).bank b).faults = (s.bank b).faults ∧
      ((s.passEnd b).bank b).fifo = (s.bank b).fifo ∧
      ((s.passEnd b).bank b).wave.lastRef = (s.bank b).wave.lastRef := by
  obtain ⟨l, latch, core⟩ := core_passEnd s b v runs live
  exact ⟨l, latch, congrArg Prod.fst core, congrArg (fun x => x.2.1) core,
    congrArg (fun x => x.2.2.1) core, congrArg (fun x => x.2.2.2.2.2.2) core⟩

/-- A stop after the end of a pass (R41). -/
theorem stop_passEnd {s : State} {b : BankNo} {v : Live}
    (runs : (s.bank b).seq.plan.isRunning = true) (live : (s.bank b).seq.live = some v)
    (code : FrameState) :
    s.PlanEnds ((s.passEnd b).stopBank b code) b .dormant .stopped ∧
      s.CueSent ((s.passEnd b).stopBank b code) b .boundary ∧
      v.retireReq s.now (satInc v.passes) code ∈
        (((s.passEnd b).stopBank b code).bank b).fifo ∧
      ∀ f, (s.bank b).seq.staged = some f →
        ⟨.state f.sel .ready, .unchecked⟩ ∈ (((s.passEnd b).stopBank b code).bank b).fifo := by
  obtain ⟨l, -, seq, -, -, -⟩ := passEnd_spec runs live
  have fifo := fifo_ended (s.passEnd b) b code .dormant .stopped
  have quiet := running_ne_waiting runs
  refine ⟨?_, ?_, ?_, fun f staged => ?_⟩
  · exact planEnds_of_moved (((State.BankMoved.refl (s.passEnd b) b).retireLive code).returnStaged) _ _
      (gate_passEnd_twice s b) fun c hc => (heard_passEnd s quiet hc).2 _ nofun
  · exact cueSent_of_heard fun c hc => (heard_passEnd s quiet hc).1.stopBank code hc
  · rw [show ((s.passEnd b).stopBank b code).bank b = _ from rfl]
    refine fifo ▸ List.mem_append_left _ (List.mem_append_right _ ?_)
    rw [seq, now_passEnd]
    exact List.mem_singleton_self _
  · refine fifo ▸ List.mem_append_right _ ?_
    rw [seq]
    dsimp only
    rw [staged]
    exact List.mem_singleton_self _

theorem innerBoundary_stops {s : State} {b : BankNo}
    (h : ((s.passEnd b).bank b).seq.pendingStop = true) :
    s.innerBoundary b = (s.passEnd b).stopBank b .cut := if_pos h

/-- One repeat of the live frame is taken. -/
def State.takeRepeat (s : State) (b : BankNo) : State :=
  s.modSeq b fun q => q.modLive fun v => { v with repeatRemaining := v.repeatRemaining - 1 }

theorem innerBoundary_goesOn {s : State} {b : BankNo}
    (h : ((s.passEnd b).bank b).seq.pendingStop = false) :
    s.innerBoundary b = ((s.passEnd b).takeRepeat b).nextPass b := if_neg (by simp [h])

theorem bank_takeRepeat (s : State) (b : BankNo) : (s.takeRepeat b).bank b = { s.bank b with
    seq := (s.bank b).seq.modLive fun v =>
      { v with repeatRemaining := v.repeatRemaining - 1 } } := bank_modSeq_same _ _ _

theorem other_takeRepeat (s : State) {b c : BankNo} (h : c ≠ b) :
    (s.takeRepeat b).bank c = s.bank c := bank_modSeq_ne _ _ h

/-- Settles O28: the end of the pass, then a stop or a further pass. -/
theorem boundaryBeginsTheNextPass : Obligations.BoundaryBeginsTheNextPass := by
  rintro b v s ⟨⟨released, due⟩, noNext⟩ repeats
  obtain ⟨runs, live, -⟩ := advanceDue_live due
  obtain ⟨l, -, seq, -, fifo, lastRef⟩ := passEnd_spec runs live
  have quiet := running_ne_waiting runs
  refine ⟨_, exec_boundary released due noNext repeats, ?_⟩
  cases pending : (s.bank b).seq.pendingStop with
  | true =>
    rw [innerBoundary_stops (by rw [seq]; exact pending)]
    obtain ⟨⟨ended, counter, cause, gate, pins, sent⟩, boundary, retired, returned⟩ :=
      stop_passEnd runs live .cut
    exact ⟨gate, pins, boundary, nofun, fun _ => ⟨ended, cause, counter, sent, retired, returned⟩⟩
  | false =>
    rw [innerBoundary_goesOn (by rw [seq]; exact pending)]
    have taken : ((s.passEnd b).takeRepeat b).bank b = { (s.passEnd b).bank b with
        seq := { (s.bank b).seq with
          live := some { v with
            passes := satInc v.passes, repeatRemaining := v.repeatRemaining - 1 }
          latch := l } } := by
      rw [bank_takeRepeat, seq]; rfl
    have takenLive : (((s.passEnd b).takeRepeat b).bank b).seq.live = some { v with
        passes := satInc v.passes, repeatRemaining := v.repeatRemaining - 1 } := by rw [taken]
    have may : (((s.passEnd b).takeRepeat b).bank b).seq.mayReadLink =
        (s.bank b).seq.mayReadLink := by rw [taken]; rfl
    obtain ⟨⟨m, seq'⟩, -, fifo', counter, dir, advance, refs⟩ :=
      nextPass_bank (by rw [taken]; exact runs) takenLive
    rw [may, taken] at fifo' seq'
    dsimp only at fifo' seq'
    rw [fifo] at fifo'
    refine ⟨?_, pinsFollow_nextPass _ b (by rw [taken]; exact quiet), ?_, fun _ =>
      ⟨fun compare => ?_, counter, dir, advance, ?_, by rw [seq'], by rw [seq'], ?_, ?_⟩, nofun⟩
    · rw [gate_nextPass, taken, gate_passEnd]; rfl
    · exact cueSent_of_heard fun c hc =>
        Heard.nextPass hc ((heard_passEnd s quiet hc).1.congr (other_takeRepeat _ hc))
    · exact cueSent_of_heard fun c hc =>
        heard_nextPass takenLive (by rw [taken]; exact compare) hc
          (((heard_passEnd s quiet hc).2 .matched nofun).congr (other_takeRepeat _ hc))
    · rw [refs, taken]; dsimp only; rw [lastRef]
    · rintro ⟨empty, noLink⟩
      have reads := (mayReadLink_iff (s.bank b).seq).2 ⟨runs, empty, noLink⟩
      rw [seq', fifo', reads]
      exact ⟨rfl, rfl⟩
    · intro busy
      have reads : (s.bank b).seq.mayReadLink = false := by
        rw [Bool.eq_false_iff, Ne, mayReadLink_iff]
        rintro ⟨-, empty, noLink⟩
        simp [empty, noLink] at busy
      rw [seq', fifo', reads]
      exact ⟨rfl, List.append_nil _⟩

end Sys2Proof.Machine
end

section
/-! SUPPORT. What a final boundary decides (R34 to R41). -/

namespace Sys2Proof.Machine

/-! ### After the end of the pass -/

/-- The state after the end of a pass of a running bank, against the state before it. -/
structure State.PassEnded (s u : State) (b : BankNo) (v : Live) : Prop where
  seq : ∃ l, (s.bank b).seq.latch.mayBecome l ∧ (u.bank b).seq =
    { (s.bank b).seq with live := some { v with passes := satInc v.passes }, latch := l }
  faults : (u.bank b).faults = (s.bank b).faults
  fifo : (u.bank b).fifo = (s.bank b).fifo
  now : u.now = s.now
  gate : (u.bank b).gate = s.releasedGate b
  released : (u.bank b).gate.released (u.lineTrips b) = s.releasedGate b
  heard : ∀ c, c ≠ b → Heard s u b .boundary c
  unheard : ∀ c, c ≠ b → ∀ k, k ≠ .boundary → Unheard s u b k c

theorem passEnded {s : State} {b : BankNo} {v : Live}
    (runs : (s.bank b).seq.plan.isRunning = true) (live : (s.bank b).seq.live = some v) :
    s.PassEnded (s.passEnd b) b v := by
  obtain ⟨l, latch, seq, faults, fifo, -⟩ := passEnd_spec runs live
  have quiet := running_ne_waiting runs
  exact ⟨⟨l, latch, seq⟩, faults, fifo, now_passEnd s b, gate_passEnd s b, gate_passEnd_twice s b,
    fun c hc => (heard_passEnd s quiet hc).1, fun c hc => (heard_passEnd s quiet hc).2⟩

/-! ### The frame spent -/

/-- A live frame whose passes are spent is retired, and its bank goes on or ends. -/
structure State.Retired (s u : State) (b : BankNo) (v : Live) (code : FrameState) : Prop where
  seq : ∃ l, (s.bank b).seq.latch.mayBecome l ∧
    (u.bank b).seq = { (s.bank b).seq with live := none, latch := l }
  fifo : (u.bank b).fifo = (s.bank b).fifo ++ [v.retireReq s.now (satInc v.passes) code]
  gate : (u.bank b).gate = s.releasedGate b
  released : (u.bank b).gate.released (u.lineTrips b) = s.releasedGate b
  now : u.now = s.now
  heard : ∀ c, c ≠ b → Heard s u b .boundary c
  unheard : ∀ c, c ≠ b → ∀ k, k ≠ .boundary → Unheard s u b k c

/-- From a state that has moved in the one bank since the end of the pass, and not in its sequencer
or requests. -/
theorem State.PassEnded.retire {s u t : State} {b : BankNo} {v : Live} (h : s.PassEnded u b v)
    (moved : u.BankMoved t b) (seq : (t.bank b).seq = (u.bank b).seq)
    (fifo : (t.bank b).fifo = (u.bank b).fifo) (code : FrameState) :
    s.Retired (t.retireLive b code) b v code := by
  obtain ⟨l, latch, ended⟩ := h.seq
  have live : (t.bank b).seq.live = some { v with passes := satInc v.passes } := by
    rw [seq, ended]
  obtain ⟨seqRetired, fifoRetired⟩ := retireLive_live live code
  have retired := moved.retireLive code
  refine ⟨⟨l, latch, by rw [seqRetired, seq, ended]⟩, ?_, retired.gate.trans h.gate, ?_,
    retired.now.trans h.now, fun c hc => (h.heard c hc).congr (retired.others c hc),
    fun c hc k hk => (h.unheard c hc k hk).congr (retired.others c hc)⟩
  · rw [fifoRetired, fifo, h.fifo, moved.now, h.now]; rfl
  · rw [retired.gate, retired.trips]; exact h.released

/-- A bank without a live frame halts with no more than its staged frame returned. -/
theorem haltBank_retired {u : State} {b : BankNo} (h : (u.bank b).seq.live = none) :
    u.haltBank b none = (u.returnStaged b).endPlan b .halted .fault := by
  rw [haltBank_none]
  congr 2
  unfold State.retireLive
  rw [h]

theorem retire_mem_endPlan {u : State} {b : BankNo} {plan : PlanState} {reason : StopReason}
    {v : Live} {now : Stamp} {passes : BitVec 32} {code : FrameState}
    (h : v.retireReq now passes code ∈ (u.bank b).fifo) :
    v.retireReq now passes code ∈ ((u.endPlan b plan reason).bank b).fifo := by
  rw [fifo_endPlan]
  exact List.mem_filter.2 ⟨h, rfl⟩

/-- What a bank whose last frame is retired comes to where its plan ends. -/
structure State.RetiredEnd (s t : State) (b : BankNo) (v : Live) (plan : PlanState)
    (reason : StopReason) (code : FrameState) : Prop where
  ends : s.PlanEnds t b plan reason
  boundary : s.CueSent t b .boundary
  retired : v.retireReq s.now (satInc v.passes) code ∈ (t.bank b).fifo

theorem State.Retired.endPlan {s u : State} {b : BankNo} {v : Live} {code : FrameState}
    (h : s.Retired u b v code) (plan : PlanState) (reason : StopReason) :
    s.RetiredEnd (u.endPlan b plan reason) b v plan reason code where
  ends := planEnds_endPlan plan reason h.released fun c hc => h.unheard c hc _ nofun
  boundary := cueSent_of_heard fun c hc => (h.heard c hc).endPlan plan reason hc
  retired := retire_mem_endPlan (by rw [h.fifo]; exact List.mem_append_right _ (by simp))

theorem State.Retired.haltBank {s u : State} {b : BankNo} {v : Live} {code : FrameState}
    (h : s.Retired u b v code) : s.RetiredEnd (u.haltBank b none) b v .halted .fault code := by
  obtain ⟨l, -, seq⟩ := h.seq
  have moved := (State.BankMoved.refl u b).returnStaged
  rw [haltBank_retired (by rw [seq])]
  refine ⟨planEnds_of_moved moved _ _ h.released fun c hc => h.unheard c hc _ nofun,
    cueSent_of_heard fun c hc => ((h.heard c hc).congr (moved.others c hc)).endPlan _ _ hc,
    retire_mem_endPlan ?_⟩
  obtain ⟨-, -, keeps, -⟩ := returnStaged_spec u b
  exact keeps _ (by rw [h.fifo]; exact List.mem_append_right _ (by simp))

/-! ### A successor -/

theorem takeSuccessor_starts {u : State} {b : BankNo} {f : FrameCopy}
    (h : f.start = .now ∨ ((u.retireLive b .spent).bank b).seq.latch = .set) :
    u.takeSuccessor b f = (u.retireLive b .spent).startOwn b f false :=
  if_pos (by simpa using h)

theorem takeSuccessor_waits {u : State} {b : BankNo} {f : FrameCopy}
    (h : ¬ (f.start = .now ∨ ((u.retireLive b .spent).bank b).seq.latch = .set)) :
    u.takeSuccessor b f = (u.retireLive b .spent).enterWaiting b f :=
  if_neg (by simpa using h)

theorem bank_enterWaiting (s : State) (b : BankNo) (f : FrameCopy) :
    (s.enterWaiting b f).bank b = ({ s.bank b with
      seq := { (s.bank b).seq with plan := .waiting, live := none, timer := f.expiry s.now }
      wave := (s.bank b).wave.atZero } : Bank).refreshPins := by
  unfold State.enterWaiting State.refreshPins
  rw [bank_modBank_same, bank_modBank_same]

/-- A frame that waits, in a bank whose latch awaits its start. -/
theorem frameWaits_enterWaiting {s u : State} {b : BankNo} {f : FrameCopy}
    (tag : (u.bank b).seq.tag = .valid) (staged : (u.bank b).seq.staged = some f)
    (armed : (u.bank b).seq.latch = .armed) (now : u.now = s.now) :
    s.FrameWaits (u.enterWaiting b f) b f (u.bank b).fifo := by
  have pins := pinsFollow_enterWaiting u b f
  constructor <;> (try rw [bank_enterWaiting, seq_refresh])
  · exact tag
  · exact staged
  · exact armed
  · show f.expiry u.now = _
    rw [now]; rfl
  · rw [bank_enterWaiting, counter_refresh]; rfl
  · exact pins
  · rw [bank_enterWaiting, fifo_refresh]

/-! ### The latch after the boundary's own cue -/

/-- The bank at the end of its pass, before BOUNDARY. -/
def State.passCounted (s : State) (b : BankNo) : State :=
  s.modBank b fun k => { k with
    seq := k.seq.modLive fun v => { v with passes := satInc v.passes }
    wave := k.wave.atZero }

theorem seq_passEnd (s : State) (b : BankNo) :
    ((s.passEnd b).bank b).seq = (((s.passCounted b).emit b .boundary).bank b).seq :=
  congrArg Prod.fst (core_releaseGate ((s.passCounted b).emit b .boundary) b)

theorem seq_passCounted (s : State) (b : BankNo) : ((s.passCounted b).bank b).seq =
    (s.bank b).seq.modLive fun v => { v with passes := satInc v.passes } := by
  unfold State.passCounted; rw [bank_modBank_same]

/-- A latch that awaits this boundary is set by it (R73). -/
theorem latch_passEnd_own {s : State} {b : BankNo} (runs : (s.bank b).seq.plan.isRunning = true)
    (armed : (s.bank b).seq.latch = .armed)
    (awaits : (s.bank b).seq.awaited = some (.cue b .boundary)) :
    ((s.passEnd b).bank b).seq.latch = .set := by
  have seq := seq_passCounted s b
  rw [seq_passEnd]
  show ((offer 4 (.cue b .boundary) (s.passCounted b)).bank b).seq.latch = .set
  rw [bank_offer_awaited 3 _ _ b (by rw [seq]; exact running_ne_waiting runs)
    (by rw [seq]; exact armed) (by rw [seq]; exact awaits)]
  rfl

/-- A latch that awaits another cue, which no start on this tick can send, stays as it was. -/
theorem latch_passEnd_other {s : State} {b : BankNo} (runs : (s.bank b).seq.plan.isRunning = true)
    (other : (s.bank b).seq.awaited ≠ some (.cue b .boundary))
    (quiet : ∀ c k, (s.bank b).seq.awaited = some (.cue c k) → (s.bank c).seq.plan ≠ .waiting) :
    ((s.passEnd b).bank b).seq.latch = (s.bank b).seq.latch := by
  have seq := seq_passCounted s b
  rw [seq_passEnd]
  show ((offer 4 (.cue b .boundary) (s.passCounted b)).bank b).seq.latch = _
  rw [bank_offer_unheard 4 _ _ b (by rw [seq]; exact other), seq]
  · rfl
  · intro c k awaits
    rw [seq] at awaits
    obtain rfl | hc := eq_or_ne c b
    · rw [seq]; exact running_ne_waiting runs
    · unfold State.passCounted
      rw [bank_modBank_ne _ _ hc]
      exact quiet c k awaits

/-! ### The rows of the decision -/

section
variable {s : State} {b : BankNo} {v : Live}
  (runs : (s.bank b).seq.plan.isRunning = true) (live : (s.bank b).seq.live = some v)
include runs live

theorem lastBoundary_stops (h : (s.bank b).seq.pendingStop = true) :
    s.lastBoundary b v = (s.passEnd b).stopBank b .spent := by
  obtain ⟨l, -, seq⟩ := (passEnded runs live).seq
  exact if_pos (by rw [seq]; exact h)

variable (goesOn : (s.bank b).seq.pendingStop = false)
include goesOn

theorem lastBoundary_decides : s.lastBoundary b v = (s.passEnd b).finalDecision b v := by
  obtain ⟨l, -, seq⟩ := (passEnded runs live).seq
  exact if_neg (by rw [seq]; simp [goesOn])

theorem lastBoundary_valid {f : FrameCopy} (tag : (s.bank b).seq.tag = .valid)
    (staged : (s.bank b).seq.staged = some f) :
    s.lastBoundary b v = (s.passEnd b).takeSuccessor b f := by
  obtain ⟨l, -, seq⟩ := (passEnded runs live).seq
  rw [lastBoundary_decides runs live goesOn]
  unfold State.finalDecision
  rw [seq]
  dsimp only
  rw [tag, staged]

theorem lastBoundary_rejected (tag : (s.bank b).seq.tag = .rejected) :
    s.lastBoundary b v = ((s.passEnd b).retireLive b .spent).haltBank b none := by
  obtain ⟨l, -, seq⟩ := (passEnded runs live).seq
  rw [lastBoundary_decides runs live goesOn]
  unfold State.finalDecision
  rw [seq]
  dsimp only
  rw [tag]

theorem lastBoundary_late (late : (s.bank b).seq.tag = .pending ∨
    (s.bank b).seq.tag = .empty ∧ (s.bank b).seq.linkRead = true) :
    s.lastBoundary b v = (s.passEnd b).late b := by
  obtain ⟨l, -, seq⟩ := (passEnded runs live).seq
  rw [lastBoundary_decides runs live goesOn]
  unfold State.finalDecision
  rw [seq]
  dsimp only
  obtain tag | ⟨tag, reads⟩ := late
  · rw [tag]
  · rw [tag]
    dsimp only
    rw [if_pos reads]

variable (tag : (s.bank b).seq.tag = .empty) (noLink : (s.bank b).seq.linkRead = false)
include tag noLink

theorem lastBoundary_hold (hold : v.endAction = .hold) : s.lastBoundary b v =
    (((s.passEnd b).modSeq b fun q => { q with plan := .starved }).extendLive b).nextPass b := by
  obtain ⟨l, -, seq⟩ := (passEnded runs live).seq
  rw [lastBoundary_decides runs live goesOn]
  unfold State.finalDecision
  rw [seq]
  dsimp only
  rw [tag]
  dsimp only
  rw [if_neg (by simp [noLink]), hold]

theorem lastBoundary_ends (stop : v.endAction = .stop) : s.lastBoundary b v =
    ((s.passEnd b).retireLive b .spentEnd).endPlan b .dormant .ended := by
  obtain ⟨l, -, seq⟩ := (passEnded runs live).seq
  rw [lastBoundary_decides runs live goesOn]
  unfold State.finalDecision
  rw [seq]
  dsimp only
  rw [tag]
  dsimp only
  rw [if_neg (by simp [noLink]), stop]

end

/-! ### What every row has -/

/-- A TRIPPED gate has taken its boundary action, the pins follow, BOUNDARY is sent, and PLAN_END
where the plan has ended. -/
structure State.Decided (s t : State) (b : BankNo) : Prop where
  gate : (t.bank b).gate = s.releasedGate b
  pins : (t.bank b).PinsFollow
  boundary : s.CueSent t b .boundary
  planEnd : (t.bank b).seq.plan = .dormant ∨ (t.bank b).seq.plan = .halted → s.CueSent t b .planEnd

theorem State.PlanEnds.decided {s t : State} {b : BankNo} {plan : PlanState} {reason : StopReason}
    (h : s.PlanEnds t b plan reason) (boundary : s.CueSent t b .boundary) : s.Decided t b :=
  ⟨h.gate, h.pins, boundary, fun _ => h.sent⟩

theorem State.RetiredEnd.decided {s t : State} {b : BankNo} {v : Live} {plan : PlanState}
    {reason : StopReason} {code : FrameState} (h : s.RetiredEnd t b v plan reason code) :
    s.Decided t b := h.ends.decided h.boundary

/-! ### A frame that runs on -/

/-- A frame that runs on beyond its passes: the next pass, from a state that has moved since the end
of the last one in plan, faults and the frame's flag alone. -/
structure State.RunsOn (s t : State) (b : BankNo) (v : Live) (plan : PlanState) : Prop where
  decided : s.Decided t b
  plan_eq : (t.bank b).seq.plan = plan
  live : (t.bank b).seq.live = some { v with passes := satInc v.passes, extended := true }
  counter : (t.bank b).wave.counter = 0
  tag : (t.bank b).seq.tag = (s.bank b).seq.tag
  fetch : (t.bank b).seq.fetch = (s.bank b).seq.fetch
  noLink : (s.bank b).seq.mayReadLink = false →
    (t.bank b).seq.linkRead = (s.bank b).seq.linkRead ∧ (t.bank b).fifo = (s.bank b).fifo
  link : (s.bank b).seq.mayReadLink = true →
    (t.bank b).seq.linkRead = true ∧
      (t.bank b).fifo = (s.bank b).fifo ++ [⟨.link v.sel, .unchecked⟩]

theorem bank_extendLive (s : State) (b : BankNo) : (s.extendLive b).bank b = { s.bank b with
    seq := (s.bank b).seq.modLive fun v => { v with extended := true } } := bank_modSeq_same _ _ _

theorem State.PassEnded.runsOn {s u t : State} {b : BankNo} {v : Live} {plan : PlanState}
    (h : s.PassEnded u b v) (moved : u.BankMoved t b)
    (seq : (t.bank b).seq = { (u.bank b).seq with plan }) (fifo : (t.bank b).fifo = (u.bank b).fifo)
    (runs : plan.isRunning = true) (was : (s.bank b).seq.plan.isRunning = true) :
    s.RunsOn ((t.extendLive b).nextPass b) b v plan ∧
      (((t.extendLive b).nextPass b).bank b).faults = (t.bank b).faults := by
  obtain ⟨l, -, ended⟩ := h.seq
  have extended : ((t.extendLive b).bank b).seq = { (s.bank b).seq with
      plan, live := some { v with passes := satInc v.passes, extended := true }, latch := l } := by
    rw [bank_extendLive, seq, ended]; rfl
  have onward : u.BankMoved (t.extendLive b) b := moved.modSeq _
  obtain ⟨⟨m, seq'⟩, faults, fifo', counter, -⟩ := nextPass_bank (v := { v with
    passes := satInc v.passes, extended := true }) (s := t.extendLive b) (b := b)
    (by rw [extended]; exact runs) (by rw [extended])
  have may : ((t.extendLive b).bank b).seq.mayReadLink = (s.bank b).seq.mayReadLink := by
    rw [extended]; simp [Sequencer.mayReadLink, runs, was]
  have before : ((t.extendLive b).bank b).fifo = (s.bank b).fifo := by
    rw [bank_extendLive]; exact fifo.trans h.fifo
  rw [may, before] at fifo'
  rw [may, extended] at seq'
  refine ⟨⟨⟨?_, pinsFollow_nextPass _ b ?_, ?_, fun ends => ?_⟩, by rw [seq'], by rw [seq'], counter,
    by rw [seq'], by rw [seq'], fun none => ?_, fun reads => ?_⟩, ?_⟩
  · rw [gate_nextPass, onward.gate, h.gate]
  · rw [extended]; exact running_ne_waiting runs
  · exact cueSent_of_heard fun c hc =>
      Heard.nextPass hc ((h.heard c hc).congr (onward.others c hc))
  · rw [seq'] at ends
    dsimp only at ends
    obtain e | e := ends <;> rw [e] at runs <;> cases runs
  · rw [seq', fifo', none]; exact ⟨rfl, List.append_nil _⟩
  · rw [seq', fifo', reads]; exact ⟨rfl, rfl⟩
  · rw [faults, bank_extendLive]

/-! ### Each row -/

section
variable {s u : State} {b : BankNo} {v : Live} {f : FrameCopy}

/-- A successor starts (R35). -/
theorem State.Retired.startOwn {code : FrameState} (h : s.Retired u b v code)
    (noLink : (s.bank b).seq.linkRead = false) :
    s.FrameStarts (u.startOwn b f false) b f false
        ((s.bank b).fifo ++ [v.retireReq s.now (satInc v.passes) code]) ∧
      s.StartSent (u.startOwn b f false) b ∧ s.Decided (u.startOwn b f false) b := by
  obtain ⟨l, -, seq⟩ := h.seq
  have own := bank_startOwn u b f false
  have starts := frameStarts_startFrame (s := s) own (by rw [seq]) (by rw [seq])
    (by rw [seq]; exact noLink)
  refine ⟨h.fifo ▸ starts, startSent_startOwn f false fun c hc k hk => h.unheard c hc k ?_,
    ⟨?_, starts.pins, cueSent_of_heard fun c hc => (h.heard c hc).startOwn f false hc,
      fun ends => ?_⟩⟩
  · obtain rfl | rfl := hk <;> nofun
  · rw [gate_startOwn]; exact h.gate
  · rw [starts.plan] at ends
    obtain e | e := ends <;> cases e

/-- A successor waits (R39). -/
theorem State.Retired.enterWaiting {code : FrameState} (h : s.Retired u b v code)
    (tag : (s.bank b).seq.tag = .valid) (staged : (s.bank b).seq.staged = some f)
    (armed : (u.bank b).seq.latch = .armed) :
    s.FrameWaits (u.enterWaiting b f) b f
        ((s.bank b).fifo ++ [v.retireReq s.now (satInc v.passes) code]) ∧
      ((u.enterWaiting b f).bank b).seq.awaited = (s.bank b).seq.awaited ∧
      s.Decided (u.enterWaiting b f) b := by
  obtain ⟨l, -, seq⟩ := h.seq
  have waits := frameWaits_enterWaiting (s := s) (u := u) (b := b) (f := f) (by rw [seq]; exact tag)
    (by rw [seq]; exact staged) armed h.now
  refine ⟨h.fifo ▸ waits, ?_, ⟨?_, waits.pins, ?_, fun ends => ?_⟩⟩
  · rw [bank_enterWaiting, seq_refresh]
    dsimp only
    rw [seq]
  · rw [gate_enterWaiting]; exact h.gate
  · exact cueSent_of_heard fun c hc => (h.heard c hc).congr (bank_enterWaiting_ne u f hc)
  · rw [waits.plan] at ends
    obtain e | e := ends <;> cases e

theorem late_masked (h : (u.bank b).faults.masks.late = true) :
    u.late b = ((u.markSticky b .late).extendLive b).nextPass b := if_pos h

theorem late_unmasked (h : (u.bank b).faults.masks.late = false) :
    u.late b = ((u.reportFault b .late .none (u.bank b).seq.liveSel 10 .boundary).retireLive b
      .spent).haltBank b none := if_neg (by simp [h])

/-- An unmasked LATE fault halts the bank (R36). -/
theorem State.PassEnded.late_halts (h : s.PassEnded u b v)
    (unmasked : (s.bank b).faults.masks.late = false) :
    s.RetiredEnd (u.late b) b v .halted .fault .spent ∧
      s.Reports (u.late b) b (s.bank b).faults.sticky .late .none v.sel 10 .boundary := by
  obtain ⟨l, -, seq⟩ := h.seq
  have sel : (u.bank b).seq.liveSel = v.sel := by rw [seq]; rfl
  rw [late_unmasked (by rw [h.faults]; exact unmasked), sel]
  have moved := (State.BankMoved.refl u b).reportFault .late .none v.sel 10 .boundary
  refine ⟨(h.retire moved (by rw [bank_reportFault]) (by rw [bank_reportFault]) .spent).haltBank, ?_⟩
  have reports := reports_reportFault (s := s) (u := u) (cls := .late) (sub := .none) (sel := v.sel)
    (field := 10) (phase := .boundary)
    (t := ((u.reportFault b .late .none v.sel 10 .boundary).retireLive b .spent).haltBank b none)
    (by rw [faults_haltBank, faults_retireLive]) (fun _ => causeBit_haltBank _ b none)
    (by rw [h.faults]) h.now
  rwa [h.faults] at reports

/-- A masked LATE fault lets the frame run on (R36). -/
theorem State.PassEnded.late_runsOn (h : s.PassEnded u b v)
    (runs : (s.bank b).seq.plan.isRunning = true)
    (masked : (s.bank b).faults.masks.late = true) :
    s.RunsOn (u.late b) b v (s.bank b).seq.plan ∧
      ((u.late b).bank b).faults.sticky.late = true ∧
      ((u.late b).bank b).faults.report = (s.bank b).faults.report := by
  obtain ⟨l, -, seq⟩ := h.seq
  rw [late_masked (by rw [h.faults]; exact masked)]
  have marked := core_markSticky u b .late
  obtain ⟨runsOn, faults⟩ := h.runsOn ((State.BankMoved.refl u b).markSticky .late)
    (plan := (s.bank b).seq.plan) (by rw [marked, seq]) (by rw [marked]) runs runs
  refine ⟨runsOn, ?_, ?_⟩
  · rw [faults, marked]; rfl
  · rw [faults, marked]
    exact show (u.bank b).faults.report = _ from congrArg FaultLogic.report h.faults

/-- A frame that holds (R37). -/
theorem State.PassEnded.holds (h : s.PassEnded u b v)
    (runs : (s.bank b).seq.plan.isRunning = true) :
    s.RunsOn (((u.modSeq b fun q => { q with plan := .starved }).extendLive b).nextPass b) b v
      .starved :=
  (h.runsOn ((State.BankMoved.refl u b).modSeq _) (by rw [bank_modSeq_same])
    (by rw [bank_modSeq_same]) rfl runs).1

end

/-! ### The obligation -/

/-- What coherence says of the tag of a running bank at its boundary. -/
theorem tag_of_coherent {q : Sequencer} (h : q.Coherent) :
    (∀ f, q.staged = some f → q.tag = .valid) ∧ (q.tag = .valid → ∃ f, q.staged = some f) ∧
      (q.linkRead = true → q.tag = .empty) ∧ (q.latch ≠ .disarmed → q.tag = .valid) ∧
      ∀ f, q.staged = some f → f.start ≠ .now → q.latch ≠ .disarmed := by
  obtain ⟨-, staged, -, latch, start, -, -, -, link, -⟩ := h
  exact ⟨fun f hf => staged.1 (by rw [hf]; rfl), fun tag => Option.isSome_iff_exists.1 (staged.2 tag),
    fun reads => (link reads).2, latch, start⟩

section
variable {s : State} {b : BankNo} {v : Live} (coherent : (s.bank b).seq.Coherent)
  (runs : (s.bank b).seq.plan.isRunning = true) (live : (s.bank b).seq.live = some v)
  (goesOn : (s.bank b).seq.pendingStop = false)
include coherent runs live goesOn

/-- A successor that may start does (R35, R74). -/
theorem lastBoundary_starts {f : FrameCopy} (staged : (s.bank b).seq.staged = some f)
    (h : f.start = .now ∨ ((s.passEnd b).bank b).seq.latch = .set) :
    s.FrameStarts (s.lastBoundary b v) b f false
        ((s.bank b).fifo ++ [v.retireReq s.now (satInc v.passes) .spent]) ∧
      s.StartSent (s.lastBoundary b v) b ∧ s.Decided (s.lastBoundary b v) b := by
  obtain ⟨valid, -, link, -⟩ := tag_of_coherent coherent
  have ended := passEnded runs live
  have retired := ended.retire (.refl _ b) rfl rfl .spent
  have latch : (((s.passEnd b).retireLive b .spent).bank b).seq.latch =
      ((s.passEnd b).bank b).seq.latch := by
    obtain ⟨⟨lv, seq⟩, -⟩ := retireLive_spec (s.passEnd b) b .spent
    rw [seq]
  have noLink : (s.bank b).seq.linkRead = false := by
    rw [Bool.eq_false_iff]
    intro reads
    have empty := link reads
    rw [valid f staged] at empty
    cases empty
  rw [lastBoundary_valid runs live goesOn (valid f staged) staged,
    takeSuccessor_starts (by rw [latch]; exact h)]
  exact retired.startOwn noLink

/-- A successor that may not start waits (R39). -/
theorem lastBoundary_waits {f : FrameCopy} (staged : (s.bank b).seq.staged = some f)
    (later : f.start ≠ .now) (armed : ((s.passEnd b).bank b).seq.latch = .armed) :
    s.FrameWaits (s.lastBoundary b v) b f
        ((s.bank b).fifo ++ [v.retireReq s.now (satInc v.passes) .spent]) ∧
      ((s.lastBoundary b v).bank b).seq.awaited = (s.bank b).seq.awaited ∧
      s.Decided (s.lastBoundary b v) b := by
  obtain ⟨valid, -⟩ := tag_of_coherent coherent
  have ended := passEnded runs live
  have retired := ended.retire (.refl _ b) rfl rfl .spent
  have latch : (((s.passEnd b).retireLive b .spent).bank b).seq.latch = .armed := by
    obtain ⟨⟨lv, seq⟩, -⟩ := retireLive_spec (s.passEnd b) b .spent
    rw [seq]; exact armed
  rw [lastBoundary_valid runs live goesOn (valid f staged) staged,
    takeSuccessor_waits (by rw [latch]; simp [later])]
  exact retired.enterWaiting (valid f staged) staged latch

/-- Every row takes the gate's boundary action and sends BOUNDARY. -/
theorem decided_lastBoundary : s.Decided (s.lastBoundary b v) b := by
  obtain ⟨-, hasStaged, -, -, starts⟩ := tag_of_coherent coherent
  have ended := passEnded runs live
  have late : ∀ h : (s.bank b).seq.tag = .pending ∨ (s.bank b).seq.tag = .empty ∧
      (s.bank b).seq.linkRead = true, s.Decided (s.lastBoundary b v) b := by
    intro h
    rw [lastBoundary_late runs live goesOn h]
    cases masked : (s.bank b).faults.masks.late with
    | true => exact (ended.late_runsOn runs masked).1.decided
    | false => exact (ended.late_halts masked).1.decided
  cases tag : (s.bank b).seq.tag with
  | valid =>
    obtain ⟨f, staged⟩ := hasStaged tag
    by_cases now : f.start = .now
    · exact (lastBoundary_starts coherent runs live goesOn staged (.inl now)).2.2
    · obtain ⟨l, latch, seq⟩ := ended.seq
      have seqLatch : ((s.passEnd b).bank b).seq.latch = l := by rw [seq]
      obtain rfl | ⟨-, rfl⟩ := latch
      · cases was : (s.bank b).seq.latch with
        | disarmed => exact absurd was (starts f staged now)
        | armed =>
          exact (lastBoundary_waits coherent runs live goesOn staged now (seqLatch.trans was)).2.2
        | set =>
          exact (lastBoundary_starts coherent runs live goesOn staged
            (.inr (seqLatch.trans was))).2.2
      · exact (lastBoundary_starts coherent runs live goesOn staged (.inr seqLatch)).2.2
  | rejected =>
    rw [lastBoundary_rejected runs live goesOn tag]
    exact (ended.retire (.refl _ b) rfl rfl .spent).haltBank.decided
  | pending => exact late (.inl tag)
  | empty =>
    cases reads : (s.bank b).seq.linkRead with
    | true => exact late (.inr ⟨tag, reads⟩)
    | false =>
      cases action : v.endAction with
      | hold =>
        rw [lastBoundary_hold runs live goesOn tag reads action]
        exact (ended.holds runs).decided
      | stop =>
        rw [lastBoundary_ends runs live goesOn tag reads action]
        exact ((ended.retire (.refl _ b) rfl rfl .spentEnd).endPlan _ _).decided

end

/-- Settles O29: one lemma for each row, and `decided_lastBoundary` for what all rows have. -/
theorem finalBoundaryDecides : Obligations.FinalBoundaryDecides := by
  rintro b v s ⟨⟨released, due⟩, noNext⟩ repeats coherent
  obtain ⟨runs, live, -⟩ := advanceDue_live due
  have ended := passEnded runs live
  refine ⟨_, exec_finalBoundary released due noNext repeats, ?_⟩
  cases pending : (s.bank b).seq.pendingStop with
  | true =>
    rw [lastBoundary_stops runs live pending]
    obtain ⟨ends, boundary, retired, returned⟩ := stop_passEnd runs live .spent
    exact ⟨ends.gate, ends.pins, boundary, fun _ => ends.sent,
      fun _ => ⟨ends.ended, ends.cause, retired, returned⟩, nofun⟩
  | false =>
    obtain ⟨gate, pins, boundary, planEnd⟩ := decided_lastBoundary (coherent b) runs live pending
    obtain ⟨valid, -, link, armedValid, -⟩ := tag_of_coherent (coherent b)
    have late : (s.bank b).seq.tag = .pending ∨ (s.bank b).seq.linkRead = true →
        (s.bank b).seq.tag = .pending ∨
          (s.bank b).seq.tag = .empty ∧ (s.bank b).seq.linkRead = true :=
      Or.imp_right fun reads => ⟨link reads, reads⟩
    refine ⟨gate, pins, boundary, planEnd, nofun, fun _ => ⟨fun f staged may => ?_,
      fun f staged later armed other quiet => ?_, fun tag => ?_, fun isLate unmasked => ?_,
      fun isLate masked => ?_, fun tag noLink hold => ?_, fun tag noLink stop => ?_⟩⟩
    · have mayStart : f.start = .now ∨ ((s.passEnd b).bank b).seq.latch = .set := by
        obtain now | set | ⟨armed, own⟩ := may
        · exact .inl now
        · obtain ⟨l, latch, seq⟩ := ended.seq
          rw [set] at latch
          obtain rfl | ⟨e, -⟩ := latch
          · exact .inr (by rw [seq])
          · cases e
        · exact .inr (latch_passEnd_own runs armed own)
      obtain ⟨starts, sent, -⟩ := lastBoundary_starts (coherent b) runs live pending staged mayStart
      exact ⟨starts, sent⟩
    · have stays := (latch_passEnd_other runs other quiet).trans armed
      obtain ⟨waits, awaits, -⟩ :=
        lastBoundary_waits (coherent b) runs live pending staged later stays
      exact ⟨waits, awaits⟩
    · rw [lastBoundary_rejected runs live pending tag]
      obtain ⟨ends, -, retired⟩ := (ended.retire (.refl _ b) rfl rfl .spent).haltBank
      exact ⟨ends.ended, ends.cause, retired⟩
    · rw [lastBoundary_late runs live pending (late isLate)]
      obtain ⟨⟨ends, -, retired⟩, reports⟩ := ended.late_halts unmasked
      exact ⟨ends.ended, reports, retired⟩
    · rw [lastBoundary_late runs live pending (late isLate)]
      obtain ⟨on, sticky, report⟩ := ended.late_runsOn runs masked
      have noRead : (s.bank b).seq.mayReadLink = false := by
        rw [Bool.eq_false_iff, Ne, mayReadLink_iff]
        rintro ⟨-, empty, noLink⟩
        simp [empty, noLink] at isLate
      obtain ⟨linkRead, fifo⟩ := on.noLink noRead
      exact ⟨on.plan_eq, sticky, report, on.live, on.counter, linkRead, on.tag, on.fetch, fifo⟩
    · rw [lastBoundary_hold runs live pending tag noLink hold]
      have on := ended.holds runs
      obtain ⟨linkRead, fifo⟩ := on.link ((mayReadLink_iff _).2 ⟨runs, tag, noLink⟩)
      exact ⟨on.plan_eq, on.live, linkRead, on.counter, fifo⟩
    · rw [lastBoundary_ends runs live pending tag noLink stop]
      obtain ⟨ends, -, retired⟩ := (ended.retire (.refl _ b) rfl rfl .spentEnd).endPlan .dormant .ended
      exact ⟨ends.ended, ends.cause, retired⟩

end Sys2Proof.Machine
end

section
/-! SUPPORT. An edge of a capture line: at the Trip Gates, at the cue latches, and in capture (R70, R82,
R117 to R123, R125). -/

namespace Sys2Proof.Machine

/-! ### A capture event -/

/-- What capture looks at of a line and its journal is in `u` as it is in `s`. -/
structure State.CaptureAs (s u : State) (l : LineNo) : Prop where
  sequence : (u.line l).sequence = (s.line l).sequence
  holding : (u.line l).holding = (s.line l).holding
  lost : (u.line l).lost = (s.line l).lost
  overruns : (u.line l).overruns = (s.line l).overruns
  cfg : (u.line l).cfg = (s.line l).cfg
  journals : u.journals = s.journals
  now : u.now = s.now

theorem State.CaptureAs.noEvent {s u : State} {l : LineNo} (h : s.CaptureAs u l) :
    s.NoEvent u l := ⟨h.sequence, h.holding, h.lost, h.overruns, h.journals⟩

theorem State.CaptureAs.journal {s u : State} {l : LineNo} (h : s.CaptureAs u l) (j : JournalNo) :
    u.journal j = s.journal j := congrArg (fun x => x.get j) h.journals

theorem State.CaptureAs.eventMade {s u t : State} {l : LineNo} {kind : EventKind}
    {value : BitVec 32} {saturated : Bool} (h : s.CaptureAs u l)
    (made : u.EventMade t l kind value saturated) : s.EventMade t l kind value saturated := by
  obtain ⟨sequence, full, entered, counted⟩ := made
  rw [h.holding, h.overruns, h.journals] at full
  rw [h.holding, h.overruns, h.journals, h.cfg, h.journal, h.sequence, h.now, h.lost] at entered
  rw [h.holding, h.cfg, h.journal] at counted
  exact ⟨h.sequence ▸ sequence, full, entered, counted⟩

theorem line_countMissed (s : State) (j : JournalNo) (l : LineNo) :
    (s.countMissed j l).line l = { s.line l with holding := none } := by
  unfold State.countMissed
  refine (congrArg (fun x => x.get l) (requestStatusWord_spec _ j).2.2.1).trans ?_
  exact line_modLine_same (s.modJournal j fun x => { x with missed := x.missed + 1#32 }) l _

/-- The state in which an event has entered an empty holding register, before a FAULTED journal
counts it. -/
def State.entered (s : State) (l : LineNo) (e : Event) : State :=
  s.modLine l fun x => { x with sequence := x.sequence + 1#8, lost := false, holding := some e }

theorem line_entered (s : State) (l : LineNo) (e : Event) : (s.entered l e).line l =
    { s.line l with sequence := (s.line l).sequence + 1#8, lost := false, holding := some e } :=
  line_modLine_same _ _ _

theorem enterEvent_counted {s : State} {l : LineNo} {e : Event}
    (h : (s.journal e.journal).state = .faulted) :
    s.enterEvent l e = (s.entered l e).countMissed e.journal l := if_pos h

theorem enterEvent_held {s : State} {l : LineNo} {e : Event}
    (h : (s.journal e.journal).state ≠ .faulted) : s.enterEvent l e = s.entered l e := if_neg h

theorem putEvent_enters {s : State} {l : LineNo} (kind : EventKind) (value : BitVec 32)
    (saturated : Bool) (h : (s.line l).holding = none) : s.putEvent l kind value saturated =
      s.enterEvent l ((s.line l).makeEvent l kind value saturated s.now) :=
  if_pos (by rw [h]; rfl)

theorem putEvent_loses {s : State} {l : LineNo} (kind : EventKind) (value : BitVec 32)
    (saturated : Bool) (h : (s.line l).holding ≠ none) :
    s.putEvent l kind value saturated = s.loseEvent l :=
  if_neg (by simpa using h)

/-- A Line Status request leaves of its line all but the mark of a request that is held; it is held
where the engine does not report (R125). -/
theorem requestLineStatus_line (s : State) (l : LineNo) :
    ∃ x, (s.requestLineStatus l).line l = { s.line l with statusHeld := x } ∧
      ((s.line l).statusHeld = true → x = true) ∧ (s.reporting = false → x = true) := by
  unfold State.requestLineStatus
  split
  · rename_i reporting
    refine ⟨(s.line l).statusHeld, ?_, id, fun quiet => ?_⟩
    · rw [(more_requestClass3 s (.line l)).eq]; rfl
    · rw [quiet] at reporting; cases reporting
  · exact ⟨true, line_modLine_same s l _, fun _ => rfl, fun _ => rfl⟩

/-- A lost event: the counts of its line. -/
theorem loseEvent_spec (s : State) (l : LineNo) :
    (∃ x, (s.loseEvent l).line l = { s.line l with
      sequence := (s.line l).sequence + 1#8, lost := true,
      overruns := satInc (s.line l).overruns, statusHeld := x } ∧
      ((s.line l).statusHeld = true → x = true)) ∧
    (s.loseEvent l).journals = s.journals := by
  unfold State.loseEvent
  generalize counted : (s.modLine l fun x => { x with
    sequence := x.sequence + 1#8, lost := true, overruns := satInc x.overruns }) = u
  have line : u.line l = { s.line l with
      sequence := (s.line l).sequence + 1#8, lost := true,
      overruns := satInc (s.line l).overruns } := by
    rw [← counted]; exact line_modLine_same s l _
  obtain ⟨x, status, held, -⟩ := requestLineStatus_line u l
  rw [line] at status held
  exact ⟨⟨x, status, held⟩,
    (requestLineStatus_spec u l).2.2.1.trans (by rw [← counted]; rfl)⟩

/-- An event goes to the holding register (R122, R123, R141). -/
theorem eventMade_putEvent (s : State) (l : LineNo) (kind : EventKind) (value : BitVec 32)
    (saturated : Bool) : s.EventMade (s.putEvent l kind value saturated) l kind value saturated := by
  by_cases empty : (s.line l).holding = none
  · rw [putEvent_enters kind value saturated empty]
    generalize made : (s.line l).makeEvent l kind value saturated s.now = e
    have named : e.journal = (s.line l).cfg.journal := by rw [← made]; rfl
    have entered := line_entered s l e
    by_cases faulted : (s.journal e.journal).state = .faulted
    · rw [enterEvent_counted faulted]
      have line := (line_countMissed (s.entered l e) e.journal l)
      rw [entered] at line
      obtain ⟨-, ⟨q, m, journal, word, -⟩, -⟩ := countMissed_spec (s.entered l e) e.journal l
      have missed := missed_countMissed (s.entered l e) e.journal l
      refine ⟨by rw [line], fun full => absurd empty full, fun _ => ⟨by rw [line], by rw [line],
        fun sound => absurd (named ▸ faulted) sound⟩, fun _ _ => ⟨by rw [line], ?_, ?_⟩⟩
      · rw [← named]; exact missed
      · rw [← named, journal]; exact word
    · rw [enterEvent_held faulted]
      refine ⟨by rw [entered], fun full => absurd empty full, fun _ => ⟨by rw [entered],
        by rw [entered], fun _ => ⟨rfl, ?_⟩⟩, fun _ bad => absurd (named ▸ bad) faulted⟩
      rw [entered, ← made]; rfl
  · rw [putEvent_loses kind value saturated empty]
    obtain ⟨⟨x, line, -⟩, journals⟩ := loseEvent_spec s l
    exact ⟨by rw [line], fun _ => ⟨by rw [line], by rw [line], by rw [line], journals⟩,
      fun none => absurd none empty, fun none => absurd none empty⟩

/-- What an event leaves of its line's counts, and of a Line Status request that is held. -/
theorem line_putEvent (s : State) (l : LineNo) (kind : EventKind) (value : BitVec 32)
    (saturated : Bool) :
    ((s.putEvent l kind value saturated).line l).prescaleCount = (s.line l).prescaleCount ∧
      ((s.putEvent l kind value saturated).line l).widthRef = (s.line l).widthRef ∧
      ((s.putEvent l kind value saturated).line l).armed = (s.line l).armed ∧
      ((s.line l).statusHeld = true →
        ((s.putEvent l kind value saturated).line l).statusHeld = true) := by
  by_cases empty : (s.line l).holding = none
  · rw [putEvent_enters kind value saturated empty]
    generalize (s.line l).makeEvent l kind value saturated s.now = e
    have entered := line_entered s l e
    by_cases faulted : (s.journal e.journal).state = .faulted
    · rw [enterEvent_counted faulted, line_countMissed, entered]
      exact ⟨rfl, rfl, rfl, id⟩
    · rw [enterEvent_held faulted, entered]
      exact ⟨rfl, rfl, rfl, id⟩
  · rw [putEvent_loses kind value saturated empty]
    obtain ⟨⟨x, line, held⟩, -⟩ := loseEvent_spec s l
    rw [line]
    exact ⟨rfl, rfl, rfl, held⟩

theorem class3_putEvent (s : State) (l : LineNo) (kind : EventKind) (value : BitVec 32)
    (saturated : Bool) {x : Class3 × Bool} (h : x ∈ s.port.class3) :
    x ∈ (s.putEvent l kind value saturated).port.class3 := by
  have counted : ∀ (u : State) (j : JournalNo), (u.countMissed j l).port = u.port := by
    intro u j
    unfold State.countMissed State.requestStatusWord
    split <;> rfl
  unfold State.putEvent
  split
  · unfold State.enterEvent
    dsimp only
    split
    · rw [counted]; exact h
    · exact h
  · unfold State.loseEvent State.requestLineStatus
    split
    · exact (more_requestClass3 _ (.line l)).mem x h
    · exact h

/-! ### An edge in capture -/

theorem captureEdge_unarmed {s : State} {l : LineNo} (d : EdgeDir)
    (h : (s.line l).armed = false) : s.captureEdge l d = s := if_neg (by simp [h])

theorem captureEdge_none {s : State} {l : LineNo} {d : EdgeDir} {x : Line}
    (armed : (s.line l).armed = true) (h : (s.line l).capture d s.now = ⟨x, none⟩) :
    s.captureEdge l d = s.setLine l x := by
  unfold State.captureEdge
  dsimp only
  rw [if_pos armed, h]

theorem captureEdge_some {s : State} {l : LineNo} {d : EdgeDir} {x : Line} {kind : EventKind}
    {value : BitVec 32} {saturated : Bool} (armed : (s.line l).armed = true)
    (h : (s.line l).capture d s.now = ⟨x, some (kind, value, saturated)⟩) :
    s.captureEdge l d = (s.setLine l x).putEvent l kind value saturated := by
  unfold State.captureEdge
  dsimp only
  rw [if_pos armed, h]

/-- What capture makes of a line: its prescale count and its width reference. -/
theorem capture_line (x : Line) (d : EdgeDir) (now : Stamp) : ∃ p r,
    (x.capture d now).line = { x with prescaleCount := p, widthRef := r } := by
  unfold Line.capture Line.stampEdge Line.widthEdge
  repeat' split
  all_goals exact ⟨_, _, rfl⟩

/-- A line that only capture has touched since `s`. -/
theorem captureAs_setLine {s u : State} {l : LineNo} (h : s.CaptureAs u l) (p : Nat)
    (r : Option Stamp) :
    s.CaptureAs (u.setLine l { u.line l with prescaleCount := p, widthRef := r }) l := by
  have line := line_setLine_same u l { u.line l with prescaleCount := p, widthRef := r }
  exact ⟨by rw [line]; exact h.sequence, by rw [line]; exact h.holding, by rw [line]; exact h.lost,
    by rw [line]; exact h.overruns, by rw [line]; exact h.cfg, h.journals, h.now⟩

/-- An edge that is no event. -/
theorem captureEdge_quiet {s u : State} {l : LineNo} {d : EdgeDir} {p : Nat} {r : Option Stamp}
    (h : s.CaptureAs u l) (armed : (u.line l).armed = true)
    (none : (u.line l).capture d u.now =
      ⟨{ u.line l with prescaleCount := p, widthRef := r }, none⟩) :
    s.NoEvent (u.captureEdge l d) l ∧ ((u.captureEdge l d).line l).prescaleCount = p ∧
      ((u.captureEdge l d).line l).widthRef = r := by
  have line := line_setLine_same u l { u.line l with prescaleCount := p, widthRef := r }
  rw [captureEdge_none armed none]
  exact ⟨(captureAs_setLine h p r).noEvent, by rw [line], by rw [line]⟩

/-- An edge that is an event. -/
theorem captureEdge_event {s u : State} {l : LineNo} {d : EdgeDir} {p : Nat} {r : Option Stamp}
    {kind : EventKind} {value : BitVec 32} {saturated : Bool}
    (h : s.CaptureAs u l) (armed : (u.line l).armed = true)
    (event : (u.line l).capture d u.now =
      ⟨{ u.line l with prescaleCount := p, widthRef := r }, some (kind, value, saturated)⟩) :
    s.EventMade (u.captureEdge l d) l kind value saturated ∧
      ((u.captureEdge l d).line l).prescaleCount = p ∧
      ((u.captureEdge l d).line l).widthRef = r := by
  have line := line_setLine_same u l { u.line l with prescaleCount := p, widthRef := r }
  rw [captureEdge_some armed event]
  obtain ⟨prescale, width, -⟩ := line_putEvent
    (u.setLine l { u.line l with prescaleCount := p, widthRef := r }) l kind value saturated
  exact ⟨(captureAs_setLine h p r).eventMade (eventMade_putEvent _ l kind value saturated),
    by rw [prescale, line], by rw [width, line]⟩

/-- What every edge leaves of its line in capture. -/
theorem captureEdge_keeps (s : State) (l : LineNo) (d : EdgeDir) :
    ((s.captureEdge l d).line l).armed = (s.line l).armed ∧
      ((s.line l).statusHeld = true → ((s.captureEdge l d).line l).statusHeld = true) ∧
      ∀ x ∈ s.port.class3, x ∈ (s.captureEdge l d).port.class3 := by
  cases armed : (s.line l).armed with
  | false => rw [captureEdge_unarmed d armed]; exact ⟨armed, id, fun _ h => h⟩
  | true =>
    obtain ⟨p, r, same⟩ := capture_line (s.line l) d s.now
    have line := line_setLine_same s l { s.line l with prescaleCount := p, widthRef := r }
    generalize captured : (s.line l).capture d s.now = c at same
    obtain ⟨x, event⟩ := c
    dsimp only at same
    subst same
    cases event with
    | none =>
      rw [captureEdge_none armed captured, line]
      exact ⟨armed, id, fun _ h => h⟩
    | some e =>
      obtain ⟨kind, value, saturated⟩ := e
      rw [captureEdge_some armed captured]
      obtain ⟨-, -, kept, held⟩ := line_putEvent
        (s.setLine l { s.line l with prescaleCount := p, widthRef := r }) l kind value saturated
      rw [line] at kept held
      exact ⟨kept.trans armed, held, fun _ h => class3_putEvent _ l kind value saturated h⟩

/-! ### The three modes -/

theorem capture_off {x : Line} (d : EdgeDir) (now : Stamp) (h : x.cfg.mode = .off) :
    x.capture d now = ⟨{ x with prescaleCount := x.prescaleCount, widthRef := x.widthRef }, none⟩ := by
  unfold Line.capture; rw [h]

section
variable {x : Line} {d : EdgeDir} (now : Stamp) (mode : x.cfg.mode = .stamp)
include mode

theorem capture_stamp_skips (h : x.cfg.select.takes d = false) : x.capture d now =
    ⟨{ x with prescaleCount := x.prescaleCount, widthRef := x.widthRef }, none⟩ := by
  unfold Line.capture Line.stampEdge; rw [mode]; simp [h]

theorem capture_stamp_counts (h : x.cfg.select.takes d = true)
    (more : x.prescaleCount + 1 ≠ x.cfg.prescale) : x.capture d now =
    ⟨{ x with prescaleCount := x.prescaleCount + 1, widthRef := x.widthRef }, none⟩ := by
  unfold Line.capture Line.stampEdge; rw [mode]; simp [h, more]

theorem capture_stamp_event (h : x.cfg.select.takes d = true)
    (full : x.prescaleCount + 1 = x.cfg.prescale) : x.capture d now =
    ⟨{ x with prescaleCount := 0, widthRef := x.widthRef },
      some (d.stampKind, BitVec.ofNat 32 x.cfg.prescale, false)⟩ := by
  unfold Line.capture Line.stampEdge; rw [mode]; simp [h, full]

end

section
variable {x : Line} {d : EdgeDir} {now : Stamp} (mode : x.cfg.mode = .width)
include mode

theorem capture_width_first (h : x.widthRef = none) : x.capture d now =
    ⟨{ x with prescaleCount := x.prescaleCount, widthRef := some now }, none⟩ := by
  unfold Line.capture Line.widthEdge; rw [mode, h]

theorem capture_width_event {r : Stamp} (h : x.widthRef = some r)
    (fits : (now - r).toNat ≤ 0xFFFFFFFF) : x.capture d now =
    ⟨{ x with prescaleCount := x.prescaleCount, widthRef := some now },
      some (d.widthKind, BitVec.ofNat 32 (now - r).toNat, false)⟩ := by
  have value : (now - r).setWidth 32 = BitVec.ofNat 32 (now - r).toNat :=
    BitVec.eq_of_toNat_eq (by rw [BitVec.toNat_setWidth, BitVec.toNat_ofNat])
  unfold Line.capture Line.widthEdge
  rw [mode, h]
  dsimp only
  rw [if_pos (by omega), value]

theorem capture_width_saturates {r : Stamp} (h : x.widthRef = some r)
    (wide : 0xFFFFFFFF < (now - r).toNat) : x.capture d now =
    ⟨{ x with prescaleCount := x.prescaleCount, widthRef := some now },
      some (d.widthKind, 0xFFFFFFFF#32, true)⟩ := by
  unfold Line.capture Line.widthEdge
  rw [mode, h]
  dsimp only
  rw [if_neg (by omega)]
  rfl

end

/-- All that capture looks at of a line, with its counts, is in `u` as it is in `s`. -/
structure State.EdgeAt (s u : State) (l : LineNo) : Prop extends s.CaptureAs u l where
  armed : (u.line l).armed = (s.line l).armed
  prescaleCount : (u.line l).prescaleCount = (s.line l).prescaleCount
  widthRef : (u.line l).widthRef = (s.line l).widthRef

namespace State.EdgeAt

variable {s u : State} {l : LineNo} (h : s.EdgeAt u l) (d : EdgeDir)
include h

/-- No mode, or an unarmed line. -/
theorem ignores (quiet : (s.line l).armed = false ∨ (s.line l).cfg.mode = .off) :
    s.NoEvent (u.captureEdge l d) l ∧
      ((u.captureEdge l d).line l).prescaleCount = (s.line l).prescaleCount ∧
      ((u.captureEdge l d).line l).widthRef = (s.line l).widthRef := by
  cases armed : (u.line l).armed with
  | false =>
    rw [captureEdge_unarmed d armed]
    exact ⟨h.noEvent, h.prescaleCount, h.widthRef⟩
  | true =>
    have mode : (u.line l).cfg.mode = .off := by
      rw [h.cfg]
      exact quiet.resolve_left (by rw [← h.armed, armed]; simp)
    obtain ⟨none, prescale, width⟩ :=
      captureEdge_quiet h.toCaptureAs armed (capture_off d u.now mode)
    exact ⟨none, prescale.trans h.prescaleCount, width.trans h.widthRef⟩

variable (armed : (s.line l).armed = true)
include armed

section
variable (mode : (s.line l).cfg.mode = .stamp)
include mode

theorem stamp_skips (takes : (s.line l).cfg.select.takes d = false) :
    s.NoEvent (u.captureEdge l d) l ∧
      ((u.captureEdge l d).line l).prescaleCount = (s.line l).prescaleCount ∧
      ((u.captureEdge l d).line l).widthRef = (s.line l).widthRef := by
  obtain ⟨none, prescale, width⟩ := captureEdge_quiet h.toCaptureAs (h.armed.trans armed)
    (capture_stamp_skips u.now (by rw [h.cfg]; exact mode) (by rw [h.cfg]; exact takes))
  exact ⟨none, prescale.trans h.prescaleCount, width.trans h.widthRef⟩

variable (takes : (s.line l).cfg.select.takes d = true)
include takes

theorem stamp_counts (more : (s.line l).prescaleCount + 1 ≠ (s.line l).cfg.prescale) :
    s.NoEvent (u.captureEdge l d) l ∧
      ((u.captureEdge l d).line l).prescaleCount = (s.line l).prescaleCount + 1 ∧
      ((u.captureEdge l d).line l).widthRef = (s.line l).widthRef := by
  obtain ⟨none, prescale, width⟩ := captureEdge_quiet h.toCaptureAs (h.armed.trans armed)
    (capture_stamp_counts u.now (by rw [h.cfg]; exact mode) (by rw [h.cfg]; exact takes)
      (by rw [h.cfg, h.prescaleCount]; exact more))
  exact ⟨none, prescale.trans (by rw [h.prescaleCount]), width.trans h.widthRef⟩

theorem stamp_event (full : (s.line l).prescaleCount + 1 = (s.line l).cfg.prescale) :
    s.EventMade (u.captureEdge l d) l d.stampKind (BitVec.ofNat 32 (s.line l).cfg.prescale) false ∧
      ((u.captureEdge l d).line l).prescaleCount = 0 ∧
      ((u.captureEdge l d).line l).widthRef = (s.line l).widthRef := by
  obtain ⟨event, prescale, width⟩ := captureEdge_event h.toCaptureAs (h.armed.trans armed)
    (capture_stamp_event u.now (by rw [h.cfg]; exact mode) (by rw [h.cfg]; exact takes)
      (by rw [h.cfg, h.prescaleCount]; exact full))
  rw [h.cfg] at event
  exact ⟨event, prescale, width.trans h.widthRef⟩

end

section
variable (mode : (s.line l).cfg.mode = .width)
include mode

theorem width_first (none : (s.line l).widthRef = none) :
    s.NoEvent (u.captureEdge l d) l ∧
      ((u.captureEdge l d).line l).prescaleCount = (s.line l).prescaleCount ∧
      ((u.captureEdge l d).line l).widthRef = some s.now := by
  obtain ⟨quiet, prescale, width⟩ := captureEdge_quiet (d := d) h.toCaptureAs (h.armed.trans armed)
    (capture_width_first (by rw [h.cfg]; exact mode) (h.widthRef.trans none))
  rw [h.now] at width
  exact ⟨quiet, prescale.trans h.prescaleCount, width⟩

variable {r : Stamp} (was : (s.line l).widthRef = some r)
include was

theorem width_event (fits : (s.now - r).toNat ≤ 0xFFFFFFFF) :
    s.EventMade (u.captureEdge l d) l d.widthKind (BitVec.ofNat 32 (s.now - r).toNat) false ∧
      ((u.captureEdge l d).line l).prescaleCount = (s.line l).prescaleCount ∧
      ((u.captureEdge l d).line l).widthRef = some s.now := by
  obtain ⟨event, prescale, width⟩ := captureEdge_event (d := d) h.toCaptureAs
    (h.armed.trans armed) (capture_width_event (by rw [h.cfg]; exact mode) (h.widthRef.trans was)
      (by rw [h.now]; exact fits))
  rw [h.now] at event width
  exact ⟨event, prescale.trans h.prescaleCount, width⟩

theorem width_saturates (wide : 0xFFFFFFFF < (s.now - r).toNat) :
    s.EventMade (u.captureEdge l d) l d.widthKind 0xFFFFFFFF#32 true ∧
      ((u.captureEdge l d).line l).prescaleCount = (s.line l).prescaleCount ∧
      ((u.captureEdge l d).line l).widthRef = some s.now := by
  obtain ⟨event, prescale, width⟩ := captureEdge_event (d := d) h.toCaptureAs
    (h.armed.trans armed) (capture_width_saturates (by rw [h.cfg]; exact mode)
      (h.widthRef.trans was) (by rw [h.now]; exact wide))
  rw [h.now] at width
  exact ⟨event, prescale.trans h.prescaleCount, width⟩

end

end State.EdgeAt

/-! ### The edge itself -/

/-- The filtered level has changed and the line's status is requested. -/
def State.edgeTaken (s : State) (l : LineNo) : State :=
  (s.modLine l fun x => { x with high := !x.high, run := 0, sampleDue := false }).requestLineStatus l

theorem acceptEdge_eq (s : State) (l : LineNo) : s.acceptEdge l =
    ((s.edgeTaken l).judgeGates.offerEdge l (s.line l).nextEdge).captureEdge l (s.line l).nextEdge :=
  rfl

section
variable (s : State) (l : LineNo)

theorem edgeTaken_line : ∃ x, (s.edgeTaken l).line l =
      { s.line l with high := !(s.line l).high, run := 0, sampleDue := false, statusHeld := x } ∧
    (s.reporting = false → x = true) := by
  unfold State.edgeTaken
  obtain ⟨x, line, -, quiet⟩ := requestLineStatus_line
    (s.modLine l fun x => { x with high := !x.high, run := 0, sampleDue := false }) l
  rw [line_modLine_same] at line
  exact ⟨x, line, quiet⟩

theorem edgeTaken_other {m : LineNo} (h : m ≠ l) : (s.edgeTaken l).line m = s.line m :=
  ((requestLineStatus_spec _ l).1 m h).trans (line_modLine_ne _ _ h)

theorem edgeTaken_keeps : (s.edgeTaken l).journals = s.journals ∧
    (s.edgeTaken l).cause = s.cause ∧ (s.edgeTaken l).banks = s.banks ∧
    (s.edgeTaken l).now = s.now := by
  obtain ⟨-, -, journals, cause, -, banks, now, -⟩ := requestLineStatus_spec
    (s.modLine l fun x => { x with high := !x.high, run := 0, sampleDue := false }) l
  exact ⟨journals, cause, banks, now⟩

theorem edgeTaken_requests (h : s.reporting = true) :
    ∃ x ∈ (s.edgeTaken l).port.class3, x.1 = .line l := by
  unfold State.edgeTaken State.requestLineStatus
  rw [if_pos (by exact h)]
  exact requested_requestClass3 _ _

end

theorem port_judgeGate (s : State) (b : BankNo) : (s.judgeGate b).port = s.port := by
  unfold State.judgeGate
  dsimp only
  repeat' split
  all_goals rfl

theorem port_judgeGates (s : State) : s.judgeGates.port = s.port := by
  unfold State.judgeGates
  rw [port_judgeGate, port_judgeGate, port_judgeGate, port_judgeGate]

/-- Judging the gates leaves of every bank all but its gate and its pins. -/
theorem core_judgeGates (s : State) (b : BankNo) : (s.judgeGates.bank b).core = (s.bank b).core := by
  have one : ∀ (t : State) (c : BankNo), ((t.judgeGate c).bank b).core = (t.bank b).core := by
    intro t c
    obtain rfl | hc := eq_or_ne b c
    · exact core_judgeGate t b
    · rw [(judgeGate_spec t c).2.2.2 b hc]
  unfold State.judgeGates
  rw [one, one, one, one]

/-- The gates and latches under an edge, before capture takes it. -/
def State.edgeOffered (s : State) (l : LineNo) : State :=
  (s.edgeTaken l).judgeGates.offerEdge l (s.line l).nextEdge

section
variable (s : State) (l : LineNo)

theorem edgeOffered_beside : (s.edgeOffered l).beside = (s.edgeTaken l).beside :=
  (beside_offerEdge _ _ _).trans (beside_judgeGates _)

theorem edgeOffered_lines : (s.edgeOffered l).lines = (s.edgeTaken l).lines :=
  lines_of_beside (edgeOffered_beside s l)

theorem edgeOffered_line (m : LineNo) : (s.edgeOffered l).line m = (s.edgeTaken l).line m :=
  congrArg (fun x => x.get m) (edgeOffered_lines s l)

theorem edgeAt_edgeOffered : s.EdgeAt (s.edgeOffered l) l := by
  obtain ⟨x, line, -⟩ := edgeTaken_line s l
  obtain ⟨journals, -, -, now⟩ := edgeTaken_keeps s l
  have beside := edgeOffered_beside s l
  refine ⟨⟨?_, ?_, ?_, ?_, ?_, (journals_of_beside beside).trans journals,
    (now_of_outer (outer_of_beside beside)).trans now⟩, ?_, ?_, ?_⟩
  all_goals rw [edgeOffered_line, line]

theorem class3_edgeOffered : (s.edgeOffered l).port = (s.edgeTaken l).port :=
  (port_offer _ _ _).trans (port_judgeGates _)

/-- The edge reaches a latch that awaits it (R70, R73, R75). -/
theorem cueTaken_edgeOffered : s.CueTaken (s.edgeOffered l) (.line l (s.line l).nextEdge) := by
  intro c armed awaits
  have core : ((s.edgeTaken l).judgeGates.bank c).core = (s.bank c).core :=
    (core_judgeGates _ c).trans
      (congrArg (fun x => (x.get c).core) (edgeTaken_keeps s l).2.2.1)
  have seq : ((s.edgeTaken l).judgeGates.bank c).seq = (s.bank c).seq := congrArg Prod.fst core
  have fifo : ((s.edgeTaken l).judgeGates.bank c).fifo = (s.bank c).fifo :=
    congrArg (fun x => x.2.2.1) core
  refine ⟨fun runs => ?_, fun f waits noLink staged => ?_⟩
  · have bank := bank_offer_awaited 3 (.line l (s.line l).nextEdge) (s.edgeTaken l).judgeGates c
      (by rw [seq]; exact running_ne_waiting runs) (by rw [seq]; exact armed)
      (by rw [seq]; exact awaits)
    refine (congrArg Bank.seq bank).trans ?_
    unfold Bank.relatch
    dsimp only
    rw [seq]
  · have bank := bank_offer_starts 3 (.line l (s.line l).nextEdge) (s.edgeTaken l).judgeGates c f
      (by rw [seq]; exact waits) (by rw [seq]; exact staged) (by rw [seq]; exact armed)
      (by rw [seq]; exact awaits)
    have starts := frameStarts_startFrame (s := s) (t := s.edgeOffered l) bank (by rw [seq])
      (by rw [seq]) (by rw [seq]; exact noLink)
    rwa [fifo] at starts

/-- Each gate is judged against its sources as the edge leaves them. -/
theorem gateJudged_edgeOffered (b : BankNo) :
    (s.edgeOffered l).GateJudged b (s.bank b).gate (s.bank b).seq.plan.isRunning := by
  have bank : (s.edgeTaken l).bank b = s.bank b :=
    congrArg (fun x => x.get b) (edgeTaken_keeps s l).2.2.1
  rw [← bank]
  refine gateJudged_judgeGates (edgeOffered_lines s l) (fun c => gate_offer _ _ _ c) (fun n h => ?_)
    (fun c h => pinsFollow_offer _ _ _ c h) b
  unfold State.edgeOffered State.offerEdge
  rw [cause_offer]
  exact h

end

/-- What is said of a judged gate depends on the banks, the causes and the trip sources. -/
theorem gateJudged_of_sources {t u : State} {b : BankNo} {g : Gate} {running : Bool}
    (h : t.GateJudged b g running) (banks : u.banks = t.banks) (cause : u.cause = t.cause)
    (sourced : u.Sourced g ↔ t.Sourced g) : u.GateJudged b g running := by
  have bank : u.bank b = t.bank b := congrArg (fun x => x.get b) banks
  obtain ⟨trips, stays, cancels, reopens, waits, pins⟩ := h
  constructor <;> rw [bank]
  · intro opened active
    unfold State.causeSet
    rw [cause]
    exact trips opened (sourced.1 active)
  · exact fun opened quiet => stays opened fun active => quiet (sourced.2 active)
  · exact fun tripped active => cancels tripped (sourced.1 active)
  · exact fun tripped quiet => reopens tripped fun active => quiet (sourced.2 active)
  · exact fun tripped quiet => waits tripped fun active => quiet (sourced.2 active)
  · exact pins

/-- A line that is loaded and at its trip level is a source of the gates that select it. -/
theorem sourced_congr {t u : State} {l : LineNo} (h : LineKept l t u) (g : Gate) :
    u.Sourced g ↔ t.Sourced g := by
  have line : ∀ m, (u.line m).loaded = (t.line m).loaded ∧ (u.line m).high = (t.line m).high ∧
      (u.line m).cfg = (t.line m).cfg := by
    intro m
    obtain rfl | hm := eq_or_ne m l
    · exact ⟨h.loaded, h.high, h.cfg⟩
    · rw [h.others m hm]; exact ⟨rfl, rfl, rfl⟩
  unfold State.Sourced State.ActiveLine
  simp only [line]

section
variable (s : State) (l : LineNo)

theorem gateJudged_acceptEdge (b : BankNo) :
    (s.acceptEdge l).GateJudged b (s.bank b).gate (s.bank b).seq.plan.isRunning :=
  gateJudged_of_sources (gateJudged_edgeOffered s l b) (banks_captureEdge _ l _) (cause_captureEdge _ l _)
    (sourced_congr (lineKept_captureEdge _ l _) _)

/-- A gate that selects the line, where the edge brings it to its trip level (R82, R87). -/
theorem tripped_acceptEdge {b : BankNo} (loaded : (s.line l).loaded = true)
    (selects : (s.bank b).gate.mask.getLsbD l.val = true)
    (level : (!(s.line l).high) = (s.line l).cfg.tripHigh) :
    ((s.acceptEdge l).bank b).gate.tripped = true ∧
      ((s.bank b).gate.tripped = false →
        ((s.acceptEdge l).bank b).gate.trips = satInc (s.bank b).gate.trips ∧
          (s.acceptEdge l).causeSet (causeBank b)) ∧
      ((s.bank b).gate.tripped = true →
        ((s.acceptEdge l).bank b).gate.trips = (s.bank b).gate.trips ∧
        ((s.acceptEdge l).bank b).gate.rearmPending =
          ((s.bank b).gate.rearmPending && (s.bank b).gate.auto)) := by
  obtain ⟨x, line, -⟩ := edgeTaken_line s l
  have kept := lineKept_captureEdge (s.edgeOffered l) l (s.line l).nextEdge
  have now : ∀ {β : Type} (f : Line → β), f ((s.edgeOffered l).line l) = f { s.line l with
      high := !(s.line l).high, run := 0, sampleDue := false, statusHeld := x } :=
    fun f => by rw [edgeOffered_line, line]
  have active : (s.acceptEdge l).Sourced (s.bank b).gate :=
    .inr ⟨l, selects, kept.loaded.trans ((now Line.loaded).trans loaded),
      (kept.high.trans (now Line.high)).trans (level.trans
        (congrArg LineConfig.tripHigh (kept.cfg.trans (now Line.cfg)).symm))⟩
  obtain ⟨trips, -, cancels, -⟩ := gateJudged_acceptEdge s l b
  cases tripped : (s.bank b).gate.tripped with
  | false =>
    obtain ⟨gate, cause⟩ := trips tripped active
    rw [gate]
    exact ⟨rfl, fun _ => ⟨rfl, cause⟩, nofun⟩
  | true =>
    rw [cancels tripped active]
    exact ⟨tripped, nofun, fun _ => ⟨rfl, rfl⟩⟩

theorem cueTaken_acceptEdge : s.CueTaken (s.acceptEdge l) (.line l (s.line l).nextEdge) := by
  intro c armed awaits
  have bank : (s.acceptEdge l).bank c = (s.edgeOffered l).bank c :=
    congrArg (fun x => x.get c) (banks_captureEdge (s.edgeOffered l) l _)
  obtain ⟨running, waiting⟩ := cueTaken_edgeOffered s l c armed awaits
  rw [bank]
  refine ⟨running, fun f waits noLink staged => ?_⟩
  obtain ⟨h1, h2, h3, h4, h5, h6, h7, h8, h9, h10⟩ := waiting f waits noLink staged
  constructor <;> rw [bank] <;> assumption

theorem lineReported_acceptEdge : s.LineReported (s.acceptEdge l) l := by
  obtain ⟨-, held, requests⟩ := captureEdge_keeps (s.edgeOffered l) l (s.line l).nextEdge
  refine ⟨fun reporting => ?_, fun notOn notQuiescing => ?_⟩
  · have reports : s.reporting = true := by
      unfold State.reporting
      obtain e | e := reporting <;> rw [e] <;> rfl
    obtain ⟨x, member, same⟩ := edgeTaken_requests s l reports
    exact ⟨x, requests x (by rw [class3_edgeOffered]; exact member), same⟩
  · have quiet : s.reporting = false := by
      unfold State.reporting
      simp [notOn, notQuiescing]
    obtain ⟨x, line, mark⟩ := edgeTaken_line s l
    refine held ?_
    rw [edgeOffered_line, line]
    exact mark quiet

end

theorem takes_nextEdge (x : Line) (e : EdgeSelect) : e.takes x.nextEdge = true ↔
    e = .both ∨ e = .rise ∧ x.high = false ∨ e = .fall ∧ x.high = true := by
  unfold Line.nextEdge EdgeSelect.takes
  cases e <;> cases x.high <;> simp

theorem skips_nextEdge {x : Line} {e : EdgeSelect}
    (h : e = .rise ∧ x.high = true ∨ e = .fall ∧ x.high = false) :
    e.takes x.nextEdge = false := by
  rw [Bool.eq_false_iff, Ne, takes_nextEdge]
  obtain ⟨rfl, high⟩ | ⟨rfl, high⟩ := h <;> simp [high]

theorem stampKind_nextEdge (x : Line) :
    x.nextEdge.stampKind = if x.high then .fall else .rise := by
  unfold Line.nextEdge; cases x.high <;> rfl

theorem widthKind_nextEdge (x : Line) :
    x.nextEdge.widthKind = if x.high then .highWidth else .lowWidth := by
  unfold Line.nextEdge; cases x.high <;> rfl

/-- Settles O25: gates and latches as the edge is offered, then capture by the mode of the line. -/
theorem edgeReachesGatesAndCapture : Obligations.EdgeReachesGatesAndCapture := by
  intro l s released due
  have loaded : (s.line l).loaded = true := by
    unfold State.edgeDue at due
    simp only [Bool.and_eq_true] at due
    exact due.1.1.1
  obtain ⟨x, taken, -⟩ := edgeTaken_line s l
  have line : (s.edgeOffered l).line l = { s.line l with
      high := !(s.line l).high, run := 0, sampleDue := false, statusHeld := x } := by
    rw [edgeOffered_line, taken]
  have kept := lineKept_captureEdge (s.edgeOffered l) l (s.line l).nextEdge
  have edgeAt := edgeAt_edgeOffered s l
  obtain ⟨armed, -⟩ := captureEdge_keeps (s.edgeOffered l) l (s.line l).nextEdge
  refine ⟨_, exec_edge released due, kept.high.trans (by rw [line]), kept.run.trans (by rw [line]),
    kept.loaded.trans (by rw [line]; exact loaded), kept.sampleDue.trans (by rw [line]),
    armed.trans (by rw [line]), fun m hm => ?_, fun b selects level =>
      tripped_acceptEdge s l loaded selects level, gateJudged_acceptEdge s l,
    lineReported_acceptEdge s l, cueTaken_acceptEdge s l, fun quiet => ?_, fun isArmed mode => ?_,
    fun isArmed mode => ?_⟩
  · rw [acceptEdge_eq, ← State.edgeOffered, kept.others m hm, edgeOffered_line, edgeTaken_other s l hm]
  all_goals rw [acceptEdge_eq, ← State.edgeOffered]
  · exact edgeAt.ignores _ quiet
  · have skip := edgeAt.stamp_skips (s.line l).nextEdge isArmed mode
    have count := edgeAt.stamp_counts (s.line l).nextEdge isArmed mode
    have event := edgeAt.stamp_event (s.line l).nextEdge isArmed mode
    rw [stampKind_nextEdge] at event
    refine ⟨?_, fun skips => ?_, fun takes => ⟨fun more => ?_, fun full => ?_⟩⟩
    · cases takes : (s.line l).cfg.select.takes (s.line l).nextEdge with
      | false => exact (skip takes).2.2
      | true =>
        by_cases full : (s.line l).prescaleCount + 1 = (s.line l).cfg.prescale
        · exact (event takes full).2.2
        · exact (count takes full).2.2
    · obtain ⟨none, prescale, -⟩ := skip (skips_nextEdge skips)
      exact ⟨none, prescale⟩
    · obtain ⟨none, prescale, -⟩ := count ((takes_nextEdge _ _).2 takes) more
      exact ⟨none, prescale⟩
    · obtain ⟨made, prescale, -⟩ := event ((takes_nextEdge _ _).2 takes) full
      exact ⟨prescale, made⟩
  · have first := edgeAt.width_first (s.line l).nextEdge isArmed mode
    have fits := fun r => edgeAt.width_event (s.line l).nextEdge isArmed mode (r := r)
    have wide := fun r => edgeAt.width_saturates (s.line l).nextEdge isArmed mode (r := r)
    rw [widthKind_nextEdge] at fits wide
    have counts : (((s.edgeOffered l).captureEdge l (s.line l).nextEdge).line l).widthRef =
        some s.now ∧ (((s.edgeOffered l).captureEdge l (s.line l).nextEdge).line l).prescaleCount =
          (s.line l).prescaleCount := by
      cases was : (s.line l).widthRef with
      | none => exact (first was).2.symm
      | some r =>
        obtain h | h := Nat.lt_or_ge 0xFFFFFFFF (s.now - r).toNat
        · exact (wide r was h).2.symm
        · exact (fits r was h).2.symm
    exact ⟨counts.1, counts.2, fun none => (first none).1,
      fun r was => ⟨fun h => (fits r was h).1, fun h => (wide r was h).1⟩⟩

end Sys2Proof.Machine
end

section
/-! SUPPORT. The faults of a bank's accesses: of a fetch, of a link read, and of a write to a frame (R31,
R43, R105, R107, R148); the arrival of a link read. -/

namespace Sys2Proof.Machine

theorem bank_dropRead (s : State) (place : Fin 4) (b : BankNo) :
    (s.dropRead place).bank b = s.bank b := rfl

/-! ### A link fault -/

theorem linkFails_linkFault {s u : State} {b : BankNo} (cls : FaultClass) (sub : Subcode)
    (faults : (u.bank b).faults = (s.bank b).faults) (now : u.now = s.now)
    (liveSel : (u.bank b).seq.liveSel = (s.bank b).seq.liveSel)
    (plan : (u.bank b).seq.plan = (s.bank b).seq.plan)
    (fetch : (u.bank b).seq.fetch = (s.bank b).seq.fetch) :
    s.LinkFails (u.linkFault b cls sub) b cls sub := by
  obtain ⟨seq, -, -⟩ := linkFault_spec u b cls sub
  refine ⟨?_, by rw [seq], by rw [seq], by rw [seq]; exact plan, by rw [seq]; exact fetch⟩
  rw [← faults, ← liveSel]
  exact reports_reportFault (by rw [State.linkFault, bank_modSeq_same]) id (by rw [faults]) now

/-! ### A fetch fault -/

/-- A bank that fetches its head frame holds no other (R25). -/
theorem empty_of_head {q : Sequencer} {f : Fetch} (coherent : q.Coherent) (fetch : q.fetch = some f)
    (head : f.role = .head) : q.live = none ∧ q.staged = none := by
  obtain ⟨live, staged, tag, -, -, -, -, fetches, -⟩ := coherent
  obtain ⟨-, loading⟩ | ⟨successor, -⟩ := fetches f fetch
  · rw [loading] at live tag
    have empty : q.tag = .empty := by
      by_contra full
      obtain runs | waits := tag full
      · cases runs
      · cases waits
    refine ⟨Option.isNone_iff_eq_none.1 (by rw [← Option.not_isSome, live]; rfl), ?_⟩
    refine Option.isNone_iff_eq_none.1 ?_
    rw [← Option.not_isSome, Bool.not_eq_true', Bool.eq_false_iff, Ne, staged, empty]
    nofun
  · rw [head] at successor; cases successor

/-- What a fetch that fails finds: the bank of `s` but for its sticky flags and for the retire fields
of a frame to be written REJECTED, behind `before`. -/
structure State.Fetching (s u : State) (b : BankNo) (f : Fetch) (rejected clamped : Bool)
    (before : List FrameReq) : Prop where
  moved : s.BankMoved u b
  seq : (u.bank b).seq = (s.bank b).seq
  slot : (u.bank b).faults.slot = (s.bank b).faults.slot
  sticky : (u.bank b).faults.sticky = if clamped then (s.bank b).faults.sticky.mark .range
    else (s.bank b).faults.sticky
  fifo : (u.bank b).fifo = before ++ if rejected then [⟨.retire f.sel s.now 0#32
    (if clamped then 0x01#8 else 0x00#8) (some .rejected), .unchecked⟩] else []

theorem State.Fetching.fails {s u : State} {b : BankNo} {f : Fetch} {rejected clamped : Bool}
    {before : List FrameReq} (h : s.Fetching u b f rejected clamped before)
    (coherent : (s.bank b).seq.Coherent) (fetch : (s.bank b).seq.fetch = some f)
    (cls : FaultClass) (sub : Subcode) (field : Nat) :
    s.FetchFails (u.fetchFault b f cls sub field) b f cls sub field rejected clamped before := by
  obtain ⟨moved, seq, slot, sticky, fifo⟩ := h
  obtain ⟨-, -, successor⟩ := fetchFault_spec u b f cls sub field
  refine ⟨?_, fun head => moved.planEnds_fetchFault head cls sub field, fun role => ?_, ?_⟩
  · rw [← sticky]; exact reports_fetchFault cls sub field slot moved.now
  · obtain ⟨seq', -⟩ := successor role
    rw [seq', seq]
  · cases role : f.role with
    | head =>
      obtain ⟨live, staged⟩ := empty_of_head coherent fetch role
      unfold State.fetchFault
      rw [(failFetch_spec _ b f.role).2.1 role, fifo_haltBank, bank_modSeq_same, bank_reportFault]
      dsimp only
      rw [seq, live, staged, fifo, List.filter_append]
      cases rejected <;> simp [FrameAccess.fetches, FrameAccess.isFrameRead]
    | successor =>
      obtain ⟨-, fifo'⟩ := successor role
      rw [fifo', fifo]

/-- A fetch that fails with nothing written to its frame. -/
theorem fetchFails_fetchFault {s u : State} {b : BankNo} {f : Fetch} (moved : s.BankMoved u b)
    (seq : (u.bank b).seq = (s.bank b).seq) (faults : (u.bank b).faults = (s.bank b).faults)
    (coherent : (s.bank b).seq.Coherent) (fetch : (s.bank b).seq.fetch = some f)
    (cls : FaultClass) (sub : Subcode) (field : Nat) :
    s.FetchFails (u.fetchFault b f cls sub field) b f cls sub field false false (u.bank b).fifo :=
  State.Fetching.fails ⟨moved, seq, by rw [faults], faults ▸ rfl, (List.append_nil _).symm⟩ coherent
    fetch cls sub field

/-! ### A write fault -/

/-- The state of a write fault before its bank halts. -/
def State.faultWritten (s : State) (b : BankNo) (sel : Selector) (field : Nat) (cls : FaultClass)
    (sub : Subcode) : State :=
  (s.reportFault b cls sub sel field .boundary).withholdWrites b sel

theorem bank_faultWritten (s : State) (b : BankNo) (sel : Selector) (field : Nat)
    (cls : FaultClass) (sub : Subcode) : (s.faultWritten b sel field cls sub).bank b =
      { (s.reportFault b cls sub sel field .boundary).bank b with
        fifo := cancelWrites sel (s.bank b).fifo } := by
  unfold State.faultWritten
  rw [bank_withholdWrites, bank_reportFault]

theorem seq_faultWritten (s : State) (b : BankNo) (sel : Selector) (field : Nat)
    (cls : FaultClass) (sub : Subcode) :
    ((s.faultWritten b sel field cls sub).bank b).seq = (s.bank b).seq := by
  rw [bank_faultWritten, bank_reportFault]

theorem State.BankMoved.faultWritten {s u : State} {b : BankNo} (h : s.BankMoved u b)
    (sel : Selector) (field : Nat) (cls : FaultClass) (sub : Subcode) :
    s.BankMoved (u.faultWritten b sel field cls sub) b := by
  have moved := h.reportFault cls sub sel field .boundary
  refine ⟨fun c hc => ?_, moved.lines, moved.now, ?_⟩
  · unfold State.faultWritten State.withholdWrites
    rw [bank_modPort, bank_modBank_ne _ _ hc]
    exact moved.others c hc
  · rw [bank_faultWritten]; exact moved.gate

theorem writeFault_active {s : State} {b : BankNo} (sel : Selector) (field : Nat)
    (cls : FaultClass) (sub : Subcode) (h : (s.bank b).seq.plan.isActive = true) :
    s.writeFault b sel field cls sub =
      (s.faultWritten b sel field cls sub).haltBank b (some sel) :=
  if_pos (by rw [show State.withholdWrites _ b sel = s.faultWritten b sel field cls sub from rfl,
    seq_faultWritten]; exact h)

theorem writeFault_inactive {s : State} {b : BankNo} (sel : Selector) (field : Nat)
    (cls : FaultClass) (sub : Subcode) (h : (s.bank b).seq.plan.isActive = false) :
    s.writeFault b sel field cls sub = s.faultWritten b sel field cls sub :=
  if_neg (by rw [show State.withholdWrites _ b sel = s.faultWritten b sel field cls sub from rfl,
    seq_faultWritten]; simp [h])

/-- No write of the frame's retire fields holds a state write back any more. -/
theorem held_faultWritten {s : State} {b : BankNo} {sel : Selector} {field : Nat}
    {cls : FaultClass} {sub : Subcode} :
    ∀ w ∈ (s.faultWritten b sel field cls sub).port.writes, ∀ next,
      w.owner = .frameRetire b sel next → next = none := by
  intro w hw next owner
  obtain ⟨x, -, rfl⟩ := List.mem_map.1 hw
  unfold OutWrite.withholdFor at owner
  split at owner
  · split at owner
    · cases owner; rfl
    · rename_i c y n hx differs
      rw [hx] at owner
      cases owner
      simp at differs
  · rename_i none
    exact absurd owner (none b sel next)

/-- A halt over a frame at fault cuts another live frame and returns another staged one. -/
theorem haltBank_others (s : State) (b : BankNo) (sel : Selector) :
    (∀ v, (s.bank b).seq.live = some v → v.sel ≠ sel →
      v.retireReq s.now v.passes .cut ∈ ((s.haltBank b (some sel)).bank b).fifo) ∧
    ∀ f, (s.bank b).seq.staged = some f → f.sel ≠ sel →
      ⟨.state f.sel .ready, .unchecked⟩ ∈ ((s.haltBank b (some sel)).bank b).fifo := by
  obtain ⟨u, hu⟩ : ∃ u, u = (match (s.bank b).seq.live with
    | some v => if some sel = some v.sel then s else s.retireLive b .cut
    | none => s) := ⟨_, rfl⟩
  have halt : s.haltBank b (some sel) = State.endPlan (match (u.bank b).seq.staged with
    | some f => if some sel = some f.sel then u else u.returnStaged b
    | none => u) b .halted .fault := by rw [hu]; rfl
  have keeps : ∀ r : FrameReq, r.acc.fetches = false → r ∈ (u.bank b).fifo →
      r ∈ ((s.haltBank b (some sel)).bank b).fifo := by
    intro r noFetch hr
    rw [halt, fifo_endPlan]
    refine List.mem_filter.2 ⟨?_, by simp [noFetch]⟩
    obtain ⟨-, -, stays, -⟩ := returnStaged_spec u b
    repeat' split
    · exact hr
    · exact stays r hr
    · exact hr
  constructor
  · intro v live other
    refine keeps _ rfl ?_
    rw [live] at hu
    rw [hu]
    dsimp only
    rw [if_neg (by simpa using Ne.symm other), (retireLive_live live .cut).2]
    exact List.mem_append_right _ (List.mem_singleton_self _)
  · intro f staged other
    have same : (u.bank b).seq.staged = some f := by
      rw [hu]
      repeat' split
      · exact staged
      · obtain ⟨⟨lv, seq⟩, -⟩ := retireLive_spec s b .cut
        rw [seq]; exact staged
      · exact staged
    rw [halt, fifo_endPlan, same]
    dsimp only
    rw [if_neg (by simpa using Ne.symm other)]
    obtain ⟨-, -, -, returned⟩ := returnStaged_spec u b
    exact List.mem_filter.2 ⟨returned f same, by simp [FrameAccess.fetches]⟩

theorem writeFails_writeFault {s u : State} {b : BankNo} (sel : Selector) (field : Nat)
    (cls : FaultClass) (sub : Subcode) (moved : s.BankMoved u b)
    (seq : (u.bank b).seq = (s.bank b).seq) (faults : (u.bank b).faults = (s.bank b).faults) :
    s.WriteFails (u.writeFault b sel field cls sub) b sel cls sub field := by
  obtain ⟨v, hv⟩ : ∃ v, v = u.faultWritten b sel field cls sub := ⟨_, rfl⟩
  have vMoved : s.BankMoved v b := hv ▸ moved.faultWritten sel field cls sub
  have vSeq : (v.bank b).seq = (s.bank b).seq := by rw [hv, seq_faultWritten, seq]
  have begun : ∀ r ∈ (v.bank b).fifo, r.acc.isWrite = true → r.acc.sel = sel →
      r.status.begun = true := by
    rw [hv, bank_faultWritten]; exact begun_of_cancelWrites sel _
  have reports : ∀ {t : State}, (t.bank b).faults = (v.bank b).faults →
      (v.causeSet (causeBank b) → t.causeSet (causeBank b)) →
      s.Reports t b (s.bank b).faults.sticky cls sub sel field .boundary := by
    intro t same cause
    rw [← faults]
    refine reports_reportFault (u := u) ?_ (fun set => cause ?_) (by rw [faults]) moved.now
    · rw [same, hv, bank_faultWritten]
    · rw [hv]; exact set
  cases active : (s.bank b).seq.plan.isActive with
  | false =>
    rw [writeFault_inactive sel field cls sub (by rw [seq]; exact active), ← hv]
    have no : ¬ (s.bank b).seq.plan.isActive = true := by rw [active]; decide
    exact ⟨reports rfl id, fun h => absurd h no, fun _ => vSeq, begun, hv ▸ held_faultWritten,
      fun _ h => absurd h no, fun _ h => absurd h no⟩
  | true =>
    rw [writeFault_active sel field cls sub (by rw [seq]; exact active), ← hv]
    obtain ⟨live, staged⟩ := haltBank_others v b sel
    rw [vSeq, vMoved.now] at live
    rw [vSeq] at staged
    refine ⟨reports (faults_haltBank v b _) fun _ => causeBit_haltBank v b _,
      fun _ => vMoved.planEnds_haltBank _, fun h => absurd (active.symm.trans h) (by decide),
      fun r hr write same => begun r (haltBank_fifo v b sel r hr write same) write same, ?_,
      fun w _ => live w, fun f _ => staged f⟩
    have writes : (v.haltBank b (some sel)).port.writes = v.port.writes :=
      congrArg Prod.snd (flight_haltBank v b (some sel))
    rw [writes, hv]
    exact held_faultWritten

/-! ### An access that fails -/

/-- An access that has been struck from the requests fails. -/
theorem accessFails_accessFault {s u : State} {b : BankNo} {a : FrameAccess} (cls : FaultClass)
    (sub : Subcode) (moved : s.BankMoved u b) (seq : (u.bank b).seq = (s.bank b).seq)
    (faults : (u.bank b).faults = (s.bank b).faults) (coherent : (s.bank b).seq.Coherent) :
    s.AccessFails (u.accessFault b a cls sub) b a cls sub (u.bank b).fifo := by
  have fetches : ∀ f, (s.bank b).seq.fetch = some f → s.FetchFails
      (match (u.bank b).seq.fetch with
        | some f => u.fetchFault b f cls sub 0
        | none => u) b f cls sub 0 false false (u.bank b).fifo := by
    intro f fetch
    rw [seq, fetch]
    exact fetchFails_fetchFault moved seq faults coherent fetch cls sub 0
  cases a with
  | header _ => exact fetches
  | entry _ _ => exact fetches
  | link _ =>
    intro reads
    unfold State.accessFault
    rw [if_pos (by rw [seq]; exact reads)]
    exact ⟨linkFails_linkFault cls sub faults moved.now (by rw [seq]) (by rw [seq]) (by rw [seq]),
      (linkFault_spec u b cls sub).2.2⟩
  | state sel _ => exact writeFails_writeFault sel 1 cls sub moved seq faults
  | retire sel _ _ _ _ => exact writeFails_writeFault sel 0 cls sub moved seq faults
  | load _ => trivial

/-! ### A link read arrives (R31) -/

theorem exec_linkRead {place : Fin 4} {r : OutRead} {b : BankNo} {s : State}
    (h : s.Arriving place r) (owner : r.owner = .link b) : exec (.linkRead place) s =
      .next (s.conclude ((s.dropRead place).linkArrived b r.answer)) := by
  obtain ⟨released, there, kept⟩ := h
  exact arrives (g := fun s => s.linkArrived b r.answer) released there kept (by rw [owner])

theorem linkArrived_error {s : State} {b : BankNo} (h : (s.bank b).seq.linkRead = true) :
    s.linkArrived b none = s.linkFault b .bus .read := if_pos h

theorem linkArrived_ok {s : State} {b : BankNo} (bs : List Byte)
    (h : (s.bank b).seq.linkRead = true) :
    s.linkArrived b (some bs) = s.judgeLink b (selectorAt bs 0) := if_pos h

theorem liveSel_recordLink (q : Sequencer) (link : Selector) :
    (q.recordLink link).liveSel = q.liveSel := by
  unfold Sequencer.recordLink Sequencer.liveSel Sequencer.linkDone
  dsimp only
  cases q.live <;> rfl

/-- The link is recorded. -/
def State.linkTaken (s : State) (b : BankNo) (link : Selector) : State :=
  s.modSeq b fun q => q.recordLink link

theorem bank_linkTaken (s : State) (b : BankNo) (link : Selector) :
    (s.linkTaken b link).bank b = { s.bank b with seq := (s.bank b).seq.recordLink link } :=
  bank_modSeq_same _ _ _

section
variable {s : State} {b : BankNo} {link : Selector}

theorem judgeLink_null (h : link.isNull = true) : s.judgeLink b link = s.linkTaken b link :=
  if_pos h

theorem judgeLink_misaligned (some : link.isNull = false) (h : link.aligned = false) :
    s.judgeLink b link = (s.linkTaken b link).linkFault b .format .align := by
  unfold State.judgeLink
  dsimp only
  rw [if_neg (by simp [some]), if_pos (by simp [h])]
  rfl

theorem judgeLink_follows (some : link.isNull = false) (h : link.aligned = true) :
    s.judgeLink b link =
      ((s.linkTaken b link).modSeq b fun q => { q with tag := .pending }).fetchFrame b .successor
        link := by
  unfold State.judgeLink
  dsimp only
  rw [if_neg (by simp [some]), if_neg (by simp [h])]
  rfl

end

/-- Settles O37. -/
theorem linkReadIsActedOn : Obligations.LinkReadIsActedOn := by
  intro place r b s arriving owner reads
  have flight : ((s.dropRead place).linkArrived b r.answer).port.reads =
      s.port.reads.eraseIdx place.val := reads_of_flight (flight_linkArrived (s.dropRead place) b _)
  refine ⟨_, exec_linkRead arriving owner, flight, fun error => ?_, fun bs ok => ?_⟩
  · rw [error, linkArrived_error (s := s.dropRead place) reads]
    obtain ⟨seq, -, fifo⟩ := linkFault_spec (s.dropRead place) b .bus .read
    exact ⟨linkFails_linkFault _ _ rfl rfl rfl rfl rfl, fifo, by rw [seq]; rfl⟩
  · rw [ok, linkArrived_ok (s := s.dropRead place) bs reads]
    obtain ⟨link, hl⟩ : ∃ link, link = selectorAt bs 0 := ⟨_, rfl⟩
    rw [← hl]
    have taken := bank_linkTaken (s.dropRead place) b link
    by_cases null : link.index = 0xFF#8
    · rw [judgeLink_null (by simpa [Selector.isNull] using null), taken]
      exact ⟨rfl, fun _ => rfl, fun other => absurd null other, fun other => absurd null other⟩
    · have some : link.isNull = false := by simpa [Selector.isNull] using null
      by_cases aligned : link.offset.toNat % 8 = 0
      · rw [judgeLink_follows some (by simpa [Selector.aligned] using aligned), bank_fetchFrame,
          bank_modSeq_same, taken]
        exact ⟨rfl, fun e => absurd e null, fun _ odd => absurd aligned odd, fun _ _ => rfl⟩
      · rw [judgeLink_misaligned some (by simpa [Selector.aligned] using aligned)]
        obtain ⟨seq, -, fifo⟩ := linkFault_spec ((s.dropRead place).linkTaken b link) b .format .align
        refine ⟨by rw [seq, taken]; rfl, fun e => absurd e null, fun _ _ => ⟨?_, ?_⟩,
          fun _ even => absurd even aligned⟩
        · refine linkFails_linkFault _ _ ?_ rfl ?_ ?_ ?_ <;> rw [taken]
          · rfl
          · exact liveSel_recordLink _ _
          · rfl
          · rfl
        · rw [fifo, taken]; rfl

end Sys2Proof.Machine
end

section
/-! SUPPORT. The window check of a bank's request, and its outcomes (R147 to R150). -/

namespace Sys2Proof.Machine

/-! ### The outcome of a check -/

theorem perm_placeReq (r : FrameReq) (l : List FrameReq) : (placeReq r l).Perm (r :: l) := by
  induction l with
  | nil => exact .refl _
  | cons x rest ih =>
    unfold placeReq
    split
    · exact (ih.cons x).trans (.swap r x rest)
    · exact .refl _

theorem mem_placeReq (r : FrameReq) (l : List FrameReq) : r ∈ placeReq r l :=
  (perm_placeReq r l).mem_iff.2 List.mem_cons_self

/-- A request that is placed stays when one that stood before it is struck. -/
theorem mem_erase_placeReq {x y : FrameReq} {l : List FrameReq} (h : y ∈ l) :
    x ∈ (placeReq x l).erase y := by
  refine ((perm_placeReq x l).erase y).mem_iff.2 ?_
  by_cases same : y = x
  · subst same
    rw [List.erase_cons_head]
    exact h
  · rw [List.erase_cons_tail (by simpa using Ne.symm same)]
    exact List.mem_cons_self

section
variable {s u : State} {b : BankNo} {r : FrameReq} (bank : u.bank b = s.bank b)
include bank

/-- A request that passes its check is offered. -/
theorem reqChecked_pass (addr : Nat) :
    ((u.reqChecked b r (.pass addr)).bank b).fifo =
        placeReq ⟨r.acc, .ready addr false⟩ ((s.bank b).fifo.erase r) ∧
      ((u.reqChecked b r (.pass addr)).bank b).seq = (s.bank b).seq ∧
      ((u.reqChecked b r (.pass addr)).bank b).faults = (s.bank b).faults := by
  unfold State.reqChecked
  dsimp only
  rw [bank_modBank_same, bank]
  exact ⟨rfl, rfl, rfl⟩

/-- A request that is struck fails as its access does. -/
theorem accessFails_strike (cls : FaultClass) (sub : Subcode) (moved : s.BankMoved u b)
    (coherent : (s.bank b).seq.Coherent) : s.AccessFails
      ((u.modBank b fun k => k.strike r).accessFault b r.acc cls sub) b r.acc cls sub
      ((s.bank b).fifo.erase r) := by
  have struck : (u.modBank b fun k => k.strike r).bank b = (s.bank b).strike r := by
    rw [bank_modBank_same, bank]
  have fails := accessFails_accessFault (s := s) (a := r.acc) cls sub
    (moved.modBank (f := fun k => k.strike r) fun _ => rfl) (by rw [struck]; rfl)
    (by rw [struck]; rfl) coherent
  rw [struck] at fails
  exact fails

/-- A request that fails its check. -/
theorem accessFails_reqChecked (sub : Subcode) (moved : s.BankMoved u b)
    (coherent : (s.bank b).seq.Coherent) : s.AccessFails (u.reqChecked b r (.fail sub)) b r.acc
      .window sub ((s.bank b).fifo.erase r) :=
  accessFails_strike bank .window sub moved coherent

end

/-! ### The check of a bank's request -/

theorem State.BankMoved.of_window {s u : State} {b : BankNo} (h : s.BankMoved u b)
    (f : WindowUnit → WindowUnit) : s.BankMoved (u.modWindow f) b :=
  ⟨h.others, h.lines, h.now, h.gate⟩

theorem checkReq_of {s t : State} {b : BankNo} {a : FrameAccess} {st : ReqStatus} {c : CheckResult}
    (h : s.windowCheck (.bank b a) a.sel.index (a.sel.offset.toNat + a.frameOffset) a.length
      a.isWrite (s.bank b).seq.domain = (t, c)) :
    s.checkReq b ⟨a, st⟩ = t.reqChecked b ⟨a, st⟩ c := by
  show State.reqChecked (s.windowCheck _ _ _ _ _ _).1 b ⟨a, st⟩ (s.windowCheck _ _ _ _ _ _).2 = _
  rw [h]

/-- A request that waits on a load, in a state whose bank has perhaps the load's own request more. -/
theorem reqChecked_waiting {s u : State} {b : BankNo} {r : FrameReq}
    (seq : (u.bank b).seq = (s.bank b).seq) (faults : (u.bank b).faults = (s.bank b).faults) :
    ⟨r.acc, .waiting⟩ ∈ ((u.reqChecked b r .waiting).bank b).fifo ∧
      ((u.reqChecked b r .waiting).bank b).seq = (s.bank b).seq ∧
      ((u.reqChecked b r .waiting).bank b).faults = (s.bank b).faults ∧
      (u.reqChecked b r .waiting).window = u.window := by
  unfold State.reqChecked
  dsimp only
  rw [bank_modBank_same]
  exact ⟨mem_placeReq _ _, seq, faults, rfl⟩

theorem fifo_reqChecked_waiting (u : State) (b : BankNo) (r : FrameReq) :
    ((u.reqChecked b r .waiting).bank b).fifo =
      placeReq ⟨r.acc, .waiting⟩ ((u.bank b).fifo.erase r) := by
  unfold State.reqChecked
  dsimp only
  rw [bank_modBank_same]
  rfl

theorem bank_requestLoad (s : State) (b : BankNo) (a : FrameAccess) (index : Byte) :
    (s.requestLoad (.bank b a) index).bank b = { s.bank b with
      fifo := placeReq ⟨.load index, .ready (s.descriptorAddr index) false⟩ (s.bank b).fifo } :=
  bank_modBank_same _ _ _

/-- The check of a bank's request whose descriptor is not cached. -/
theorem checkReq_misses {s : State} {b : BankNo} {a : FrameAccess} {st : ReqStatus}
    (stands : ⟨a, st⟩ ∈ (s.bank b).fifo) (inside : a.sel.index.toNat < s.window.tableCount)
    (miss : cacheFind a.sel.index s.window.cache = none) :
    ⟨a, .waiting⟩ ∈ ((s.checkReq b ⟨a, st⟩).bank b).fifo ∧
      ((s.checkReq b ⟨a, st⟩).bank b).seq = (s.bank b).seq ∧
      ((s.checkReq b ⟨a, st⟩).bank b).faults = (s.bank b).faults ∧
      (∃ y ∈ (s.checkReq b ⟨a, st⟩).window.loads,
        y.index = a.sel.index ∧ .bank b a ∈ y.waiters) ∧
      (loadFind a.sel.index s.window.loads = none →
        ⟨.load a.sel.index, .ready (s.window.tableAddr.toNat + 16 * a.sel.index.toNat) false⟩
          ∈ ((s.checkReq b ⟨a, st⟩).bank b).fifo) := by
  cases loading : loadFind a.sel.index s.window.loads with
  | some x =>
    rw [checkReq_of (windowCheck_joins _ _ _ _ inside miss loading)]
    obtain ⟨waits, seq, faults, window⟩ := reqChecked_waiting (s := s) (r := ⟨a, st⟩)
      (u := s.modWindow fun w => { w with loads := addWaiter (.bank b a) a.sel.index w.loads }) rfl rfl
    refine ⟨waits, seq, faults, ?_, nofun⟩
    rw [window]
    exact waiter_addWaiter loading
  | none =>
    rw [checkReq_of (windowCheck_loads _ _ _ _ inside miss loading)]
    obtain ⟨u, hu⟩ : ∃ u, u = s.modWindow fun w =>
      { w with loads := w.loads ++ [⟨a.sel.index, false, [.bank b a]⟩] } := ⟨_, rfl⟩
    have same : u.bank b = s.bank b := hu ▸ rfl
    have loaded := bank_requestLoad u b a a.sel.index
    rw [← hu]
    obtain ⟨waits, seq, faults, window⟩ := reqChecked_waiting (s := s) (r := ⟨a, st⟩)
      (u := u.requestLoad (.bank b a) a.sel.index) (by rw [loaded, same]) (by rw [loaded, same])
    refine ⟨waits, seq, faults, ⟨⟨a.sel.index, false, [.bank b a]⟩, ?_, rfl,
      List.mem_singleton_self _⟩, fun _ => ?_⟩
    · rw [window, hu]
      exact List.mem_append_right _ (List.mem_singleton_self _)
    · rw [fifo_reqChecked_waiting, loaded, same]
      refine (perm_placeReq _ _).mem_iff.2 (List.mem_cons_of_mem _ ?_)
      rw [show s.window.tableAddr.toNat = u.window.tableAddr.toNat by rw [hu]; rfl]
      exact mem_erase_placeReq stands

/-! ### Steps 2 to 6 (R147) -/

section
variable {d : Descriptor} {offset length : Nat} {write : Bool} {domain : Byte}

theorem judgeDescriptor_absent (h : d.present = false) :
    judgeDescriptor d offset length write domain = .fail .absent := if_pos (by simp [h])

variable (present : d.present = true)
include present

theorem judgeDescriptor_form (h : d.base % 8 ≠ 0 ∨ 3 < d.ceiling.toNat) :
    judgeDescriptor d offset length write domain = .fail .badDescriptor := by
  unfold judgeDescriptor
  rw [if_neg (by simp [present]), if_pos (by simpa using h)]

variable (base : d.base % 8 = 0) (ceiling : d.ceiling.toNat ≤ 3)
include base ceiling

theorem judgeDescriptor_rights (h : (if write then d.canWrite else d.canRead) = false) :
    judgeDescriptor d offset length write domain = .fail .rights := by
  unfold judgeDescriptor
  rw [if_neg (by simp [present]), if_neg (by simp [base, ceiling]), if_pos (by simpa using h)]

variable (rights : (if write then d.canWrite else d.canRead) = true)
include rights

theorem judgeDescriptor_limit (h : 2 ^ 32 < offset + length ∨ d.limit + 1 < offset + length ∨
    2 ^ 48 < d.base + offset + length) :
    judgeDescriptor d offset length write domain = .fail .limit := by
  unfold judgeDescriptor
  rw [if_neg (by simp [present]), if_neg (by simp [base, ceiling]), if_neg (by simpa using rights),
    if_pos (by simpa [or_assoc] using h)]

theorem judgeDescriptor_inside (top : offset + length ≤ 2 ^ 32) (limit : offset + length ≤ d.limit + 1)
    (space : d.base + offset + length ≤ 2 ^ 48) :
    judgeDescriptor d offset length write domain =
      if d.ceiling.toNat < domain.toNat then .fail .domain else .pass (d.base + offset) := by
  have fits : ¬ (2 ^ 32 < offset + length || d.limit + 1 < offset + length
      || 2 ^ 48 < d.base + offset + length) = true := by
    simp only [Bool.or_eq_true, decide_eq_true_eq]
    omega
  unfold judgeDescriptor
  rw [if_neg (by simp [present]), if_neg (by simp [base, ceiling]), if_neg (by simpa using rights),
    if_neg fits]

end

/-- Settles O50. -/
theorem windowCheckInOrder : Obligations.WindowCheckInOrder := by
  refine ⟨?_, fun s q index offset length write domain =>
    ⟨windowOk_windowCheck s q index offset length write domain,
      windowCheck_outside offset length write domain, fun d inside hit => ?_⟩,
    fun d offset length write domain => ⟨judgeDescriptor_absent, judgeDescriptor_form,
      judgeDescriptor_rights, judgeDescriptor_limit, judgeDescriptor_inside⟩⟩
  · rintro s b a st t rfl coherent stands
    refine ⟨fun outside => ?_, fun d inside hit => ⟨fun addr pass => ?_, fun sub fail => ?_⟩,
      checkReq_misses stands⟩
    · rw [checkReq_of (windowCheck_outside _ _ _ _ outside)]
      exact accessFails_reqChecked (s := s) (u := s) (r := ⟨a, st⟩) rfl .index (.refl s b) (coherent b)
    · rw [checkReq_of (windowCheck_cached _ _ _ _ inside hit), pass]
      exact reqChecked_pass (s := s) (r := ⟨a, st⟩) rfl addr
    · rw [checkReq_of (windowCheck_cached _ _ _ _ inside hit), fail]
      exact accessFails_reqChecked (r := ⟨a, st⟩) (bank_modWindow s _ b) sub
        ((State.BankMoved.refl s b).of_window _) (coherent b)
  · rw [windowCheck_cached offset length write domain inside hit]
    exact ⟨rfl, rfl⟩

end Sys2Proof.Machine
end

section
/-! SUPPORT. The checks of a fetched frame, and the arrival of its header (R28, R32, R100, R154). -/

namespace Sys2Proof.Machine

/-! ### The outcome of the checks -/

/-- The sticky flags of the defaults that acted on a frame that passes. -/
def State.markCopy (s : State) (b : BankNo) (copy : FrameCopy) : State :=
  let s := if copy.clamped then s.markSticky b .range else s
  if copy.stretched then s.markSticky b .timing else s

theorem now_markSticky (s : State) (b : BankNo) (c : FaultClass) :
    (s.markSticky b c).now = s.now := rfl

theorem bank_markCopy (s : State) (b : BankNo) (copy : FrameCopy) :
    (s.markCopy b copy).bank b = { s.bank b with faults := { (s.bank b).faults with sticky :=
      { (s.bank b).faults.sticky with
        range := (s.bank b).faults.sticky.range || copy.clamped
        timing := (s.bank b).faults.sticky.timing || copy.stretched } } } := by
  unfold State.markCopy
  dsimp only
  cases copy.clamped <;> cases copy.stretched <;>
    simp [core_markSticky, Sticky.mark]

theorem bank_stageFrame (s : State) (b : BankNo) (f : Fetch) (copy : FrameCopy) :
    (s.stageFrame b f copy).bank b = { (s.markCopy b copy).bank b with
      seq := { (s.bank b).seq with fetch := some { f with copy := some copy } }
      fifo := (s.bank b).fifo ++ [⟨.state copy.sel .staged, .unchecked⟩] } := by
  show (((s.markCopy b copy).modSeq b fun q =>
    { q with fetch := some { f with copy := some copy } }).requestFrame b _).bank b = _
  unfold State.requestFrame
  rw [bank_modBank_same, bank_modSeq_same, bank_markCopy]

/-- The state of a frame that fails its checks before the fault is reported. -/
def State.failing (s : State) (b : BankNo) (f : Fetch) (rejected clamped : Bool) : State :=
  let s := if clamped then s.markSticky b .range else s
  if rejected then s.writeRejected b f.sel clamped else s

theorem bank_failing (s : State) (b : BankNo) (f : Fetch) (rejected clamped : Bool) :
    (s.failing b f rejected clamped).bank b = { s.bank b with
      faults := { (s.bank b).faults with
        sticky := if clamped then (s.bank b).faults.sticky.mark .range
          else (s.bank b).faults.sticky }
      fifo := (s.bank b).fifo ++ if rejected then [⟨.retire f.sel s.now 0#32
        (if clamped then 0x01#8 else 0x00#8) (some .rejected), .unchecked⟩] else [] } := by
  unfold State.failing State.writeRejected State.requestFrame
  dsimp only
  cases rejected <;> cases clamped <;>
    simp [core_markSticky, now_markSticky, bank_modBank_same, outcomeFlags]

theorem State.BankMoved.failing {s u : State} {b : BankNo} (h : s.BankMoved u b) (f : Fetch)
    (rejected clamped : Bool) : s.BankMoved (u.failing b f rejected clamped) b := by
  unfold State.failing State.writeRejected
  dsimp only
  cases rejected <;> cases clamped
  · exact h
  · exact h.markSticky .range
  · exact h.requestFrame _
  · exact (h.markSticky .range).requestFrame _

/-- The outcome of a frame's checks, in a state whose bank is that of `s`. -/
theorem judged_frameVerdict {s u : State} {b : BankNo} {f : Fetch} (verdict : FrameVerdict)
    (moved : s.BankMoved u b) (bank : u.bank b = s.bank b) (coherent : (s.bank b).seq.Coherent)
    (fetch : (s.bank b).seq.fetch = some f) : s.Judged (u.frameVerdict b f verdict) b f verdict := by
  cases verdict with
  | staged copy =>
    have staged := bank_stageFrame u b f copy
    rw [bank_markCopy, bank] at staged
    show ((u.stageFrame b f copy).bank b).seq = _ ∧ ((u.stageFrame b f copy).bank b).fifo = _ ∧
      ((u.stageFrame b f copy).bank b).faults = _
    rw [staged]
    exact ⟨rfl, rfl, rfl⟩
  | bad cls sub field rejected clamped =>
    have failing := bank_failing u b f rejected clamped
    rw [bank, moved.now] at failing
    refine State.Fetching.fails (u := u.failing b f rejected clamped)
      ⟨moved.failing f rejected clamped, ?_, ?_, ?_, ?_⟩ coherent fetch cls sub field
    all_goals rw [failing]
    · rfl

/-! ### A frame read arrives -/

theorem gather_whole {f : Fetch} {r : OutRead} (h : r.split = false) :
    f.gather r = some r.answer := if_neg (by simp [h])

theorem gather_first {f : Fetch} {r : OutRead} (split : r.split = true) (h : f.half = none) :
    f.gather r = none := by
  unfold Fetch.gather
  rw [if_pos split, h]

theorem gather_second {f : Fetch} {r : OutRead} {second : Bool} {answer : Option (List Byte)}
    (split : r.split = true) (h : f.half = some (second, answer)) :
    (answer = none ∨ r.answer = none → f.gather r = some none) ∧
      ∀ x y, answer = some x → r.answer = some y →
        f.gather r = some (some (if second then y ++ x else x ++ y)) := by
  have joined : f.gather r = some (joinHalves (second, answer) (r.second, r.answer)) := by
    unfold Fetch.gather
    rw [if_pos split, h]
  rw [joined]
  constructor
  · rintro (error | error)
    · rw [error]; rfl
    · rw [error]; cases answer <;> rfl
  · rintro x y rfl hy
    rw [hy]; rfl

/-- What a fetch of the bank does with a read that arrives, but for its judgement. -/
theorem fetchArrived_gathers {s u : State} {b : BankNo} {f : Fetch} (r : OutRead)
    (moved : s.BankMoved u b) (bank : u.bank b = s.bank b) (coherent : (s.bank b).seq.Coherent)
    (fetch : (s.bank b).seq.fetch = some f) :
    (f.gather r = none → (u.fetchArrived b f r).bank b = { s.bank b with seq := { (s.bank b).seq with
        fetch := some { f with half := some (r.second, r.answer) } } }) ∧
      (f.gather r = some none →
        s.FetchFails (u.fetchArrived b f r) b f .bus .read 0 false false (s.bank b).fifo) := by
  unfold State.fetchArrived
  refine ⟨fun missing => ?_, fun error => ?_⟩
  · rw [missing]
    dsimp only
    rw [bank_modSeq_same, bank]
  · rw [error, ← bank]
    exact fetchFails_fetchFault moved (by rw [bank]) (by rw [bank]) coherent fetch .bus .read 0

/-- The fetch of a bank takes a read. -/
theorem toFetch_some {s : State} {b : BankNo} {f : Fetch} (r : OutRead)
    (fetch : (s.bank b).seq.fetch = some f) : State.toFetch b r s = s.fetchArrived b f r := by
  unfold State.toFetch
  rw [fetch]

theorem fetchArrived_header {s : State} {b : BankNo} {f : Fetch} {r : OutRead} {bs : List Byte}
    (h : f.gather r = some (some bs)) (first : f.header = none) :
    s.fetchArrived b f r = s.judgeHeader b f (parseHeader bs) := by
  unfold State.fetchArrived
  rw [h, first]

/-! ### The header (R100 steps 3 to 7) -/

/-- Step 7: the codes of a header. -/
def Header.codes (h : Header) : HeaderVerdict :=
  match countModeOf h.countMode, endActionOf h.endAction, h.start with
  | none, _, _ => .bad .badCode 3 true
  | _, none, _ => .bad .badCode 4 true
  | _, _, none => .bad .badCode 5 true
  | some m, some a, some c => .good m a c

section
variable {h : Header}

theorem check_empty (empty : h.state = 0#8) : h.check = .empty := if_pos empty

theorem check_kind (full : h.state ≠ 0#8) (kind : h.kind ≠ 0xA5#8) :
    h.check = .bad .kind 0#8 false := by
  unfold Header.check
  exact (if_neg full).trans (if_pos kind)

theorem check_state (full : h.state ≠ 0#8) (kind : h.kind = 0xA5#8) (state : h.state ≠ 1#8) :
    h.check = .bad .state 1#8 false := by
  unfold Header.check
  exact (if_neg full).trans ((if_neg (by simp [kind])).trans (if_pos state))

theorem check_ready (state : h.state = 1#8) (kind : h.kind = 0xA5#8) : h.check =
    if 4 < h.entryCount.toNat then .bad .entryCount 2 true else h.codes := by
  have full : h.state ≠ FrameState.empty.code := by rw [state]; decide
  unfold Header.check
  exact (if_neg full).trans ((if_neg (by simp [kind])).trans (if_neg (not_not.2 state)))

/-- The codes of a READY header, in the order they are judged. -/
theorem check_codes (state : h.state = 1#8) (kind : h.kind = 0xA5#8) :
    (4 < h.entryCount.toNat → h.check = .bad .entryCount 2#8 true) ∧
      (h.entryCount.toNat ≤ 4 →
        (countModeOf h.countMode = none → h.check = .bad .badCode 3#8 true) ∧
        ∀ mode, countModeOf h.countMode = some mode →
          (endActionOf h.endAction = none → h.check = .bad .badCode 4#8 true) ∧
          ∀ act, endActionOf h.endAction = some act →
            (h.start = none → h.check = .bad .badCode 5#8 true) ∧
            ∀ start, h.start = some start → h.check = .good mode act start) := by
  rw [check_ready state kind]
  refine ⟨fun many => if_pos many, fun few => ?_⟩
  rw [if_neg (by omega)]
  unfold Header.codes
  refine ⟨fun none => by rw [none]; rfl, fun mode hm => ?_⟩
  rw [hm]
  refine ⟨fun none => by rw [none]; rfl, fun act ha => ?_⟩
  rw [ha]
  exact ⟨fun none => by rw [none]; rfl, fun start hs => by rw [hs]⟩

end

theorem judgeHeader_empty {s : State} {b : BankNo} {f : Fetch} {h : Header}
    (check : h.check = .empty) : s.judgeHeader b f h = s.fetchEmpty b f.role := by
  unfold State.judgeHeader
  rw [check]

theorem judgeHeader_bad {s : State} {b : BankNo} {f : Fetch} {h : Header} {sub : Subcode}
    {field : Byte} {rejected : Bool} (check : h.check = .bad sub field rejected) :
    s.judgeHeader b f h = s.frameVerdict b f (.bad .format sub field.toNat rejected false) := by
  unfold State.judgeHeader
  rw [check]

theorem judgeHeader_good {s : State} {b : BankNo} {f : Fetch} {h : Header} {mode : CountMode}
    {act : EndAction} {start : StartCond} (check : h.check = .good mode act start) :
    s.judgeHeader b f h =
      if h.entryCount = 0#8 then s.frameVerdict b f
        (checkFrame (s.bank b).faults.masks f.sel h mode act start [])
      else (s.modSeq b fun q =>
        { q with fetch := some { f with header := some h, half := none } }).requestFrame b
          (.entry f.sel h.entryCount.toNat) := by
  unfold State.judgeHeader
  rw [check]

/-- A bank that fetches a frame has a tag that an EMPTY frame leaves EMPTY (R22, R28). -/
theorem bank_fetchEmpty {s : State} {b : BankNo} {f : Fetch} (coherent : (s.bank b).seq.Coherent)
    (fetch : (s.bank b).seq.fetch = some f) : (s.fetchEmpty b f.role).bank b =
      { s.bank b with seq := { (s.bank b).seq with fetch := none, tag := .empty } } := by
  obtain ⟨-, -, tag, -, -, -, -, fetches, -⟩ := coherent
  obtain ⟨role, loading⟩ | ⟨role, -⟩ := fetches f fetch
  · have empty : (s.bank b).seq.tag = .empty := by
      by_contra full
      rw [loading] at tag
      obtain runs | waits := tag full
      · cases runs
      · cases waits
    rw [role, ← empty]
    exact bank_modSeq_same _ _ _
  · rw [role]
    exact bank_modSeq_same _ _ _

theorem exec_headerRead {place : Fin 4} {r : OutRead} {b : BankNo} {s : State}
    (h : s.Arriving place r) (owner : r.owner = .header b) : exec (.headerRead place) s =
      .next (s.conclude (State.toFetch b r (s.dropRead place))) := by
  obtain ⟨released, there, kept⟩ := h
  exact arrives (g := State.toFetch b r) released there kept (by rw [owner])

/-- Settles O34. -/
theorem headerReadIsJudged : Obligations.HeaderReadIsJudged := by
  refine ⟨fun place r b f s arriving owner fetch first coherent => ?_,
    fun f r => ⟨gather_whole, gather_first, fun _ _ => gather_second⟩,
    fun h => ⟨check_empty, check_kind, check_state, check_codes⟩⟩
  have moved : s.BankMoved (s.dropRead place) b := .of_banks rfl rfl rfl
  obtain ⟨missing, error⟩ := fetchArrived_gathers r moved rfl (coherent b) fetch
  refine ⟨_, exec_headerRead arriving owner, ?_⟩
  rw [toFetch_some (s := s.dropRead place) r fetch]
  refine ⟨State.ReadsStay.fetchArrived (s.dropRead place) b f r, missing, error, fun bs whole => ?_⟩
  rw [fetchArrived_header whole first]
  refine ⟨fun empty => ?_, fun sub field rejected bad => ?_, fun mode act start good => ?_⟩
  · rw [judgeHeader_empty empty]
    exact bank_fetchEmpty (s := s.dropRead place) (coherent b) fetch
  · rw [judgeHeader_bad bad]
    exact judged_frameVerdict (.bad .format sub field.toNat rejected false) moved rfl (coherent b)
      fetch
  · rw [judgeHeader_good good]
    refine ⟨fun entries => ?_, fun none => ?_⟩
    · rw [if_neg entries]
      unfold State.requestFrame
      rw [bank_modBank_same, bank_modSeq_same]
      rfl
    · rw [if_pos none]
      exact judged_frameVerdict _ moved rfl (coherent b) fetch

end Sys2Proof.Machine
end

section
/-! SUPPORT. The arbiter's grant of a frame access, and the way of a frame from its entries to the
grant of its STAGED write (R16, R28, R29, R100, R154). -/

namespace Sys2Proof.Machine

/-! ### The grant -/

/-- A grant with no host write before it. -/
theorem exec_grant {fate : Fate} {s : State} {g : Grant} (released : s.resetHeld = false)
    (chosen : s.choose = some g) :
    exec (.arbiterGrant [] fate) s = .next (s.conclude (s.issue fate g)) := by
  show unlessReset s (fun s => s.grant fate) = _
  rw [running released]
  unfold State.grant
  rw [chosen]

/-- An access of one byte is never split. -/
theorem isLast_byte (addr : Nat) (second : Bool) : isLast addr 1 second = true := by
  have whole : firstPart addr 1 = 1 := by
    unfold firstPart
    have below := Nat.mod_lt addr (show 0 < 4096 by decide)
    omega
  simp [isLast, isSplit, whole]

/-- A frame access that is sent whole, or in its last half, is struck from the requests. -/
def State.sentWhole (s : State) (b : BankNo) (a : FrameAccess) (addr : Nat) (second : Bool)
    (fate : Fate) : State :=
  (s.sendFrame b a addr second fate).modBank b fun k => k.strike ⟨a, .ready addr second⟩

theorem issueFrame_last {s : State} {b : BankNo} {a : FrameAccess} {addr : Nat} {second : Bool}
    (fate : Fate) (last : isLast addr a.length second = true) :
    s.issueFrame b a addr second fate = (s.sentWhole b a addr second fate).frameIssued b a :=
  if_pos last

theorem bank_sendFrame (s : State) (b c : BankNo) (a : FrameAccess) (addr : Nat) (second : Bool)
    (fate : Fate) : (s.sendFrame b a addr second fate).bank c = s.bank c :=
  congrArg (fun x => x.get c) (banks_sendFrame s b a addr second fate)

theorem bank_sentWhole (s : State) (b : BankNo) (a : FrameAccess) (addr : Nat) (second : Bool)
    (fate : Fate) : (s.sentWhole b a addr second fate).bank b =
      (s.bank b).strike ⟨a, .ready addr second⟩ := by
  unfold State.sentWhole
  rw [bank_modBank_same, bank_sendFrame]

theorem moved_sentWhole (s : State) (b : BankNo) (a : FrameAccess) (addr : Nat) (second : Bool)
    (fate : Fate) : s.BankMoved (s.sentWhole b a addr second fate) b := by
  have sent : s.BankMoved (s.sendFrame b a addr second fate) b := by
    refine .of_banks (banks_sendFrame s b a addr second fate) ?_ ?_ <;>
    · unfold State.sendFrame
      dsimp only
      split <;> rfl
  exact sent.modBank fun _ => rfl

/-! ### The entries arrive -/

theorem fetchArrived_entries {s : State} {b : BankNo} {f : Fetch} {r : OutRead} {bs : List Byte}
    {h : Header} (whole : f.gather r = some (some bs)) (header : f.header = some h) :
    s.fetchArrived b f r = s.judgeEntries b f h bs := by
  unfold State.fetchArrived
  rw [whole, header]

theorem judgeEntries_good {s : State} {b : BankNo} {f : Fetch} {h : Header} {mode : CountMode}
    {act : EndAction} {start : StartCond} (bs : List Byte)
    (check : h.check = .good mode act start) : s.judgeEntries b f h bs =
      s.frameVerdict b f (checkFrame (s.bank b).faults.masks f.sel h mode act start
        (parseEntries h.entryCount.toNat bs)) := by
  unfold State.judgeEntries
  rw [check]

theorem exec_entryRead {place : Fin 4} {r : OutRead} {b : BankNo} {s : State}
    (h : s.Arriving place r) (owner : r.owner = .entry b) : exec (.entryRead place) s =
      .next (s.conclude (State.toFetch b r (s.dropRead place))) := by
  obtain ⟨released, there, kept⟩ := h
  exact arrives (g := State.toFetch b r) released there kept (by rw [owner])

theorem checkFrame_format {masks : Masks} {sel : Selector} {h : Header} {mode : CountMode}
    {act : EndAction} {start : StartCond} {entries : List Entry} {sub : Subcode} {field : Nat}
    (error : checkEntries 0 [] entries = .error (sub, field)) :
    checkFrame masks sel h mode act start entries = .bad .format sub field true false := by
  unfold checkFrame
  rw [error]

/-! ### The entries (R100 step 9) -/

section
variable (n : Nat) (seen : List ChanNo) (e : Entry) (rest : List Entry)

theorem checkEntries_channel (unknown : bankNoOf e.channel = none) :
    checkEntries n seen (e :: rest) = .error (.channel, 16 + 8 * n) := by
  unfold checkEntries
  rw [unknown]

variable {c : ChanNo} (channel : bankNoOf e.channel = some c)
include channel

theorem checkEntries_duplicate (again : c ∈ seen) :
    checkEntries n seen (e :: rest) = .error (.duplicate, 16 + 8 * n) := by
  unfold checkEntries
  rw [channel]
  exact if_pos (by simpa using again)

theorem checkEntries_mode (fresh : c ∉ seen) (unknown : chanModeOf e.mode = none) :
    checkEntries n seen (e :: rest) = .error (.mode, 16 + 8 * n + 1) := by
  unfold checkEntries
  rw [channel]
  dsimp only
  rw [if_neg (by simpa using fresh), unknown]

theorem checkEntries_next {m : ChanMode} (fresh : c ∉ seen) (mode : chanModeOf e.mode = some m) :
    checkEntries n seen (e :: rest) =
      match checkEntries (n + 1) (c :: seen) rest with
      | .error x => .error x
      | .ok xs => .ok ((c, m, e) :: xs) := by
  rw [checkEntries, channel]
  dsimp only
  rw [if_neg (by simpa using fresh), mode] <;> rfl

end

/-! ### The STAGED write is granted -/

theorem stagedIssued_successor {s : State} {b : BankNo} {f : Fetch} {copy : FrameCopy}
    (fetch : (s.bank b).seq.fetch = some f) (role : f.role = .successor)
    (checked : f.copy = some copy) : s.stagedIssued b = s.holdStaged b copy := by
  obtain ⟨role', sel, header, half, copy'⟩ := f
  cases role
  cases checked
  unfold State.stagedIssued
  rw [fetch]

theorem stagedIssued_head {s : State} {b : BankNo} {f : Fetch} {copy : FrameCopy}
    (fetch : (s.bank b).seq.fetch = some f) (role : f.role = .head)
    (checked : f.copy = some copy) : s.stagedIssued b =
      if copy.start = .now then (s.holdStaged b copy).startOwn b copy false
      else (s.holdStaged b copy).enterWaiting b copy := by
  obtain ⟨role', sel, header, half, copy'⟩ := f
  cases role
  cases checked
  unfold State.stagedIssued
  rw [fetch]

/-- A bank that fetches its head frame reads no link. -/
theorem linkRead_of_head {q : Sequencer} {f : Fetch} (coherent : q.Coherent)
    (fetch : q.fetch = some f) (head : f.role = .head) : q.linkRead = false := by
  obtain ⟨-, -, -, -, -, -, -, fetches, link, -⟩ := coherent
  rw [Bool.eq_false_iff]
  intro reads
  have runs := (link reads).1
  obtain ⟨-, loading⟩ | ⟨successor, -⟩ := fetches f fetch
  · rw [loading] at runs; cases runs
  · rw [head] at successor; cases successor

/-- The grant of the STAGED write, in a state whose bank is that of `s` but for its requests. -/
theorem stagedIssued_spec {s u : State} {b : BankNo} {f : Fetch} {copy : FrameCopy}
    (moved : s.BankMoved u b) (seq : (u.bank b).seq = (s.bank b).seq)
    (coherent : (s.bank b).seq.Coherent) (fetch : (s.bank b).seq.fetch = some f)
    (checked : f.copy = some copy) :
    (f.role = .successor →
      ((u.stagedIssued b).bank b).seq = { (s.bank b).seq with
        fetch := none, tag := .valid, staged := some copy,
        latch := if copy.start = .now then .disarmed else .armed,
        awaited := if copy.start = .now then none else some copy.start } ∧
      ((u.stagedIssued b).bank b).fifo = (u.bank b).fifo) ∧
    (f.role = .head → copy.start = .now →
      s.FrameStarts (u.stagedIssued b) b copy false (u.bank b).fifo ∧
        s.StartSent (u.stagedIssued b) b) ∧
    (f.role = .head → copy.start ≠ .now →
      s.FrameWaits (u.stagedIssued b) b copy (u.bank b).fifo ∧
        ((u.stagedIssued b).bank b).seq.awaited = some copy.start) := by
  have held := bank_holdStaged u b copy
  have noLink := fun role => linkRead_of_head coherent fetch (f := f) role
  have heldMoved : s.BankMoved (u.holdStaged b copy) b := moved.modSeq _
  rw [← seq] at fetch
  refine ⟨fun role => ?_, fun role now => ?_, fun role later => ?_⟩
  · rw [stagedIssued_successor fetch role checked, held, seq]
    exact ⟨rfl, rfl⟩
  · rw [stagedIssued_head fetch role checked, if_pos now]
    have starts := frameStarts_startFrame (s := s) (bank_startOwn (u.holdStaged b copy) b copy false)
      (by rw [held, seq]) (by rw [held, seq])
      (by rw [held, seq]; exact noLink role)
    rw [held] at starts
    exact ⟨starts, startSent_startOwn copy false fun c hc k _ => heldMoved.unheard hc k⟩
  · rw [stagedIssued_head fetch role checked, if_neg later]
    have waits := frameWaits_enterWaiting (s := s) (u := u.holdStaged b copy) (b := b) (f := copy)
      (by rw [held]) (by rw [held]) (by rw [held]; exact if_neg later) heldMoved.now
    rw [held] at waits
    refine ⟨waits, ?_⟩
    rw [bank_enterWaiting, seq_refresh, held]
    exact if_neg later

/-- Settles O36. -/
theorem entryReadStagesTheFrame : Obligations.EntryReadStagesTheFrame := by
  refine ⟨fun place r b f h mode act start s arriving owner fetch header check coherent => ?_,
    fun b f sel copy addr second fate s released coherent chosen fetch checked => ?_,
    fun _ _ _ _ _ _ _ _ _ => checkFrame_format,
    fun n seen e rest => ⟨checkEntries_channel n seen e rest, fun c channel =>
      ⟨checkEntries_duplicate n seen e rest channel, checkEntries_mode n seen e rest channel,
        fun m fresh known => checkEntries_next n seen e rest channel fresh known⟩⟩⟩
  · have moved : s.BankMoved (s.dropRead place) b := .of_banks rfl rfl rfl
    obtain ⟨missing, error⟩ := fetchArrived_gathers r moved rfl (coherent b) fetch
    refine ⟨_, exec_entryRead arriving owner, ?_⟩
    rw [toFetch_some (s := s.dropRead place) r fetch]
    refine ⟨State.ReadsStay.fetchArrived (s.dropRead place) b f r, missing, error,
      fun bs whole => ?_⟩
    rw [fetchArrived_entries whole header, judgeEntries_good bs check]
    exact judged_frameVerdict _ moved rfl (coherent b) fetch
  · refine ⟨_, exec_grant released chosen, ?_⟩
    have issued : s.issue fate (.frame b (.state sel .staged) addr second) =
        (s.sentWhole b (.state sel .staged) addr second fate).stagedIssued b :=
      issueFrame_last fate (isLast_byte addr second)
    have sent := bank_sentWhole s b (.state sel .staged) addr second fate
    have staged := stagedIssued_spec (moved_sentWhole s b (.state sel .staged) addr second fate)
      (by rw [sent]; rfl) (coherent b) fetch checked
    rw [sent] at staged
    rw [issued]
    exact staged

end Sys2Proof.Machine
end

section
/-! SUPPORT. The response to a write of a frame (R107, R154). -/

namespace Sys2Proof.Machine

/-! ### The halves of a split access -/

theorem halfError_refreshPins (s : State) (b : BankNo) :
    ((s.refreshPins b).bank b).halfError = (s.bank b).halfError := by
  unfold State.refreshPins
  rw [bank_modBank_same]
  unfold Bank.refreshPins
  split <;> rfl

theorem halfError_openGate (s : State) (b : BankNo) :
    ((s.openGate b).bank b).halfError = (s.bank b).halfError := by
  unfold State.openGate
  rw [halfError_refreshPins, bank_modGate_same]

theorem halfError_releaseGate (s : State) (b : BankNo) :
    ((s.releaseGate b).bank b).halfError = (s.bank b).halfError := by
  unfold State.releaseGate
  dsimp only
  repeat' split
  · exact halfError_openGate s b
  · rfl
  · exact halfError_openGate s b
  · rfl

/-- The bank whose plan ends, before its gate may reopen and its pins follow. -/
def State.planLeft (s : State) (b : BankNo) (plan : PlanState) (reason : StopReason) : State :=
  (s.discardReads b).modBank b fun k =>
    { k with seq := k.seq.ended plan reason, wave := k.wave.atZero }

theorem bank_planLeft (s : State) (b : BankNo) (plan : PlanState) (reason : StopReason) :
    (s.planLeft b plan reason).bank b = { s.bank b with
      seq := (s.bank b).seq.ended plan reason
      wave := (s.bank b).wave.atZero
      fifo := (s.bank b).fifo.filter fun r => !r.acc.fetches } := by
  unfold State.planLeft
  rw [bank_modBank_same, bank_discardReads]

/-- Its own PLAN_END finds the latch of the bank disarmed. -/
theorem bank_endPlan (s : State) (b : BankNo) (plan : PlanState) (reason : StopReason) :
    (s.endPlan b plan reason).bank b =
      (((s.planLeft b plan reason).releaseGate b).refreshPins b).bank b := by
  have seq : ((((s.planLeft b plan reason).releaseGate b).refreshPins b).bank b).seq =
      (s.bank b).seq.ended plan reason := by
    have pins := congrArg Prod.fst (core_refreshPins ((s.planLeft b plan reason).releaseGate b) b)
    have gate := congrArg Prod.fst (core_releaseGate (s.planLeft b plan reason) b)
    refine (pins.trans gate).trans ?_
    unfold Bank.core
    rw [bank_planLeft]
  exact bank_emit_disarmed ((((s.planLeft b plan reason).releaseGate b).refreshPins b).raise
    (causeBank b)) b .planEnd b (congrArg Sequencer.latch seq)

theorem halfError_endPlan (s : State) (b : BankNo) (plan : PlanState) (reason : StopReason) :
    ((s.endPlan b plan reason).bank b).halfError = (s.bank b).halfError := by
  rw [bank_endPlan, halfError_refreshPins, halfError_releaseGate, bank_planLeft]

theorem halfError_retireLive (s : State) (b : BankNo) (code : FrameState) :
    ((s.retireLive b code).bank b).halfError = (s.bank b).halfError := by
  unfold State.retireLive State.requestFrame
  split
  · rw [bank_modBank_same, bank_modSeq_same]
  · rfl

theorem halfError_returnStaged (s : State) (b : BankNo) :
    ((s.returnStaged b).bank b).halfError = (s.bank b).halfError := by
  unfold State.returnStaged State.requestFrame
  split
  · rw [bank_modBank_same]
  · rfl

theorem halfError_haltBank (s : State) (b : BankNo) (bad : Option Selector) :
    ((s.haltBank b bad).bank b).halfError = (s.bank b).halfError := by
  unfold State.haltBank
  dsimp only
  rw [halfError_endPlan]
  repeat' split
  all_goals simp only [halfError_retireLive, halfError_returnStaged]

theorem halfError_writeFault (s : State) (b : BankNo) (sel : Selector) (field : Nat)
    (cls : FaultClass) (sub : Subcode) :
    ((s.writeFault b sel field cls sub).bank b).halfError = (s.bank b).halfError := by
  have faulted : ((s.faultWritten b sel field cls sub).bank b).halfError =
      (s.bank b).halfError := by rw [bank_faultWritten, bank_reportFault]
  cases active : (s.bank b).seq.plan.isActive with
  | true => rw [writeFault_active sel field cls sub active, halfError_haltBank, faulted]
  | false => rw [writeFault_inactive sel field cls sub active, faulted]

/-! ### The response -/

/-- The write answered is one of a frame of the bank, of its retire fields or of its state. -/
def WriteOwner.ofFrame (b : BankNo) (sel : Selector) (retire : Bool) (next : Option FrameState) :
    WriteOwner := if retire then .frameRetire b sel next else .frameState b sel

theorem exec_frameWriteResponse {b : BankNo} {sel : Selector} {retire : Bool}
    {next : Option FrameState} {last error : Bool} {rest : List OutWrite} {s : State}
    (h : s.Responding ⟨.ofFrame b sel retire next, last, error⟩ rest) :
    exec .frameWriteResponse s = .next (s.conclude
      (State.frameResponse { s with port := { s.port with writes := rest } } b sel retire
        (if retire then next else none) ⟨.ofFrame b sel retire next, last, error⟩)) := by
  obtain ⟨released, writes⟩ := h
  rw [← dropWrite_eq writes]
  cases retire
  · exact responds (g := fun s => s.frameResponse b sel false none _) released writes rfl
  · exact responds (g := fun s => s.frameResponse b sel true next _) released writes rfl

section
variable {s : State} {b : BankNo} {sel : Selector} {retire : Bool} {next : Option FrameState}
  {w : OutWrite}

theorem frameResponse_first (last : w.last = false) : s.frameResponse b sel retire next w =
    s.modBank b fun k => { k with halfError := k.halfError || w.error } := if_neg (by simp [last])

/-- The bank with no half of a split access kept. -/
def State.unhalved (s : State) (b : BankNo) : State :=
  s.modBank b fun k => { k with halfError := false }

theorem bank_unhalved (s : State) (b : BankNo) :
    (s.unhalved b).bank b = { s.bank b with halfError := false } := bank_modBank_same _ _ _

theorem frameResponse_last (last : w.last = true) : s.frameResponse b sel retire next w =
    (s.unhalved b).frameAnswered b sel retire next (w.error || (s.bank b).halfError) := if_pos last

theorem unhalved_clean {t : State} (h : (t.bank b).halfError = false) : t.unhalved b = t := by
  have banks : (t.unhalved b).banks = t.banks := Quad.ext_get fun c => by
    show (t.unhalved b).bank c = t.bank c
    obtain rfl | hc := eq_or_ne c b
    · rw [bank_unhalved, ← h]
    · exact bank_modBank_ne _ _ hc
  rw [show t.unhalved b = { t with banks := (t.unhalved b).banks } from rfl, banks]

theorem frameResponse_ok {t : State} (last : w.last = true) (ok : w.error = false)
    (clean : (t.bank b).halfError = false) : t.frameResponse b sel retire next w =
      t.frameAnswered b sel retire next false := by
  rw [frameResponse_last last, unhalved_clean clean, ok, clean, Bool.or_false]

/-- The state write that was held back is requested. -/
theorem frameAnswered_held (t : State) (b : BankNo) (sel : Selector) (retire : Bool)
    (code : FrameState) : t.frameAnswered b sel retire (some code) false =
      t.requestFrame b (.state sel code) := rfl

/-- An ERROR to either half is a write fault (R107). -/
theorem writeFails_frameResponse {t : State} {rest : List OutWrite} (banks : t.banks = s.banks)
    (lines : t.lines = s.lines) (now : t.now = s.now) (writes : t.port.writes = rest)
    (last : w.last = true) (error : (w.error || (s.bank b).halfError) = true) :
    s.WriteFails (t.frameResponse b sel retire next w) b sel .bus .write (if retire then 0 else 1) ∧
      ((t.frameResponse b sel retire next w).bank b).halfError = false ∧
      (t.frameResponse b sel retire next w).WritesAre rest := by
  have bank : t.bank b = s.bank b := congrArg (fun x => x.get b) banks
  have unhalved := bank_unhalved t b
  rw [bank] at unhalved
  rw [frameResponse_last last, bank, error,
    show (t.unhalved b).frameAnswered b sel retire next true = _ from if_pos rfl]
  refine ⟨writeFails_writeFault sel _ .bus .write ?_ (by rw [unhalved]) (by rw [unhalved]), ?_, ?_⟩
  · exact (State.BankMoved.of_banks banks lines now).modBank fun _ => rfl
  · rw [halfError_writeFault, unhalved]
  · rw [← writes]
    exact (flight_writeFault (t.unhalved b) b sel _ .bus .write).2

end

/-- Settles O43. -/
theorem frameWriteResponseIsActedOn : Obligations.FrameWriteResponseIsActedOn := by
  refine ⟨fun b sel owner error rest s kind => ?_, fun b sel next rest s whole => ?_⟩
  · obtain ⟨retire, next, rfl, field⟩ : ∃ retire next, owner = .ofFrame b sel retire next ∧
        (if owner = .frameState b sel then 1 else 0) = if retire then 0 else 1 := by
      obtain rfl | ⟨next, rfl⟩ := kind
      · exact ⟨false, none, rfl, by simp⟩
      · exact ⟨true, next, rfl, by simp⟩
    refine ⟨fun responding => ⟨_, exec_frameWriteResponse responding, ?_⟩,
      fun responding half => ⟨_, exec_frameWriteResponse responding, ?_⟩⟩
    · rw [frameResponse_first rfl]
      exact ⟨rfl, fun c hc => bank_modBank_ne _ _ hc, bank_modBank_same _ _ _⟩
    · rw [field]
      exact writeFails_frameResponse rfl rfl rfl rfl rfl (by rw [half, Bool.or_true])
  · refine ⟨fun code released responding => ?_, fun responding => ?_, fun responding => ?_,
      fun responding => ?_⟩
    · refine ⟨_, exec_frameWriteResponse (retire := true) responding, ?_⟩
      rw [frameResponse_ok (t := { s with port := { s.port with writes := rest } }) rfl rfl whole,
        released, if_pos rfl, frameAnswered_held]
      unfold State.requestFrame
      dsimp only
      rw [bank_modBank_same]
      exact ⟨rfl, rfl, rfl⟩
    · refine ⟨_, exec_frameWriteResponse (retire := false) (next := none) responding, ?_⟩
      rw [frameResponse_ok (t := { s with port := { s.port with writes := rest } }) rfl rfl whole]
      rfl
    · obtain ⟨fails, -, writes⟩ := writeFails_frameResponse (s := s) (b := b) (sel := sel)
        (retire := true) (next := next) (w := ⟨.frameRetire b sel next, true, true⟩) (rest := rest)
        (t := { s with port := { s.port with writes := rest } }) rfl rfl rfl rfl rfl rfl
      exact ⟨_, exec_frameWriteResponse (retire := true) responding, fails, writes⟩
    · obtain ⟨fails, -, writes⟩ := writeFails_frameResponse (s := s) (b := b) (sel := sel)
        (retire := false) (next := none) (w := ⟨.frameState b sel, true, true⟩) (rest := rest)
        (t := { s with port := { s.port with writes := rest } }) rfl rfl rfl rfl rfl rfl
      exact ⟨_, exec_frameWriteResponse (retire := false) (next := none) responding, fails, writes⟩

end Sys2Proof.Machine
end

section
/-! SUPPORT. What the arbiter's grant issues: the transaction, and the count of retired frames (R46,
R154, R156, R158). -/

namespace Sys2Proof.Machine

/-! ### The count of retired frames -/

/-- How many frames a bank has retired. -/
def State.retiredOf (s : State) (b : BankNo) : BitVec 48 := (s.bank b).seq.retired

theorem retiredOf_modBank (s : State) (b c : BankNo) {f : Bank → Bank}
    (h : ∀ k, (f k).seq.retired = k.seq.retired) : (s.modBank b f).retiredOf c = s.retiredOf c := by
  unfold State.retiredOf
  obtain rfl | hc := eq_or_ne c b
  · rw [bank_modBank_same, h]
  · rw [bank_modBank_ne _ _ hc]

theorem retiredOf_readLink (s : State) (b c : BankNo) :
    (s.readLink b).retiredOf c = s.retiredOf c := by
  unfold State.readLink State.requestFrame
  repeat' split
  · refine (retiredOf_modBank _ b c ?_).trans (retiredOf_modBank s b c ?_)
    · exact fun _ => rfl
    · exact fun _ => rfl
  · rfl
  · rfl

theorem retiredOf_refreshPins (s : State) (b c : BankNo) :
    (s.refreshPins b).retiredOf c = s.retiredOf c :=
  retiredOf_modBank s b c fun k => by rw [seq_refresh]

theorem retiredOf_startFrame (s : State) (b c : BankNo) (f : FrameCopy) (forced : Bool) :
    (s.startFrame b f forced).retiredOf c = s.retiredOf c := by
  unfold State.startFrame State.requestFrame
  rw [retiredOf_refreshPins, retiredOf_readLink, retiredOf_modBank _ b c, retiredOf_modBank _ b c]
  · exact fun _ => rfl
  · exact fun _ => rfl

theorem retiredOf_startCues {emit : StartCond → State → State} {b : BankNo}
    (h : ∀ x s, (emit x s).retiredOf b = s.retiredOf b) (s : State) (d : BankNo) :
    (State.startCues emit s d).retiredOf b = s.retiredOf b := by
  unfold State.startCues
  split
  · rw [h, h]
  · rw [h]

theorem retiredOf_takeCue {emit : StartCond → State → State} {b : BankNo}
    (h : ∀ x s, (emit x s).retiredOf b = s.retiredOf b) (x : StartCond) (s : State) (d : BankNo) :
    (State.takeCue emit x s d).retiredOf b = s.retiredOf b := by
  unfold State.takeCue
  dsimp only
  repeat' split
  · rw [retiredOf_startCues h, retiredOf_startFrame]
  · rfl
  · exact retiredOf_modBank s d b fun _ => rfl
  · rfl

theorem retiredOf_offer (n : Nat) (x : StartCond) (s : State) (b : BankNo) :
    (offer n x s).retiredOf b = s.retiredOf b := by
  induction n generalizing x s with
  | zero => rfl
  | succ n ih =>
    unfold offer
    rw [retiredOf_takeCue ih, retiredOf_takeCue ih, retiredOf_takeCue ih, retiredOf_takeCue ih]

theorem retiredOf_holdStaged (s : State) (b c : BankNo) (f : FrameCopy) :
    (s.holdStaged b f).retiredOf c = s.retiredOf c := retiredOf_modBank s b c fun _ => rfl

theorem retiredOf_stagedIssued (s : State) (b c : BankNo) :
    (s.stagedIssued b).retiredOf c = s.retiredOf c := by
  unfold State.stagedIssued
  repeat' split
  · exact retiredOf_holdStaged s b c _
  · unfold State.startOwn
    rw [retiredOf_startCues fun x s => retiredOf_offer _ x s c, retiredOf_startFrame,
      retiredOf_holdStaged]
  · unfold State.enterWaiting
    rw [retiredOf_refreshPins]
    refine (retiredOf_modBank _ b c ?_).trans (retiredOf_holdStaged s b c _)
    exact fun _ => rfl
  · rfl

/-- The issue of a write of SPENT, SPENT_END or CUT counts, and that of no other access (R46). -/
theorem retiredOf_frameIssued (s : State) (b c : BankNo) (a : FrameAccess) :
    (s.frameIssued b a).retiredOf c =
      if c = b ∧ a.retires = true then s.retiredOf c + 1#48 else s.retiredOf c := by
  cases a with
  | state sel code =>
    show (if code = .staged then s.stagedIssued b
      else if code.retires then s.modSeq b fun q => { q with retired := q.retired + 1#48 }
      else s).retiredOf c = if c = b ∧ code.retires = true then _ else _
    by_cases staged : code = .staged
    · rw [if_pos staged, retiredOf_stagedIssued, staged]
      simp [FrameState.retires]
    · rw [if_neg staged]
      cases counts : code.retires with
      | false => simp
      | true =>
        obtain rfl | hc := eq_or_ne c b
        · rw [if_pos rfl, if_pos ⟨rfl, rfl⟩]
          unfold State.retiredOf
          rw [bank_modSeq_same]
        · rw [if_pos rfl, if_neg fun h => hc h.1]
          unfold State.retiredOf
          rw [bank_modSeq_ne _ _ hc]
  | _ => exact (if_neg fun h => Bool.false_ne_true h.2).symm

/-! ### A frame access -/

theorem firstPart_whole {addr len : Nat} : firstPart addr len = len ↔ addr % 4096 + len ≤ 4096 := by
  have below := Nat.mod_lt addr (show 0 < 4096 by decide)
  unfold firstPart
  omega

theorem isSplit_eq (addr len : Nat) : isSplit addr len = decide (4096 < addr % 4096 + len) := by
  rw [Bool.eq_iff_iff, decide_eq_true_eq, isSplit, bne_iff_ne, Ne, firstPart_whole]
  omega

theorem isLast_iff {addr len : Nat} {second : Bool} :
    isLast addr len second = true ↔ second = true ∨ addr % 4096 + len ≤ 4096 := by
  rw [isLast, isSplit_eq, Bool.or_eq_true, Bool.not_eq_true', decide_eq_false_iff_not, not_lt]

theorem issueFrame_first {s : State} {b : BankNo} {a : FrameAccess} {addr : Nat} {second : Bool}
    (fate : Fate) (half : ¬ isLast addr a.length second = true) :
    s.issueFrame b a addr second fate = (s.sendFrame b a addr second fate).modBank b fun k =>
      { k with fifo := k.fifo.replace ⟨a, .ready addr second⟩ ⟨a, .ready addr true⟩ } :=
  if_neg half

theorem retiredOf_issueFrame (s : State) (b c : BankNo) (a : FrameAccess) (addr : Nat)
    (second : Bool) (fate : Fate) : (s.issueFrame b a addr second fate).retiredOf c =
      if c = b ∧ a.retires = true ∧ isLast addr a.length second = true then s.retiredOf c + 1#48
      else s.retiredOf c := by
  have sent : (s.sendFrame b a addr second fate).retiredOf c = s.retiredOf c := by
    unfold State.retiredOf
    rw [bank_sendFrame]
  by_cases last : isLast addr a.length second = true
  · have whole : (s.sentWhole b a addr second fate).retiredOf c = s.retiredOf c := by
      refine (retiredOf_modBank _ b c ?_).trans sent
      exact fun _ => rfl
    rw [issueFrame_last fate last, retiredOf_frameIssued, whole]
    simp only [last, and_true]
  · rw [issueFrame_first fate last, if_neg fun h => last h.2.2]
    refine (retiredOf_modBank _ b c ?_).trans sent
    exact fun _ => rfl

theorem port_stagedIssued (s : State) (b : BankNo) : (s.stagedIssued b).port = s.port := by
  have cues : ∀ (u : State) (d : BankNo),
      (State.startCues (offer cueDepth) u d).port = u.port := by
    intro u d
    unfold State.startCues
    split
    · rw [port_offer, port_offer]
    · rw [port_offer]
  have starts : ∀ (u : State) (f : FrameCopy) forced, (u.startFrame b f forced).port = u.port := by
    intro u f forced
    obtain ⟨q, hq⟩ := only_startFrame u b f forced
    rw [hq]
  unfold State.stagedIssued
  repeat' split
  · rfl
  · rw [State.startOwn, cues, starts]; rfl
  · rfl
  · rfl

theorem port_frameIssued (s : State) (b : BankNo) (a : FrameAccess) :
    (s.frameIssued b a).port = s.port := by
  unfold State.frameIssued
  repeat' split
  · exact port_stagedIssued s b
  · rfl
  · rfl
  · rfl

theorem port_issueFrame (s : State) (b : BankNo) (a : FrameAccess) (addr : Nat) (second : Bool)
    (fate : Fate) :
    (s.issueFrame b a addr second fate).port = (s.sendFrame b a addr second fate).port := by
  by_cases last : isLast addr a.length second = true
  · rw [issueFrame_last fate last, port_frameIssued]; rfl
  · rw [issueFrame_first fate last]; rfl

theorem sendFrame_lastBank (s : State) (b : BankNo) (a : FrameAccess) (addr : Nat) (second : Bool)
    (fate : Fate) : (s.sendFrame b a addr second fate).port.lastBank = b := by
  unfold State.sendFrame
  dsimp only
  split <;> rfl

theorem sendFrame_reads {a : FrameAccess} (read : a.isWrite = false) (s : State) (b : BankNo)
    (addr : Nat) (second : Bool) (fate : Fate) :
    (s.sendFrame b a addr second fate).port.reads = s.port.reads ++
      [⟨a.readOwner b, false, decide (4096 < addr % 4096 + a.length), second,
        if fate.isError then none else some (s.memory.readBytes
          (partOf addr a.length second).1 (partOf addr a.length second).2)⟩] := by
  rw [← isSplit_eq]
  unfold State.sendFrame
  dsimp only
  rw [if_neg (by simp [read])]
  rfl

theorem mem_replace {α : Type} [BEq α] [LawfulBEq α] {l : List α} {x : α} (y : α) (h : x ∈ l) :
    y ∈ l.replace x y := by
  induction l with
  | nil => cases h
  | cons z rest ih =>
    rw [List.replace_cons]
    split
    · exact List.mem_cons_self
    · rename_i differs
      refine List.mem_cons_of_mem _ (ih ?_)
      obtain rfl | member := List.mem_cons.1 h
      · simp at differs
      · exact member

/-- The first half of an access leaves its second half in its place. -/
theorem bank_issueFrame_first {a : FrameAccess} {addr : Nat} (split : 4096 < addr % 4096 + a.length)
    (s : State) (b : BankNo) (fate : Fate) : (s.issueFrame b a addr false fate).bank b =
      { s.bank b with
        fifo := (s.bank b).fifo.replace ⟨a, .ready addr false⟩ ⟨a, .ready addr true⟩ } := by
  have half : ¬ isLast addr a.length false = true := by
    rw [isLast_iff]
    rintro (h | h)
    · cases h
    · omega
  rw [issueFrame_first fate half, bank_modBank_same, bank_sendFrame]

/-- Nothing follows at once from the issue of a read. -/
theorem frameIssued_read (s : State) (b : BankNo) {a : FrameAccess} (read : a.isWrite = false) :
    s.frameIssued b a = s := by
  cases a <;> first | rfl | cases read

/-! ### The grant -/

/-- The host's writes before a grant touch memory alone. -/
theorem exec_grant_host {host : List Host.Cell} {fate : Fate} {s : State}
    (released : s.resetHeld = false) (inside : ∀ x ∈ host, x.1 < 2 ^ 48) :
    exec (.arbiterGrant host fate) s = .next ((s.hostWrites host).grant fate) := by
  show execArbiterGrant host fate s = _
  unfold execArbiterGrant
  rw [badHostWrite_none inside]
  exact running released

/-- No request but the write of a frame's state counts. -/
theorem retiredOf_issue_other {s : State} {fate : Fate} {g : Grant} {c : BankNo}
    (other : ∀ sel code addr second, g ≠ .frame c (.state sel code) addr second) :
    (s.issue fate g).retiredOf c = s.retiredOf c := by
  have of_banks : ∀ {t : State}, t.banks = s.banks → t.retiredOf c = s.retiredOf c :=
    fun h => congrArg (fun x => (x.get c).seq.retired) h
  cases g with
  | journal j r => exact of_banks (banks_issueJournal s j r fate)
  | frame b a addr second =>
    refine (retiredOf_issueFrame s b c a addr second fate).trans (if_neg ?_)
    rintro ⟨rfl, retires, -⟩
    cases a with
    | state sel code => exact other sel code addr second rfl
    | _ => cases retires
  | class3 x => exact of_banks (banks_issueClass3 s x fate)
  | class4 o => rfl

/-- A write of a frame's state counts by its code. -/
theorem retiredOf_issue_state (s : State) (fate : Fate) (b : BankNo) (sel : Selector)
    (code : FrameState) (addr : Nat) (second : Bool) :
    (s.issue fate (.frame b (.state sel code) addr second)).retiredOf b =
      if code = .spent ∨ code = .spentEnd ∨ code = .cut then s.retiredOf b + 1#48
      else s.retiredOf b := by
  refine (retiredOf_issueFrame s b b _ addr second fate).trans ?_
  refine if_congr ?_ rfl rfl
  have last : isLast addr (FrameAccess.state sel code).length second = true :=
    isLast_byte addr second
  simp [last, FrameAccess.retires, FrameState.retires, or_assoc]

/-- Settles O46. -/
theorem arbiterGrantIssues : Obligations.ArbiterGrantIssues := by
  intro host fate s released
  refine ⟨fun outside => ?_, fun inside => ⟨fun none => ?_, fun g chosen => ?_⟩⟩
  · obtain ⟨a, bad, above⟩ := badHostWrite_some outside
    refine ⟨a, ?_, above⟩
    show execArbiterGrant host fate s = _
    unfold execArbiterGrant
    rw [bad]
  · rw [exec_grant_host released inside]
    unfold State.grant
    rw [none]
  · refine ⟨_, ?_, rfl, ?_, ?_, ?_, ?_, ?_, ?_, ?_⟩
    · rw [exec_grant_host released inside]
      unfold State.grant
      rw [chosen]
    · obtain ⟨reads, writes, -, -, -⟩ := grown_issue (s.hostWrites host) fate g
      have sameReads : (s.hostWrites host).port.reads = s.port.reads := rfl
      have sameWrites : (s.hostWrites host).port.writes = s.port.writes := rfl
      rw [sameReads] at reads
      rw [sameWrites] at writes
      cases read : g.isRead <;>
        simp only [read, if_true, if_false, Bool.false_eq_true] at reads writes <;> omega
    · rintro b a addr second rfl
      have port := port_issueFrame (s.hostWrites host) b a addr second fate
      refine ⟨(congrArg Port.lastBank port).trans (sendFrame_lastBank _ b a addr second fate),
        fun read => (congrArg Port.reads port).trans (sendFrame_reads read _ b addr second fate),
        ?_, fun last read => ?_⟩
      · rintro rfl split
        have bank := bank_issueFrame_first split (s.hostWrites host) b fate
        rw [show ((s.hostWrites host).issue fate (.frame b a addr false)).bank b = _ from bank]
        exact ⟨rfl, mem_replace _ (frame_of_choose chosen), rfl⟩
      · show (((s.hostWrites host).issueFrame b a addr second fate).bank b).fifo = _
        rw [issueFrame_last fate (isLast_iff.2 last), frameIssued_read _ b read, bank_sentWhole]
        rfl
    · rintro b sel code addr second rfl
      exact retiredOf_issue_state (s.hostWrites host) fate b sel code addr second
    · exact fun c other => retiredOf_issue_other (s := s.hostWrites host) other
    · rintro j rfl
      have place : s.engine.anchor.toNat + 0x1C0 + 32 * j.val + 8 =
          s.engine.anchor.toNat + offJournalRecord j + 8 := by unfold offJournalRecord; omega
      rw [place]
      exact ⟨rfl, rfl⟩
    · rintro j n rfl
      exact ⟨rfl, rfl⟩
    · rintro o rfl
      exact ⟨rfl, rfl⟩

end Sys2Proof.Machine
end

section
/-! SUPPORT. The order in which the arbiter grants: the class 3 requests by their ticks, and the
classes and turns of the choice (R155, R158, R159). -/

namespace Sys2Proof.Machine

/-! ### Class 3 requests by their ticks -/

/-- Of two waiting class 3 requests the one in front is older or, of the same tick, of no higher
rank. -/
abbrev Older (x y : Class3 × Bool) : Prop := x.2 = true → y.2 = true ∧ x.1.rank ≤ y.1.rank

theorem pairwise_insertClass3 (c : Class3) {l : List (Class3 × Bool)} (h : l.Pairwise Older) :
    (insertClass3 c l).Pairwise Older := by
  induction l with
  | nil => exact List.pairwise_singleton _ _
  | cons x rest ih =>
    obtain ⟨d, fresh⟩ := x
    obtain ⟨first, behind⟩ := List.pairwise_cons.1 h
    unfold insertClass3
    split
    · rename_i before
      obtain ⟨rfl, below⟩ : fresh = true ∧ c.rank < d.rank := by simpa using before
      refine List.pairwise_cons.2 ⟨fun y hy _ => ?_, h⟩
      obtain rfl | hy := List.mem_cons.1 hy
      · exact ⟨rfl, below.le⟩
      · exact (first y hy rfl).imp_right below.le.trans
    · rename_i after
      refine List.pairwise_cons.2 ⟨fun y hy now => ?_, ih behind⟩
      obtain rfl | hy := mem_insertClass3.1 hy
      · refine ⟨rfl, ?_⟩
        obtain rfl : fresh = true := now
        simpa using after
      · exact first y hy now

theorem sublist_insertClass3 (c : Class3) (l : List (Class3 × Bool)) :
    l.Sublist (insertClass3 c l) := by
  induction l with
  | nil => exact List.nil_sublist _
  | cons x rest ih =>
    obtain ⟨d, fresh⟩ := x
    unfold insertClass3
    split
    · exact List.sublist_cons_self _ _
    · exact ih.cons_cons _

theorem requestClass3_waits {s : State} {c : Class3} (h : ∃ x ∈ s.port.class3, x.1 = c) :
    s.requestClass3 c = s := if_pos (by simpa using h)

theorem requestClass3_joins {s : State} {c : Class3} (h : ∀ x ∈ s.port.class3, x.1 ≠ c) :
    (s.requestClass3 c).port.class3 = insertClass3 c s.port.class3 := by
  unfold State.requestClass3
  have absent : ¬ s.port.class3.any (fun x => x.1 = c) = true := by
    rw [List.any_eq_true]
    rintro ⟨x, hx, same⟩
    exact h x hx (of_decide_eq_true same)
  rw [if_neg absent]
  rfl

/-- A class 3 request keeps the order, and a new one is of this tick. -/
theorem requestClass3_order (s : State) (c : Class3) (h : s.port.class3.Pairwise Older) :
    (s.requestClass3 c).port.class3.Pairwise Older ∧
      s.port.class3.Sublist (s.requestClass3 c).port.class3 ∧
      (∃ x ∈ (s.requestClass3 c).port.class3, x.1 = c) ∧
      ((∀ x ∈ s.port.class3, x.1 ≠ c) → (c, true) ∈ (s.requestClass3 c).port.class3) := by
  have requested := requested_requestClass3 s c
  by_cases waits : ∃ x ∈ s.port.class3, x.1 = c
  · rw [requestClass3_waits waits]
    obtain ⟨x, hx, same⟩ := waits
    exact ⟨h, List.Sublist.refl _, ⟨x, hx, same⟩, fun new => absurd same (new x hx)⟩
  · have new : ∀ x ∈ s.port.class3, x.1 ≠ c := fun x hx same => waits ⟨x, hx, same⟩
    rw [requestClass3_joins new] at requested ⊢
    exact ⟨pairwise_insertClass3 c h, sublist_insertClass3 c _, requested,
      fun _ => mem_insertClass3.2 (.inl rfl)⟩

/-! ### The writes a Bank Status write comes behind -/

theorem mem_writes {a : FrameAccess} {x : FrameAccess} : x ∈ a.writes ↔
    (∃ sel code, a = .state sel code ∧ x = a) ∨
      ∃ sel stamp passes flags next, a = .retire sel stamp passes flags next ∧
        (x = .retire sel stamp passes flags none ∨ ∃ code, next = some code ∧ x = .state sel code) := by
  cases a with
  | state sel code =>
    simp [FrameAccess.writes]
  | retire sel stamp passes flags next =>
    cases next <;> simp [FrameAccess.writes]
  | _ => simp [FrameAccess.writes]

theorem heldWrite_some {b : BankNo} {w : OutWrite} {x : FrameAccess} : w.heldWrite b = some x ↔
    ∃ sel code, w.owner = .frameRetire b sel (some code) ∧ x = .state sel code := by
  unfold OutWrite.heldWrite
  split
  · rename_i c sel next owner
    rw [owner]
    by_cases same : c = b
    · subst same
      cases next <;> simp [eq_comm]
    · simp [same]
  · rename_i other
    refine ⟨nofun, ?_⟩
    rintro ⟨sel, code, owner, -⟩
    exact absurd owner (other b sel (some code))

theorem mem_pendingWrites {s : State} {b : BankNo} {a : FrameAccess} : a ∈ s.pendingWrites b ↔
    (∃ r ∈ (s.bank b).fifo, (∃ sel code, r.acc = .state sel code ∧ a = r.acc) ∨
      ∃ sel stamp passes flags next, r.acc = .retire sel stamp passes flags next ∧
        (a = .retire sel stamp passes flags none ∨
          ∃ code, next = some code ∧ a = .state sel code)) ∨
    ∃ w ∈ s.port.writes, ∃ sel code, w.owner = .frameRetire b sel (some code) ∧
      a = .state sel code := by
  unfold State.pendingWrites
  simp only [List.mem_append, List.mem_flatMap, List.mem_filterMap, mem_writes, heldWrite_some]

/-! ### The choice by class -/

theorem choose_journal {s : State} {j : JournalNo} {r : JournalReq}
    (h : s.choose = some (.journal j r)) : s.journalOffer j = some (.journal j r) ∧
      ∀ k : Fin 8, k < j - (s.port.lastJournal + 1) →
        s.journalOffer (s.port.lastJournal + 1 + k) = none := by
  obtain ⟨-, turn⟩ | ⟨-, -, turn⟩ | ⟨-, -, -, offer⟩ | ⟨-, -, -, -, offer⟩ | ⟨-, offer⟩ :=
    choose_cases h
  · obtain ⟨i, offer, before⟩ := turns8_some turn
    obtain ⟨x, -, same⟩ := journalOffer_some offer
    cases same
    exact ⟨offer, before⟩
  · obtain ⟨i, offer, -⟩ := turns4_some turn
    obtain ⟨a, x, y, -, same⟩ := bankOffer_some offer
    cases same
  · obtain ⟨c, same⟩ := class3Offer_some offer; cases same
  · obtain ⟨o, same⟩ := class4Offer_some offer; cases same
  · obtain ⟨o, same⟩ := class4Offer_some offer; cases same

/-- A grant beneath class 1 finds no journal with a request that can be issued. -/
theorem choose_frame {s : State} {b : BankNo} {a : FrameAccess} {addr : Nat} {second : Bool}
    (h : s.choose = some (.frame b a addr second)) : (∀ j, s.journalOffer j = none) ∧
      s.bankOffer b = some (.frame b a addr second) ∧
      ∀ k : Fin 4, k < b - (s.port.lastBank + 1) →
        s.bankOffer (s.port.lastBank + 1 + k) = none := by
  obtain ⟨-, turn⟩ | ⟨-, noJournal, turn⟩ | ⟨-, -, -, offer⟩ | ⟨-, -, -, -, offer⟩ | ⟨-, offer⟩ :=
    choose_cases h
  · obtain ⟨i, offer, -⟩ := turns8_some turn
    obtain ⟨x, -, same⟩ := journalOffer_some offer
    cases same
  · obtain ⟨i, offer, before⟩ := turns4_some turn
    obtain ⟨a', x, y, -, same⟩ := bankOffer_some offer
    cases same
    exact ⟨turns8_none noJournal, offer, before⟩
  · obtain ⟨c, same⟩ := class3Offer_some offer; cases same
  · obtain ⟨o, same⟩ := class4Offer_some offer; cases same
  · obtain ⟨o, same⟩ := class4Offer_some offer; cases same

theorem choose_class3 {s : State} {c : Class3} (h : s.choose = some (.class3 c)) :
    (∀ j, s.journalOffer j = none) ∧ (∀ b, s.bankOffer b = none) ∧
      s.class3Offer = some (.class3 c) := by
  obtain ⟨-, turn⟩ | ⟨-, -, turn⟩ | ⟨-, noJournal, noBank, offer⟩ | ⟨-, -, -, -, offer⟩ |
    ⟨-, offer⟩ := choose_cases h
  · obtain ⟨i, offer, -⟩ := turns8_some turn
    obtain ⟨x, -, same⟩ := journalOffer_some offer
    cases same
  · obtain ⟨i, offer, -⟩ := turns4_some turn
    obtain ⟨a, x, y, -, same⟩ := bankOffer_some offer
    cases same
  · exact ⟨turns8_none noJournal, turns4_none noBank, offer⟩
  · obtain ⟨o, same⟩ := class4Offer_some offer; cases same
  · obtain ⟨o, same⟩ := class4Offer_some offer; cases same

theorem choose_class4 {s : State} {o : ReadOwner} (h : s.choose = some (.class4 o))
    (running : s.engine.state ≠ .booting) :
    (∀ j, s.journalOffer j = none) ∧ (∀ b, s.bankOffer b = none) ∧ s.class3Offer = none := by
  obtain ⟨-, turn⟩ | ⟨-, -, turn⟩ | ⟨-, -, -, offer⟩ | ⟨-, noJournal, noBank, noStatus, -⟩ |
    ⟨boots, -⟩ := choose_cases h
  · obtain ⟨i, offer, -⟩ := turns8_some turn
    obtain ⟨x, -, same⟩ := journalOffer_some offer
    cases same
  · obtain ⟨i, offer, -⟩ := turns4_some turn
    obtain ⟨a, x, y, -, same⟩ := bankOffer_some offer
    cases same
  · obtain ⟨c, same⟩ := class3Offer_some offer; cases same
  · exact ⟨turns8_none noJournal, turns4_none noBank, noStatus⟩
  · exact absurd boots running

/-! ### The request within its requester -/

theorem noReadRoom {p : Port} (h : p.readRoom = false) : 4 ≤ p.reads.length :=
  Nat.le_of_not_lt (of_decide_eq_false h)

/-- Of a journal the first request goes, but for reads without room. -/
theorem journalOffer_first {s : State} {j : JournalNo} {r : JournalReq}
    (h : s.journalOffer j = some (.journal j r)) :
    ∃ before after, (s.journal j).fifo = before ++ r :: after ∧
      ∀ x ∈ before, x.isRead = true ∧ 4 ≤ s.port.reads.length := by
  obtain ⟨x, first, same⟩ := journalOffer_some h
  cases same
  obtain ⟨before, after, fifo, passed⟩ := firstIssuable_before first
  exact ⟨before, after, fifo, fun y hy => (passed y hy).imp_right noReadRoom⟩

/-- Of a bank the first request that has passed its check goes, but for reads without room. -/
theorem bankOffer_first {s : State} {b : BankNo} {a : FrameAccess} {x : Nat} {y : Bool}
    (h : s.bankOffer b = some (.frame b a x y)) :
    ∃ before after, (s.bank b).fifo.filter FrameReq.isOffered
        = before ++ ⟨a, .ready x y⟩ :: after ∧
      ∀ r ∈ before, r.acc.isWrite = false ∧ 4 ≤ s.port.reads.length := by
  obtain ⟨a', x', y', first, same⟩ := bankOffer_some h
  cases same
  obtain ⟨before, after, fifo, passed⟩ := firstIssuable_before first
  refine ⟨before, after, fifo, fun r hr => (passed r hr).imp ?_ noReadRoom⟩
  exact fun read => by simpa using read

/-- A class 3 request that is passed over is a Bank Status write behind a frame write that is still
pending. -/
theorem waits_of_not_offered {s : State} {c : Class3} (h : s.offered c = false) :
    ∃ b, c = .bank b ∧ ∃ a ∈ s.port.statusAfter.get b, a ∈ s.pendingWrites b := by
  cases c with
  | bank b => exact ⟨b, rfl, by simpa [State.offered, State.statusWaits] using h⟩
  | _ => cases h

theorem class3Offer_first {s : State} {c : Class3} (h : s.class3Offer = some (.class3 c)) :
    ∃ before fresh after, s.port.class3 = before ++ (c, fresh) :: after ∧
      ∀ x ∈ before, ∃ b, x.1 = .bank b ∧
        ∃ a ∈ s.port.statusAfter.get b, a ∈ s.pendingWrites b := by
  unfold State.class3Offer at h
  split at h
  · obtain ⟨⟨d, fresh⟩, found, same⟩ := Option.map_eq_some_iff.1 h
    cases same
    obtain ⟨-, before, after, list, passed⟩ := List.find?_eq_some_iff_append.1 found
    exact ⟨before, fresh, after, list, fun x hx => waits_of_not_offered (by simpa using passed x hx)⟩
  · cases h

/-- A grant has room for its kind (R155). -/
theorem room_of_choose {s : State} {g : Grant} (h : s.choose = some g) :
    (g.isRead = true → s.port.reads.length < 4) ∧ (g.isRead = false → s.port.writes.length < 8) := by
  have room := room_choose h
  unfold State.room at room
  refine ⟨fun read => ?_, fun write => ?_⟩
  · rw [if_pos read] at room
    exact of_decide_eq_true room
  · rw [if_neg (by simp [write])] at room
    exact of_decide_eq_true room

/-- What the choice has passed over, by the class of what it grants. -/
theorem choose_orders (s : State) (g : Grant) (chosen : s.choose = some g) :
    ((∃ b a x y, g = .frame b a x y) ∨ (∃ c, g = .class3 c) ∨
        (∃ o, g = .class4 o ∧ s.engine.state ≠ .booting) → ∀ j, s.journalOffer j = none) ∧
    ((∃ c, g = .class3 c) ∨ (∃ o, g = .class4 o ∧ s.engine.state ≠ .booting) →
      ∀ b, s.bankOffer b = none) ∧
    (∀ o, g = .class4 o → s.engine.state ≠ .booting → s.class3Offer = none) := by
  refine ⟨?_, ?_, ?_⟩
  · rintro (⟨b, a, x, y, rfl⟩ | ⟨c, rfl⟩ | ⟨o, rfl, running⟩)
    · exact (choose_frame chosen).1
    · exact (choose_class3 chosen).1
    · exact (choose_class4 chosen running).1
  · rintro (⟨c, rfl⟩ | ⟨o, rfl, running⟩)
    · exact (choose_class3 chosen).2.1
    · exact (choose_class4 chosen running).2.1
  · rintro o rfl running
    exact (choose_class4 chosen running).2.2

/-- Settles O47. -/
theorem arbiterGrantsByClass : Obligations.ArbiterGrantsByClass := by
  refine ⟨requestClass3_order, fun s b reports => ?_, fun p => ⟨?_, ?_⟩,
    ⟨by decide, fun b l => ?_, fun b c below => ?_, fun l m below => ?_⟩, fun s g chosen => ?_⟩
  · obtain ⟨-, after⟩ := requestBankStatus_spec s b (by simpa [State.reporting] using reports)
    rw [after]
    exact ⟨Quad.get_set_same _ _ _, fun c hc => Quad.get_set_ne _ _ hc, fun a => mem_pendingWrites⟩
  · intro x hx
    obtain ⟨y, -, rfl⟩ := List.mem_map.1 hx
    rfl
  · show (p.class3.map _).map _ = _
    rw [List.map_map]
    rfl
  · simp only [Class3.rank]
    omega
  · exact Nat.add_lt_add_left below 2
  · exact Nat.add_lt_add_left below 6
  · obtain ⟨reads, writes⟩ := room_of_choose chosen
    obtain ⟨noJournal, noBank, noStatus⟩ := choose_orders s g chosen
    refine ⟨?_, ?_, noJournal, noBank, noStatus, ?_, ?_, ?_⟩
    · rintro (⟨j, r, rfl, read⟩ | ⟨b, a, x, y, rfl, read⟩ | ⟨o, rfl⟩)
      · exact reads read
      · exact reads (by simpa [Grant.isRead] using read)
      · exact reads rfl
    · rintro (⟨j, r, rfl, write⟩ | ⟨b, a, x, y, rfl, write⟩ | ⟨c, rfl⟩)
      · exact writes write
      · exact writes (by simpa [Grant.isRead] using write)
      · exact writes rfl
    · rintro j r rfl
      obtain ⟨offer, before⟩ := choose_journal chosen
      exact ⟨journalOffer_first offer, before⟩
    · rintro b a x y rfl
      obtain ⟨-, offer, before⟩ := choose_frame chosen
      exact ⟨bankOffer_first offer, before⟩
    · rintro c rfl
      obtain ⟨-, -, offer⟩ := choose_class3 chosen
      exact class3Offer_first offer

end Sys2Proof.Machine
end

section
/-! SUPPORT. What a grant stores, and the places of the fields in the records (R154, R156, R162, R164,
R171, R188). -/

namespace Sys2Proof.Machine

/-! ### Memory after a grant -/

/-- A grant stores nothing, in reset or with nothing to grant, or what the chosen request stores. -/
theorem memory_arbiterGrant {host : List Host.Cell} {fate : Fate} {s t : State}
    (h : exec (.arbiterGrant host fate) s = .next t) :
    t.memory = s.memory.hostWrites host ∧
      (s.resetHeld = true ∨ (s.hostWrites host).choose = none) ∨
    s.resetHeld = false ∧ ∃ g, (s.hostWrites host).choose = some g ∧
      t.memory = landed (s.memory.hostWrites host) ((s.hostWrites host).stores g) (g.lands fate) := by
  change execArbiterGrant host fate s = _ at h
  unfold execArbiterGrant at h
  split at h
  · cases h
  · cases held : s.resetHeld with
    | true =>
      have kept : unlessReset (s.hostWrites host) (fun s => s.grant fate) =
          .next (s.hostWrites host) := congrArg Host.Outcome.next (if_pos held)
      rw [kept] at h
      cases h
      exact .inl ⟨rfl, .inl rfl⟩
    | false =>
      rw [running (show (s.hostWrites host).resetHeld = false from held)] at h
      cases h
      unfold State.grant
      cases chosen : (s.hostWrites host).choose with
      | none => exact .inl ⟨rfl, .inr rfl⟩
      | some g =>
        refine .inr ⟨rfl, g, rfl, ?_⟩
        rw [← show (s.hostWrites host).memory = s.memory.hostWrites host from rfl, ← memory_issue]
        exact memory_of_outer (outer_conclude _ _)

theorem read_landed_outside {m : Memory} {x a : Nat} {bs : List Byte} (lands : Bool)
    (h : ∀ k, k < bs.length → a ≠ (x + k) % 2 ^ 48) :
    (landed m (some (x, bs)) lands).read a = m.read a := by
  cases lands
  · rfl
  · exact read_writeBytes_outside m x bs a h

theorem length_replyBytes (sequence : BitVec 16) (w : Word) (r : Result) :
    (replyBytes sequence w r).length = 8 := rfl

theorem length_bytesOf (addr : Nat) (second : Bool) (bs : List Byte) :
    (bytesOf addr second bs).length ≤ bs.length := by
  unfold bytesOf
  split
  · rw [List.length_drop]; omega
  · rw [List.length_take]; omega

theorem length_frameBytes (a : FrameAccess) : a.bytes.length ≤ 16 := by
  cases a <;> first | exact Nat.le_refl 16 | exact (by decide : 1 ≤ 16) | exact Nat.zero_le 16

/-- A transaction stores 64 bytes at the most. -/
theorem length_stores {s : State} {g : Grant} {x : Nat} {bs : List Byte}
    (h : s.stores g = some (x, bs)) : bs.length ≤ 64 := by
  cases g with
  | journal j r =>
    cases r with
    | load n => cases h
    | reread => cases h
    | produceWord v => cases h; exact (by decide : 8 ≤ 64)
    | statusWord => cases h; exact (by decide : 8 ≤ 64)
    | record addr second =>
      unfold State.stores at h
      dsimp only at h
      split at h
      · cases h
        have part := length_bytesOf addr second (s.recordBytes j ‹_›)
        rw [length_recordBytes] at part
        omega
      · cases h
  | frame b a addr second =>
    unfold State.stores at h
    dsimp only at h
    split at h
    · cases h
      have part := length_bytesOf addr second a.bytes
      have whole := length_frameBytes a
      omega
    · cases h
  | class3 c =>
    cases c with
    | reply =>
      unfold State.stores at h
      dsimp only at h
      split at h
      · cases h; exact (by decide : 8 ≤ 64)
      · cases h
    | engine => cases h; exact (by decide : 16 ≤ 64)
    | bank b => cases h; exact (length_bankStatusBytes _).le
    | line l => cases h; exact (by decide : 8 ≤ 64)
  | class4 o => cases h

/-! ### Fields -/

theorem leNat_leBytes (n : Nat) {v : Nat} (h : v < 256 ^ n) : leNat (leBytes n v) = v := by
  induction n generalizing v with
  | zero => simp [leBytes, leNat]; omega
  | succ n ih =>
    have rest : v / 256 < 256 ^ n := by
      rw [Nat.div_lt_iff_lt_mul (by decide), ← Nat.pow_succ]; exact h
    simp only [leBytes, leNat]
    rw [ih rest, BitVec.toNat_ofNat, Nat.mod_mod_of_dvd v (by decide)]
    omega

theorem fieldAt_of_bytes {bs : List Byte} {i n v : Nat} (bytes : (bs.drop i).take n = leBytes n v)
    (h : v < 256 ^ n) : fieldAt bs i n = v := by
  unfold fieldAt
  rw [bytes, leNat_leBytes n h]

/-- A field that holds a word of its own width. -/
theorem fieldAt_of_word {bs : List Byte} {i n w : Nat} {v : BitVec w}
    (bytes : (bs.drop i).take n = leBytes n v.toNat) (h : 2 ^ w = 256 ^ n) :
    fieldAt bs i n = v.toNat := fieldAt_of_bytes bytes (h ▸ v.isLt)

theorem byteAt_zeros (n i : Nat) : byteAt (leBytes n 0) i = 0#8 := by
  induction n generalizing i with
  | zero => rfl
  | succ n ih =>
    cases i with
    | zero => rfl
    | succ i => exact ih i

theorem byteAt_append_right {l r : List Byte} {i : Nat} (h : l.length ≤ i) :
    byteAt (l ++ r) i = byteAt r (i - l.length) := by
  unfold byteAt
  rw [List.getD_append_right _ _ _ _ h]

/-- A selector is read as it was written, a null one with offset 0 (12.2). -/
theorem selectorAt_bytes {bs : List Byte} {i : Nat} {x : Selector}
    (bytes : (bs.drop i).take 8 = x.bytes) :
    (x.isNull = false → selectorAt bs i = x) ∧ (x.isNull = true → selectorAt bs i = .null) := by
  have first : byteAt bs i = x.index := by
    have head : ((bs.drop i).take 8)[0]? = some x.index := by rw [bytes]; rfl
    rw [List.getElem?_take_of_lt (by decide), List.getElem?_drop] at head
    unfold byteAt
    rw [List.getD_eq_getElem?_getD, show i = i + 0 from rfl, head]
    rfl
  have offset : ((bs.drop (i + 4)).take 4) = leBytes 4 (if x.isNull then 0 else x.offset.toNat) := by
    have tail : ((bs.drop i).take 8).drop 4 = leBytes 4 (if x.isNull then 0 else x.offset.toNat) := by
      rw [bytes]; rfl
    rwa [List.drop_take, List.drop_drop] at tail
  unfold selectorAt
  rw [first]
  refine ⟨fun some => ?_, fun null => ?_⟩
  · rw [some] at offset
    rw [fieldAt_of_word offset (by decide), BitVec.ofNat_toNat, BitVec.setWidth_eq]
  · rw [null, if_pos rfl] at offset
    rw [fieldAt_of_bytes offset (by decide)]
    rw [show x.index = 0xFF#8 by simpa [Selector.isNull] using null]
    rfl

/-! ### The records -/

section
variable (k : Bank)

/-- The part of Bank Status before the report slot. -/
def bankHeadBytes : List Byte :=
  [k.seq.plan.code, k.seq.stopReason.code, k.seq.tag.code,
    if k.gate.tripped then 0x01#8 else 0x00#8,
    (if k.gate.rearmPending then 0x01#8 else 0#8)
      ||| (if k.faults.report.isSome then 0x02#8 else 0#8),
    k.faults.sticky.byte]
    ++ leBytes 2 k.faults.further.toNat ++ k.seq.liveSel.bytes ++ leBytes 6 k.seq.retired.toNat
    ++ leBytes 2 0 ++ leBytes 4 k.gate.trips.toNat ++ leBytes 4 0

theorem bankStatusBytes_eq : bankStatusBytes k = bankHeadBytes k ++ reportBytes k.faults.report :=
  rfl

theorem bankStatus_noReport (none : k.faults.report = none) (n : Nat) (h : 0x20 ≤ n) :
    byteAt (bankStatusBytes k) n = 0#8 := by
  rw [bankStatusBytes_eq, byteAt_append_right (l := bankHeadBytes k) h, none]
  exact byteAt_zeros 32 _

theorem bankStatus_flags :
    (byteAt (bankStatusBytes k) 0x04).getLsbD 0 = k.gate.rearmPending ∧
      (byteAt (bankStatusBytes k) 0x04).getLsbD 1 = k.faults.report.isSome := by
  rw [show byteAt (bankStatusBytes k) 0x04 = (if k.gate.rearmPending then 0x01#8 else 0#8)
    ||| (if k.faults.report.isSome then 0x02#8 else 0#8) from rfl]
  cases k.gate.rearmPending <;> cases k.faults.report.isSome <;> decide

theorem bankStatus_report {r : Report} (report : k.faults.report = some r) :
    byteAt (bankStatusBytes k) 0x20 = r.cls.code ∧
      byteAt (bankStatusBytes k) 0x21 = r.sub.code ∧
      byteAt (bankStatusBytes k) 0x22 = r.phase.code ∧
      byteAt (bankStatusBytes k) 0x23 = r.field ∧
      (r.sel.isNull = false → selectorAt (bankStatusBytes k) 0x28 = r.sel) ∧
      fieldAt (bankStatusBytes k) 0x30 6 = r.stamp.toNat := by
  have bytes : bankStatusBytes k = bankHeadBytes k ++ reportBytes (some r) := by
    rw [bankStatusBytes_eq, report]
  rw [bytes]
  exact ⟨rfl, rfl, rfl, rfl, (selectorAt_bytes rfl).1, fieldAt_of_word rfl (by decide)⟩

theorem bankStatus_fields :
    fieldAt (bankStatusBytes k) 0x06 2 = k.faults.further.toNat ∧
      fieldAt (bankStatusBytes k) 0x10 6 = k.seq.retired.toNat ∧
      fieldAt (bankStatusBytes k) 0x18 4 = k.gate.trips.toNat :=
  ⟨fieldAt_of_word rfl (by decide), fieldAt_of_word rfl (by decide),
    fieldAt_of_word rfl (by decide)⟩

theorem bankStatus_liveSel :
    (k.seq.liveSel.isNull = false → selectorAt (bankStatusBytes k) 0x08 = k.seq.liveSel) ∧
      (k.seq.liveSel.isNull = true → selectorAt (bankStatusBytes k) 0x08 = .null) :=
  selectorAt_bytes rfl

end

theorem lineStatus_flags (x : Line) :
    (byteAt (lineStatusBytes x) 0).getLsbD 0 = x.loaded ∧
      (byteAt (lineStatusBytes x) 0).getLsbD 1 = x.high ∧
      (byteAt (lineStatusBytes x) 0).getLsbD 2 = x.armed := by
  rw [show byteAt (lineStatusBytes x) 0 = (if x.loaded then 0x01#8 else 0#8)
    ||| (if x.high then 0x02#8 else 0#8) ||| (if x.armed then 0x04#8 else 0#8) from rfl]
  cases x.loaded <;> cases x.high <;> cases x.armed <;> decide

theorem eventRecord_flags (e : Event) :
    (byteAt (eventRecord e) 3).getLsbD 0 = e.saturated ∧
      (byteAt (eventRecord e) 3).getLsbD 1 = e.overrun := by
  rw [show byteAt (eventRecord e) 3 = (if e.saturated then 0x01#8 else 0#8)
    ||| (if e.overrun then 0x02#8 else 0#8) from rfl]
  cases e.saturated <;> cases e.overrun <;> decide

/-- Settles O48. -/
theorem grantStoresOnlyItsBytes : Obligations.GrantStoresOnlyItsBytes := by
  refine ⟨fun host fate s t a ran noHost outside => ?_,
    fun host fate s t g x bs ran released chosen stores => ⟨length_stores stores, ?_⟩,
    fun k => ?_, fun x => ?_, fun e next => ?_, fun x v => ?_, fun stamp passes flags => ?_,
    fun e => ?_, fun count stamp => ?_⟩
  · rw [← read_hostWrites_outside s.memory host a noHost]
    obtain ⟨memory, -⟩ | ⟨released, g, chosen, memory⟩ := memory_arbiterGrant ran
    · rw [memory]
    · rw [memory]
      cases stores : (s.hostWrites host).stores g with
      | none => rfl
      | some p => exact read_landed_outside _ fun k hk => outside released g p.1 p.2 chosen stores k hk
  · obtain ⟨-, held | none⟩ | ⟨-, g', chosen', memory⟩ := memory_arbiterGrant ran
    · rw [released] at held; cases held
    · rw [chosen] at none; cases none
    · rw [chosen] at chosen'
      cases chosen'
      rw [memory, stores]
      refine ⟨fun lands k hk => ?_, fun lost a noHost => ?_⟩
      · rw [lands]
        have short := length_stores stores
        exact (read_writeBytes _ x bs k hk (by omega)).trans (getElem_byteAt hk)
      · rw [lost]
        exact read_hostWrites_outside s.memory host a noHost
  · obtain ⟨rearm, report⟩ := bankStatus_flags k
    obtain ⟨further, retired, trips⟩ := bankStatus_fields k
    obtain ⟨live, noLive⟩ := bankStatus_liveSel k
    exact ⟨length_bankStatusBytes k, rfl, rfl, rfl, rfl, rearm, report, rfl, further, live, noLive,
      retired, trips, bankStatus_noReport k, fun r => bankStatus_report k⟩
  · obtain ⟨loaded, high, armed⟩ := lineStatus_flags x
    exact ⟨rfl, loaded, high, armed, rfl, rfl, fieldAt_of_word rfl (by decide)⟩
  · exact ⟨rfl, rfl, fieldAt_of_word rfl (by decide)⟩
  · exact ⟨rfl, rfl, fieldAt_of_word rfl (by decide), rfl, rfl, fieldAt_of_word rfl (by decide)⟩
  · exact ⟨rfl, fieldAt_of_word rfl (by decide), fieldAt_of_word rfl (by decide), rfl⟩
  · obtain ⟨saturated, overrun⟩ := eventRecord_flags e
    exact ⟨rfl, rfl, rfl, rfl, saturated, overrun, fieldAt_of_word rfl (by decide),
      fieldAt_of_word rfl (by decide)⟩
  · exact ⟨rfl, rfl, rfl, fieldAt_of_word rfl (by decide), fieldAt_of_word rfl (by decide)⟩

end Sys2Proof.Machine
end

section
/-! SUPPORT. The grants of class 3 that end a request: its reply, and the Engine Status write behind it
(R164, R171, R172). -/

namespace Sys2Proof.Machine

theorem awaitsStatus_status {s : State} {w : Word} (h : s.sweep.exec = some ⟨w, .status⟩) :
    s.awaitsStatus = true := by
  unfold State.awaitsStatus
  rw [h]
  rfl

theorem awaitsStatus_other {s : State} (h : ∀ w, s.sweep.exec ≠ some ⟨w, .status⟩) :
    s.awaitsStatus = false := by
  unfold State.awaitsStatus
  split
  · rename_i e executing
    obtain ⟨w, phase⟩ := e
    refine decide_eq_false fun status => h w ?_
    rw [executing]
    exact congrArg (fun p => some (Executing.mk w p)) status
  · rfl

/-- The issue of an Engine Status write: it ends the request it follows, and no other. -/
theorem issueEngineStatus_ports (s : State) (fate : Fate) :
    (s.issue fate (.class3 .engine)).sweep =
        (if s.awaitsStatus then { s.sweep with exec := none } else s.sweep) ∧
      (s.issue fate (.class3 .engine)).port.writes =
        s.port.writes ++ [⟨.engineStatus s.awaitsStatus, true, fate.isError⟩] := by
  show ((s.popClass3 .engine).issueEngineStatus s.engine.state fate).sweep = _ ∧
    ((s.popClass3 .engine).issueEngineStatus s.engine.state fate).port.writes = _
  unfold State.issueEngineStatus
  dsimp only
  have same : (s.popClass3 .engine).awaitsStatus = s.awaitsStatus := rfl
  rw [same]
  cases s.awaitsStatus <;> exact ⟨rfl, rfl⟩

/-- The state after the issue of a reply but for the Engine Status request. -/
theorem issueReply_spec {s : State} {w : Word} {r : Result} (fate : Fate)
    (replying : s.sweep.exec = some ⟨w, .replying r⟩) :
    (s.issue fate (.class3 .reply)).sweep =
        { s.sweep with next := s.sweep.next + 1#16, exec := some ⟨w, .status⟩ } ∧
      ∃ x ∈ (s.issue fate (.class3 .reply)).port.class3, x.1 = .engine := by
  show ((s.popClass3 .reply).issueReply fate).sweep = _ ∧
    ∃ x ∈ ((s.popClass3 .reply).issueReply fate).port.class3, _
  have executing : (s.popClass3 .reply).sweep.exec = some ⟨w, .replying r⟩ := replying
  unfold State.issueReply
  rw [executing]
  refine ⟨?_, requested_requestClass3 _ _⟩
  dsimp only
  rw [requestClass3_eq]
  rfl

/-- The bytes of a reply (R171). -/
theorem replyBytes_eq (sequence : BitVec 16) (w : Word) (r : Result) :
    replyBytes sequence w r = [BitVec.ofNat 8 (sequence.toNat % 256),
      BitVec.ofNat 8 (sequence.toNat / 256), tag w, action w, target w, r.code, 0#8, 0#8] := by
  have top : sequence.toNat / 256 % 256 = sequence.toNat / 256 :=
    Nat.mod_eq_of_lt (by have := sequence.isLt; omega)
  simp [replyBytes, leBytes, top]

/-- A reply that lands stands in its entry. -/
theorem reply_stored {s : State} {w : Word} {r : Result} {n : Nat} {v : Byte}
    (replying : s.sweep.exec = some ⟨w, .replying r⟩)
    (h : (replyBytes s.sweep.next w r)[n]? = some v) :
    (s.issue .ok (.class3 .reply)).memory.read
      ((s.engine.anchor.toNat + 0x3C0 + 8 * (s.sweep.next.toNat % 16) + n) % 2 ^ 48) = v := by
  obtain ⟨inside, value⟩ := List.getElem?_eq_some_iff.1 h
  have stores : s.stores (.class3 .reply) =
      some (s.engine.anchor.toNat + offReply s.sweep.next, replyBytes s.sweep.next w r) := by
    unfold State.stores
    dsimp only
    rw [replying]
  rw [memory_issue, stores, ← value,
    show s.engine.anchor.toNat + 0x3C0 + 8 * (s.sweep.next.toNat % 16) + n =
      s.engine.anchor.toNat + offReply s.sweep.next + n by unfold offReply; omega]
  exact read_writeBytes s.memory _ _ n inside (by rw [length_replyBytes]; decide)

/-- Settles O49. -/
theorem replyCarriesItsFields : Obligations.ReplyCarriesItsFields := by
  refine ⟨fun fate s released chosen => ⟨_, exec_grant released chosen, ?_⟩,
    fun w r s released replying chosen => ⟨_, exec_grant released chosen, ?_⟩⟩
  · obtain ⟨sweep, writes⟩ := issueEngineStatus_ports s fate
    refine ⟨fun w status => ?_, fun other => ?_⟩
    · rw [sweep, writes, awaitsStatus_status status]
      exact ⟨rfl, rfl⟩
    · rw [sweep, writes, awaitsStatus_other other]
      exact ⟨rfl, rfl⟩
  · obtain ⟨sweep, requested⟩ := issueReply_spec .ok replying
    rw [sweep]
    refine ⟨rfl, rfl, requested, fun n v _ byte => reply_stored replying ?_⟩
    rw [replyBytes_eq]
    exact byte

end Sys2Proof.Machine
end

section
/-! SUPPORT. A Line Record arrives (R114 to R116, R119, R125, R170). -/

namespace Sys2Proof.Machine

/-! ### The legal sets of a Line Record (R114) -/

theorem lineModeOf_some {b : Byte} {m : LineMode} : lineModeOf b = some m ↔
    b.toNat = (match m with | .off => 0 | .stamp => 1 | .width => 2) := by
  unfold lineModeOf
  cases m <;> simp only [BitVec.toNat_eq] <;> repeat' split
  all_goals simp_all

theorem edgeSelectOf_some {b : Byte} {e : EdgeSelect} : edgeSelectOf b = some e ↔
    b.toNat = (match e with | .rise => 0 | .fall => 1 | .both => 2) := by
  unfold edgeSelectOf
  cases e <;> simp only [BitVec.toNat_eq] <;> repeat' split
  all_goals simp_all

theorem tripLevelOf_some {b : Byte} {high : Bool} :
    tripLevelOf b = some high ↔ b.toNat = if high then 1 else 0 := by
  unfold tripLevelOf
  cases high <;> simp only [BitVec.toNat_eq] <;> repeat' split
  all_goals simp_all

theorem lineNoOf_some {b : Byte} {j : LineNo} : lineNoOf b = some j ↔ b.toNat = j.val := by
  unfold lineNoOf
  split
  · exact ⟨fun h => by cases h; rfl, fun h => congrArg some (Fin.ext h)⟩
  · rename_i above
    exact ⟨nofun, fun h => absurd (h ▸ j.isLt) above⟩

theorem parseLineRecord_some {bs : List Byte} {cfg : LineConfig} :
    parseLineRecord bs = some cfg ↔
      lineModeOf (byteAt bs 0) = some cfg.mode ∧ edgeSelectOf (byteAt bs 1) = some cfg.select ∧
        (byteAt bs 2).toNat = cfg.prescale ∧ cfg.prescale ∈ [1, 2, 4, 8] ∧
        (byteAt bs 3).toNat = cfg.divider ∧ 1 ≤ cfg.divider ∧ cfg.divider ≤ 64 ∧
        (byteAt bs 4).toNat = cfg.count ∧ 1 ≤ cfg.count ∧ cfg.count ≤ 8 ∧
        lineNoOf (byteAt bs 5) = some cfg.journal ∧
        tripLevelOf (byteAt bs 6) = some cfg.tripHigh := by
  unfold parseLineRecord
  constructor
  · intro h
    split at h
    · rename_i mode select journal tripHigh
      dsimp only at h
      split at h
      · rename_i legal
        cases h
        simp only [Bool.and_eq_true, Bool.or_eq_true, decide_eq_true_eq] at legal
        obtain ⟨⟨⟨⟨prescale, low⟩, high⟩, few⟩, many⟩ := legal
        exact ⟨mode, select, rfl, by simpa [or_assoc] using prescale, rfl, low, high, rfl, few, many,
          journal, tripHigh⟩
      · cases h
    · cases h
  · rintro ⟨mode, select, prescale, legal, divider, low, high, count, few, many, journal, tripHigh⟩
    rw [mode, select, journal, tripHigh]
    dsimp only
    rw [prescale, divider, count, if_pos (by
      simp only [List.mem_cons, List.not_mem_nil, or_false] at legal
      simp [legal, low, high, few, many, or_assoc])]

/-! ### The line is loaded -/

/-- The state in which a line has taken its record, before the gates are judged. -/
def State.lineTaken (s : State) (l : LineNo) (cfg : LineConfig) : State :=
  let s := s.modLine l fun x => x.load cfg (s.sampleLevel l)
  (s.modLine l fun x => { x with armed := s.mayArm l }).requestLineStatus l

theorem loadLine_eq (s : State) (l : LineNo) (cfg : LineConfig) :
    s.loadLine l cfg = (s.lineTaken l cfg).judgeGates := rfl

section
variable (s : State) (l : LineNo) (cfg : LineConfig)

theorem lineTaken_line : ∃ held, (s.lineTaken l cfg).line l = { (s.line l).load cfg (s.sampleLevel l) with
      armed := cfg.mode != .off && (s.journal cfg.journal).capturing
      statusHeld := held } ∧ (s.reporting = false → held = true) := by
  unfold State.lineTaken
  obtain ⟨held, line, -, quiet⟩ := requestLineStatus_line
    ((s.modLine l fun x => x.load cfg (s.sampleLevel l)).modLine l fun x =>
      { x with armed := (s.modLine l fun x => x.load cfg (s.sampleLevel l)).mayArm l }) l
  have may : (s.modLine l fun x => x.load cfg (s.sampleLevel l)).mayArm l =
      (cfg.mode != .off && (s.journal cfg.journal).capturing) := by
    unfold State.mayArm
    rw [line_modLine_same]
    rfl
  rw [line_modLine_same, line_modLine_same, may] at line
  dsimp only
  rw [may]
  exact ⟨held, line, quiet⟩

theorem lineTaken_other {m : LineNo} (h : m ≠ l) : (s.lineTaken l cfg).line m = s.line m :=
  ((requestLineStatus_spec _ l).1 m h).trans
    ((line_modLine_ne _ _ h).trans (line_modLine_ne _ _ h))

theorem lineTaken_keeps :
    (s.lineTaken l cfg).banks = s.banks ∧ (s.lineTaken l cfg).sweep = s.sweep := by
  obtain ⟨-, -, -, -, sweep, banks, -⟩ := requestLineStatus_spec
    ((s.modLine l fun x => x.load cfg (s.sampleLevel l)).modLine l fun x =>
      { x with armed := (s.modLine l fun x => x.load cfg (s.sampleLevel l)).mayArm l }) l
  exact ⟨banks, sweep⟩

theorem lineTaken_requests (h : s.reporting = true) :
    ∃ x ∈ (s.lineTaken l cfg).port.class3, x.1 = .line l := by
  unfold State.lineTaken State.requestLineStatus
  dsimp only
  rw [if_pos (by exact h)]
  exact requested_requestClass3 _ _

end

theorem lines_loadLine (s : State) (l : LineNo) (cfg : LineConfig) :
    (s.loadLine l cfg).lines = (s.lineTaken l cfg).lines :=
  lines_of_beside (beside_judgeGates (s.lineTaken l cfg))

theorem line_loadLine (s : State) (l m : LineNo) (cfg : LineConfig) :
    (s.loadLine l cfg).line m = (s.lineTaken l cfg).line m :=
  congrArg (fun x => x.get m) (lines_loadLine s l cfg)

/-- Every gate is judged under the line's new trip level. -/
theorem gateJudged_loadLine (s : State) (l : LineNo) (cfg : LineConfig) (r : Result) (x : WaitFor)
    (b : BankNo) : ((s.loadLine l cfg).answer r x).GateJudged b (s.bank b).gate
      (s.bank b).seq.plan.isRunning := by
  have bank : (s.lineTaken l cfg).bank b = s.bank b :=
    congrArg (fun x => x.get b) (lineTaken_keeps s l cfg).1
  rw [← bank]
  exact gateJudged_judgeGates (s := s.lineTaken l cfg) (t := (s.loadLine l cfg).answer r x)
    (lines_loadLine s l cfg) (fun _ => rfl) (fun _ => id) (fun _ => id) b

theorem lineReported_loadLine (s : State) (l : LineNo) (cfg : LineConfig) (r : Result)
    (x : WaitFor) : s.LineReported ((s.loadLine l cfg).answer r x) l := by
  refine ⟨fun reports => ?_, fun notOn notQuiescing => ?_⟩
  · show ∃ x ∈ (s.lineTaken l cfg).judgeGates.port.class3, _
    rw [port_judgeGates]
    exact lineTaken_requests s l cfg (by simpa [State.reporting] using reports)
  · obtain ⟨held, line, quiet⟩ := lineTaken_line s l cfg
    show ((s.loadLine l cfg).line l).statusHeld = true
    rw [line_loadLine, line]
    exact quiet (by simp [State.reporting, notOn, notQuiescing])

theorem exec_lineRecordRead {place : Fin 4} {r : OutRead} {l : LineNo} {s : State}
    (h : s.Arriving place r) (owner : r.owner = .lineRecord l) : exec (.lineRecordRead place) s =
      .next (s.conclude ((s.dropRead place).lineRecordArrived l r.answer)) := by
  obtain ⟨released, there, kept⟩ := h
  exact arrives (g := fun s => s.lineRecordArrived l r.answer) released there kept (by rw [owner])

/-- Settles O41. -/
theorem lineRecordLoadsTheLine : Obligations.LineRecordLoadsTheLine := by
  refine ⟨fun bs cfg => ?_, fun place r l e s arriving owner executing => ?_⟩
  · rw [parseLineRecord_some, lineModeOf_some, edgeSelectOf_some, lineNoOf_some, tripLevelOf_some]
      <;> cases cfg.mode <;> cases cfg.select <;> rfl
  · have exec : ∀ t : State, t.sweep = s.sweep → t.sweep.exec = some ⟨e.word, e.phase⟩ :=
      fun t h => by rw [h, executing]
    refine ⟨_, exec_lineRecordRead arriving owner,
      reads_of_flight (flight_lineRecordArrived (s.dropRead place) l r.answer), fun error => ?_,
      fun bs ok illegal => ?_, fun bs cfg ok legal => ?_⟩
    · rw [error]
      exact ⟨exec_answer (exec _ rfl), causeBit_raise (s.dropRead place) causePort (by decide), rfl⟩
    · have refused : (s.dropRead place).lineRecordArrived l (some bs) =
          (s.dropRead place).answer .refusedConfig .nothing := by
        unfold State.lineRecordArrived; dsimp only; rw [illegal]
      rw [ok, refused]
      exact ⟨exec_answer (exec _ rfl), rfl, rfl⟩
    · have loaded : (s.dropRead place).lineRecordArrived l (some bs) =
          ((s.dropRead place).loadLine l cfg).answer .done .nothing := by
        unfold State.lineRecordArrived; dsimp only; rw [legal]
      rw [ok, loaded]
      obtain ⟨held, line, -⟩ := lineTaken_line (s.dropRead place) l cfg
      refine ⟨exec_answer (exec _ ?_), fun m hm => ?_, ?_⟩
      · exact (sweep_of_beside (beside_judgeGates _)).trans (lineTaken_keeps (s.dropRead place) l cfg).2
      · exact (line_loadLine _ l m cfg).trans (lineTaken_other (s.dropRead place) l cfg hm)
      · rw [show (((s.dropRead place).loadLine l cfg).answer .done .nothing).line l = _ from
          (line_loadLine (s.dropRead place) l l cfg).trans line]
        exact ⟨rfl, rfl, rfl, rfl, rfl, rfl, rfl, rfl, rfl, rfl, rfl, rfl,
          gateJudged_loadLine (s.dropRead place) l cfg .done .nothing,
          lineReported_loadLine (s.dropRead place) l cfg .done .nothing⟩

end Sys2Proof.Machine
end

section
/-! SUPPORT. A Journal Record arrives: the ring check and the opening (R119, R131, R132, R146, R148,
R170). -/

namespace Sys2Proof.Machine

/-! ### Lines that are armed -/

theorem judgeArmed_ne (s : State) {l m : LineNo} (h : m ≠ l) :
    (s.judgeArmed l).line m = s.line m := by
  unfold State.judgeArmed
  repeat' split
  · rfl
  · exact ((requestLineStatus_spec _ l).1 m h).trans (line_modLine_ne _ _ h)
  · exact ((requestLineStatus_spec _ l).1 m h).trans (line_modLine_ne _ _ h)

/-- A line that is not armed, or whose counts are those of an arming (R119). -/
def Line.freshOrUnarmed (x : Line) : Prop :=
  x.armed = false ∨ x.prescaleCount = 0 ∧ x.widthRef = none

theorem fresh_judgeArmed {s : State} {l : LineNo} (m : LineNo) (may : s.mayArm l = true)
    (h : (s.line l).freshOrUnarmed) : ((s.judgeArmed m).line l).freshOrUnarmed := by
  obtain rfl | other := eq_or_ne l m
  · unfold State.judgeArmed
    split
    · exact h
    · obtain ⟨held, line⟩ := (requestLineStatus_spec (s.modLine l Line.arm) l).2.1
      rw [line, line_modLine_same]
      exact .inr ⟨rfl, rfl⟩
  · rw [judgeArmed_ne s other]
    exact h

theorem fresh_judgeLines {s : State} {l : LineNo} (may : s.mayArm l = true)
    (h : (s.line l).freshOrUnarmed) : (s.judgeLines.line l).freshOrUnarmed := by
  have all : ∀ (ms : List LineNo) (t : State), t.mayArm l = true → (t.line l).freshOrUnarmed →
      ((ms.foldl State.judgeArmed t).line l).freshOrUnarmed := by
    intro ms
    induction ms with
    | nil => exact fun _ _ fresh => fresh
    | cons m rest ih =>
      intro t mayT fresh
      obtain ⟨rearmed, -⟩ := judgeArmed_spec t m
      exact ih _ ((rearmed.mayArm l).trans mayT) (fresh_judgeArmed m mayT fresh)
  exact all eight s may h

/-- A line that may be armed and is not is armed afresh. -/
theorem armed_judgeLines {s : State} {l : LineNo} (may : s.mayArm l = true) :
    (s.judgeLines.line l).armed = true ∧ ((s.line l).armed = false →
      (s.judgeLines.line l).prescaleCount = 0 ∧ (s.judgeLines.line l).widthRef = none) := by
  have armed := ((judgeLines_spec s).2 l).trans may
  refine ⟨armed, fun unarmed => ?_⟩
  obtain idle | fresh := fresh_judgeLines may (.inl unarmed)
  · rw [armed] at idle; cases idle
  · exact fresh

/-! ### A journal opens (R132) -/

/-- The journal with its record, its words requested, before the lines are judged. -/
def State.opened (s : State) (j : JournalNo) (r : JournalRecord) : State :=
  ((s.modJournal j fun x => x.openWith r).requestJournal j (.produceWord
    r.consume)).requestStatusWord j

theorem openJournal_eq (s : State) (j : JournalNo) (r : JournalRecord) :
    s.openJournal j r = (s.opened j r).judgeLines.answer .done (.journalWords j) := rfl

theorem opened_spec (s : State) (j : JournalNo) (r : JournalRecord) :
    (∃ q, (s.opened j r).journal j = { (s.journal j).openWith r with fifo := q } ∧
      .produceWord r.consume ∈ q ∧ .statusWord ∈ q) ∧
    (s.opened j r).lines = s.lines ∧ (s.opened j r).sweep = s.sweep := by
  obtain ⟨-, ⟨q, journal, status, kept⟩, lines, -, sweep⟩ := requestStatusWord_spec
    ((s.modJournal j fun x => x.openWith r).requestJournal j (.produceWord r.consume)) j
  have requested : ((s.modJournal j fun x => x.openWith r).requestJournal j (.produceWord
      r.consume)).journal j = { (s.journal j).openWith r with
        fifo := ((s.journal j).openWith r).fifo ++ [.produceWord r.consume] } := by
    unfold State.requestJournal
    rw [journal_modJournal_same, journal_modJournal_same]
  rw [requested] at journal kept
  exact ⟨⟨q, journal, kept _ (List.mem_append_right _ (List.mem_singleton_self _)), status⟩, lines,
    sweep⟩

/-- A journal that opens in a state with the lines of `s`. -/
theorem journalOpens_openJournal {s u : State} {j : JournalNo} (r : JournalRecord)
    (lines : u.lines = s.lines) (closing : (u.journal j).closing = (s.journal j).closing) :
    s.JournalOpens (u.openJournal j r) j r := by
  obtain ⟨⟨q, journal, produce, status⟩, sameLines, -⟩ := opened_spec u j r
  obtain ⟨rearmed, -⟩ := judgeLines_spec (u.opened j r)
  have final : (u.openJournal j r).journal j = { (u.journal j).openWith r with fifo := q } :=
    (congrArg (fun x => x.get j) rearmed.journals).trans journal
  have line : ∀ l, (u.opened j r).line l = s.line l :=
    fun l => congrArg (fun x => x.get l) (sameLines.trans lines)
  constructor
  case lines =>
    intro l open_ loaded mode names
    have may : (u.opened j r).mayArm l = true := by
      unfold State.mayArm
      rw [line l, names, journal, loaded]
      simp [Journal.capturing, Journal.openWith, mode, closing, open_]
    have armed := armed_judgeLines may
    rw [line l] at armed
    exact armed
  case words => rw [final]; exact ⟨produce, status⟩
  all_goals rw [final]; rfl

theorem ringChecked_opens {s u : State} {j : JournalNo} {r : JournalRecord} {addr : Nat} {w : Word}
    {p : ExecPhase} (lines : u.lines = s.lines)
    (closing : (u.journal j).closing = (s.journal j).closing)
    (executing : u.sweep.exec = some ⟨w, p⟩) (on : u.engine.state = .on)
    (closed : (u.journal j).state = .closed) :
    (u.ringChecked j r (.pass addr)).Answered w .done (.journalWords j) ∧
      s.JournalOpens (u.ringChecked j r (.pass addr)) j r := by
  have opens : u.ringChecked j r (.pass addr) = u.openJournal j r :=
    if_pos (by simp [on, closed])
  rw [opens]
  refine ⟨exec_answer (p := p) ?_, journalOpens_openJournal r lines closing⟩
  obtain ⟨rearmed, -⟩ := judgeLines_spec (u.opened j r)
  show (u.opened j r).judgeLines.sweep.exec = _
  rw [rearmed.sweep, (opened_spec u j r).2.2, executing]

theorem ringChecked_waiting (u : State) (j : JournalNo) (r : JournalRecord) :
    u.ringChecked j r .waiting = u := rfl

theorem ringChecked_refused {u : State} {j : JournalNo} {r : JournalRecord} {sub : Subcode}
    {w : Word} {p : ExecPhase} (executing : u.sweep.exec = some ⟨w, p⟩) :
    (u.ringChecked j r (.fail sub)).Answered w .refusedWindow .nothing ∧
      (u.ringChecked j r (.fail sub)).journals = u.journals := ⟨exec_answer executing, rfl⟩

/-! ### The ring check (R131, R146) -/

theorem exec_setPhase {s : State} {e : Executing} (p : ExecPhase)
    (executing : s.sweep.exec = some e) : (s.setPhase p).sweep.exec = some ⟨e.word, p⟩ := by
  unfold State.setPhase State.modSweep
  dsimp only
  rw [executing]
  rfl

theorem checkRing_of {s t : State} {j : JournalNo} {r : JournalRecord} {c : CheckResult}
    (h : (s.setPhase (.ringCheck j r)).windowCheck (.ring j) r.window r.ringOffset
      (r.capacity * 16) true r.domain = (t, c)) : s.checkRing j r = t.ringChecked j r c := by
  show State.ringChecked ((s.setPhase (.ringCheck j r)).windowCheck _ _ _ _ _ _).1 j r
    ((s.setPhase (.ringCheck j r)).windowCheck _ _ _ _ _ _).2 = _
  rw [h]

section
variable {s : State} {j : JournalNo} {r : JournalRecord} {e : Executing}
  (executing : s.sweep.exec = some e)
include executing

theorem checkRing_outside (outside : s.window.tableCount ≤ r.window.toNat) :
    (s.checkRing j r).Answered e.word .refusedWindow .nothing ∧
      (s.checkRing j r).journals = s.journals := by
  rw [checkRing_of (windowCheck_outside (s := s.setPhase (.ringCheck j r)) _ _ _ _ outside)]
  exact ringChecked_refused (exec_setPhase _ executing)

theorem checkRing_cached {before : State} {d : Descriptor} (lines : s.lines = before.lines)
    (closing : (s.journal j).closing = (before.journal j).closing) (inside : r.window.toNat < s.window.tableCount)
    (hit : cacheFind r.window s.window.cache = some d) (on : s.engine.state = .on) :
    (∀ addr, judgeDescriptor d r.ringOffset (r.capacity * 16) true r.domain = .pass addr →
      (s.journal j).state = .closed →
      (s.checkRing j r).Answered e.word .done (.journalWords j) ∧
        before.JournalOpens (s.checkRing j r) j r) ∧
    ∀ sub, judgeDescriptor d r.ringOffset (r.capacity * 16) true r.domain = .fail sub →
      (s.checkRing j r).Answered e.word .refusedWindow .nothing ∧
        (s.checkRing j r).journals = s.journals := by
  have phase := exec_setPhase (.ringCheck j r) executing
  rw [checkRing_of (windowCheck_cached (s := s.setPhase (.ringCheck j r)) _ _ _ _ inside hit)]
  refine ⟨fun addr pass closed => ?_, fun sub fail => ?_⟩
  · rw [pass]
    exact ringChecked_opens lines closing phase on closed
  · rw [fail]
    exact ringChecked_refused phase

/-- A ring check that waits on a load. -/
theorem checkRing_misses (inside : r.window.toNat < s.window.tableCount)
    (miss : cacheFind r.window s.window.cache = none) :
    (s.checkRing j r).sweep.exec = some ⟨e.word, .ringCheck j r⟩ ∧
      ((s.checkRing j r).journal j).state = (s.journal j).state ∧
      (s.checkRing j r).lines = s.lines ∧
      (∃ y ∈ (s.checkRing j r).window.loads, y.index = r.window ∧ .ring j ∈ y.waiters) ∧
      (loadFind r.window s.window.loads = none →
        ((s.checkRing j r).journal j).fifo = (s.journal j).fifo ++ [.load r.window]) := by
  have phase := exec_setPhase (.ringCheck j r) executing
  cases loading : loadFind r.window s.window.loads with
  | some x =>
    rw [checkRing_of (windowCheck_joins (s := s.setPhase (.ringCheck j r)) _ _ _ _ inside miss
      loading), ringChecked_waiting]
    exact ⟨phase, rfl, rfl, waiter_addWaiter loading, nofun⟩
  | none =>
    rw [checkRing_of (windowCheck_loads (s := s.setPhase (.ringCheck j r)) _ _ _ _ inside miss
      loading), ringChecked_waiting]
    have journal : (((s.setPhase (.ringCheck j r)).modWindow fun w =>
        { w with loads := w.loads ++ [⟨r.window, false, [.ring j]⟩] }).requestLoad (.ring j)
        r.window).journal j = { s.journal j with fifo := (s.journal j).fifo ++ [.load r.window] } :=
      journal_modJournal_same _ _ _
    rw [journal]
    exact ⟨phase, rfl, rfl,
      ⟨⟨r.window, false, [.ring j]⟩, List.mem_append_right _ (List.mem_singleton_self _), rfl,
        List.mem_singleton_self _⟩, fun _ => rfl⟩

end

/-! ### The record arrives -/

theorem exec_journalRecordRead {place : Fin 4} {r : OutRead} {j : JournalNo} {s : State}
    (h : s.Arriving place r) (owner : r.owner = .journalRecord j) :
    exec (.journalRecordRead place) s =
      .next (s.conclude ((s.dropRead place).journalRecordArrived j r.answer)) := by
  obtain ⟨released, there, kept⟩ := h
  exact arrives (g := fun s => s.journalRecordArrived j r.answer) released there kept (by rw [owner])

theorem journalRecordArrived_error (s : State) (j : JournalNo) : s.journalRecordArrived j none =
    (s.raise causePort).answer (if s.engine.state = .on then .refusedPort else .refusedState)
      .nothing := rfl

theorem journalRecordArrived_late {s : State} (j : JournalNo) (bs : List Byte)
    (h : s.engine.state ≠ .on) :
    s.journalRecordArrived j (some bs) = s.answer .refusedState .nothing := if_pos h

theorem journalRecordArrived_bad {s : State} (j : JournalNo) {bs : List Byte}
    (on : s.engine.state = .on) (h : (parseJournalRecord bs).ok = false) :
    s.journalRecordArrived j (some bs) = s.answer .refusedConfig .nothing :=
  (if_neg (by simp [on])).trans (if_neg (by simp [h]))

theorem journalRecordArrived_good {s : State} (j : JournalNo) {bs : List Byte}
    (on : s.engine.state = .on) (h : (parseJournalRecord bs).ok = true) :
    s.journalRecordArrived j (some bs) = s.checkRing j (parseJournalRecord bs) :=
  (if_neg (by simp [on])).trans (if_pos h)

/-- Settles O42. -/
theorem journalRecordOpensTheJournal : Obligations.JournalRecordOpensTheJournal := by
  refine ⟨fun r => ?_, fun place r j e s arriving owner executing => ?_⟩
  · unfold JournalRecord.ok JournalRecord.capacity
    simp only [Bool.and_eq_true, decide_eq_true_eq, and_assoc]
  · have dropped : (s.dropRead place).sweep.exec = some e := executing
    have answered : ∀ x y, ((s.dropRead place).answer x y).Answered e.word x y :=
      fun _ _ => exec_answer (w := e.word) (p := e.phase) executing
    refine ⟨_, exec_journalRecordRead arriving owner,
      reads_of_flight (flight_journalRecordArrived (s.dropRead place) j r.answer), fun error on => ?_,
      fun off => ?_, fun bs ok on bad => ?_, fun bs ok on good outside => ?_,
      fun bs d ok on good inside hit => ?_, fun bs ok on good inside miss => ?_⟩
    · rw [error, journalRecordArrived_error,
        if_pos (show (s.dropRead place).engine.state = .on from on)]
      exact ⟨answered _ _, causeBit_raise (s.dropRead place) causePort (by decide), rfl⟩
    · cases answer : r.answer with
      | none =>
        rw [journalRecordArrived_error,
          if_neg (show ¬ (s.dropRead place).engine.state = .on from off)]
        exact ⟨answered _ _, rfl⟩
      | some bs =>
        rw [journalRecordArrived_late (s := s.dropRead place) j bs off]
        exact ⟨answered _ _, rfl⟩
    · rw [ok, journalRecordArrived_bad (s := s.dropRead place) j on bad]
      exact ⟨answered _ _, rfl⟩
    · rw [ok, journalRecordArrived_good (s := s.dropRead place) j on good]
      exact checkRing_outside dropped outside
    · rw [ok, journalRecordArrived_good (s := s.dropRead place) j on good]
      exact checkRing_cached dropped rfl rfl inside hit on
    · rw [ok, journalRecordArrived_good (s := s.dropRead place) j on good]
      exact checkRing_misses dropped inside miss

end Sys2Proof.Machine
end

section
/-! SUPPORT. A Bank Record arrives: the levels of the pins, and the start of a bank (R26 to R28, R63,
R64, R67, R91, R161, R170). -/

namespace Sys2Proof.Machine

/-! ### What a Bank Record says of a pin -/

/-- Polarity, rest level and trip level of a pin. -/
def Pin.levels (p : Pin) := (p.activeLow, p.rest, p.trip)

/-- The levels of a bank's pins. -/
def Bank.levels (k : Bank) (c : ChanNo) (partner : Bool) :=
  ((k.wave.pins.get c).pin partner).levels

theorem levels_of_pins {k l : Bank} (h : l.wave.pins = k.wave.pins) : l.levels = k.levels := by
  unfold Bank.levels
  rw [h]

theorem levels_refresh (k : Bank) : k.refreshPins.levels = k.levels := by
  unfold Bank.refreshPins
  split
  · funext c partner
    fin_cases c <;> cases partner <;> rfl
  · rfl

theorem levels_refreshPins (s : State) (b : BankNo) :
    ((s.refreshPins b).bank b).levels = (s.bank b).levels := by
  unfold State.refreshPins
  rw [bank_modBank_same, levels_refresh]

theorem levels_openGate (s : State) (b : BankNo) :
    ((s.openGate b).bank b).levels = (s.bank b).levels := by
  unfold State.openGate
  rw [levels_refreshPins, bank_modGate_same]
  rfl

theorem levels_releaseGate (s : State) (b : BankNo) :
    ((s.releaseGate b).bank b).levels = (s.bank b).levels := by
  unfold State.releaseGate
  dsimp only
  repeat' split
  · exact levels_openGate s b
  · rfl
  · exact levels_openGate s b
  · rfl

theorem levels_judgeGate (s : State) (b : BankNo) :
    ((s.judgeGate b).bank b).levels = (s.bank b).levels := by
  unfold State.judgeGate State.tripGate
  dsimp only
  repeat' split
  · rw [levels_refreshPins, bank_raise, bank_modGate_same]; rfl
  · rfl
  · exact levels_openGate s b
  · rfl
  · rw [bank_modGate_same]; rfl
  · rfl

theorem levels_endPlan (s : State) (b : BankNo) (plan : PlanState) (reason : StopReason) :
    ((s.endPlan b plan reason).bank b).levels = (s.bank b).levels := by
  rw [bank_endPlan, levels_refreshPins, levels_releaseGate, bank_planLeft]
  rfl

theorem levels_configure (w : Waveform) (r : BankRecord) (c : ChanNo) (partner : Bool) :
    (((w.configure r).pins.get c).pin partner).levels =
      (pinBit r.polarity c partner, pinBit r.rest c partner, pinBit r.trip c partner) := by
  fin_cases c <;> cases partner <;> rfl

/-- A pin of a bank that follows its source and runs no plan. -/
theorem pin_of_pinsFollow {k : Bank} (follows : k.PinsFollow) (started : k.seq.started = true)
    (rests : k.seq.plan.isRunning = false) (c : ChanNo) (partner : Bool) :
    ((k.wave.pins.get c).pin partner).desired =
        (if k.gate.tripped then ((k.wave.pins.get c).pin partner).trip
          else ((k.wave.pins.get c).pin partner).rest) ∧
      ((k.wave.pins.get c).pin partner).drive ≠ .highZ ∧
      (((k.wave.pins.get c).pin partner).desired = false →
        ((k.wave.pins.get c).pin partner).drive = .off) := by
  obtain ⟨source, pins⟩ := follows started c
  obtain ⟨-, off, on, delayed⟩ := pins partner _ rfl
  rw [rests] at source
  refine ⟨?_, ?_, off⟩
  · cases tripped : k.gate.tripped <;> rw [tripped] at source <;> cases partner
    · exact (Prod.mk.inj source).1
    · exact (Prod.mk.inj source).2
    · exact (Prod.mk.inj source).1
    · exact (Prod.mk.inj source).2
  · cases desired : ((k.wave.pins.get c).pin partner).desired with
    | false => rw [off desired]; decide
    | true =>
      by_cases due : (((k.wave.pins.get c).pin partner).wasDesired = true ∧
          ((k.wave.pins.get c).pin partner).wasOn = true ∨
        (if partner then (k.seq.settings.get c).deadFall else (k.seq.settings.get c).deadRise) ≤
          ((k.wave.pins.get c).pin partner).delay)
      · rw [on desired due]; decide
      · rw [delayed desired due]; decide

/-! ### The check of a record (R161) -/

theorem rearmModeOf_some {b : Byte} {auto : Bool} :
    rearmModeOf b = some auto ↔ b = if auto then 1#8 else 0#8 := by
  unfold rearmModeOf
  cases auto <;> repeat' split
  all_goals simp_all

theorem pairsOk_iff {levels : Byte} : pairsOk levels = true ↔
    ∀ c, ¬ (pinBit levels c false = true ∧ pinBit levels c true = true) := by
  unfold pairsOk
  rw [List.all_eq_true]
  refine ⟨fun h c => ?_, fun h c _ => ?_⟩
  · have pair := h c (mem_four c)
    rw [Bool.not_eq_true', Bool.and_eq_false_iff] at pair
    rintro ⟨output, partner⟩
    rw [output, partner] at pair
    exact pair.elim nofun nofun
  · rw [Bool.not_eq_true', ← Bool.not_eq_true, Bool.and_eq_true]
    exact h c

theorem bankRecord_check {r : BankRecord} {auto : Bool} : r.check = some auto ↔
    r.domain.toNat ≤ 3 ∧ r.rearm = (if auto then 1#8 else 0#8) ∧
      (∀ c, ¬ (pinBit r.rest c false = true ∧ pinBit r.rest c true = true)) ∧
      ∀ c, ¬ (pinBit r.trip c false = true ∧ pinBit r.trip c true = true) := by
  unfold BankRecord.check
  rw [← pairsOk_iff, ← pairsOk_iff, ← rearmModeOf_some]
  split
  · rename_i legal
    simp only [Bool.and_eq_true, decide_eq_true_eq] at legal
    obtain ⟨⟨domain, rest⟩, trip⟩ := legal
    exact ⟨fun mode => ⟨domain, mode, rest, trip⟩, fun h => h.2.1⟩
  · rename_i illegal
    refine ⟨nofun, ?_⟩
    rintro ⟨domain, -, rest, trip⟩
    exact absurd (by simp [domain, rest, trip]) illegal

/-! ### The bank takes its record -/

/-- The bank has taken its record, and its request is answered; its head frame is not yet fetched. -/
def State.startTaken (s : State) (b : BankNo) (r : BankRecord) (auto : Bool) : State :=
  (((s.modBank b fun k => k.accept r auto).judgeGate b).refreshPins b).answer .done .nothing

theorem acceptStart_eq (s : State) (b : BankNo) (r : BankRecord) (auto : Bool) :
    s.acceptStart b r auto = (s.startTaken b r auto).fetchHead b := rfl

section
variable (s : State) (b : BankNo) (r : BankRecord) (auto : Bool)

theorem bank_accepted : (s.modBank b fun k => k.accept r auto).bank b = (s.bank b).accept r auto :=
  bank_modBank_same _ _ _

theorem core_startTaken :
    ((s.startTaken b r auto).bank b).core = ((s.bank b).accept r auto).core := by
  unfold State.startTaken
  rw [bank_answer, core_refreshPins, core_judgeGate, bank_accepted]

theorem seq_startTaken : ((s.startTaken b r auto).bank b).seq = (s.bank b).seq.accept r :=
  congrArg Prod.fst (core_startTaken s b r auto)

theorem faults_startTaken : ((s.startTaken b r auto).bank b).faults =
    { (s.bank b).faults with masks := r.masks, sticky := .clear } :=
  congrArg (fun x => x.2.1) (core_startTaken s b r auto)

theorem fifo_startTaken : ((s.startTaken b r auto).bank b).fifo = (s.bank b).fifo :=
  congrArg (fun x => x.2.2.1) (core_startTaken s b r auto)

theorem gate_startTaken : ((s.startTaken b r auto).bank b).gate =
    (((s.modBank b fun k => k.accept r auto).judgeGate b).bank b).gate := by
  unfold State.startTaken
  rw [bank_answer, gate_refreshPins]

theorem other_startTaken {c : BankNo} (h : c ≠ b) :
    (s.startTaken b r auto).bank c = s.bank c := by
  obtain ⟨-, -, -, others⟩ := judgeGate_spec (s.modBank b fun k => k.accept r auto) b
  unfold State.startTaken
  rw [bank_answer, bank_refreshPins_ne _ h, others c h, bank_modBank_ne _ _ h]

theorem beside_accepted : (((s.modBank b fun k => k.accept r auto).judgeGate b).refreshPins b).beside =
    s.beside :=
  (beside_refreshPins _ b).trans ((beside_judgeGate _ b).trans rfl)

theorem lines_startTaken : (s.startTaken b r auto).lines = s.lines :=
  (lines_of_beside (beside_accepted s b r auto) :)

theorem pinsFollow_startTaken : ((s.startTaken b r auto).bank b).PinsFollow := by
  unfold State.startTaken
  rw [bank_answer]
  exact pinsFollow_refreshPins _ b

theorem levels_startTaken (c : ChanNo) (partner : Bool) :
    ((s.startTaken b r auto).bank b).levels c partner =
      (pinBit r.polarity c partner, pinBit r.rest c partner, pinBit r.trip c partner) := by
  unfold State.startTaken
  rw [bank_answer, levels_refreshPins, levels_judgeGate, bank_accepted]
  exact levels_configure (s.bank b).wave r c partner

end

/-! ### The head frame -/

/-- What the fetch of its head frame, or the fault that ends it, leaves of a bank that has taken its
record. -/
structure State.HeadTaken (v t : State) (b : BankNo) : Prop where
  retired : (t.bank b).seq.retired = (v.bank b).seq.retired
  started : (t.bank b).seq.started = (v.bank b).seq.started
  domain : (t.bank b).seq.domain = (v.bank b).seq.domain
  headSel : (t.bank b).seq.headSel = (v.bank b).seq.headSel
  settings : (t.bank b).seq.settings = (v.bank b).seq.settings
  rests : (t.bank b).seq.plan.isRunning = false
  masks : (t.bank b).faults.masks = (v.bank b).faults.masks
  auto : (t.bank b).gate.auto = (v.bank b).gate.auto
  mask : (t.bank b).gate.mask = (v.bank b).gate.mask
  gate : (v.bank b).gate.released (v.lineTrips b) = (v.bank b).gate →
    (t.bank b).gate = (v.bank b).gate
  pins : (t.bank b).PinsFollow
  levels : (t.bank b).levels = (v.bank b).levels
  lines : t.lines = v.lines
  cause : v.causeSet (causeBank b) → t.causeSet (causeBank b)
  sweep : t.sweep = v.sweep

theorem headTaken_fetchFrame {v : State} {b : BankNo} (sel : Selector)
    (rests : (v.bank b).seq.plan.isRunning = false) (pins : (v.bank b).PinsFollow) :
    v.HeadTaken (v.fetchFrame b .head sel) b := by
  have bank := bank_fetchFrame v b .head sel
  constructor
  case pins =>
    rw [bank]
    exact pinsFollow_congr (k := v.bank b) rfl rfl rfl rfl rfl pins
  case lines => rfl
  case cause => exact id
  case sweep => rfl
  case gate => intro _; rw [bank]
  case rests => rw [bank]; exact rests
  case levels => rw [bank]; rfl
  all_goals rw [bank]

theorem levels_fetchFault_head {v : State} {b : BankNo} {f : Fetch} (head : f.role = .head)
    (cls : FaultClass) (sub : Subcode) (field : Nat) :
    ((v.fetchFault b f cls sub field).bank b).levels = (v.bank b).levels := by
  unfold State.fetchFault
  rw [(failFetch_spec _ b f.role).2.1 head, haltBank_none, levels_endPlan]
  refine levels_of_pins ?_
  unfold State.returnStaged State.retireLive State.requestFrame
  repeat' split
  all_goals simp only [bank_modBank_same, bank_modSeq_same, bank_reportFault]

theorem releasedGate_keeps (s : State) (b : BankNo) :
    (s.releasedGate b).auto = (s.bank b).gate.auto ∧
      (s.releasedGate b).mask = (s.bank b).gate.mask := by
  unfold State.releasedGate
  dsimp only
  repeat' split
  all_goals exact ⟨rfl, rfl⟩

theorem headTaken_fetchFault {v : State} {b : BankNo} {f : Fetch} (head : f.role = .head)
    (cls : FaultClass) (sub : Subcode) (field : Nat) :
    v.HeadTaken (v.fetchFault b f cls sub field) b := by
  obtain ⟨⟨plan, -, -, -⟩, -, cause, gate, pins, -⟩ :=
    (State.BankMoved.refl v b).planEnds_fetchFault head cls sub field
  obtain ⟨masks, -, -, -⟩ := reports_fetchFault (s := v) (u := v) (b := b) (f := f) cls sub field rfl rfl
  obtain ⟨seq, -⟩ := (fetchFault_spec v b f cls sub field).2.1 head
  have beside := beside_fetchFault v b f cls sub field
  constructor
  case rests => rw [plan]; rfl
  case masks => exact masks
  case auto => rw [gate]; exact (releasedGate_keeps v b).1
  case mask => rw [gate]; exact (releasedGate_keeps v b).2
  case gate => exact fun same => gate.trans same
  case pins => exact pins
  case levels => exact levels_fetchFault_head head cls sub field
  case lines => exact lines_of_beside beside
  case cause => exact fun _ => cause
  case sweep => exact sweep_of_beside beside
  all_goals rw [seq]; rfl

/-! ### The start (R27, R28) -/

/-- The head frame is read, or its misaligned selector halts the bank. -/
theorem headTaken_acceptStart (s : State) (b : BankNo) (r : BankRecord) (auto : Bool) :
    (s.startTaken b r auto).HeadTaken (s.acceptStart b r auto) b := by
  rw [acceptStart_eq]
  cases head : ((s.startTaken b r auto).bank b).seq.headSel.isNull ||
      ((s.startTaken b r auto).bank b).seq.headSel.aligned with
  | true =>
    rw [fetchHead_reads head]
    exact headTaken_fetchFrame _ (by rw [seq_startTaken]; rfl) (pinsFollow_startTaken s b r auto)
  | false =>
    rw [fetchHead_faults head]
    exact headTaken_fetchFault rfl .format .align 0

/-- What a cue has reached does not depend on its own bank. -/
theorem cueSent_of_before {s v t : State} {b : BankNo} {k : CueKind}
    (banks : ∀ c, c ≠ b → v.bank c = s.bank c) (h : v.CueSent t b k) : s.CueSent t b k := by
  intro c hc armed awaits
  rw [← banks c hc] at armed awaits ⊢
  obtain ⟨running, waiting⟩ := h c hc armed awaits
  refine ⟨running, fun f waits noLink staged => ?_⟩
  obtain ⟨plan, live, tag, staged', latch, timer, counter, settings, pins, requests⟩ :=
    waiting f waits noLink staged
  exact ⟨plan, live, tag, staged', latch, timer, counter, banks c hc ▸ settings, pins, requests⟩

section
variable {s t : State} {b : BankNo} {r : BankRecord} {auto : Bool}
  (h : (s.startTaken b r auto).HeadTaken t b)
include h

theorem State.HeadTaken.pin (c : ChanNo) (partner : Bool) (p : Pin)
    (hp : ((t.bank b).wave.pins.get c).pin partner = p) :
    p.activeLow = pinBit r.polarity c partner ∧ p.rest = pinBit r.rest c partner ∧
      p.trip = pinBit r.trip c partner ∧
      p.desired = (if (t.bank b).gate.tripped then p.trip else p.rest) ∧
      p.drive ≠ .highZ ∧ (p.desired = false → p.drive = .off) := by
  subst hp
  have levels : (t.bank b).levels c partner = _ :=
    (congrArg (fun x => x c partner) h.levels).trans (levels_startTaken s b r auto c partner)
  obtain ⟨activeLow, levels⟩ := Prod.mk.inj levels
  obtain ⟨rest, trip⟩ := Prod.mk.inj levels
  exact ⟨activeLow, rest, trip,
    pin_of_pinsFollow h.pins (by rw [h.started, seq_startTaken]; rfl) h.rests c partner⟩

/-- The gate is judged under the record's mask and mode, and the fetch of the head leaves it so. -/
theorem State.HeadTaken.gateJudged (noRearm : (s.bank b).gate.rearmPending = false) :
    t.GateJudged b { (s.bank b).gate with mask := r.tripMask, auto } false := by
  have cause : ((s.modBank b fun k => k.accept r auto).judgeGate b).cause.getLsbD (causeBank b) = true →
      t.causeSet (causeBank b) := h.cause
  obtain ⟨u, hu⟩ : ∃ u, u = s.modBank b fun k => k.accept r auto := ⟨_, rfl⟩
  have accepted : u.bank b = (s.bank b).accept r auto := hu ▸ bank_accepted s b r auto
  have gate : ((s.startTaken b r auto).bank b).gate = ((u.judgeGate b).bank b).gate :=
    hu ▸ gate_startTaken s b r auto
  have mask : ((u.judgeGate b).bank b).gate.mask = (u.bank b).gate.mask :=
    (judgeGate_spec u b).2.2.1
  have lines : (s.startTaken b r auto).lines = u.lines := by
    rw [lines_startTaken, hu]; rfl
  have trips : (s.startTaken b r auto).lineTrips b = u.lineTrips b :=
    lineTrips_of lines (by rw [gate, mask])
  have still := h.gate (by
    rw [gate, trips]
    exact released_judgeGate u b (by rw [accepted]; rfl) (by rw [accepted]; exact noRearm))
  have judged := gateJudged_judgeGate (s := u) (t := t) (b := b) (h.lines.trans lines)
    (still.trans gate) (hu ▸ cause) fun _ => h.pins
  rw [accepted] at judged
  exact judged

end

/-! ### The record arrives -/

theorem exec_bankRecordRead {place : Fin 4} {r : OutRead} {b : BankNo} {s : State}
    (h : s.Arriving place r) (owner : r.owner = .bankRecord b) : exec (.bankRecordRead place) s =
      .next (s.conclude ((s.dropRead place).bankRecordArrived b r.answer)) := by
  obtain ⟨released, there, kept⟩ := h
  exact arrives (g := fun s => s.bankRecordArrived b r.answer) released there kept (by rw [owner])

theorem bankRecordArrived_error (s : State) (b : BankNo) : s.bankRecordArrived b none =
    (s.raise causePort).answer (if s.engine.state = .on then .refusedPort else .refusedState)
      .nothing := rfl

theorem bankRecordArrived_late {s : State} (b : BankNo) (bs : List Byte)
    (h : s.engine.state ≠ .on) :
    s.bankRecordArrived b (some bs) = s.answer .refusedState .nothing := if_pos h

theorem bankRecordArrived_bad {s : State} (b : BankNo) {bs : List Byte}
    (on : s.engine.state = .on) (h : (parseBankRecord bs).check = none) :
    s.bankRecordArrived b (some bs) = s.answer .refusedConfig .nothing := by
  unfold State.bankRecordArrived
  dsimp only
  rw [if_neg (by simp [on]), h]

theorem bankRecordArrived_good {s : State} (b : BankNo) {bs : List Byte} {auto : Bool}
    (on : s.engine.state = .on) (h : (parseBankRecord bs).check = some auto) :
    s.bankRecordArrived b (some bs) =
      if (s.bank b).startable then s.acceptStart b (parseBankRecord bs) auto
      else s.answer .refusedState .nothing := by
  unfold State.bankRecordArrived
  dsimp only
  rw [if_neg (by simp [on]), h]

/-- What an accepted BANK_START leaves, whatever becomes of its head frame. -/
theorem acceptStart_leaves (s : State) (b : BankNo) (r : BankRecord) (auto : Bool) {w : Word}
    {p : ExecPhase} (executing : s.sweep.exec = some ⟨w, p⟩) :
    let t := s.acceptStart b r auto
    t.Answered w .done .nothing ∧
      (t.bank b).seq.retired = 0#48 ∧ (t.bank b).seq.started = true ∧
      (t.bank b).seq.domain = r.domain ∧ (t.bank b).seq.headSel = r.head ∧
      (t.bank b).faults.masks = r.masks ∧ (t.bank b).gate.auto = auto ∧
      (t.bank b).gate.mask = r.tripMask ∧
      (t.bank b).seq.settings = (s.bank b).seq.settings := by
  intro t
  have head : (s.startTaken b r auto).HeadTaken t b := headTaken_acceptStart s b r auto
  have seq := seq_startTaken s b r auto
  obtain ⟨-, judgedAuto, judgedMask, -⟩ := judgeGate_spec (s.modBank b fun k => k.accept r auto) b
  have gate := gate_startTaken s b r auto
  have sweep : (((s.modBank b fun k => k.accept r auto).judgeGate b).refreshPins b).sweep.exec =
      some ⟨w, p⟩ :=
    (congrArg Sweep.exec (sweep_of_beside (beside_accepted s b r auto))).trans executing
  have kept : (s.startTaken b r auto).sweep.exec = some ⟨w, .answered .done .nothing⟩ :=
    exec_answer sweep
  refine ⟨(congrArg Sweep.exec head.sweep).trans kept, ?_, ?_, ?_, ?_, ?_, ?_, ?_, ?_⟩
  · rw [head.retired, seq]; rfl
  · rw [head.started, seq]; rfl
  · rw [head.domain, seq]; rfl
  · rw [head.headSel, seq]; rfl
  · rw [head.masks, faults_startTaken]
  · rw [head.auto, gate, judgedAuto, bank_accepted]; rfl
  · rw [head.mask, gate, judgedMask, bank_accepted]; rfl
  · rw [head.settings, seq]; rfl

/-- A head frame that can be addressed is fetched, and the bank is LOADING. -/
theorem acceptStart_reads {s : State} {b : BankNo} {r : BankRecord} {auto : Bool}
    (h : (r.head.isNull || r.head.aligned) = true) :
    let t := s.acceptStart b r auto
    OtherBanksKept s t b ∧ (t.bank b).seq.plan = .loading ∧
      (t.bank b).seq.stopReason = .none ∧ (t.bank b).faults.sticky = .clear ∧
      (t.bank b).seq.fetch = some ⟨.head, r.head, none, none, none⟩ ∧
      (t.bank b).fifo = (s.bank b).fifo ++ [⟨.header r.head, .unchecked⟩] := by
  have seq := seq_startTaken s b r auto
  have sel : ((s.startTaken b r auto).bank b).seq.headSel = r.head := by rw [seq]; rfl
  have fetched : s.acceptStart b r auto = (s.startTaken b r auto).fetchFrame b .head r.head := by
    rw [acceptStart_eq, fetchHead_reads (by rw [sel]; exact h), sel]
  rw [fetched]
  dsimp only
  rw [bank_fetchFrame, seq, faults_startTaken, fifo_startTaken]
  refine ⟨fun c hc => ?_, rfl, rfl, rfl, rfl, rfl⟩
  show (((s.startTaken b r auto).modBank b _).modBank b _).bank c = _
  rw [bank_modBank_ne _ _ hc, bank_modBank_ne _ _ hc]
  exact other_startTaken s b r auto hc

/-- A misaligned head selector ends the plan (R28). -/
theorem acceptStart_faults {s : State} {b : BankNo} {r : BankRecord} {auto : Bool}
    (h : (r.head.isNull || r.head.aligned) = false) :
    let t := s.acceptStart b r auto
    t.Ended b .halted .fault ∧ (t.bank b).faults.sticky.format = true ∧
      t.causeSet (causeBank b) ∧ s.CueSent t b .planEnd := by
  have sel : ((s.startTaken b r auto).bank b).seq.headSel = r.head := by
    rw [seq_startTaken]; rfl
  have fetched : s.acceptStart b r auto = (s.startTaken b r auto).fetchFault b
      ⟨.head, r.head, none, none, none⟩ .format .align 0 := by
    rw [acceptStart_eq, fetchHead_faults (by rw [sel]; exact h), sel]
  obtain ⟨ended, -, cause, -, -, sent⟩ :=
    (State.BankMoved.refl (s.startTaken b r auto) b).planEnds_fetchFault
      (f := ⟨.head, r.head, none, none, none⟩) rfl .format .align 0
  obtain ⟨-, sticky, -, -⟩ := reports_fetchFault (s := s.startTaken b r auto)
    (b := b) (f := ⟨.head, r.head, none, none, none⟩) .format .align 0 rfl rfl
  rw [fetched]
  refine ⟨ended, by rw [sticky]; rfl, cause,
    cueSent_of_before (fun c hc => other_startTaken s b r auto hc) sent⟩

/-- Settles O40: the check of a record field by field, then the answers of the read: an error or an
engine not ON, a bad record, a busy bank, and an accepted start. -/
theorem bankRecordStartsTheBank : Obligations.BankRecordStartsTheBank := by
  refine ⟨fun r auto => bankRecord_check, fun place r b e s arriving owner executing => ?_⟩
  obtain ⟨u, hu⟩ : ∃ u, u = s.dropRead place := ⟨_, rfl⟩
  have bank : ∀ c, u.bank c = s.bank c := fun c => hu ▸ rfl
  have engine : u.engine = s.engine := hu ▸ rfl
  have banks : u.banks = s.banks := hu ▸ rfl
  have sweep : u.sweep.exec = some ⟨e.word, e.phase⟩ := hu ▸ executing
  have answered : ∀ x y, (u.answer x y).Answered e.word x y := fun _ _ => exec_answer sweep
  refine ⟨_, exec_bankRecordRead arriving owner,
    State.ReadsStay.bankRecordArrived (s.dropRead place) b r.answer, ?_⟩
  rw [← hu, ← engine]
  refine ⟨fun error on => ?_, fun off => ?_, fun bs ok on bad => ?_, fun bs auto ok on good busy => ?_,
    fun bs auto ok on good free => ?_⟩
  · rw [error, bankRecordArrived_error, if_pos on]
    exact ⟨answered _ _, causeBit_raise u causePort (by decide), banks⟩
  · cases answer : r.answer with
    | none =>
      rw [bankRecordArrived_error, if_neg off]
      exact ⟨answered _ _, banks⟩
    | some bs =>
      rw [bankRecordArrived_late b bs off]
      exact ⟨answered _ _, banks⟩
  · rw [ok, bankRecordArrived_bad b on bad]
    exact ⟨answered _ _, banks⟩
  · rw [ok, bankRecordArrived_good b on good, bank, if_neg (by rw [busy]; exact nofun)]
    exact ⟨answered _ _, banks⟩
  · rw [ok, bankRecordArrived_good b on good, bank, if_pos free]
    obtain ⟨done, retired, started, domain, headSel, masks, mode, mask, settings⟩ :=
      acceptStart_leaves u b (parseBankRecord bs) auto sweep
    have head := headTaken_acceptStart u b (parseBankRecord bs) auto
    refine ⟨done, retired, started, domain, headSel, masks, mode, mask, by rw [settings, bank],
      head.pin, fun noRearm => ?_, fun addressed => ?_, fun misaligned => ?_⟩
    · rw [← bank]
      exact head.gateJudged (by rw [bank]; exact noRearm)
    · obtain ⟨others, rest⟩ := acceptStart_reads (s := u) (b := b) (auto := auto) addressed
      refine ⟨fun c hc => (others c hc).trans (bank c), ?_⟩
      rw [← bank]
      exact rest
    · obtain ⟨ended, sticky, cause, sent⟩ :=
        acceptStart_faults (s := u) (b := b) (auto := auto) misaligned
      exact ⟨ended, sticky, cause, cueSent_of_before (fun c _ => bank c) sent⟩

end Sys2Proof.Machine
end

section
/-! SUPPORT. A record write from its issue on: missed events, the judgement of a consume value, the end
of a step, and the response to the write (R134 to R140, R154). -/

namespace Sys2Proof.Machine

/-! ### A journal that does not change again -/

theorem State.JournalFaults.congr {s t u : State} {j : JournalNo} {code : JournalFault} {lost : Nat}
    (h : s.JournalFaults t j code lost) (journals : u.journals = t.journals)
    (lines : u.lines = t.lines) (cause : t.causeSet (causeJournal j) → u.causeSet (causeJournal j)) :
    s.JournalFaults u j code lost := by
  have journal : u.journal j = t.journal j := congrArg (fun x => x.get j) journals
  obtain ⟨state, fault, gap, step, produce, set, word, held, missed⟩ := h
  constructor
  case cause => exact cause set
  case held => exact fun l hl => (congrArg (fun x => (x.get l).holding) lines).trans (held l hl)
  all_goals rw [journal]; assumption

theorem journalFaults_answerLook {s t : State} {j : JournalNo} {code : JournalFault} {lost : Nat}
    (h : s.JournalFaults t j code lost) (r : Result) :
    s.JournalFaults (t.answerLook j r) j code lost := by
  obtain ⟨journals, cause, lines, -⟩ := answerLook_spec t j r
  refine h.congr journals lines fun set => ?_
  unfold State.causeSet at set ⊢
  rw [cause]
  exact set

/-! ### A missed event (R135) -/

theorem missEvent_held {s : State} {j : JournalNo} {l : LineNo} {e : Event}
    (h : (s.line l).holding = some e) : s.missEvent j l = (s.modJournal j fun x =>
      { x with gap := satInc x.gap, gapStamp := if x.gap = 0#32 then e.stamp else x.gapStamp }).countMissed
        j l := by
  unfold State.missEvent; rw [h]

theorem missEvent_none {s : State} {j : JournalNo} {l : LineNo} (h : (s.line l).holding = none) :
    s.missEvent j l = s := by
  unfold State.missEvent; rw [h]

/-- A missed event changes the gap, the missed total and the requests of its journal. -/
theorem journal_missEvent (s : State) (j : JournalNo) (l : LineNo) :
    ∃ q m g stamp, (s.missEvent j l).journal j =
      { s.journal j with fifo := q, missed := m, gap := g, gapStamp := stamp } := by
  cases held : (s.line l).holding with
  | none => rw [missEvent_none held]; exact ⟨_, _, _, _, rfl⟩
  | some e =>
    rw [missEvent_held held]
    obtain ⟨-, ⟨q, m, counted, -⟩, -⟩ := countMissed_spec (s.modJournal j fun x =>
      { x with gap := satInc x.gap, gapStamp := if x.gap = 0#32 then e.stamp else x.gapStamp }) j l
    rw [counted, journal_modJournal_same]
    exact ⟨q, m, _, _, rfl⟩

theorem cause_missEvent (s : State) (j : JournalNo) (l : LineNo) :
    (s.missEvent j l).cause = s.cause := by
  cases held : (s.line l).holding with
  | none => rw [missEvent_none held]
  | some e =>
    rw [missEvent_held held]
    exact (countMissed_spec _ j l).2.2.2.2

/-- An event missed in a state that has the lines, the missed total and the gap stamp of `s`. -/
theorem eventMissed_missEvent {s v : State} {j : JournalNo} {l : LineNo}
    (held : (s.line l).holding ≠ none) (lines : v.lines = s.lines)
    (missed : (v.journal j).missed = (s.journal j).missed)
    (stamp : (v.journal j).gapStamp = (s.journal j).gapStamp) :
    s.EventMissed (v.missEvent j l) j l (v.journal j).gap := by
  obtain ⟨e, he⟩ := Option.ne_none_iff_exists'.1 held
  have line : v.line l = s.line l := congrArg (fun x => x.get l) lines
  rw [missEvent_held (by rw [line]; exact he)]
  obtain ⟨u, hu⟩ : ∃ u, u = v.modJournal j fun x =>
    { x with gap := satInc x.gap, gapStamp := if x.gap = 0#32 then e.stamp else x.gapStamp } :=
    ⟨_, rfl⟩
  have journal : u.journal j = { v.journal j with
      gap := satInc (v.journal j).gap
      gapStamp := if (v.journal j).gap = 0#32 then e.stamp else (v.journal j).gapStamp } := by
    rw [hu, journal_modJournal_same]
  have lineU : u.line l = s.line l := by rw [hu]; exact line
  rw [← hu]
  obtain ⟨-, ⟨q, m, counted, word, -⟩, -⟩ := countMissed_spec u j l
  constructor
  · rw [missed_countMissed, journal]
    exact congrArg (· + 1#32) missed
  · rw [counted, journal]
  · intro f hf
    cases he.symm.trans hf
    rw [counted, journal]
    exact congrArg (ite _ e.stamp) stamp
  · rw [line_countMissed, lineU]
  · rw [counted]
    exact word

/-! ### The watermark and a consume value (R134, R138) -/

/-- A watermark flag that becomes set sets the journal's cause. -/
theorem causeSet_judgeWatermark {s : State} {j : JournalNo}
    (clear : (s.journal j).watermarkFlag = false)
    (set : ((s.judgeWatermark j).journal j).watermarkFlag = true) :
    (s.judgeWatermark j).causeSet (causeJournal j) := by
  have reached : (s.journal j).watermark ≤ (s.journal j).unconsumed := by
    rw [(judgeWatermark_spec s j).2.2.2.2] at set
    exact of_decide_eq_true set
  unfold State.judgeWatermark
  dsimp only
  rw [if_pos reached, if_neg (by simp [clear])]
  exact causeBit_raise _ _ (by have := j.isLt; unfold causeJournal; omega)

theorem judgeConsume_within {s : State} {j : JournalNo} {v : BitVec 16}
    (h : ((s.journal j).produce - v).toNat ≤ (s.journal j).capacity) :
    s.judgeConsume j v = (s.modJournal j fun x => { x with cached := v }).judgeWatermark j := if_pos h

theorem judgeConsume_outside {s : State} {j : JournalNo} {v : BitVec 16}
    (h : (s.journal j).capacity < ((s.journal j).produce - v).toNat) :
    s.judgeConsume j v = s.faultJournal j .consumeRange false := if_neg (by omega)

/-- A consume value within the capacity becomes the cached consume. -/
theorem journal_judgeConsume {s : State} {j : JournalNo} {v : BitVec 16}
    (h : ((s.journal j).produce - v).toNat ≤ (s.journal j).capacity) :
    (s.judgeConsume j v).journal j = { s.journal j with
      cached := v
      watermarkFlag :=
        decide ((s.journal j).watermark ≤ ((s.journal j).produce - v).toNat) } := by
  rw [judgeConsume_within h, (judgeWatermark_spec _ j).2.2.2.2, journal_modJournal_same]
  rfl

theorem lines_judgeConsume {s : State} {j : JournalNo} {v : BitVec 16}
    (h : ((s.journal j).produce - v).toNat ≤ (s.journal j).capacity) :
    (s.judgeConsume j v).lines = s.lines := by
  rw [judgeConsume_within h, (judgeWatermark_spec _ j).2.1]
  rfl

/-! ### The end of a step (R134, R139) -/

/-- The step has ended, and no LOOK value is held any more. -/
def State.stepEnded (s : State) (j : JournalNo) : State :=
  s.modJournal j fun x => { x with step := .idle, held := none }

theorem journal_stepEnded (s : State) (j : JournalNo) :
    (s.stepEnded j).journal j = { s.journal j with step := .idle, held := none } :=
  journal_modJournal_same _ _ _

theorem endStep_unheld {s : State} {j : JournalNo} (h : (s.journal j).held = none) :
    s.endStep j = s.stepEnded j := by
  unfold State.endStep; dsimp only; rw [h]; rfl

theorem endStep_held {s : State} {j : JournalNo} {v : BitVec 16} (h : (s.journal j).held = some v) :
    s.endStep j = ((s.stepEnded j).judgeConsume j v).answerLook j .done := by
  unfold State.endStep; dsimp only; rw [h]; rfl

theorem journal_answerLook (s : State) (i j : JournalNo) (r : Result) :
    (s.answerLook j r).journal i = s.journal i :=
  congrArg (fun x => x.get i) (answerLook_spec s j r).1

theorem journal_endStep_within {s : State} {j : JournalNo} {v : BitVec 16}
    (held : (s.journal j).held = some v)
    (within : ((s.journal j).produce - v).toNat ≤ (s.journal j).capacity) :
    (s.endStep j).journal j = { s.journal j with
      step := .idle, held := none, cached := v
      watermarkFlag :=
        decide ((s.journal j).watermark ≤ ((s.journal j).produce - v).toNat) } := by
  rw [endStep_held held, journal_answerLook,
    journal_judgeConsume (by rw [journal_stepEnded]; exact within), journal_stepEnded]

theorem endStep_outside {s v : State} {j : JournalNo} {h : BitVec 16}
    (held : (v.journal j).held = some h)
    (outside : (v.journal j).capacity < ((v.journal j).produce - h).toNat)
    (lines : v.lines = s.lines) (produce : (v.journal j).produce = (s.journal j).produce)
    (missed : (v.journal j).missed = (s.journal j).missed) :
    s.JournalFaults (v.endStep j) j .consumeRange 0 := by
  rw [endStep_held held, judgeConsume_outside (by rw [journal_stepEnded]; exact outside)]
  have faults := journalFaults_faultJournal (s := s) (v := v.stepEnded j) (j := j) .consumeRange false
    lines (by rw [journal_stepEnded]; exact produce) (by rw [journal_stepEnded]; exact missed)
  exact journalFaults_answerLook faults .done

/-! ### The issue of a record (R124, R135, R154) -/

theorem journal_popJournal (s : State) (j : JournalNo) (r : JournalReq) :
    (s.popJournal j r).journal j = { s.journal j with fifo := (s.journal j).fifo.erase r } :=
  journal_modJournal_same _ _ _

/-- A journal's offer is one of its requests. -/
theorem journal_of_choose {s : State} {j : JournalNo} {r : JournalReq}
    (h : s.choose = some (.journal j r)) : r ∈ (s.journal j).fifo := by
  obtain ⟨before, after, fifo, -⟩ := journalOffer_first (choose_journal h).1
  rw [fifo]
  exact List.mem_append_right _ List.mem_cons_self

/-- The transaction of a record write, or of one of its halves. -/
def State.recordSent (s : State) (j : JournalNo) (p : StepPlan) (addr : Nat) (second : Bool)
    (fate : Fate) : State :=
  (s.modPort fun q => { q with lastJournal := j }).issueWrite (.record j) (partOf addr 16 second).1
    (bytesOf addr second ((s.modPort fun q => { q with lastJournal := j }).recordBytes j p))
    (isLast addr 16 second) fate.lands fate.isError

/-- Issued whole, the write leaves the journal's requests; of a split write the second half takes the
place of the first. -/
theorem issueJournal_record {s : State} {j : JournalNo} {p : StepPlan} {addr : Nat} {second : Bool}
    (fate : Fate) (writes : (s.journal j).step = .write p) :
    s.issueJournal j (.record addr second) fate =
      if isLast addr 16 second = true then
        ((s.recordSent j p addr second fate).popJournal j (.record addr second)).recordIssued j p
      else (s.recordSent j p addr second fate).modJournal j
        fun x => { x with fifo := x.fifo.replace (.record addr second) (.record addr true) } := by
  unfold State.issueJournal
  dsimp only
  split
  · rename_i q step
    cases writes.symm.trans step
    rfl
  · rename_i other
    exact absurd writes (other p)

/-- The gap that a record carries is 0 once the record is issued. -/
def State.gapWritten (s : State) (j : JournalNo) : State :=
  s.modJournal j fun x => { x with gap := 0#32 }

theorem journal_gapWritten (s : State) (j : JournalNo) :
    (s.gapWritten j).journal j = { s.journal j with gap := 0#32 } := journal_modJournal_same _ _ _

/-- The issue of a record leaves the step and the produce index. -/
theorem recordIssued_keeps (s : State) (j : JournalNo) (p : StepPlan) :
    ((s.recordIssued j p).journal j).step = (s.journal j).step ∧
      ((s.recordIssued j p).journal j).produce = (s.journal j).produce := by
  cases p with
  | event l => exact ⟨rfl, rfl⟩
  | gapThenMiss l =>
    obtain ⟨q, m, g, stamp, journal⟩ := journal_missEvent (s.gapWritten j) j l
    show ((State.missEvent (s.gapWritten j) j l).journal j).step = _ ∧
      ((State.missEvent (s.gapWritten j) j l).journal j).produce = _
    rw [journal, journal_gapWritten]
    exact ⟨rfl, rfl⟩
  | _ =>
    show ((s.gapWritten j).journal j).step = _ ∧ ((s.gapWritten j).journal j).produce = _
    rw [journal_gapWritten]
    exact ⟨rfl, rfl⟩

/-- What the issue of a whole record does to the event or the gap it carries, in a state that is `s`
but for the port and the journal's requests. -/
theorem recordIssued_effect {s u : State} {j : JournalNo} (p : StepPlan) {q : List JournalReq}
    (lines : u.lines = s.lines) (journal : u.journal j = { s.journal j with fifo := q }) :
    (∀ l, p = .event l → (u.recordIssued j p).line l = { s.line l with holding := none } ∧
        ((u.recordIssued j p).journal j).gap = (s.journal j).gap) ∧
      (((∃ l, p = .gapThenEvent l) ∨ p = .gapOnly) →
        ((u.recordIssued j p).journal j).gap = 0#32 ∧ (u.recordIssued j p).lines = s.lines) ∧
      ∀ l, p = .gapThenMiss l → (s.line l).holding ≠ none →
        s.EventMissed (u.recordIssued j p) j l 0#32 := by
  refine ⟨?_, ?_, ?_⟩
  · rintro l rfl
    have line : u.line l = s.line l := congrArg (fun x => x.get l) lines
    have gap : (u.journal j).gap = (s.journal j).gap := by rw [journal]
    exact ⟨(line_modLine_same u l _).trans (by rw [line]), gap⟩
  · rintro (⟨l, rfl⟩ | rfl)
    all_goals exact ⟨congrArg Journal.gap (journal_gapWritten u j), lines⟩
  · rintro l rfl held
    have written := journal_gapWritten u j
    have missed := eventMissed_missEvent (v := u.gapWritten j) (j := j) held lines
      (by rw [written, journal]) (by rw [written, journal])
    rw [written] at missed
    exact missed

/-! ### The response to a record write (R136, R154) -/

theorem exec_recordWriteResponse {j : JournalNo} {last error : Bool} {rest : List OutWrite}
    {s : State} (h : s.Responding ⟨.record j, last, error⟩ rest) :
    exec .recordWriteResponse s = .next (s.conclude
      (State.recordResponse { s with port := { s.port with writes := rest } } j
        ⟨.record j, last, error⟩)) := by
  obtain ⟨released, writes⟩ := h
  rw [← dropWrite_eq writes]
  exact responds (g := fun s => s.recordResponse j _) released writes rfl

section
variable {s : State} {j : JournalNo} {w : OutWrite}

theorem recordResponse_first (last : w.last = false) : s.recordResponse j w =
    s.modJournal j fun x => { x with halfError := x.halfError || w.error } :=
  if_neg (by simp [last])

/-- The journal with no half of a split record kept. -/
def State.journalUnhalved (s : State) (j : JournalNo) : State :=
  s.modJournal j fun x => { x with halfError := false }

theorem journal_journalUnhalved (s : State) (j : JournalNo) :
    (s.journalUnhalved j).journal j = { s.journal j with halfError := false } :=
  journal_modJournal_same _ _ _

theorem recordResponse_last (last : w.last = true) : s.recordResponse j w =
    (s.journalUnhalved j).recordAnswered j (w.error || (s.journal j).halfError) := if_pos last

/-- The produce index has gone up, and its word is still to be requested. -/
def State.produced (s : State) (j : JournalNo) (p : StepPlan) : State :=
  (s.modJournal j fun x => { x with produce := x.produce + 1#16, step := .produce p }).judgeWatermark j

theorem journal_produced (s : State) (j : JournalNo) (p : StepPlan) :
    (s.produced j p).journal j = { s.journal j with
      produce := (s.journal j).produce + 1#16
      step := .produce p
      watermarkFlag := decide ((s.journal j).watermark ≤
        ((s.journal j).produce + 1#16 - (s.journal j).cached).toNat) } := by
  unfold State.produced
  rw [(judgeWatermark_spec _ j).2.2.2.2, journal_modJournal_same]
  rfl

theorem recordAnswered_ok {p : StepPlan} (writes : (s.journal j).step = .write p) :
    s.recordAnswered j false = (s.produced j p).requestJournal j
      (.produceWord ((s.produced j p).journal j).produce) := by
  unfold State.recordAnswered; rw [writes]; rfl

/-- The plan writes the record of its event, which is in no holding register any more. -/
def StepPlan.losesEvent : StepPlan → Bool
  | .event _ => true
  | _ => false

theorem recordAnswered_error {p : StepPlan} (writes : (s.journal j).step = .write p) :
    s.recordAnswered j true = s.faultJournal j .bus p.losesEvent := by
  unfold State.recordAnswered; rw [writes]; cases p <;> rfl

theorem journal_recordAnswered_ok {p : StepPlan} (writes : (s.journal j).step = .write p) :
    (s.recordAnswered j false).journal j = { s.journal j with
      produce := (s.journal j).produce + 1#16
      step := .produce p
      fifo := (s.journal j).fifo ++ [.produceWord ((s.journal j).produce + 1#16)]
      watermarkFlag := decide ((s.journal j).watermark ≤
        ((s.journal j).produce + 1#16 - (s.journal j).cached).toNat) } := by
  rw [recordAnswered_ok writes]
  unfold State.requestJournal
  rw [journal_modJournal_same, journal_produced]

/-- A watermark flag that becomes set by a record's write sets the journal's cause (R138). -/
theorem causeSet_recordAnswered {p : StepPlan} (writes : (s.journal j).step = .write p)
    (clear : (s.journal j).watermarkFlag = false)
    (set : ((s.recordAnswered j false).journal j).watermarkFlag = true) :
    (s.recordAnswered j false).causeSet (causeJournal j) := by
  have produced : ((s.produced j p).journal j).watermarkFlag = true := by
    rw [journal_recordAnswered_ok writes] at set
    rw [journal_produced]
    exact set
  rw [recordAnswered_ok writes]
  refine causeSet_judgeWatermark (s := s.modJournal j fun x =>
    { x with produce := x.produce + 1#16, step := .produce p }) ?_ produced
  rw [journal_modJournal_same]
  exact clear

/-- An ERROR to a record write makes the journal FAULTED (R136, R140). -/
theorem journalFaults_recordAnswered {v : State} {p : StepPlan} (lines : v.lines = s.lines)
    (writes : (v.journal j).step = .write p)
    (produce : (v.journal j).produce = (s.journal j).produce)
    (missed : (v.journal j).missed = (s.journal j).missed) :
    s.JournalFaults (v.recordAnswered j true) j .bus (if p.losesEvent then 1 else 0) := by
  rw [recordAnswered_error writes]
  exact journalFaults_faultJournal .bus p.losesEvent lines produce missed

theorem halfError_recordAnswered (s : State) (j : JournalNo) {p : StepPlan} (error : Bool)
    (writes : (s.journal j).step = .write p) :
    ((s.recordAnswered j error).journal j).halfError = (s.journal j).halfError := by
  cases error with
  | false => rw [journal_recordAnswered_ok writes]
  | true =>
    rw [recordAnswered_error writes]
    obtain ⟨-, ⟨q, m, same, -⟩, -⟩ := faultJournal_spec s j .bus p.losesEvent
    rw [same]

end

/-! ### The produce word (R133, R136) -/

/-- The produce word has been issued, and leaves the journal's requests. -/
def State.wordSent (s : State) (j : JournalNo) (v : BitVec 16) (fate : Fate) : State :=
  ((s.modPort fun q => { q with lastJournal := j }).popJournal j (.produceWord v)).issueAnchor
    (.produceWord j) (offJournalRecord j + 0x10) (produceWordBytes v) fate

theorem journal_wordSent (s : State) (j : JournalNo) (v : BitVec 16) (fate : Fate) :
    (s.wordSent j v fate).journal j =
      { s.journal j with fifo := (s.journal j).fifo.erase (.produceWord v) } :=
  journal_popJournal (s.modPort fun q => { q with lastJournal := j }) j (.produceWord v)

theorem produceIssued_event {s : State} {j : JournalNo} {l : LineNo}
    (step : (s.journal j).step = .produce (.gapThenEvent l)) :
    s.produceIssued j = s.checkRecord j (.event l) := by
  unfold State.produceIssued; rw [step]

theorem produceIssued_ends {s : State} {j : JournalNo} {p : StepPlan}
    (step : (s.journal j).step = .produce p) (last : ∀ l, p ≠ .gapThenEvent l) :
    s.produceIssued j = s.endStep j := by
  unfold State.produceIssued
  rw [step]
  cases p with
  | gapThenEvent l => exact absurd rfl (last l)
  | _ => rfl

/-- The end of a step, in a state that is `s` but for the port and the journal's requests. -/
theorem endStep_judges {s u : State} {j : JournalNo} {q : List JournalReq} (lines : u.lines = s.lines)
    (journal : u.journal j = { s.journal j with fifo := q }) :
    let t := u.endStep j
    (t.journal j).step = .idle ∧ (t.journal j).held = none ∧
      ((s.journal j).held = none →
        (t.journal j).cached = (s.journal j).cached ∧ (t.journal j).state = (s.journal j).state) ∧
      ∀ h, (s.journal j).held = some h →
        (((s.journal j).produce - h).toNat ≤ (s.journal j).capacity →
          (t.journal j).cached = h ∧ (t.journal j).state = (s.journal j).state) ∧
        ((s.journal j).capacity < ((s.journal j).produce - h).toNat →
          s.JournalFaults t j .consumeRange 0) := by
  intro t
  cases held : (s.journal j).held with
  | none =>
    have ended : t.journal j = { u.journal j with step := .idle, held := none } := by
      rw [← journal_stepEnded, ← endStep_unheld (by rw [journal]; exact held)]
    rw [ended, journal]
    exact ⟨rfl, rfl, fun _ => ⟨rfl, rfl⟩, nofun⟩
  | some h =>
    have heldU : (u.journal j).held = some h := by rw [journal]; exact held
    obtain within | outside := le_or_gt ((s.journal j).produce - h).toNat (s.journal j).capacity
    · have ended := journal_endStep_within (s := u) (j := j) heldU (by rw [journal]; exact within)
      rw [show t.journal j = _ from ended, journal]
      refine ⟨rfl, rfl, nofun, fun h' same => ?_⟩
      cases same
      exact ⟨fun _ => ⟨rfl, rfl⟩, fun outside => absurd within (by omega)⟩
    · have faults : s.JournalFaults t j .consumeRange 0 :=
        endStep_outside heldU (by rw [journal]; exact outside) lines (by rw [journal])
          (by rw [journal])
      refine ⟨faults.step, ?_, nofun, fun h' same => ?_⟩
      · show ((u.endStep j).journal j).held = none
        rw [endStep_held heldU, journal_answerLook, judgeConsume_outside]
        · obtain ⟨-, ⟨q, m, same, -⟩, -⟩ := faultJournal_spec (u.stepEnded j) j .consumeRange false
          rw [same]
        · rw [journal_stepEnded, journal]
          exact outside
      · cases same
        exact ⟨fun within => absurd within (by omega), fun _ => faults⟩

/-! ### The record, from its issue on -/

/-- The issue of a whole record leaves the step and the produce index, and takes its event or the gap
it carries. -/
theorem issueJournal_record_whole {s t : State} {j : JournalNo} {p : StepPlan} {addr : Nat}
    {second : Bool} {fate : Fate} (writes : (s.journal j).step = .write p)
    (last : isLast addr 16 second = true)
    (issued : t = s.issueJournal j (.record addr second) fate) :
    (t.journal j).step = .write p ∧ (t.journal j).produce = (s.journal j).produce ∧
      (∀ l, p = .event l → t.line l = { s.line l with holding := none } ∧
        (t.journal j).gap = (s.journal j).gap) ∧
      (((∃ l, p = .gapThenEvent l) ∨ p = .gapOnly) →
        (t.journal j).gap = 0#32 ∧ t.lines = s.lines) ∧
      ∀ l, p = .gapThenMiss l → (s.line l).holding ≠ none → s.EventMissed t j l 0#32 := by
  obtain ⟨u, hu⟩ : ∃ u, u = (s.recordSent j p addr second fate).popJournal j (.record addr second) :=
    ⟨_, rfl⟩
  have journal : u.journal j =
      { s.journal j with fifo := (s.journal j).fifo.erase (.record addr second) } :=
    hu ▸ journal_popJournal _ _ _
  have lines : u.lines = s.lines := hu ▸ rfl
  obtain ⟨stepKept, produceKept⟩ := recordIssued_keeps u j p
  rw [issued, issueJournal_record fate writes, if_pos last, ← hu]
  rw [journal] at stepKept produceKept
  exact ⟨stepKept.trans writes, produceKept, recordIssued_effect p lines journal⟩

/-- The issue of the first half of a split record leaves the second half to be issued. -/
theorem issueJournal_record_half {s t : State} {j : JournalNo} {p : StepPlan} {addr : Nat}
    {second : Bool} {fate : Fate} (writes : (s.journal j).step = .write p)
    (half : ¬ isLast addr 16 second = true)
    (issued : t = s.issueJournal j (.record addr second) fate) :
    t.lines = s.lines ∧ t.journal j = { s.journal j with
      fifo := (s.journal j).fifo.replace (.record addr second) (.record addr true) } := by
  rw [issued, issueJournal_record fate writes, if_neg half, journal_modJournal_same]
  exact ⟨rfl, rfl⟩

section
variable {s u : State} {j : JournalNo} {p : StepPlan}
  (journal : u.journal j = { s.journal j with halfError := false })
  (writes : (s.journal j).step = .write p)
include journal writes

theorem step_unhalved : (u.journal j).step = .write p := by rw [journal]; exact writes

/-- A record write answered OK moves the produce index, whose word is requested (R136, R138). -/
theorem recordAnswered_moves :
    let t := u.recordAnswered j false
    (t.journal j).produce = (s.journal j).produce + 1#16 ∧ (t.journal j).step = .produce p ∧
      (t.journal j).fifo =
        (s.journal j).fifo ++ [.produceWord ((s.journal j).produce + 1#16)] ∧
      (t.journal j).state = (s.journal j).state ∧
      ((t.journal j).watermarkFlag = true ↔ (s.journal j).watermark ≤
        ((s.journal j).produce + 1#16 - (s.journal j).cached).toNat) ∧
      ((s.journal j).watermarkFlag = false → (t.journal j).watermarkFlag = true →
        t.causeSet (causeJournal j)) := by
  have step := step_unhalved journal writes
  have answered := journal_recordAnswered_ok step
  rw [journal] at answered
  refine ⟨by rw [answered], by rw [answered], by rw [answered], by rw [answered], ?_, fun clear => ?_⟩
  · rw [answered]
    exact decide_eq_true_iff
  · exact causeSet_recordAnswered step (by rw [journal]; exact clear)

/-- A record write answered ERROR loses its event, if it is that of an event (R140). -/
theorem recordAnswered_faults (lines : u.lines = s.lines) :
    (∀ l, p = .event l → s.JournalFaults (u.recordAnswered j true) j .bus 1) ∧
      ((∀ l, p ≠ .event l) → s.JournalFaults (u.recordAnswered j true) j .bus 0) := by
  have faults := journalFaults_recordAnswered (s := s) lines (step_unhalved journal writes)
    (by rw [journal]) (by rw [journal])
  refine ⟨?_, fun other => ?_⟩
  · rintro l rfl
    exact faults
  · cases p with
    | event l => exact absurd rfl (other l)
    | _ => exact faults

end

/-- The last response to a record write, in halves or whole. -/
theorem recordResponse_last_eq {s : State} {j : JournalNo} {error first : Bool}
    (half : (s.journal j).halfError = first) : s.recordResponse j ⟨.record j, true, error⟩ =
      (s.journalUnhalved j).recordAnswered j (error || first) := by
  rw [recordResponse_last rfl, half]

/-- Settles O44: the issue of the record, the first response of a split write, the last response,
and the issue of the produce word. -/
theorem recordWriteResponseMovesProduce : Obligations.RecordWriteResponseMovesProduce := by
  refine ⟨fun j p addr second fate s released chosen writes => ?_, fun j error rest s responding => ?_,
    fun j p error first rest s responding half writes => ?_,
    fun j p v fate s released chosen step => ?_⟩
  · refine ⟨_, exec_grant released chosen, ?_⟩
    by_cases last : isLast addr 16 second = true
    · obtain ⟨stepKept, produceKept, effect⟩ :=
        issueJournal_record_whole (fate := fate) writes last rfl
      refine ⟨stepKept, produceKept, fun _ => effect, fun first split => ?_⟩
      obtain second | whole := isLast_iff.1 last
      · rw [first] at second
        cases second
      · omega
    · obtain ⟨lines, journal⟩ := issueJournal_record_half (fate := fate) writes last rfl
      rw [show (s.issue fate (.journal j (.record addr second))).journal j = _ from journal]
      exact ⟨writes, rfl, fun whole => absurd (isLast_iff.2 whole) last,
        fun _ _ => ⟨lines, mem_replace _ (journal_of_choose chosen)⟩⟩
  · refine ⟨_, exec_recordWriteResponse responding, ?_⟩
    rw [recordResponse_first rfl]
    exact ⟨rfl, fun i hi => journal_modJournal_ne _ _ hi, journal_modJournal_same _ _ _⟩
  · refine ⟨_, exec_recordWriteResponse responding, ?_⟩
    rw [recordResponse_last_eq (s := { s with port := { s.port with writes := rest } }) half]
    obtain ⟨u, hu⟩ : ∃ u, u = State.journalUnhalved
      { s with port := { s.port with writes := rest } } j := ⟨_, rfl⟩
    have journal : u.journal j = { s.journal j with halfError := false } :=
      hu ▸ journal_journalUnhalved _ j
    have lines : u.lines = s.lines := hu ▸ rfl
    have port : u.port.writes = rest := hu ▸ rfl
    rw [← hu]
    refine ⟨?_, (writes_of_flight (flight_recordAnswered u j _)).trans port, ?_, fun failed => ?_⟩
    · rw [halfError_recordAnswered u j _ (step_unhalved journal writes), journal]
    · rintro rfl rfl
      exact recordAnswered_moves journal writes
    · rw [show (error || first) = true by simpa using failed]
      exact recordAnswered_faults journal writes lines
  · refine ⟨_, exec_grant released chosen, ?_⟩
    have journal := journal_wordSent s j v fate
    have stepSent : ((s.wordSent j v fate).journal j).step = .produce p := by rw [journal]; exact step
    have issued : s.issue fate (.journal j (.produceWord v)) = (s.wordSent j v fate).produceIssued j :=
      rfl
    rw [issued]
    refine ⟨?_, fun last => ?_⟩
    · rintro l rfl
      rw [produceIssued_event stepSent, ← journal]
      exact recordChecked_checkRecord _ rfl rfl (by rw [journal]) (by rw [journal])
    · rw [produceIssued_ends stepSent last]
      exact endStep_judges rfl journal

end Sys2Proof.Machine
end

section
/-! SUPPORT. A consume re-read arrives: the judgement of its value, and what the step that waits for it
makes of it (R134, R139, R144). -/

namespace Sys2Proof.Machine

/-! ### What a step keeps -/

theorem cause_faultJournal (s : State) (j : JournalNo) (code : JournalFault) (lost : Bool) :
    (s.faultJournal j code lost).cause = (s.raise (causeJournal j)).cause := by
  unfold State.faultJournal
  dsimp only
  obtain ⟨u, hu⟩ : ∃ u, u = s.modJournal j fun x => { x with
    state := .faulted, fault := code, gap := 0#32, step := .idle, held := none,
    missed := if lost then x.missed + 1#32 else x.missed } := ⟨_, rfl⟩
  have words : (((u.countHeld j).raise (causeJournal j)).requestStatusWord j).cause =
      (s.raise (causeJournal j)).cause := by
    rw [(requestStatusWord_spec _ j).2.2.2.1, cause_raise_eq, cause_raise_eq,
      (countHeld_spec u j).2.2.1, hu]
    rfl
  rw [← hu]
  split
  · exact words
  · rw [(answerLook_spec _ j _).2.1]
    exact words

theorem causeSet_raise {s : State} {n m : Nat} (h : s.causeSet n) : (s.raise m).causeSet n := by
  unfold State.causeSet at h ⊢
  rw [cause_raise_eq, BitVec.getLsbD_or, h, Bool.true_or]

/-- What the judgements and the ends of a journal's step keep: the other journals, whether a re-read is
in flight, each cause bit that is set, and the answer of a request. -/
structure State.StepKept (s t : State) (j : JournalNo) : Prop where
  others : OtherJournalsKept s t j
  reread : (t.journal j).rereadInFlight = (s.journal j).rereadInFlight
  cause : ∀ n, s.causeSet n → t.causeSet n
  answered : ∀ w r x, s.Answered w r x → t.Answered w r x

theorem State.StepKept.refl (s : State) (j : JournalNo) : s.StepKept s j :=
  ⟨fun _ _ => rfl, rfl, fun _ => id, fun _ _ _ => id⟩

theorem State.StepKept.trans {s t u : State} {j : JournalNo} (h : s.StepKept t j)
    (k : t.StepKept u j) : s.StepKept u j :=
  ⟨fun i hi => (k.others i hi).trans (h.others i hi), k.reread.trans h.reread,
    fun n set => k.cause n (h.cause n set), fun w r x a => k.answered w r x (h.answered w r x a)⟩

section
variable (s : State) (j : JournalNo)

theorem stepKept_modJournal {f : Journal → Journal}
    (h : (f (s.journal j)).rereadInFlight = (s.journal j).rereadInFlight) :
    s.StepKept (s.modJournal j f) j :=
  ⟨fun i hi => journal_modJournal_ne _ _ hi, by rw [journal_modJournal_same]; exact h,
    fun _ set => set, fun _ _ _ a => a⟩

theorem stepKept_stepEnded : s.StepKept (s.stepEnded j) j := stepKept_modJournal s j rfl

theorem stepKept_answerLook (r : Result) : s.StepKept (s.answerLook j r) j where
  others i _ := journal_answerLook s i j r
  reread := by rw [journal_answerLook]
  cause n set := by
    unfold State.causeSet at set ⊢
    rw [(answerLook_spec s j r).2.1]
    exact set
  answered w y x a := answered_answerLook a j r

theorem stepKept_judgeWatermark : s.StepKept (s.judgeWatermark j) j where
  others := (judgeWatermark_spec s j).2.2.2.1
  reread := by rw [(judgeWatermark_spec s j).2.2.2.2]
  cause n set := by
    unfold State.judgeWatermark
    dsimp only
    repeat' split
    · exact set
    · exact causeSet_raise set
    · exact set
  answered w r x a := answered_of_sweep (judgeWatermark_spec s j).2.2.1 a

theorem stepKept_faultJournal (code : JournalFault) (lost : Bool) :
    s.StepKept (s.faultJournal j code lost) j where
  others := (faultJournal_spec s j code lost).1
  reread := by
    obtain ⟨-, ⟨q, m, same, -⟩, -⟩ := faultJournal_spec s j code lost
    rw [same]
  cause n set := by
    have raised : (s.raise (causeJournal j)).causeSet n := causeSet_raise set
    unfold State.causeSet at raised ⊢
    rw [cause_faultJournal]
    exact raised
  answered w r x a := answered_faultJournal a j code lost

theorem stepKept_judgeConsume (v : BitVec 16) : s.StepKept (s.judgeConsume j v) j := by
  unfold State.judgeConsume
  split
  · exact (stepKept_modJournal s j rfl).trans (stepKept_judgeWatermark _ j)
  · exact stepKept_faultJournal s j .consumeRange false

theorem stepKept_endStep : s.StepKept (s.endStep j) j := by
  cases held : (s.journal j).held with
  | none => rw [endStep_unheld held]; exact stepKept_stepEnded s j
  | some v =>
    rw [endStep_held held]
    exact ((stepKept_stepEnded s j).trans (stepKept_judgeConsume _ j v)).trans
      (stepKept_answerLook _ j .done)

theorem stepKept_missEvent (l : LineNo) : s.StepKept (s.missEvent j l) j where
  others i hi := by
    cases held : (s.line l).holding with
    | none => rw [missEvent_none held]
    | some e =>
      rw [missEvent_held held, (countMissed_spec _ j l).1 i hi, journal_modJournal_ne _ _ hi]
  reread := by
    obtain ⟨q, m, g, stamp, same⟩ := journal_missEvent s j l
    rw [same]
  cause n set := by
    unfold State.causeSet at set ⊢
    rw [cause_missEvent]
    exact set
  answered w r x a := by
    cases held : (s.line l).holding with
    | none => rw [missEvent_none held]; exact a
    | some e =>
      rw [missEvent_held held]
      exact answered_of_sweep ((sweep_countMissed _ j l).trans rfl) a

/-! ### The record of the step -/

/-- The re-read, the cached consume and the watermark flag of a journal. -/
def Journal.consumed (x : Journal) := (x.rereadInFlight, x.cached, x.watermarkFlag)

theorem consumed_faultJournal (code : JournalFault) (lost : Bool) :
    ((s.faultJournal j code lost).journal j).consumed = (s.journal j).consumed := by
  obtain ⟨-, ⟨q, m, same, -⟩, -⟩ := faultJournal_spec s j code lost
  rw [same]
  rfl

/-- The window check of a record touches the window unit and the loads among the journal's requests. -/
theorem windowCheck_journal (index : Byte) (offset length : Nat) (write : Bool) (domain : Byte) :
    (∃ q, ((s.windowCheck (.journal j) index offset length write domain).1).journal j =
      { s.journal j with fifo := q }) ∧
    (s.windowCheck (.journal j) index offset length write domain).1.cause = s.cause := by
  have requested : ∀ t : State, t.journal j = s.journal j → t.cause = s.cause →
      (∃ q, (t.requestLoad (.journal j) index).journal j = { s.journal j with fifo := q }) ∧
        (t.requestLoad (.journal j) index).cause = s.cause := by
    intro t journal cause
    refine ⟨⟨(s.journal j).fifo ++ [.load index], ?_⟩, cause⟩
    rw [← journal]
    exact journal_modJournal_same _ _ _
  unfold State.windowCheck
  repeat' split
  · exact ⟨⟨_, rfl⟩, rfl⟩
  · exact ⟨⟨_, rfl⟩, rfl⟩
  · exact ⟨⟨_, rfl⟩, rfl⟩
  · exact requested _ rfl rfl

theorem consumed_checkRecord (p : StepPlan) :
    ((s.checkRecord j p).journal j).consumed = (s.journal j).consumed := by
  obtain ⟨t, c, checked⟩ : ∃ t c, (s.atCheck j p).windowCheck (.journal j) (s.journal j).window
      (s.journal j).slotOffset 16 true (s.journal j).domain = (t, c) := ⟨_, _, rfl⟩
  obtain ⟨⟨q, journal⟩, -⟩ := windowCheck_journal (s.atCheck j p) j (s.journal j).window
    (s.journal j).slotOffset 16 true (s.journal j).domain
  rw [checked, journal_atCheck] at journal
  have same : (t.journal j).consumed = (s.journal j).consumed := by
    rw [show t.journal j = _ from journal]
    rfl
  rw [checkRecord_of checked]
  cases c with
  | waiting => exact same
  | fail sub => exact (consumed_faultJournal t j _ false).trans same
  | pass addr =>
    refine Eq.trans ?_ same
    show ((State.writeRecord t j p addr).journal j).consumed = _
    unfold State.writeRecord State.requestJournal
    rw [journal_modJournal_same, journal_modJournal_same]
    rfl

theorem stepKept_checkRecord (p : StepPlan) : s.StepKept (s.checkRecord j p) j where
  others i hi := journal_checkRecord_ne s hi p
  reread := congrArg Prod.fst (consumed_checkRecord s j p)
  cause n set := by
    obtain ⟨t, c, checked⟩ : ∃ t c, (s.atCheck j p).windowCheck (.journal j) (s.journal j).window
        (s.journal j).slotOffset 16 true (s.journal j).domain = (t, c) := ⟨_, _, rfl⟩
    obtain ⟨-, cause⟩ := windowCheck_journal (s.atCheck j p) j (s.journal j).window
      (s.journal j).slotOffset 16 true (s.journal j).domain
    rw [checked] at cause
    have setT : t.causeSet n := by
      unfold State.causeSet at set ⊢
      rw [show t.cause = _ from cause]
      exact set
    rw [checkRecord_of checked]
    cases c with
    | waiting => exact setT
    | fail sub => exact (stepKept_faultJournal t j _ false).cause n setT
    | pass addr => exact setT
  answered w r x a := answered_checkRecord a j p

/-! ### The step resumes (R134, R135) -/

theorem planEvent_full {l : LineNo} (full : (s.journal j).room = 0) :
    s.planEvent j l = (s.missEvent j l).endStep j := if_pos full

theorem stepKept_resumeStep (w : Option LineNo) : s.StepKept (s.resumeStep j w) j := by
  cases w with
  | none =>
    unfold State.resumeStep
    dsimp only
    split
    · exact stepKept_endStep s j
    · exact stepKept_checkRecord s j .gapOnly
  | some l =>
    show s.StepKept (s.planEvent j l) j
    by_cases full : (s.journal j).room = 0
    · rw [planEvent_full s j full]
      exact (stepKept_missEvent s j l).trans (stepKept_endStep _ j)
    · rw [planEvent_eq l full]
      exact stepKept_checkRecord s j _

end

section
variable {s : State} {j : JournalNo} (noLook : (s.journal j).held = none)
include noLook

theorem journal_endStep_unheld :
    (s.endStep j).journal j = { s.journal j with step := .idle, held := none } := by
  rw [endStep_unheld noLook, journal_stepEnded]

theorem held_missEvent (l : LineNo) : ((s.missEvent j l).journal j).held = none := by
  obtain ⟨q, m, g, stamp, same⟩ := journal_missEvent s j l
  rw [same]
  exact noLook

/-- A step without a held LOOK value, whose event is missed, ends. -/
theorem journal_missEvent_endStep (l : LineNo) : ∃ q m g stamp,
    ((s.missEvent j l).endStep j).journal j = { s.journal j with
      fifo := q, missed := m, gap := g, gapStamp := stamp, step := .idle, held := none } := by
  obtain ⟨q, m, g, stamp, same⟩ := journal_missEvent s j l
  refine ⟨q, m, g, stamp, ?_⟩
  rw [journal_endStep_unheld (held_missEvent noLook l), same]

theorem consumed_resumeStep (w : Option LineNo) :
    ((s.resumeStep j w).journal j).consumed = (s.journal j).consumed := by
  cases w with
  | none =>
    unfold State.resumeStep
    dsimp only
    split
    · rw [journal_endStep_unheld noLook]
      rfl
    · exact consumed_checkRecord s j .gapOnly
  | some l =>
    show ((s.planEvent j l).journal j).consumed = _
    by_cases full : (s.journal j).room = 0
    · obtain ⟨q, m, g, stamp, same⟩ := journal_missEvent_endStep noLook l
      rw [planEvent_full s j full, same]
      rfl
    · rw [planEvent_eq l full]
      exact consumed_checkRecord s j _

end

theorem eventMissed_stepEnded {s t : State} {j : JournalNo} {l : LineNo} {was : BitVec 32}
    (h : s.EventMissed t j l was) : s.EventMissed (t.stepEnded j) j l was := by
  obtain ⟨missed, gap, stamp, line, word⟩ := h
  have journal := journal_stepEnded t j
  constructor
  case line => exact line
  all_goals rw [journal]; assumption

/-- The chosen event is missed and the step ends, in a state that is `s` but for what the arrival has
set in the journal. -/
theorem missEvent_endStep {s v : State} {j : JournalNo} {l : LineNo} (lines : v.lines = s.lines)
    (missed : (v.journal j).missed = (s.journal j).missed)
    (stamp : (v.journal j).gapStamp = (s.journal j).gapStamp)
    (noLook : (v.journal j).held = none) (held : (s.line l).holding ≠ none) :
    s.EventMissed ((v.missEvent j l).endStep j) j l (v.journal j).gap ∧
      (((v.missEvent j l).endStep j).journal j).step = .idle ∧
      (((v.missEvent j l).endStep j).journal j).state = (v.journal j).state := by
  obtain ⟨q, m, g, stamp', same⟩ := journal_missEvent_endStep noLook l
  rw [same, endStep_unheld (held_missEvent noLook l)]
  exact ⟨eventMissed_stepEnded (eventMissed_missEvent held lines missed stamp), rfl, rfl⟩

/-! ### The judgement of a value that has arrived -/

/-- The value is judged, and a JOURNAL_LOOK that waits for it is answered. -/
def State.valueJudged (s : State) (j : JournalNo) (v : BitVec 16) : State :=
  (s.judgeConsume j v).answerLook j .done

theorem answered_look {s : State} {w : Word} {j : JournalNo} (h : s.sweep.exec = some ⟨w, .look j⟩)
    (r : Result) : (s.answerLook j r).Answered w r .nothing := by
  unfold State.answerLook
  rw [h]
  dsimp only
  rw [if_pos rfl]
  exact exec_answer h

/-- A JOURNAL_LOOK is answered by the fault of its journal, or waits still for its re-read. -/
theorem look_faultJournal {s : State} {w : Word} {j : JournalNo}
    (h : s.sweep.exec = some ⟨w, .look j⟩) (code : JournalFault) (lost : Bool) :
    (s.faultJournal j code lost).Answered w .done .nothing ∨
      (s.faultJournal j code lost).sweep.exec = some ⟨w, .look j⟩ := by
  unfold State.faultJournal
  dsimp only
  obtain ⟨u, hu⟩ : ∃ u, u = s.modJournal j fun x => { x with
    state := .faulted, fault := code, gap := 0#32, step := .idle, held := none,
    missed := if lost then x.missed + 1#32 else x.missed } := ⟨_, rfl⟩
  have words : (((u.countHeld j).raise (causeJournal j)).requestStatusWord j).sweep.exec =
      some ⟨w, .look j⟩ := by
    rw [(requestStatusWord_spec _ j).2.2.2.2]
    show (u.countHeld j).sweep.exec = _
    rw [(countHeld_missed u j).2.2.1, hu]
    exact h
  rw [← hu]
  split
  · exact .inr words
  · exact .inl (answered_look words .done)

section
variable {s : State} {j : JournalNo} {v : BitVec 16}

theorem look_valueJudged {w : Word} (h : s.sweep.exec = some ⟨w, .look j⟩) :
    (s.valueJudged j v).Answered w .done .nothing := by
  unfold State.valueJudged
  by_cases within : ((s.journal j).produce - v).toNat ≤ (s.journal j).capacity
  · refine answered_look ?_ .done
    rw [judgeConsume_within within, (judgeWatermark_spec _ j).2.2.1]
    exact h
  · rw [judgeConsume_outside (by omega)]
    obtain done | waits := look_faultJournal h .consumeRange false
    · exact answered_answerLook done j .done
    · exact answered_look waits .done

theorem stepKept_valueJudged (s : State) (j : JournalNo) (v : BitVec 16) :
    s.StepKept (s.valueJudged j v) j :=
  (stepKept_judgeConsume s j v).trans (stepKept_answerLook _ j .done)

theorem faults_valueJudged {u : State} (outside : (u.journal j).capacity < ((u.journal j).produce - v).toNat)
    (lines : u.lines = s.lines) (produce : (u.journal j).produce = (s.journal j).produce)
    (missed : (u.journal j).missed = (s.journal j).missed) :
    s.JournalFaults (u.valueJudged j v) j .consumeRange 0 := by
  unfold State.valueJudged
  rw [judgeConsume_outside outside]
  have faults := journalFaults_faultJournal (s := s) (v := u) (j := j) .consumeRange false lines
    produce missed
  exact journalFaults_answerLook faults .done

section
variable (within : ((s.journal j).produce - v).toNat ≤ (s.journal j).capacity)
include within

theorem journal_valueJudged : (s.valueJudged j v).journal j = { s.journal j with
    cached := v
    watermarkFlag := decide ((s.journal j).watermark ≤ ((s.journal j).produce - v).toNat) } := by
  unfold State.valueJudged
  rw [journal_answerLook, journal_judgeConsume within]

theorem lines_valueJudged : (s.valueJudged j v).lines = s.lines := by
  unfold State.valueJudged
  rw [(answerLook_spec _ j _).2.2.1, lines_judgeConsume within]

theorem window_valueJudged : (s.valueJudged j v).window = s.window := by
  have looked : ∀ (t : State) r, (t.answerLook j r).window = t.window := by
    intro t r
    unfold State.answerLook State.answer
    repeat' split
    all_goals rfl
  unfold State.valueJudged
  rw [looked, judgeConsume_within within]
  unfold State.judgeWatermark
  dsimp only
  repeat' split
  all_goals rfl

theorem cause_valueJudged (clear : (s.journal j).watermarkFlag = false)
    (set : ((s.valueJudged j v).journal j).watermarkFlag = true) :
    (s.valueJudged j v).causeSet (causeJournal j) := by
  unfold State.valueJudged at set ⊢
  rw [journal_answerLook] at set
  refine (stepKept_answerLook _ j .done).cause _ ?_
  rw [judgeConsume_within within] at set ⊢
  refine causeSet_judgeWatermark ?_ set
  rw [journal_modJournal_same]
  exact clear

/-- The room that is left under the new consume value. -/
theorem room_valueJudged : ((s.valueJudged j v).journal j).room = 0 ↔
    ((s.journal j).produce - v).toNat = (s.journal j).capacity := by
  rw [journal_valueJudged within]
  show (s.journal j).capacity - ((s.journal j).produce - v).toNat = 0 ↔ _
  omega

end
end

/-! ### The arrival -/

/-- No re-read is in flight any more. -/
def State.rereadTaken (s : State) (j : JournalNo) : State :=
  s.modJournal j fun x => { x with rereadInFlight := false }

theorem journal_rereadTaken (s : State) (j : JournalNo) :
    (s.rereadTaken j).journal j = { s.journal j with rereadInFlight := false } :=
  journal_modJournal_same _ _ _

theorem exec_consumeReread {place : Fin 4} {r : OutRead} {j : JournalNo} {s : State}
    (h : s.Arriving place r) (owner : r.owner = .reread j) : exec (.consumeReread place) s =
      .next (s.conclude ((s.dropRead place).rereadArrived j r.answer)) := by
  obtain ⟨released, there, kept⟩ := h
  exact arrives (g := fun s => s.rereadArrived j r.answer) released there kept (by rw [owner])

section
variable {s : State} {j : JournalNo} {v : BitVec 16} (opened : (s.journal j).state = .opened)
include opened

theorem consumeArrived_idle (step : (s.journal j).step = .idle) :
    s.consumeArrived j v = s.valueJudged j v := by
  unfold State.consumeArrived
  dsimp only
  rw [if_pos opened, step]
  rfl

/-- A step that waits for the value resumes, unless the value has made its journal FAULTED. -/
theorem consumeArrived_waiting {w : Option LineNo} (step : (s.journal j).step = .reread w) :
    s.consumeArrived j v = if ((s.valueJudged j v).journal j).state = .opened then
      (s.valueJudged j v).resumeStep j w else s.valueJudged j v := by
  unfold State.consumeArrived
  dsimp only
  rw [if_pos opened, step]
  rfl

theorem consumeArrived_later (busy : (s.journal j).step ≠ .idle)
    (noWait : ∀ l, (s.journal j).step ≠ .reread l) :
    s.consumeArrived j v = s.modJournal j fun x => { x with held := some v } := by
  unfold State.consumeArrived
  dsimp only
  rw [if_pos opened]
  split
  · rename_i step
    exact absurd step busy
  · rename_i step
    exact absurd step (noWait _)
  · rfl

end

end Sys2Proof.Machine
end

section
/-! SUPPORT. CONSUME_REREAD: an accepted consume value, and the step that resumes (R134, R135, R138). -/

namespace Sys2Proof.Machine

theorem State.RecordChecked.congr_journal {s t : State} {j : JournalNo} {x y : Journal} {p : StepPlan}
    (h : s.RecordChecked t j x p) (window : y.window = x.window) (domain : y.domain = x.domain)
    (slot : y.nextSlot = x.nextSlot) (fifo : y.fifo = x.fifo) : s.RecordChecked t j y p := by
  unfold State.RecordChecked at h ⊢
  rw [window, domain, slot, fifo]
  exact h

/-- A consume value is the cached consume, and the watermark is judged by it. -/
def State.Accepts (s t : State) (j : JournalNo) (v : BitVec 16) : Prop :=
  (t.journal j).cached = v ∧
    ((t.journal j).watermarkFlag = true ↔
      (s.journal j).watermark ≤ ((s.journal j).produce - v).toNat) ∧
    ((s.journal j).watermarkFlag = false → (t.journal j).watermarkFlag = true →
      t.causeSet (causeJournal j))

theorem State.Accepts.congr {s t u : State} {j : JournalNo} {v : BitVec 16} (h : s.Accepts t j v)
    (kept : t.StepKept u j) (consumed : (u.journal j).consumed = (t.journal j).consumed) :
    s.Accepts u j v := by
  obtain ⟨-, rest⟩ := Prod.mk.inj consumed
  obtain ⟨cached, flag⟩ := Prod.mk.inj rest
  obtain ⟨same, judged, cause⟩ := h
  refine ⟨cached.trans same, by rw [flag]; exact judged, fun clear set => kept.cause _ (cause clear ?_)⟩
  rw [← flag]
  exact set

/-! ### The value is judged in a state that is `s` but for the re-read -/

section
variable {s u : State} {j : JournalNo} {v : BitVec 16} (lines : u.lines = s.lines)
  (window : u.window = s.window)
  (journal : u.journal j = { s.journal j with rereadInFlight := false })

section
include journal

theorem within_taken : ((u.journal j).produce - v).toNat ≤ (u.journal j).capacity ↔
    ((s.journal j).produce - v).toNat ≤ (s.journal j).capacity := by rw [journal]

variable (within : ((s.journal j).produce - v).toNat ≤ (s.journal j).capacity)
include within

theorem judged_taken : (u.valueJudged j v).journal j = { s.journal j with
    rereadInFlight := false, cached := v
    watermarkFlag := decide ((s.journal j).watermark ≤ ((s.journal j).produce - v).toNat) } := by
  rw [journal_valueJudged ((within_taken journal).2 within), journal]

theorem accepts_valueJudged : s.Accepts (u.valueJudged j v) j v := by
  have judged := judged_taken journal within
  refine ⟨by rw [judged], ?_, fun clear => ?_⟩
  · rw [judged]
    exact decide_eq_true_iff
  · exact cause_valueJudged ((within_taken journal).2 within) (by rw [journal]; exact clear)

theorem accepts_resumeStep (w : Option LineNo) (noLook : (s.journal j).held = none) :
    s.Accepts ((u.valueJudged j v).resumeStep j w) j v := by
  have noLook' : ((u.valueJudged j v).journal j).held = none := by
    rw [judged_taken journal within]
    exact noLook
  exact (accepts_valueJudged journal within).congr (stepKept_resumeStep _ j w)
    (consumed_resumeStep noLook' w)

theorem room_taken : ((u.valueJudged j v).journal j).room = 0 ↔
    ((s.journal j).produce - v).toNat = (s.journal j).capacity := by
  rw [room_valueJudged ((within_taken journal).2 within), journal]

include lines window

theorem recordChecked_valueJudged (p : StepPlan) :
    s.RecordChecked ((u.valueJudged j v).checkRecord j p) j
      { s.journal j with cached := v } p := by
  have judged := judged_taken journal within
  have checked := recordChecked_checkRecord (s := s) (u := u.valueJudged j v) (j := j) p
    ((lines_valueJudged ((within_taken journal).2 within)).trans lines)
    ((window_valueJudged ((within_taken journal).2 within)).trans window)
    (by rw [judged]) (by rw [judged])
  rw [judged] at checked
  exact checked.congr_journal rfl rfl rfl rfl

/-- The last GAP record of a close is written, or with no room left the step ends. -/
theorem resumeStep_gap (opened : (s.journal j).state = .opened)
    (noLook : (s.journal j).held = none) :
    let t := (u.valueJudged j v).resumeStep j none
    (((s.journal j).produce - v).toNat = (s.journal j).capacity → t.lines = s.lines ∧
      (t.journal j).step = .idle ∧ (t.journal j).state = .opened ∧
      (t.journal j).gap = (s.journal j).gap) ∧
    (((s.journal j).produce - v).toNat < (s.journal j).capacity →
      s.RecordChecked t j { s.journal j with cached := v } .gapOnly) := by
  have judged := judged_taken journal within
  have room := room_taken journal within
  have noLook' : ((u.valueJudged j v).journal j).held = none := by
    rw [judged]
    exact noLook
  refine ⟨fun full => ?_, fun free => ?_⟩
  · rw [show (u.valueJudged j v).resumeStep j none = _ from if_pos (room.2 full),
      endStep_unheld noLook', journal_stepEnded, judged]
    exact ⟨(lines_valueJudged ((within_taken journal).2 within)).trans lines, rfl, opened, rfl⟩
  · rw [show (u.valueJudged j v).resumeStep j none = _ from
      if_neg fun full => absurd (room.1 full) (by omega)]
    exact recordChecked_valueJudged lines window journal within .gapOnly

/-- The chosen event is written, or with no room left it is missed. -/
theorem resumeStep_event (opened : (s.journal j).state = .opened)
    (noLook : (s.journal j).held = none) (l : LineNo) :
    let t := (u.valueJudged j v).resumeStep j (some l)
    (((s.journal j).produce - v).toNat = (s.journal j).capacity → (s.line l).holding ≠ none →
      s.EventMissed t j l (s.journal j).gap ∧ (t.journal j).step = .idle ∧
        (t.journal j).state = .opened) ∧
    (((s.journal j).produce - v).toNat < (s.journal j).capacity →
      ∀ x : Journal, x = { s.journal j with cached := v } → s.RecordChecked t j x (x.planFor l)) := by
  have judged := judged_taken journal within
  have room := room_taken journal within
  refine ⟨fun full held => ?_, fun free x hx => ?_⟩
  · rw [show (u.valueJudged j v).resumeStep j (some l) = _ from planEvent_full _ j (room.2 full)]
    have missed := missEvent_endStep (v := u.valueJudged j v)
      ((lines_valueJudged ((within_taken journal).2 within)).trans lines) (by rw [judged])
      (by rw [judged]) (by rw [judged]; exact noLook) held
    rw [judged] at missed
    obtain ⟨missed, step, state⟩ := missed
    exact ⟨missed, step, state.trans opened⟩
  · rw [show (u.valueJudged j v).resumeStep j (some l) = _ from
      planEvent_eq l fun full => absurd (room.1 full) (by omega), judged, hx]
    exact recordChecked_valueJudged lines window journal within _

end

/-! ### The arrival of a value -/

theorem stepKept_consumeArrived (t : State) (j : JournalNo) (v : BitVec 16) :
    t.StepKept (t.consumeArrived j v) j := by
  by_cases opened : (t.journal j).state = .opened
  · cases step : (t.journal j).step with
    | idle =>
      rw [consumeArrived_idle opened step]
      exact stepKept_valueJudged t j v
    | reread w =>
      rw [consumeArrived_waiting opened step]
      split
      · exact (stepKept_valueJudged t j v).trans (stepKept_resumeStep _ j w)
      · exact stepKept_valueJudged t j v
    | _ =>
      rw [consumeArrived_later opened (by rw [step]; exact nofun) (by rw [step]; exact nofun)]
      exact stepKept_modJournal t j rfl
  · rw [show t.consumeArrived j v = _ from if_neg opened]
    exact stepKept_answerLook t j .done

theorem look_consumeArrived {t : State} {w : Word} (opened : (t.journal j).state = .opened)
    (waits : (t.journal j).step = .idle ∨ ∃ l, (t.journal j).step = .reread l)
    (look : t.sweep.exec = some ⟨w, .look j⟩) :
    (t.consumeArrived j v).Answered w .done .nothing := by
  obtain idle | ⟨l, step⟩ := waits
  · rw [consumeArrived_idle opened idle]
    exact look_valueJudged look
  · rw [consumeArrived_waiting opened step]
    split
    · exact (stepKept_resumeStep _ j l).answered _ _ _ (look_valueJudged look)
    · exact look_valueJudged look

/-- A value out of range makes the journal FAULTED, whether a step waits for it or none is in
progress. -/
theorem faults_consumeArrived (lines : u.lines = s.lines)
    (journal : u.journal j = { s.journal j with rereadInFlight := false })
    (opened : (s.journal j).state = .opened)
    (waits : (s.journal j).step = .idle ∨ ∃ l, (s.journal j).step = .reread l)
    (outside : (s.journal j).capacity < ((s.journal j).produce - v).toNat) :
    s.JournalFaults (u.consumeArrived j v) j .consumeRange 0 := by
  have opened' : (u.journal j).state = .opened := by rw [journal]; exact opened
  have faults : s.JournalFaults (u.valueJudged j v) j .consumeRange 0 :=
    faults_valueJudged (by rw [journal]; exact outside) lines (by rw [journal]) (by rw [journal])
  obtain idle | ⟨l, step⟩ := waits
  · rw [consumeArrived_idle opened' (by rw [journal]; exact idle)]
    exact faults
  · rw [consumeArrived_waiting opened' (by rw [journal]; exact step), if_neg]
    · exact faults
    · rw [faults.state]
      exact nofun

/-- A value within the capacity lets the step that waits for it resume. -/
theorem consumeArrived_resumes (journal : u.journal j = { s.journal j with rereadInFlight := false })
    (opened : (s.journal j).state = .opened) {w : Option LineNo}
    (step : (s.journal j).step = .reread w)
    (within : ((s.journal j).produce - v).toNat ≤ (s.journal j).capacity) :
    u.consumeArrived j v = (u.valueJudged j v).resumeStep j w := by
  rw [consumeArrived_waiting (by rw [journal]; exact opened) (by rw [journal]; exact step), if_pos]
  rw [judged_taken journal within]
  exact opened

theorem accepts_consumeArrived (journal : u.journal j = { s.journal j with rereadInFlight := false })
    (opened : (s.journal j).state = .opened)
    (waits : (s.journal j).step = .idle ∨ ∃ l, (s.journal j).step = .reread l)
    (within : ((s.journal j).produce - v).toNat ≤ (s.journal j).capacity)
    (unheld : (s.journal j).step = .idle ∨ (s.journal j).held = none) :
    s.Accepts (u.consumeArrived j v) j v := by
  obtain idle | ⟨w, step⟩ := waits
  · rw [consumeArrived_idle (by rw [journal]; exact opened) (by rw [journal]; exact idle)]
    exact accepts_valueJudged journal within
  · rw [consumeArrived_resumes journal opened step within]
    refine accepts_resumeStep journal within w (unheld.resolve_left ?_)
    rw [step]
    exact nofun

end

/-! ### An ERROR -/

/-- The cause is set, and a JOURNAL_LOOK that waits for the re-read is refused. -/
def State.rereadRefused (s : State) (j : JournalNo) : State :=
  (s.raise causePort).answerLook j .refusedPort

theorem journal_rereadRefused (s : State) (j : JournalNo) :
    (s.rereadRefused j).journal j = s.journal j := journal_answerLook _ _ _ _

theorem lines_rereadRefused (s : State) (j : JournalNo) : (s.rereadRefused j).lines = s.lines :=
  (answerLook_spec _ j _).2.2.1

theorem stepKept_rereadRefused (s : State) (j : JournalNo) : s.StepKept (s.rereadRefused j) j := by
  refine State.StepKept.trans (t := s.raise causePort) ⟨fun _ _ => rfl, rfl, fun n set => ?_,
    fun _ _ _ a => a⟩ (stepKept_answerLook _ j _)
  exact causeSet_raise set

theorem consumeError_event {s : State} {j : JournalNo} {l : LineNo}
    (step : (s.journal j).step = .reread (some l)) :
    s.consumeError j = ((s.rereadRefused j).missEvent j l).endStep j := by
  unfold State.consumeError
  dsimp only
  rw [step]
  rfl

theorem consumeError_gap {s : State} {j : JournalNo} (step : (s.journal j).step = .reread none) :
    s.consumeError j = (s.rereadRefused j).endStep j := by
  unfold State.consumeError
  dsimp only
  rw [step]
  rfl

theorem consumeError_none {s : State} {j : JournalNo} (h : ∀ l, (s.journal j).step ≠ .reread l) :
    s.consumeError j = s.rereadRefused j := by
  unfold State.consumeError
  dsimp only
  split
  · rename_i step
    exact absurd step (h _)
  · rename_i step
    exact absurd step (h _)
  · rfl

/-- What follows the refusal keeps its answer and its cause. -/
theorem stepKept_consumeError (s : State) (j : JournalNo) :
    (s.rereadRefused j).StepKept (s.consumeError j) j := by
  cases step : (s.journal j).step with
  | reread w =>
    cases w with
    | none =>
      rw [consumeError_gap step]
      exact stepKept_endStep _ j
    | some l =>
      rw [consumeError_event step]
      exact (stepKept_missEvent _ j l).trans (stepKept_endStep _ j)
  | _ =>
    rw [consumeError_none (by rw [step]; exact nofun)]
    exact .refl _ j

/-- With no LOOK value held the cached consume stays. -/
theorem cached_consumeError {s : State} {j : JournalNo} (noLook : (s.journal j).held = none) :
    ((s.consumeError j).journal j).cached = (s.journal j).cached := by
  have unheld : ((s.rereadRefused j).journal j).held = none := by
    rw [journal_rereadRefused]
    exact noLook
  cases step : (s.journal j).step with
  | reread w =>
    cases w with
    | none => rw [consumeError_gap step, journal_endStep_unheld unheld, journal_rereadRefused]
    | some l =>
      obtain ⟨q, m, g, stamp, same⟩ := journal_missEvent_endStep unheld l
      rw [consumeError_event step, same, journal_rereadRefused]
  | _ => rw [consumeError_none (by rw [step]; exact nofun), journal_rereadRefused]

section
variable {s u : State} {j : JournalNo} (lines : u.lines = s.lines)
  (journal : u.journal j = { s.journal j with rereadInFlight := false })
  (opened : (s.journal j).state = .opened) (noLook : (s.journal j).held = none)
include lines journal opened noLook

/-- The step of an event that waited for the value counts it as missed, and ends. -/
theorem consumeError_misses {l : LineNo} (step : (s.journal j).step = .reread (some l))
    (held : (s.line l).holding ≠ none) :
    s.EventMissed (u.consumeError j) j l (s.journal j).gap ∧
      ((u.consumeError j).journal j).step = .idle ∧
      ((u.consumeError j).journal j).state = .opened := by
  rw [consumeError_event (by rw [journal]; exact step)]
  have refused := (journal_rereadRefused u j).trans journal
  have missed := missEvent_endStep (v := u.rereadRefused j) ((lines_rereadRefused u j).trans lines)
    (by rw [refused]) (by rw [refused]) (by rw [refused]; exact noLook) held
  rw [refused] at missed
  obtain ⟨missed, idle, state⟩ := missed
  exact ⟨missed, idle, state.trans opened⟩

/-- The step of a close's last GAP record that waited for the value ends. -/
theorem consumeError_ends (step : (s.journal j).step = .reread none) :
    (u.consumeError j).lines = s.lines ∧ ((u.consumeError j).journal j).step = .idle ∧
      ((u.consumeError j).journal j).state = .opened := by
  have refused := (journal_rereadRefused u j).trans journal
  rw [consumeError_gap (by rw [journal]; exact step),
    endStep_unheld (by rw [refused]; exact noLook), journal_stepEnded, refused]
  exact ⟨(lines_rereadRefused u j).trans lines, rfl, opened⟩

end

/-- Settles O39: a value for a step that waits or for none, a value for a step past its re-read, and
an ERROR. -/
theorem consumeRereadIsJudged : Obligations.ConsumeRereadIsJudged := by
  intro place r j s arriving owner opened
  obtain ⟨u, hu⟩ : ∃ u, u = (s.dropRead place).rereadTaken j := ⟨_, rfl⟩
  have journal : u.journal j = { s.journal j with rereadInFlight := false } :=
    hu ▸ journal_rereadTaken _ j
  have lines : u.lines = s.lines := hu ▸ rfl
  have window : u.window = s.window := hu ▸ rfl
  have sweep : u.sweep = s.sweep := hu ▸ rfl
  have others : OtherJournalsKept s u j := fun i hi => hu ▸ journal_modJournal_ne _ _ hi
  have arrived : ∀ bs, r.answer = some bs → (s.dropRead place).rereadArrived j r.answer =
      u.consumeArrived j (BitVec.ofNat 16 (fieldAt bs 4 2)) :=
    fun bs ok => by rw [ok, hu]; rfl
  have failed : r.answer = none → (s.dropRead place).rereadArrived j r.answer = u.consumeError j :=
    fun error => by rw [error, hu]; rfl
  have kept : u.StepKept ((s.dropRead place).rereadArrived j r.answer) j := by
    cases answer : r.answer with
    | some bs => rw [← answer, arrived bs answer]; exact stepKept_consumeArrived u j _
    | none =>
      rw [← answer, failed answer]
      exact (stepKept_rereadRefused u j).trans (stepKept_consumeError u j)
  refine ⟨_, exec_consumeReread arriving owner,
    reads_of_flight (flight_rereadArrived (s.dropRead place) j r.answer), ?_,
    banks_rereadArrived (s.dropRead place) j r.answer,
    fun i hi => (kept.others i hi).trans (others i hi), fun bs ok waits => ?_,
    fun bs ok busy noWait => ?_, fun error => ?_⟩
  · rw [kept.reread, journal]
  · rw [arrived bs ok]
    refine ⟨fun w look => ?_, fun within => ⟨fun unheld => ?_, fun idle => ?_, fun step noLook => ?_,
      fun l step noLook => ?_⟩, fun outside => ?_⟩
    · exact look_consumeArrived (by rw [journal]; exact opened) (by rw [journal]; exact waits)
        (by rw [sweep]; exact look)
    · exact accepts_consumeArrived journal opened waits within unheld
    · rw [consumeArrived_idle (by rw [journal]; exact opened) (by rw [journal]; exact idle),
        judged_taken journal within]
      exact opened
    · rw [consumeArrived_resumes journal opened step within]
      obtain ⟨full, free⟩ := resumeStep_gap lines window journal within opened noLook
      exact ⟨full, fun less x hx => hx ▸ free less⟩
    · rw [consumeArrived_resumes journal opened step within]
      exact resumeStep_event lines window journal within opened noLook l
    · exact faults_consumeArrived lines journal opened waits outside
  · rw [arrived bs ok, consumeArrived_later (by rw [journal]; exact opened)
      (by rw [journal]; exact busy) (by rw [journal]; exact noWait), journal_modJournal_same, journal]
    exact ⟨rfl, sweep⟩
  · rw [failed error]
    have after := stepKept_consumeError u j
    refine ⟨after.cause _ ?_, fun noLook => ?_, fun w look => after.answered _ _ _ ?_, fun noWait => ?_,
      fun l step noLook held => consumeError_misses lines journal opened noLook step held,
      fun step noLook => consumeError_ends lines journal opened noLook step⟩
    · exact (stepKept_answerLook _ j _).cause _ (causeBit_raise u causePort (by decide))
    · rw [cached_consumeError (by rw [journal]; exact noLook), journal]
    · refine answered_look ?_ .refusedPort
      rw [← sweep] at look
      exact look
    · rw [consumeError_none (by rw [journal]; exact noWait), journal_rereadRefused, journal]

end Sys2Proof.Machine
end

section
/-! SUPPORT. DESCRIPTOR_LOAD: the cache, the stale load, and the accesses that wait on a load (R147,
R148, R150, R151). -/

namespace Sys2Proof.Machine

/-! ### The load is known -/

/-- The load of an index is awaited no more, and its descriptor, if it has one, is cached. -/
def State.loadKnown (s : State) (n : Byte) (d : Option Descriptor) : State :=
  s.modWindow fun w => { w with
    cache := match d with
      | some d => cacheInsert n d w.cache
      | none => w.cache
    loads := w.loads.filter fun y => y.index ≠ n }

theorem window_loadKnown (s : State) (n : Byte) (d : Option Descriptor) :
    (s.loadKnown n d).window.loads = s.window.loads.filter (fun y => y.index ≠ n) ∧
      (d = none → (s.loadKnown n d).window.cache = s.window.cache) ∧
      ∀ e, d = some e → (s.loadKnown n d).window.cache =
        ((n, e) :: s.window.cache.filter fun x => x.1 ≠ n).take 8 := by
  refine ⟨rfl, ?_, ?_⟩
  · rintro rfl
    rfl
  · rintro e rfl
    rfl

/-- One access that waits on the load takes its outcome, unless an access before it has struck it. -/
def State.waiterServed (d : Option Descriptor) (v : State) (q : Requester) : State :=
  if v.stillWaits q then State.waited d v q else v

theorem loadArrived_fresh {s : State} {n : Byte} {x : Load} (found : loadFind n s.window.loads = some x)
    (fresh : x.stale = false) (answer : Option (List Byte)) : s.loadArrived n answer =
      x.waiters.foldl (State.waiterServed (answer.map parseDescriptor))
        (s.loadKnown n (answer.map parseDescriptor)) := by
  unfold State.loadArrived
  rw [found]
  dsimp only
  rw [if_neg (by simp [fresh])]
  cases answer <;> rfl

/-- A stale load is made afresh, if something waits on it (R151). -/
theorem loadArrived_stale {s : State} {n : Byte} {x : Load} (found : loadFind n s.window.loads = some x)
    (stale : x.stale = true) (answer : Option (List Byte)) :
    (s.loadArrived n answer).window.cache = s.window.cache ∧
      (x.waiters ≠ [] → ∃ y ∈ (s.loadArrived n answer).window.loads, y.index = n ∧
        y.stale = false ∧ y.waiters = x.waiters) := by
  have requested : ∀ (u : State) q, (u.requestLoad q n).window = u.window := by
    intro u q
    cases q <;> rfl
  unfold State.loadArrived
  rw [found]
  dsimp only
  rw [if_pos stale]
  split
  · rename_i none
    exact ⟨rfl, fun some => absurd none some⟩
  · rw [requested]
    exact ⟨rfl, fun _ => ⟨⟨n, false, x.waiters⟩,
      List.mem_append_right _ (List.mem_singleton_self _), rfl, rfl, rfl⟩⟩

/-- Serving the accesses that wait leaves the cache and begins no load. -/
theorem keys_waitersServed (d : Option Descriptor) (qs : List Requester) (u : State) :
    (qs.foldl (State.waiterServed d) u).keys = u.keys := keys_loadDone u ⟨0#8, false, qs⟩ d

theorem no_load_of_keys {t u : State} {n : Byte} (keys : t.keys = u.keys)
    (gone : ∀ y ∈ u.window.loads, y.index ≠ n) : ∀ y ∈ t.window.loads, y.index ≠ n := by
  have indices : t.window.loads.map Load.index = u.window.loads.map Load.index :=
    congrArg Prod.snd keys
  intro y hy
  obtain ⟨z, hz, same⟩ := List.mem_map.1 (indices ▸ List.mem_map_of_mem (f := Load.index) hy)
  rw [← same]
  exact gone z hz

/-! ### The accesses of a bank -/

theorem bankWaited_some (u : State) (b : BankNo) (a : FrameAccess) (d : Descriptor) :
    u.bankWaited b a (some d) = u.reqChecked b ⟨a, .waiting⟩ (judgeDescriptor d
      (a.sel.offset.toNat + a.frameOffset) a.length a.isWrite (u.bank b).seq.domain) := rfl

theorem waiterServed_bank {u : State} {b : BankNo} {a : FrameAccess} (d : Option Descriptor)
    (waits : ⟨a, .waiting⟩ ∈ (u.bank b).fifo) :
    u.waiterServed d (.bank b a) = u.bankWaited b a d := if_pos (List.contains_iff_mem.2 waits)

/-- Several accesses of a bank that pass are offered in their order. -/
theorem waitersServed_pass (d : Descriptor) (b : BankNo) (as : List (FrameAccess × Nat)) (u : State)
    (different : (as.map Prod.fst).Nodup)
    (pass : ∀ a ∈ as, ⟨a.1, .waiting⟩ ∈ (u.bank b).fifo ∧
      judgeDescriptor d (a.1.sel.offset.toNat + a.1.frameOffset) a.1.length a.1.isWrite
        (u.bank b).seq.domain = .pass a.2) :
    let t := (as.map fun a => Requester.bank b a.1).foldl (State.waiterServed (some d)) u
    (t.bank b).fifo = as.foldl (fun q a =>
        placeReq ⟨a.1, .ready a.2 false⟩ (q.erase ⟨a.1, .waiting⟩)) (u.bank b).fifo ∧
      (t.bank b).seq = (u.bank b).seq ∧ (t.bank b).faults = (u.bank b).faults := by
  induction as generalizing u with
  | nil => exact ⟨rfl, rfl, rfl⟩
  | cons a rest ih =>
    obtain ⟨waits, judged⟩ := pass a List.mem_cons_self
    obtain ⟨new, differentRest⟩ := List.nodup_cons.1 different
    have served : u.waiterServed (some d) (.bank b a.1) =
        u.reqChecked b ⟨a.1, .waiting⟩ (.pass a.2) := by
      rw [waiterServed_bank _ waits, bankWaited_some, judged]
    obtain ⟨fifo, seq, faults⟩ := reqChecked_pass (s := u) (u := u) (b := b)
      (r := ⟨a.1, .waiting⟩) rfl a.2
    obtain ⟨v, hv⟩ : ∃ v, v = u.reqChecked b ⟨a.1, .waiting⟩ (.pass a.2) := ⟨_, rfl⟩
    rw [← hv] at served fifo seq faults
    rw [List.map_cons, List.foldl_cons, List.foldl_cons, served, ← fifo, ← seq, ← faults]
    refine ih v differentRest fun c hc => ?_
    obtain ⟨waitsC, judgedC⟩ := pass c (List.mem_cons_of_mem _ hc)
    refine ⟨?_, by rw [seq]; exact judgedC⟩
    have other : c.1 ≠ a.1 := fun same => new (same ▸ List.mem_map_of_mem (f := Prod.fst) hc)
    rw [fifo]
    refine (perm_placeReq _ _).mem_iff.2 (List.mem_cons_of_mem _ ?_)
    exact (List.mem_erase_of_ne fun same => other (congrArg FrameReq.acc same)).2 waitsC

section
variable {s u : State} {b : BankNo} {a : FrameAccess} (bank : u.bank b = s.bank b)
  (waits : ⟨a, .waiting⟩ ∈ (s.bank b).fifo)
include bank waits

/-- The access whose load is answered ERROR. -/
theorem accessFails_waiterServed_error (moved : s.BankMoved u b) (coherent : (s.bank b).seq.Coherent) :
    s.AccessFails (u.waiterServed none (.bank b a)) b a .bus .descriptor
      ((s.bank b).fifo.erase ⟨a, .waiting⟩) := by
  rw [waiterServed_bank none (by rw [bank]; exact waits)]
  exact accessFails_strike (r := ⟨a, .waiting⟩) bank .bus .descriptor moved coherent

theorem accessFails_waiterServed {d : Descriptor} {sub : Subcode} (moved : s.BankMoved u b)
    (coherent : (s.bank b).seq.Coherent)
    (fail : judgeDescriptor d (a.sel.offset.toNat + a.frameOffset) a.length a.isWrite
      (s.bank b).seq.domain = .fail sub) :
    s.AccessFails (u.waiterServed (some d) (.bank b a)) b a .window sub
      ((s.bank b).fifo.erase ⟨a, .waiting⟩) := by
  rw [waiterServed_bank _ (by rw [bank]; exact waits), bankWaited_some, bank, fail]
  exact accessFails_reqChecked (r := ⟨a, .waiting⟩) bank sub moved coherent

theorem waiterServed_pass {d : Descriptor} {addr : Nat}
    (pass : judgeDescriptor d (a.sel.offset.toNat + a.frameOffset) a.length a.isWrite
      (s.bank b).seq.domain = .pass addr) :
    ((u.waiterServed (some d) (.bank b a)).bank b).fifo =
        placeReq ⟨a, .ready addr false⟩ ((s.bank b).fifo.erase ⟨a, .waiting⟩) ∧
      ((u.waiterServed (some d) (.bank b a)).bank b).seq = (s.bank b).seq ∧
      ((u.waiterServed (some d) (.bank b a)).bank b).faults = (s.bank b).faults := by
  rw [waiterServed_bank _ (by rw [bank]; exact waits), bankWaited_some, bank, pass]
  exact reqChecked_pass (r := ⟨a, .waiting⟩) bank addr

end

/-! ### The record of a journal, and the ring check of an open -/

theorem journalWaited_error {u : State} {j : JournalNo} {p : StepPlan}
    (step : (u.journal j).step = .check p) :
    u.journalWaited j none = u.faultJournal j .descriptor false := by
  unfold State.journalWaited
  dsimp only
  rw [step]

theorem journalWaited_some {u : State} {j : JournalNo} {p : StepPlan} (d : Descriptor)
    (step : (u.journal j).step = .check p) : u.journalWaited j (some d) =
      u.recordChecked j p (judgeDescriptor d (u.journal j).nextSlot 16 true (u.journal j).domain) := by
  unfold State.journalWaited
  dsimp only
  rw [step]
  rfl

theorem ringWaited_error {u : State} {j k : JournalNo} {w : Word} {rec : JournalRecord}
    (executing : u.sweep.exec = some ⟨w, .ringCheck k rec⟩) :
    u.ringWaited j none = u.answer .refusedPort .nothing := by
  unfold State.ringWaited
  rw [executing]

theorem ringWaited_some {u : State} {j k : JournalNo} {w : Word} {rec : JournalRecord} (d : Descriptor)
    (executing : u.sweep.exec = some ⟨w, .ringCheck k rec⟩) : u.ringWaited j (some d) =
      u.ringChecked j rec (judgeDescriptor d rec.ringOffset (2 ^ rec.log2Capacity.toNat * 16) true
        rec.domain) := by
  unfold State.ringWaited
  rw [executing]
  rfl

/-- A record that waits on a load takes its outcome. -/
theorem journal_waiterServed {s u : State} {j : JournalNo} {p : StepPlan} (lines : u.lines = s.lines)
    (journal : u.journal j = s.journal j) (step : (s.journal j).step = .check p) :
    s.JournalFaults (u.waiterServed none (.journal j)) j .descriptor 0 ∧
      ∀ d, (∀ addr, judgeDescriptor d (s.journal j).nextSlot 16 true (s.journal j).domain = .pass addr →
          ((u.waiterServed (some d) (.journal j)).journal j).step = .write p ∧
          ((u.waiterServed (some d) (.journal j)).journal j).fifo =
            (s.journal j).fifo ++ [.record addr false]) ∧
        ∀ sub, judgeDescriptor d (s.journal j).nextSlot 16 true (s.journal j).domain = .fail sub →
          s.JournalFaults (u.waiterServed (some d) (.journal j)) j sub.journalFault 0 := by
  have served : ∀ d, u.waiterServed d (.journal j) = u.journalWaited j d := fun _ => rfl
  have stepU : (u.journal j).step = .check p := by rw [journal]; exact step
  have faults : ∀ code, s.JournalFaults (u.faultJournal j code false) j code 0 := fun code =>
    journalFaults_faultJournal code false lines (by rw [journal]) (by rw [journal])
  refine ⟨?_, fun d => ⟨fun addr pass => ?_, fun sub fail => ?_⟩⟩
  · rw [served, journalWaited_error stepU]
    exact faults _
  · rw [served, journalWaited_some d stepU, journal, pass]
    obtain ⟨-, write, fifo⟩ := writeRecord_spec u j p addr
    rw [journal] at fifo
    exact ⟨write, fifo⟩
  · rw [served, journalWaited_some d stepU, journal, fail]
    exact faults _

/-- The ring check of an open that waits on a load takes its outcome. -/
theorem ring_waiterServed {s u : State} {j k : JournalNo} {w : Word} {rec : JournalRecord}
    (lines : u.lines = s.lines) (journals : u.journals = s.journals) (engine : u.engine = s.engine)
    (executing : u.sweep.exec = some ⟨w, .ringCheck k rec⟩) :
    ((u.waiterServed none (.ring j)).Answered w .refusedPort .nothing ∧
        (u.waiterServed none (.ring j)).journals = s.journals) ∧
      ∀ d, (∀ addr, judgeDescriptor d rec.ringOffset (2 ^ rec.log2Capacity.toNat * 16) true rec.domain =
            .pass addr → s.engine.state = .on → (s.journal j).state = .closed →
          (u.waiterServed (some d) (.ring j)).Answered w .done (.journalWords j) ∧
            s.JournalOpens (u.waiterServed (some d) (.ring j)) j rec) ∧
        ∀ sub, judgeDescriptor d rec.ringOffset (2 ^ rec.log2Capacity.toNat * 16) true rec.domain =
            .fail sub → (u.waiterServed (some d) (.ring j)).Answered w .refusedWindow .nothing ∧
          (u.waiterServed (some d) (.ring j)).journals = s.journals := by
  have served : ∀ d, u.waiterServed d (.ring j) = u.ringWaited j d := fun _ => rfl
  have journal : u.journal j = s.journal j := congrArg (fun x => x.get j) journals
  refine ⟨?_, fun d => ⟨fun addr pass on closed => ?_, fun sub fail => ?_⟩⟩
  · rw [served, ringWaited_error executing]
    exact ⟨exec_answer executing, journals⟩
  · rw [served, ringWaited_some d executing, pass]
    exact ringChecked_opens lines (by rw [journal]) executing (by rw [engine]; exact on)
      (by rw [journal]; exact closed)
  · rw [served, ringWaited_some d executing, fail]
    obtain ⟨refused, same⟩ := ringChecked_refused (j := j) (r := rec) (sub := sub) executing
    exact ⟨refused, same.trans journals⟩

/-! ### The load arrives -/

theorem exec_descriptorLoad {place : Fin 4} {r : OutRead} {n : Byte} {s : State}
    (h : s.Arriving place r) (owner : r.owner = .descriptor n) : exec (.descriptorLoad place) s =
      .next (s.conclude ((s.dropRead place).loadArrived n r.answer)) := by
  obtain ⟨released, there, kept⟩ := h
  exact arrives (g := fun s => s.loadArrived n r.answer) released there kept (by rw [owner])

/-- Settles O38: the cache and the loads, then the accesses that wait, by their requesters. -/
theorem descriptorLoadFillsTheCache : Obligations.DescriptorLoadFillsTheCache := by
  intro place r n x s arriving owner found
  obtain ⟨u, hu⟩ : ∃ u, u = (s.dropRead place).loadKnown n (r.answer.map parseDescriptor) := ⟨_, rfl⟩
  have banks : u.banks = s.banks := hu ▸ rfl
  have lines : u.lines = s.lines := hu ▸ rfl
  have journals : u.journals = s.journals := hu ▸ rfl
  have sweep : u.sweep = s.sweep := hu ▸ rfl
  have engine : u.engine = s.engine := hu ▸ rfl
  have now : u.now = s.now := hu ▸ rfl
  have bank : ∀ b, u.bank b = s.bank b := fun b => congrArg (fun x => x.get b) banks
  have journal : ∀ j, u.journal j = s.journal j := fun j => congrArg (fun x => x.get j) journals
  have moved : ∀ b, s.BankMoved u b := fun b => ⟨fun c _ => bank c, lines, now, by rw [bank]⟩
  obtain ⟨loads, unknown, known⟩ := window_loadKnown (s.dropRead place) n (r.answer.map parseDescriptor)
  rw [← hu] at loads unknown known
  have arrived : x.stale = false → (s.dropRead place).loadArrived n r.answer =
      x.waiters.foldl (State.waiterServed (r.answer.map parseDescriptor)) u :=
    fun fresh => hu ▸ loadArrived_fresh (s := s.dropRead place) found fresh r.answer
  have alone : ∀ q, x.stale = false → x.waiters = [q] → (s.dropRead place).loadArrived n r.answer =
      u.waiterServed (r.answer.map parseDescriptor) q :=
    fun q fresh one => by rw [arrived fresh, one]; rfl
  have keys := keys_waitersServed (r.answer.map parseDescriptor) x.waiters u
  have gone : ∀ y ∈ (x.waiters.foldl (State.waiterServed (r.answer.map parseDescriptor)) u).window.loads,
      y.index ≠ n := no_load_of_keys keys fun y hy => by
    rw [loads] at hy
    exact of_decide_eq_true (List.mem_filter.1 hy).2
  have cache := congrArg Prod.fst keys
  refine ⟨_, exec_descriptorLoad arriving owner,
    State.ReadsStay.loadArrived (s.dropRead place) n r.answer, fun bs fresh ok => ?_,
    fun fresh error => ?_, fun fresh => ⟨u, banks, lines, journals, sweep, arrived fresh⟩,
    fun b bs as fresh ok waiters different pass => ?_,
    fun stale => loadArrived_stale (s := s.dropRead place) found stale r.answer, fun b a fresh one coherent waits => ?_,
    fun j p fresh one step => ?_, fun j k w rec fresh one executing => ?_⟩
  · rw [arrived fresh]
    refine ⟨cache.trans (known _ (by rw [ok]; rfl)), gone, fun none => ?_⟩
    rw [none]
    exact loads
  · rw [arrived fresh]
    refine ⟨cache.trans (unknown (by rw [error]; rfl)), gone, fun none => ?_⟩
    rw [none]
    exact loads
  · have served := waitersServed_pass (parseDescriptor bs) b as u different
      (by rw [bank]; exact pass)
    rw [bank] at served
    rw [arrived fresh, ok, waiters]
    exact served
  · rw [alone _ fresh one]
    refine ⟨fun error => ?_, fun bs ok => ⟨fun addr pass => ?_, fun sub fail => ?_⟩⟩
    · rw [error]
      exact accessFails_waiterServed_error (bank b) waits (moved b) (coherent b)
    · rw [ok]
      exact waiterServed_pass (bank b) waits pass
    · rw [ok]
      exact accessFails_waiterServed (bank b) waits (moved b) (coherent b) fail
  · rw [alone _ fresh one]
    obtain ⟨failed, judged⟩ := journal_waiterServed lines (journal j) step
    refine ⟨fun error => by rw [error]; exact failed, fun bs ok => ?_⟩
    rw [ok]
    exact judged (parseDescriptor bs)
  · rw [alone _ fresh one]
    obtain ⟨failed, judged⟩ := ring_waiterServed (j := j) lines journals engine
      (by rw [sweep]; exact executing)
    refine ⟨fun error => by rw [error]; exact failed, fun bs ok => ?_⟩
    rw [ok]
    exact judged (parseDescriptor bs)

end Sys2Proof.Machine
end
